-- ==== Sys2Proof/Word.lean ====
section
/-! DEFINITION. The bytes and words the Z48 sends and counts in, and the keyed tables its records are kept in. -/

namespace Sys2Proof

/-- One byte of a frame (spec 13). -/
abbrev Byte := BitVec 8

/-- The timebase and the time of entry of an anomaly: 0 to 4 294 967 295 (R103, R127). -/
abbrev Millis := BitVec 32

/-- An event sequence number, counted modulo 16 (R146). -/
abbrev Seq := BitVec 4

/-- The byte of a small number. -/
abbrev byte (n : Nat) : Byte := BitVec.ofNat 8 n

/-- Records under their numbers, the numbers strictly rising: the table holds at most one record for each key (R1). -/
abbrev Table (α : Type) := List (Nat × α)

end Sys2Proof
end

