-- ==== Sys2Proof/Syntax.lean ====
section
/-! DEFINITION. The commands of the block: one constructor for each row of spec/opcode_table.json. A request carries the port it
came from, its request tag and its argument bytes as section 13.2 orders them, so that a value out of range can be sent. -/

namespace Sys2Proof

/-- The two request ports (R150). -/
inductive Port where
  | supervisor
  | console
deriving DecidableEq, Repr

/-- The commands. -/
inductive Instr where
  /-- HARD_RESET (R134): power-up completes, or RESET is released. -/
  | hardReset
  /-- RESET_ASSERTED (R134). -/
  | resetAsserted
  /-- STOP_IN_ASSERTED (R122). -/
  | stopInAsserted
  /-- STOP_IN_DEASSERTED (R122). -/
  | stopInDeasserted
  /-- KEY_TURNED_TO_MAINT (R122). -/
  | keyTurnedToMaint
  /-- KEY_TURNED_TO_RUN (R122). -/
  | keyTurnedToRun
  /-- REQUEST_FRAME_ARRIVAL (R151, R164): these bytes arrive on the port, in order. -/
  | requestFrameArrival (p : Port) (bytes : List Byte)
  /-- SPI_DESELECT (R150): SS is deasserted; of the answer frame being sent, `shifted` bytes have gone out so far. -/
  | spiDeselect (shifted : Nat)
  /-- CONSOLE_BYTE_GAP (R150): more than 5 ms pass after the last byte received on the Console Port. -/
  | consoleByteGap
  /-- ANSWER_FRAME_SEND (R165): the first byte of the port's next frame goes out. -/
  | answerFrameSend (p : Port)
  /-- ANSWER_COMPLETE (R152): the frame going out on the port has been sent in whole. -/
  | answerComplete (p : Port)
  /-- READ_STATUS (R155). -/
  | readStatus (p : Port) (tag : Byte)
  /-- READ_ZONE (R40). -/
  | readZone (p : Port) (tag zone : Byte)
  /-- READ_ZONES (R40). -/
  | readZones (p : Port) (tag first count : Byte)
  /-- READ_TRAIN (R60). -/
  | readTrain (p : Port) (tag train : Byte)
  /-- READ_TRAINS (R60). -/
  | readTrains (p : Port) (tag : Byte)
  /-- READ_WAIT_QUEUE (R81). -/
  | readWaitQueue (p : Port) (tag : Byte)
  /-- READ_ANOMALIES (R133). -/
  | readAnomalies (p : Port) (tag : Byte)
  /-- READ_SWITCH (R119). -/
  | readSwitch (p : Port) (tag switch : Byte)
  /-- READ_NODE (R149). -/
  | readNode (p : Port) (tag node : Byte)
  /-- READ_LAYOUT_RECORD (R13). -/
  | readLayoutRecord (p : Port) (tag kind key : Byte)
  /-- READ_NOTICES (R162). -/
  | readNotices (p : Port) (tag : Byte)
  /-- ENTER_CONFIG (R10). -/
  | enterConfig (p : Port) (tag : Byte)
  /-- LOAD_LAYOUT_RECORD (R11): the record kind and the layout image of section 13.4. -/
  | loadLayoutRecord (p : Port) (tag kind : Byte) (image : List Byte)
  /-- CLEAR_LAYOUT (R12). -/
  | clearLayout (p : Port) (tag : Byte)
  /-- COMMIT_LAYOUT (R14). -/
  | commitLayout (p : Port) (tag : Byte)
  /-- STORE_LAYOUT (R17). -/
  | storeLayout (p : Port) (tag : Byte)
  /-- STORE_WRITE_COMPLETE (R17): the write in flight completes. -/
  | storeWriteComplete
  /-- ERASE_STORE (R18). -/
  | eraseStore (p : Port) (tag : Byte)
  /-- REMAP_NODE (R148). -/
  | remapNode (p : Port) (tag node address : Byte)
  /-- PLACE_TRAIN (R57, R136). -/
  | placeTrain (p : Port) (tag trainTag zone : Byte)
  /-- WITHDRAW_TRAIN (R58, R137). -/
  | withdrawTrain (p : Port) (tag train : Byte)
  /-- RELOCATE_TRAIN (R59, R138). -/
  | relocateTrain (p : Port) (tag train zone : Byte)
  /-- BEGIN_OPERATION (R139). -/
  | beginOperation (p : Port) (tag : Byte)
  /-- DISPATCH (R74). -/
  | dispatch (p : Port) (tag train : Byte)
  /-- CANCEL_DISPATCH (R75). -/
  | cancelDispatch (p : Port) (tag train : Byte)
  /-- STEP_TRAIN (R77). -/
  | stepTrain (p : Port) (tag train : Byte)
  /-- RELAUNCH (R79). -/
  | relaunch (p : Port) (tag train : Byte)
  /-- SET_SERVICE_OFF (R36): SET SERVICE with a setting that is not ON; 0 is OFF, another value is out of range. -/
  | setServiceOff (p : Port) (tag zone setting : Byte)
  /-- SET_SERVICE_ON (R37): SET SERVICE with setting 1. -/
  | setServiceOn (p : Port) (tag zone : Byte)
  /-- CLEAR_ZONE (R38). -/
  | clearZone (p : Port) (tag zone : Byte)
  /-- CLEAR_UNHELD_ZONES (R39). -/
  | clearUnheldZones (p : Port) (tag : Byte)
  /-- SET_SWITCH (R114). -/
  | setSwitch (p : Port) (tag switch position : Byte)
  /-- HALT (R124). -/
  | halt (p : Port) (tag : Byte)
  /-- RESUME_GROUP (R125). -/
  | resumeGroup (p : Port) (tag group : Byte)
  /-- ACKNOWLEDGE_ANOMALY (R131). -/
  | acknowledgeAnomaly (p : Port) (tag kind subject : Byte)
  /-- ACKNOWLEDGE_ALL (R132). -/
  | acknowledgeAll (p : Port) (tag : Byte)
  /-- TAKE_AUTHORITY (R156). -/
  | takeAuthority (p : Port) (tag : Byte)
  /-- FIX_SUPERVISOR (R156). -/
  | fixSupervisor (p : Port) (tag : Byte)
  /-- HAND_TO_CONSOLE (R156). -/
  | handToConsole (p : Port) (tag : Byte)
  /-- ASSIGN_INDICATOR (R159). -/
  | assignIndicator (p : Port) (tag line zone condition sense : Byte)
  /-- RELEASE_INDICATOR (R160). -/
  | releaseIndicator (p : Port) (tag line : Byte)
  /-- SET_NOTICE_MASK (R162): the two mask bytes. -/
  | setNoticeMask (p : Port) (tag high low : Byte)
  /-- POLL_SEND (R142). -/
  | pollSend
  /-- TRACKSIDE_ANSWER (R145, R167): these bytes are received from the line, in order. -/
  | tracksideAnswer (bytes : List Byte)
  /-- ANSWER_TIMEOUT (R142). -/
  | answerTimeout
  /-- RUN_TRANSIT_EXPIRY (R108): the expiry of this zone's timer is taken. -/
  | runTransitExpiry (zone : Nat)
  /-- TRAILING_HOLD_EXPIRY (R109): the expiry of this zone's timer is taken. -/
  | trailingHoldExpiry (zone : Nat)
  /-- SWITCH_TIMER_EXPIRY (R116): the expiry of this switch's timer is taken. -/
  | switchTimerExpiry (switch : Nat)
  /-- TIMEBASE_TICK (R103). -/
  | timebaseTick
  /-- CONSOLE_FRAMING_ERROR (R150). -/
  | consoleFramingError
  /-- UNKNOWN_REQUEST_CODE (R152): a request that the port's own check refuses. -/
  | unknownRequestCode (p : Port) (tag code : Byte) (args : List Byte)
deriving DecidableEq, Repr

end Sys2Proof
end

