-- ==== Sys2Proof/Decode.lean ====
section
/-! DEFINITION. No row of spec/opcode_table.json gives its command any bits (every row's "fields" is empty and none has "fixed"):
the commands of this block are events and requests, not words. So no word spells a command. The request frames' own bytes
are read in Machine/Ports.lean and Machine/Formats.lean. -/

namespace Sys2Proof

/-- The command a word spells by the table's bits: none, for no row gives bits. -/
def decodeTableWord (_nbits _w : Nat) : Option Instr := none

end Sys2Proof
end

