-- ==== Sys2Proof/Config.lean ====
section
/-! DEFINITION. The capacities and constants the spec fixes. The spec leaves no value of this block free, so there is no free
value here. -/

namespace Sys2Proof.Config

/-- Request slots of a port's input queue (R151). -/
def queueSlots : Nat := 8

/-- Arrival refusals a port's refusal list holds (R151). -/
def refusalSlots : Nat := 8

/-- The discard count saturates here (R151). -/
def discardMax : Nat := 255

/-- Entries of the Anomaly Table (R127). -/
def anomalySlots : Nat := 16

/-- Train slots, numbered from 1 (R41). -/
def trainSlots : Nat := 12

/-- Zones of a hold list (R54). -/
def holdMax : Nat := 6

/-- Zones of an exit extension (R9). -/
def extensionMax : Nat := 4

/-- Zone, gate, node and switch numbers lie below these (R1). -/
def zoneKeys : Nat := 32
def gateKeys : Nat := 48
def nodeKeys : Nat := 24
def switchKeys : Nat := 4

/-- Indicator lines IND0 to IND7 (R158). -/
def indicatorLines : Nat := 8

/-- An elapsed time saturates here (R104). -/
def elapsedMax : Nat := 65535

/-- A miss count saturates here (R143). -/
def countMax : Nat := 7

/-- The defaults of the circuit record's line parameters (R2): answer timeout, link-up count, link-down count. -/
def defaultTimeout : Nat := 4
def defaultLinkUp : Nat := 3
def defaultLinkDown : Nat := 2

/-- The sync byte of the request ports (R163, section 13.2). -/
def portSync : Byte := 0xC3

/-- The sync byte of the trackside line (R163, section 13.5). -/
def lineSync : Byte := 0x96

/-- The greatest argument length of a request frame (R164). -/
def argumentMax : Nat := 16

/-- The greatest event count of a trackside answer (R167). -/
def eventMax : Nat := 4

end Sys2Proof.Config
end

