-- ==== Sys2Proof/Machine/State.lean ====
section
/-! DEFINITION. The state of the Z48 as plain data, the reasons a step may stop, and the machine right after reset. -/

namespace Sys2Proof.Machine

/-- The circuit states (R120). -/
inductive CircuitState where
  | unconfigured | config | census | operating | halted
deriving DecidableEq, Repr

/-- The authority states (R156). -/
inductive Authority where
  | console | supervisor | supervisorFixed | maintenance
deriving DecidableEq, Repr

/-- The stop causes (R121). -/
inductive StopCause where
  | stopIn | key | commanded | anomaly
deriving DecidableEq, Repr

/-- The stop cause set: which causes are present (R121). -/
structure Causes where
  stopIn : Bool
  key : Bool
  commanded : Bool
  anomaly : Bool
deriving DecidableEq, Repr

/-- Zone kinds (R3). -/
inductive ZoneKind where
  | station | storage | lift | launch | brake | transfer | run
deriving DecidableEq, Repr

/-- A zone's kind with the fields that apply to that kind and to no other (R3). -/
inductive ZoneSpec where
  | station | storage | lift | brake | transfer
  | run (minTransit maxTransit : Nat)
  | launch (trailingHold relaunchLimit crestGate : Nat)
deriving DecidableEq, Repr

/-- The circuit record (R2). -/
structure CircuitRec where
  zoneCount : Nat
  answerTimeout : Nat
  linkUp : Nat
  linkDown : Nat
deriving DecidableEq, Repr

/-- A zone record of the layout (R3); `permit` is the permit node and channel, where the record carries them. -/
structure ZoneRec where
  spec : ZoneSpec
  group : Nat
  permit : Option (Nat × Nat)
deriving DecidableEq, Repr

/-- A gate record (R4). -/
structure GateRec where
  src : Nat
  dst : Nat
  node : Nat
  channel : Nat
deriving DecidableEq, Repr

/-- The fork side of a switch (R6). -/
inductive Fork where
  | entry | exit
deriving DecidableEq, Repr

/-- The positions of a switch (R6). -/
inductive Position where
  | main | branch
deriving DecidableEq, Repr

/-- A switch record of the layout (R6). -/
structure SwitchRec where
  zone : Nat
  fork : Fork
  main : Nat
  branch : Nat
  node : Nat
  moveTimeout : Nat
deriving DecidableEq, Repr

/-- The Layout Table (R1). A node record is its line address (R5). -/
structure Layout where
  circuit : Option CircuitRec
  zones : Table ZoneRec
  gates : Table GateRec
  nodes : Table Nat
  switches : Table SwitchRec
deriving DecidableEq, Repr

/-- The Layout Table that holds no record. -/
def Layout.empty : Layout := ⟨none, [], [], [], []⟩

/-- The kinds of layout record (R1). -/
inductive RecordKind where
  | circuit | zone | gate | node | switch
deriving DecidableEq, Repr

/-- The Layout Store's state (section 1.6). -/
inductive StoreState where
  | valid | writing | invalid
deriving DecidableEq, Repr

/-- The Layout Store: its state, the layout it holds (or is being written), and whether the check value kept with it is good
(R17, R19). The check value's function is not in the spec: only its verdict is held (log 11). -/
structure Store where
  state : StoreState
  image : Layout
  checkGood : Bool
deriving DecidableEq, Repr

/-- The zone states (R21). -/
inductive ZoneState where
  | free | reserved | occupied | trailing | suspect | outOfService
deriving DecidableEq, Repr

/-- The uses of a zone timer (R104). -/
inductive TimerUse where
  | runTransit | trailingHold
deriving DecidableEq, Repr

/-- Where a running zone timer stands with its one expiry (R104, R105): not yet reached, reached and not yet taken, or taken. -/
inductive Expiry where
  | notDue | due | reported
deriving DecidableEq, Repr

/-- A zone timer (R104). -/
inductive ZoneTimer where
  | idle
  | running (use : TimerUse) (elapsed : Nat) (expiry : Expiry)
deriving DecidableEq, Repr

/-- A live zone record (R20). Number, kind and release group are the layout's; the permit is derived (R34). -/
structure Zone where
  state : ZoneState
  holder : Option Nat
  stopHold : Bool
  timer : ZoneTimer
deriving DecidableEq, Repr

/-- Strand causes (R41). -/
inductive StrandCause where
  | overdue | stuck | launchLimit
deriving DecidableEq, Repr

/-- The motion of a train (R43); the strand cause is present exactly while the motion is STRANDED. -/
inductive Motion where
  | standing | cleared | moving | recovering
  | stranded (cause : StrandCause)
  | untracked
deriving DecidableEq, Repr

/-- Claim status (R52). -/
inductive ClaimStatus where
  | none | pending | granted
deriving DecidableEq, Repr

/-- A train record (R41); its number is its key. -/
structure Train where
  tag : Byte
  motion : Motion
  claim : ClaimStatus
  hold : List Nat
  relaunches : Nat
  stepGrant : Bool
deriving DecidableEq, Repr

/-- Claim classes (R61). -/
inductive ClaimClass where
  | course | yard
deriving DecidableEq, Repr

/-- A Wait Queue entry (R62). `serial` is the model's own running number (log 8). -/
structure Claim where
  train : Nat
  cls : ClaimClass
  order : Byte
  step : Bool
  serial : Nat
deriving DecidableEq, Repr

/-- Switch states (R112); the target is present exactly while MOVING. -/
inductive SwitchState where
  | unproven | setMain | setBranch
  | moving (target : Position)
  | faulted
deriving DecidableEq, Repr

/-- A switch timer (R111): idle, running, or idle with an expiry that is not yet taken. -/
inductive SwitchTimer where
  | idle
  | running (elapsed : Nat)
  | expired
deriving DecidableEq, Repr

/-- A live switch record with its timer (R111, R112). -/
structure Switch where
  state : SwitchState
  timer : SwitchTimer
deriving DecidableEq, Repr

/-- Node states (R141). -/
inductive NodeState where
  | unmapped | down | linked | lost
deriving DecidableEq, Repr

/-- A live node record (R141); its line address is the layout's (R5). -/
structure Node where
  state : NodeState
  good : Nat
  miss : Nat
  expected : Option Seq
deriving DecidableEq, Repr

/-- The poll outstanding (R142): the polled node and the address polled, whether its ending is counted (R148), the frame
sent, and the bytes of the answer received so far. -/
structure Poll where
  node : Nat
  address : Nat
  counted : Bool
  frame : List Byte
  rx : List Byte
deriving DecidableEq, Repr

/-- Anomaly kinds (R129). -/
inductive AnomalyKind where
  | unexpectedEntry | sequenceFault | overspeed | overdue | stuck | strandedLaunch
  | nodeLost | eventsLost | switchFault | switchDrift | censusMotion
deriving DecidableEq, Repr

/-- An Anomaly Table entry (R127). `serial` is the model's own running number (log 8). -/
structure Anomaly where
  kind : AnomalyKind
  subject : Nat
  stop : Bool
  acked : Bool
  time : Millis
  serial : Nat
deriving DecidableEq, Repr

/-- Indicator conditions (R158). -/
inductive Condition where
  | permitGo | occupied | free | suspect | stopHold | standing | circuitOperating
deriving DecidableEq, Repr

/-- Indicator senses (R158). -/
inductive Sense where
  | activeHigh | activeLow
deriving DecidableEq, Repr

/-- An indicator assignment (R158). -/
structure Assignment where
  zone : Option Nat
  condition : Condition
  sense : Sense
deriving DecidableEq, Repr

/-- The eight notices (section 12.2). -/
inductive Notice where
  | anomaly | trainArrived | claimGranted | switchDone | circuit | authority | storeDone | link
deriving DecidableEq, Repr

/-- Result codes (R153). -/
inductive Result where
  | done | granted | queued | late | void | invalid | busy
  | refusedAuthority | refusedState | refusedRange | refusedFull | refusedHeld | badFrame
deriving DecidableEq, Repr

/-- A request as a port holds it: tag, code and argument bytes, none of them examined yet (R164). -/
structure Request where
  tag : Byte
  code : Byte
  args : List Byte
deriving DecidableEq, Repr

/-- An arrival refusal (R151). -/
structure ArrivalRefusal where
  tag : Byte
  result : Result
deriving DecidableEq, Repr

/-- What the answer of a taken request is still to send. A `reply` is fixed when the request is taken; every other form is
filled when its frame is sent (R165); that of READ LAYOUT RECORD with the body of the record held when the request was taken, none where no
record was held (R13, log 13). A streamed read keeps its place: for READ ZONES the next and the last zone number, for
READ TRAINS the slot sent last, for READ WAIT QUEUE the class and serial of the entry sent last, for READ ANOMALIES the
serial of the entry sent last. -/
inductive Answer where
  | reply (result : Result) (body : List Byte)
  | status
  | zone (z : Nat)
  | train (t : Nat)
  | switch (k : Nat)
  | node (n : Nat)
  | layoutRecord (kind : RecordKind) (key : Nat) (taken : Option (List Byte))
  | notices
  | zones (next last : Nat)
  | trains (after : Nat)
  | waitQueue (after : Option (ClaimClass × Nat))
  | anomalies (after : Option Nat)
deriving DecidableEq, Repr

/-- The frame going out on a port's link: its bytes, how many of them have gone out, and whether it is the frame that ends
the answer of the request taken. -/
structure Sending where
  frame : List Byte
  sent : Nat
  ends : Bool
deriving DecidableEq, Repr

/-- One request port (R150, R151) with its notice flags and mask (R161). `queue` is oldest first; `answer` is present while
the oldest request has been taken and its answer is not yet sent in whole. -/
structure PortState where
  queue : List Request
  answer : Option Answer
  sending : Option Sending
  refusals : List ArrivalRefusal
  discards : Nat
  rx : List Byte
  flags : Byte
  mask : Byte
deriving DecidableEq, Repr

/-- The output pins (00, pins; R120, R150, R158, R161): high is true. -/
structure Pins where
  runEn : Bool
  ind : List Bool
  ardy : Bool
  snot : Bool
  cnot : Bool
deriving DecidableEq, Repr

/-- The machine. The live tables (zones, trains, waitQueue, switches, nodes) hold nothing while the circuit is UNCONFIGURED or
CONFIG. `nextSerial` and `pending` are the model's own. -/
structure State where
  pending : List Instr
  resetPin : Bool
  stopInPin : Bool
  keyMaint : Bool
  circuit : CircuitState
  causes : Causes
  authority : Authority
  layout : Layout
  store : Store
  zones : Table Zone
  trains : Table Train
  waitQueue : List Claim
  entryCounter : Byte
  nextSerial : Nat
  switches : Table Switch
  nodes : Table Node
  polled : Option Nat
  poll : Option Poll
  anomalies : List Anomaly
  tableFull : Bool
  timebase : Millis
  indicators : Table Assignment
  supervisor : PortState
  console : PortState
  pins : Pins
deriving DecidableEq, Repr

/-- The reasons a step could stop with a fault. There are none: the spec gives every command of the block an effect, and what
goes wrong on the track is an anomaly or an answer, hence a next state. Nobody raises a fault, so no difference from the part
comes from one. -/
inductive Fault where
deriving DecidableEq, Repr

/-- The reasons a step could be refused. -/
inductive Refusal where
  /-- An arm of exec that has no meaning yet; no arm raises it. Safe: the model stops where the part goes on. -/
  | notModelled (mnemonic : String)
deriving DecidableEq, Repr

/-- A port after hard reset: nothing queued, nothing sent, every notice clear and disabled (R134, R151, R161). -/
def PortState.reset : PortState := ⟨[], none, none, [], 0, [], 0, 0⟩

/-- Every output low (R134). -/
def Pins.low : Pins := ⟨false, List.replicate Config.indicatorLines false, false, false, false⟩

/-- The machine right after a hard reset that finds no valid store (R134, right column of its table). The spec does not give
the store's first contents nor the levels of STOP IN and KEY: DESIGN CHOICE, an erased store, STOP IN deasserted, KEY at RUN
(log 1). -/
def State.reset : State where
  pending := []
  resetPin := false
  stopInPin := false
  keyMaint := false
  circuit := .unconfigured
  causes := ⟨false, false, false, false⟩
  authority := .console
  layout := .empty
  store := ⟨.invalid, .empty, false⟩
  zones := []
  trains := []
  waitQueue := []
  entryCounter := 0
  nextSerial := 0
  switches := []
  nodes := []
  polled := none
  poll := none
  anomalies := []
  tableFull := false
  timebase := 0
  indicators := []
  supervisor := .reset
  console := .reset
  pins := .low

end Sys2Proof.Machine
end

