-- ==== Sys2Proof/Machine/Tables.lean ====
section
/-! DEFINITION. Reading and writing keyed tables, and the named updates of the state that every operation uses. -/

namespace Sys2Proof

/-- The record under a number, where the table holds one. -/
def Table.find {α : Type} : Table α → Nat → Option α
  | [], _ => none
  | (k', v) :: r, k => if k' = k then some v else Table.find r k

/-- Store a record under its number, in place of one already held there (R11). -/
def Table.put {α : Type} : Table α → Nat → α → Table α
  | [], k, v => [(k, v)]
  | (k', v') :: r, k, v =>
    if k < k' then (k, v) :: (k', v') :: r
    else if k = k' then (k, v) :: r
    else (k', v') :: Table.put r k v

/-- Remove the record under a number. -/
def Table.del {α : Type} (t : Table α) (k : Nat) : Table α := t.filter (fun e => decide (e.1 ≠ k))

/-- Change the record under a number, where there is one. -/
def Table.upd {α : Type} (t : Table α) (k : Nat) (f : α → α) : Table α :=
  t.map (fun e => if e.1 = k then (e.1, f e.2) else e)

/-- The numbers that have a record, ascending. -/
def Table.keys {α : Type} (t : Table α) : List Nat := t.map (fun e => e.1)

/-- The canonical form: strictly rising numbers. -/
abbrev Table.wf {α : Type} (t : Table α) : Prop := t.keys.Pairwise (fun a b => a < b)

/-- The least number that has a record and meets `q`. -/
def Table.least {α : Type} (t : Table α) (q : Nat → α → Bool) : Option Nat :=
  (t.find? (fun e => q e.1 e.2)).map (fun e => e.1)

namespace Machine

def State.updZone (s : State) (z : Nat) (f : Zone → Zone) : State := { s with zones := s.zones.upd z f }
def State.updTrain (s : State) (t : Nat) (f : Train → Train) : State := { s with trains := s.trains.upd t f }
def State.updSwitch (s : State) (k : Nat) (f : Switch → Switch) : State := { s with switches := s.switches.upd k f }
def State.updNode (s : State) (n : Nat) (f : Node → Node) : State := { s with nodes := s.nodes.upd n f }

/-- A port's state. -/
def State.port (s : State) : Port → PortState
  | .supervisor => s.supervisor
  | .console => s.console

/-- Replace a port's state. -/
def State.setPort (s : State) (p : Port) (x : PortState) : State :=
  match p with
  | .supervisor => { s with supervisor := x }
  | .console => { s with console := x }

/-- The circuit states in which the live tables exist (R20, R41, R112, R141): CENSUS, OPERATING, HALTED. -/
def CircuitState.live : CircuitState → Bool
  | .census => true
  | .operating => true
  | .halted => true
  | .unconfigured => false
  | .config => false

end Machine

end Sys2Proof
end

