-- ==== Sys2Proof/Machine/Operands.lean ====
section
/-! DEFINITION. The value codes of section 13.3, both ways where a request or a frame carries them, and the request codes and
argument lengths of section 13.2. -/

namespace Sys2Proof.Machine

def Result.code : Result → Nat
  | .done => 0
  | .granted => 1
  | .queued => 2
  | .late => 3
  | .void => 4
  | .invalid => 5
  | .busy => 6
  | .refusedAuthority => 7
  | .refusedState => 8
  | .refusedRange => 9
  | .refusedFull => 10
  | .refusedHeld => 11
  | .badFrame => 12

def CircuitState.code : CircuitState → Nat
  | .unconfigured => 0
  | .config => 1
  | .census => 2
  | .operating => 3
  | .halted => 4

def Authority.code : Authority → Nat
  | .console => 0
  | .supervisor => 1
  | .supervisorFixed => 2
  | .maintenance => 3

def ZoneKind.code : ZoneKind → Nat
  | .station => 0
  | .storage => 1
  | .lift => 2
  | .launch => 3
  | .brake => 4
  | .transfer => 5
  | .run => 6

def ZoneSpec.kind : ZoneSpec → ZoneKind
  | .station => .station
  | .storage => .storage
  | .lift => .lift
  | .brake => .brake
  | .transfer => .transfer
  | .run _ _ => .run
  | .launch _ _ _ => .launch

def ZoneState.code : ZoneState → Nat
  | .free => 0
  | .reserved => 1
  | .occupied => 2
  | .trailing => 3
  | .suspect => 4
  | .outOfService => 5

def Motion.code : Motion → Nat
  | .standing => 0
  | .cleared => 1
  | .moving => 2
  | .recovering => 3
  | .stranded _ => 4
  | .untracked => 5

/-- The strand cause code: 0 when absent (R165). -/
def Motion.strandCode : Motion → Nat
  | .stranded .overdue => 1
  | .stranded .stuck => 2
  | .stranded .launchLimit => 3
  | .standing => 0
  | .cleared => 0
  | .moving => 0
  | .recovering => 0
  | .untracked => 0

def ClaimStatus.code : ClaimStatus → Nat
  | .none => 0
  | .pending => 1
  | .granted => 2

def ClaimClass.code : ClaimClass → Nat
  | .course => 0
  | .yard => 1

def AnomalyKind.code : AnomalyKind → Nat
  | .unexpectedEntry => 1
  | .sequenceFault => 2
  | .overspeed => 3
  | .overdue => 4
  | .stuck => 5
  | .strandedLaunch => 6
  | .nodeLost => 7
  | .eventsLost => 8
  | .switchFault => 9
  | .switchDrift => 10
  | .censusMotion => 11

def AnomalyKind.ofCode : Nat → Option AnomalyKind
  | 1 => some .unexpectedEntry
  | 2 => some .sequenceFault
  | 3 => some .overspeed
  | 4 => some .overdue
  | 5 => some .stuck
  | 6 => some .strandedLaunch
  | 7 => some .nodeLost
  | 8 => some .eventsLost
  | 9 => some .switchFault
  | 10 => some .switchDrift
  | 11 => some .censusMotion
  | _ => none

def SwitchState.code : SwitchState → Nat
  | .unproven => 0
  | .setMain => 1
  | .setBranch => 2
  | .moving _ => 3
  | .faulted => 4

def Position.code : Position → Nat
  | .main => 0
  | .branch => 1

def Position.ofCode : Nat → Option Position
  | 0 => some .main
  | 1 => some .branch
  | _ => none

def Fork.code : Fork → Nat
  | .entry => 0
  | .exit => 1

def Fork.ofCode : Nat → Option Fork
  | 0 => some .entry
  | 1 => some .exit
  | _ => none

def NodeState.code : NodeState → Nat
  | .unmapped => 0
  | .down => 1
  | .linked => 2
  | .lost => 3

def Condition.ofCode : Nat → Option Condition
  | 0 => some .permitGo
  | 1 => some .occupied
  | 2 => some .free
  | 3 => some .suspect
  | 4 => some .stopHold
  | 5 => some .standing
  | 6 => some .circuitOperating
  | _ => none

def Sense.ofCode : Nat → Option Sense
  | 0 => some .activeHigh
  | 1 => some .activeLow
  | _ => none

/-- The bit of a notice in the flags, the mask and READ NOTICES (section 13.3). -/
def Notice.bit : Notice → Nat
  | .anomaly => 0
  | .trainArrived => 1
  | .claimGranted => 2
  | .switchDone => 3
  | .circuit => 4
  | .authority => 5
  | .storeDone => 6
  | .link => 7

/-- The stop cause set as bits (section 13.3). The table names bits 0 to 3 and does not say what the others are: 0 (DESIGN CHOICE, log 26). -/
def Causes.bits (c : Causes) : Nat :=
  c.stopIn.toNat + 2 * c.key.toNat + 4 * c.commanded.toNat + 8 * c.anomaly.toNat

def StoreState.code : StoreState → Nat
  | .valid => 0
  | .writing => 1
  | .invalid => 2

def RecordKind.code : RecordKind → Nat
  | .circuit => 0
  | .zone => 1
  | .gate => 2
  | .node => 3
  | .switch => 4

def RecordKind.ofCode : Nat → Option RecordKind
  | 0 => some .circuit
  | 1 => some .zone
  | 2 => some .gate
  | 3 => some .node
  | 4 => some .switch
  | _ => none

/-- The length of a layout image (section 13.4). -/
def RecordKind.imageLength : RecordKind → Nat
  | .circuit => 4
  | .zone => 13
  | .gate => 5
  | .node => 2
  | .switch => 8

/-- Wait reasons (R81). -/
inductive WaitReason where
  | ready | motion | unresolved | zone | route | listFull
deriving DecidableEq, Repr

def WaitReason.code : WaitReason → Nat
  | .ready => 0
  | .motion => 1
  | .unresolved => 2
  | .zone => 3
  | .route => 4
  | .listFull => 5

/-- Gate event kinds (00, terms; section 13.5). -/
inductive EventKind where
  | fwdHead | fwdTail | revHead | revTail
deriving DecidableEq, Repr

def EventKind.ofCode : Nat → Option EventKind
  | 1 => some .fwdHead
  | 2 => some .fwdTail
  | 3 => some .revHead
  | 4 => some .revTail
  | _ => none

/-- Switch position reports (section 7.2, section 13.5). -/
inductive Report where
  | main | branch | moving | unknown
deriving DecidableEq, Repr

def Report.ofCode : Nat → Option Report
  | 0 => some .main
  | 1 => some .branch
  | 2 => some .moving
  | 3 => some .unknown
  | _ => none

/-- The request codes (section 13.2). -/
inductive RequestCode where
  | readStatus | readZone | readZones | readTrain | readTrains | readWaitQueue | readAnomalies | readSwitch | readNode
  | readLayoutRecord | readNotices
  | enterConfig | loadLayoutRecord | clearLayout | commitLayout | storeLayout | eraseStore | remapNode
  | placeTrain | withdrawTrain | relocateTrain | beginOperation
  | dispatch | cancelDispatch | stepTrain | relaunch
  | setService | clearZone | clearUnheldZones | setSwitch
  | halt | resumeGroup | acknowledgeAnomaly | acknowledgeAll
  | takeAuthority | fixSupervisor | handToConsole
  | assignIndicator | releaseIndicator | setNoticeMask
deriving DecidableEq, Repr

def RequestCode.code : RequestCode → Byte
  | .readStatus => 0x01
  | .readZone => 0x02
  | .readZones => 0x03
  | .readTrain => 0x04
  | .readTrains => 0x05
  | .readWaitQueue => 0x06
  | .readAnomalies => 0x07
  | .readSwitch => 0x08
  | .readNode => 0x09
  | .readLayoutRecord => 0x0A
  | .readNotices => 0x0B
  | .enterConfig => 0x10
  | .loadLayoutRecord => 0x11
  | .clearLayout => 0x12
  | .commitLayout => 0x13
  | .storeLayout => 0x14
  | .eraseStore => 0x15
  | .remapNode => 0x16
  | .placeTrain => 0x20
  | .withdrawTrain => 0x21
  | .relocateTrain => 0x22
  | .beginOperation => 0x23
  | .dispatch => 0x28
  | .cancelDispatch => 0x29
  | .stepTrain => 0x2A
  | .relaunch => 0x2B
  | .setService => 0x30
  | .clearZone => 0x31
  | .clearUnheldZones => 0x32
  | .setSwitch => 0x34
  | .halt => 0x38
  | .resumeGroup => 0x39
  | .acknowledgeAnomaly => 0x3A
  | .acknowledgeAll => 0x3B
  | .takeAuthority => 0x40
  | .fixSupervisor => 0x41
  | .handToConsole => 0x42
  | .assignIndicator => 0x48
  | .releaseIndicator => 0x49
  | .setNoticeMask => 0x4A

/-- The catalogue with the argument length each code requires; LOAD LAYOUT RECORD is listed with the length of its record
kind byte, to which the image length of that kind is added (R164). -/
def catalogue : List (RequestCode × Nat) :=
  [(.readStatus, 0), (.readZone, 1), (.readZones, 2), (.readTrain, 1), (.readTrains, 0), (.readWaitQueue, 0),
   (.readAnomalies, 0), (.readSwitch, 1), (.readNode, 1), (.readLayoutRecord, 2), (.readNotices, 0)] ++
  [(.enterConfig, 0), (.loadLayoutRecord, 1), (.clearLayout, 0), (.commitLayout, 0), (.storeLayout, 0), (.eraseStore, 0),
   (.remapNode, 2), (.placeTrain, 2), (.withdrawTrain, 1), (.relocateTrain, 2), (.beginOperation, 0)] ++
  [(.dispatch, 1), (.cancelDispatch, 1), (.stepTrain, 1), (.relaunch, 1), (.setService, 2), (.clearZone, 1),
   (.clearUnheldZones, 0), (.setSwitch, 2), (.halt, 0), (.resumeGroup, 1), (.acknowledgeAnomaly, 2), (.acknowledgeAll, 0)] ++
  [(.takeAuthority, 0), (.fixSupervisor, 0), (.handToConsole, 0), (.assignIndicator, 4), (.releaseIndicator, 1),
   (.setNoticeMask, 2)]

/-- Whether the port's own step of R152 passes a request: its code is one of the catalogue and its argument bytes have the
length that code requires (R164). -/
def portPasses (code : Byte) (args : List Byte) : Bool :=
  match catalogue.find? (fun e => decide (e.1.code = code)) with
  | none => false
  | some (.loadLayoutRecord, n) =>
    match args with
    | [] => false
    | kind :: _ =>
      match RecordKind.ofCode kind.toNat with
      | none => false
      | some k => decide (args.length = n + k.imageLength)
  | some (_, n) => decide (args.length = n)

end Sys2Proof.Machine
end

