-- ==== Sys2Proof/Machine/Layout.lean ====
section
/-! DEFINITION. The circuit layout (spec 01): zone classes and relations, the current exit gate and connection, exit extensions,
the ten validation checks, and the reading and writing of layout images. -/

namespace Sys2Proof.Machine

/-! ## Zone classes (section 1.2) -/

def ZoneKind.stoppable : ZoneKind → Bool
  | .run => false
  | .station => true
  | .storage => true
  | .lift => true
  | .launch => true
  | .brake => true
  | .transfer => true

def ZoneKind.yard : ZoneKind → Bool
  | .station => true
  | .storage => true
  | .lift => false
  | .launch => false
  | .brake => false
  | .transfer => false
  | .run => false

/-- The kind of a zone, where a zone record gives one. -/
def Layout.kindOf (l : Layout) (z : Nat) : Option ZoneKind := (l.zones.find z).map (fun r => r.spec.kind)

def Layout.isKind (l : Layout) (z : Nat) (k : ZoneKind) : Bool := decide (l.kindOf z = some k)

def Layout.stoppable (l : Layout) (z : Nat) : Bool := (l.kindOf z).any (fun k => k.stoppable)

def Layout.yard (l : Layout) (z : Nat) : Bool := (l.kindOf z).any (fun k => k.yard)

/-- LIFT, LAUNCH, BRAKE and TRANSFER. -/
def Layout.stoppableCourse (l : Layout) (z : Nat) : Bool := l.stoppable z && !l.yard z

def Layout.groupOf (l : Layout) (z : Nat) : Option Nat := (l.zones.find z).map (fun r => r.group)

/-- N, or 0 where the layout has no circuit record. -/
def Layout.zoneCount (l : Layout) : Nat := (l.circuit.map (fun c => c.zoneCount)).getD 0

/-- How many zones are stoppable (R42). -/
def Layout.stoppableCount (l : Layout) : Nat := (l.zones.keys.filter (fun z => l.stoppable z)).length

/-! ## Relations (R7) -/

def Layout.entryGates (l : Layout) (z : Nat) : List Nat := (l.gates.filter (fun e => decide (e.2.dst = z))).map (fun e => e.1)

def Layout.exitGates (l : Layout) (z : Nat) : List Nat := (l.gates.filter (fun e => decide (e.2.src = z))).map (fun e => e.1)

/-- For a TRANSFER zone, the switch whose record names it, with its number; none for other kinds. -/
def Layout.switchOf (l : Layout) (z : Nat) : Option (Nat × SwitchRec) :=
  if l.isKind z .transfer then l.switches.find? (fun e => decide (e.2.zone = z)) else none

/-- The switch this node serves, with its number. -/
def Layout.switchAt (l : Layout) (n : Nat) : Option (Nat × SwitchRec) :=
  l.switches.find? (fun e => decide (e.2.node = n))

/-- The nodes of a zone's gates, together with its permit node. -/
def Layout.servingNodes (l : Layout) (z : Nat) : List Nat :=
  (l.gates.filter (fun e => decide (e.2.src = z) || decide (e.2.dst = z))).map (fun e => e.2.node) ++
  (((l.zones.find z).bind (fun r => r.permit)).map (fun q => q.1)).toList

/-- The zones a node serves. -/
def Layout.affectedZones (l : Layout) (n : Nat) : List Nat := l.zones.keys.filter (fun z => decide (n ∈ l.servingNodes z))

/-- A node is mapped when it has a record with a line address from 1 (R5). -/
def Layout.mapped (l : Layout) (n : Nat) : Bool := (l.nodes.find n).any (fun a => decide (1 ≤ a))

/-- The gate served by a node's gate channel (R4), with its number. -/
def Layout.gateAt (l : Layout) (n c : Nat) : Option (Nat × GateRec) :=
  l.gates.find? (fun e => decide (e.2.node = n) && decide (e.2.channel = c))

/-- The zone whose record names this permit node and channel (R144). -/
def Layout.permitZoneAt (l : Layout) (n c : Nat) : Option Nat :=
  l.zones.least (fun _ r => decide (r.permit = some (n, c)))

/-! ## The switch position in the zone relations (R8) -/

/-- The position of a switch in a SET state. -/
def SwitchState.position : SwitchState → Option Position
  | .setMain => some .main
  | .setBranch => some .branch
  | .unproven => none
  | .moving _ => none
  | .faulted => none

/-- The position a switch is SET at. -/
def switchPosition (w : Table Switch) (k : Nat) : Option Position := (w.find k).bind (fun x => x.state.position)

/-- The gate of a switch record at a position. -/
def SwitchRec.gate (r : SwitchRec) : Position → Nat
  | .main => r.main
  | .branch => r.branch

/-- The current exit gate of a zone. -/
def Layout.currentExitGate (l : Layout) (w : Table Switch) (z : Nat) : Option Nat :=
  match l.switchOf z with
  | some (k, r) =>
    match r.fork with
    | .exit => (switchPosition w k).map (fun q => r.gate q)
    | .entry => (l.exitGates z).head?
  | none => (l.exitGates z).head?

/-- Whether a gate connects into a TRANSFER zone. -/
def Layout.connects (l : Layout) (w : Table Switch) (g z : Nat) : Bool :=
  match l.switchOf z with
  | some (k, r) =>
    match switchPosition w k with
    | some q =>
      match r.fork with
      | .exit => decide (g ∈ l.entryGates z)
      | .entry => decide (g = r.gate q)
    | none => false
  | none => false

/-! ## Exit extensions (R9) -/

/-- Follow the track from a gate: the zones entered, each with its entering gate, through RUN zones to the first stoppable
zone; none where more than `fuel` zones would be entered. -/
def Layout.walk (l : Layout) : Nat → Nat → Option (List (Nat × Nat))
  | 0, _ => none
  | fuel + 1, g =>
    match l.gates.find g with
    | none => none
    | some r =>
      match l.kindOf r.dst with
      | none => none
      | some k =>
        if k.stoppable then some [(r.dst, g)]
        else
          match (l.exitGates r.dst).head? with
          | none => none
          | some g' => (l.walk fuel g').map (fun e => (r.dst, g) :: e)

/-- The exit extension of a stoppable zone, in route order, each zone with its entering gate; none where it is unresolved or
the zone is not stoppable. -/
def Layout.extension (l : Layout) (w : Table Switch) (z : Nat) : Option (List (Nat × Nat)) :=
  if l.stoppable z then (l.currentExitGate w z).bind (fun g => l.walk Config.extensionMax g) else none

/-- The first zone of a LAUNCH zone's extension: the zone above the launch (R89). -/
def Layout.zoneAbove (l : Layout) (z : Nat) : Option Nat :=
  (l.exitGates z).head?.bind (fun g => (l.gates.find g).map (fun r => r.dst))

/-- The parameters of a LAUNCH zone: trailing hold, relaunch limit, crest gate. -/
def Layout.launchOf (l : Layout) (z : Nat) : Option (Nat × Nat × Nat) :=
  (l.zones.find z).bind (fun r =>
    match r.spec with
    | .launch h m g => some (h, m, g)
    | _ => none)

/-- The parameters of a RUN zone: min and max transit. -/
def Layout.runOf (l : Layout) (z : Nat) : Option (Nat × Nat) :=
  (l.zones.find z).bind (fun r =>
    match r.spec with
    | .run a b => some (a, b)
    | _ => none)

/-! ## The ten validation checks (R15) -/

/-- What an INVALID answer names (R14): the check, the record kind and the key. -/
structure CheckFailure where
  check : Nat
  kind : RecordKind
  key : Nat
deriving DecidableEq, Repr

/-- The first number, in order, at which the condition fails. -/
def firstFailing (check : Nat) (kind : RecordKind) (keys : List Nat) (ok : Nat → Bool) : Option CheckFailure :=
  (keys.find? (fun k => !ok k)).map (fun k => ⟨check, kind, k⟩)

/-- Where it names the circuit record it gives the key 0: R14 asks for a key and R1 gives that record none (DESIGN CHOICE, log 27). -/
def Layout.check1 (l : Layout) : Option CheckFailure :=
  match l.circuit with
  | none => some ⟨1, .circuit, 0⟩
  | some c => firstFailing 1 .zone (List.range Config.zoneKeys) (fun z => decide (z < c.zoneCount) == (l.zones.find z).isSome)

def Layout.check2 (l : Layout) : Option CheckFailure :=
  (l.gates.find? (fun e => !(decide (e.2.src < l.zoneCount) && decide (e.2.dst < l.zoneCount) && decide (e.2.src ≠ e.2.dst)))).map
    (fun e => ⟨2, .gate, e.1⟩)

def Layout.check3 (l : Layout) : Option CheckFailure :=
  ((l.gates.find? (fun e => !(l.mapped e.2.node && l.gates.all (fun d =>
      decide (e.1 ≤ d.1) || decide (d.2.node ≠ e.2.node) || decide (d.2.channel ≠ e.2.channel))))).map
    (fun e => ⟨3, .gate, e.1⟩)).or
  ((l.nodes.find? (fun e => decide (1 ≤ e.2) && l.nodes.any (fun d => decide (d.1 < e.1) && decide (d.2 = e.2)))).map
    (fun e => ⟨3, .node, e.1⟩))

def Layout.check4 (l : Layout) : Option CheckFailure :=
  firstFailing 4 .zone l.zones.keys (fun z =>
    decide ((l.entryGates z).length = 1) || decide ((l.entryGates z).length = 2))

/-- Whether a zone's gates on one side are exactly the two gates of its switch. -/
def exactlyGates (gates : List Nat) (r : SwitchRec) : Bool :=
  decide (r.main ∈ gates) && decide (r.branch ∈ gates) && gates.all (fun g => decide (g = r.main) || decide (g = r.branch))

/-- The first pass of check 5, for one zone. -/
def Layout.forkSound (l : Layout) (z : Nat) : Bool :=
  if l.isKind z .transfer then
    match l.switches.filter (fun e => decide (e.2.zone = z)) with
    | [(_, r)] =>
      match r.fork with
      | .exit => exactlyGates (l.exitGates z) r && decide ((l.entryGates z).length = 1)
      | .entry => exactlyGates (l.entryGates z) r && decide ((l.exitGates z).length = 1)
    | _ => false
  else decide ((l.exitGates z).length = 1)

/-- The second pass of check 5, for one switch. -/
def Layout.switchSound (l : Layout) (k : Nat) (r : SwitchRec) : Bool :=
  l.isKind r.zone .transfer &&
  (match l.gates.find r.main, l.gates.find r.branch with
   | some m, some b =>
     decide (r.main ≠ r.branch) &&
     (match r.fork with
      | .exit => decide (m.dst ≠ b.dst)
      | .entry => decide (m.src ≠ b.src))
   | _, _ => false) &&
  l.mapped r.node &&
  l.switches.all (fun d => decide (k ≤ d.1) || decide (d.2.node ≠ r.node))

def Layout.check5 (l : Layout) : Option CheckFailure :=
  (firstFailing 5 .zone l.zones.keys (fun z => l.forkSound z)).or
  ((l.switches.find? (fun e => !l.switchSound e.1 e.2)).map (fun e => ⟨5, .switch, e.1⟩))

def Layout.check6 (l : Layout) : Option CheckFailure :=
  (l.zones.find? (fun e => !(
    if e.2.spec.kind.stoppable then
      match e.2.permit with
      | some q => l.mapped q.1 && l.zones.all (fun d => decide (e.1 ≤ d.1) || decide (d.2.permit ≠ some q))
      | none => false
    else e.2.permit.isNone))).map (fun e => ⟨6, .zone, e.1⟩)

/-- The gates by which a zone can be left, over every SET position of its switch. -/
def Layout.leavingGates (l : Layout) (z : Nat) : List Nat :=
  match l.switchOf z with
  | some (_, r) =>
    match r.fork with
    | .exit => [r.main, r.branch]
    | .entry => (l.exitGates z).head?.toList
  | none => (l.exitGates z).head?.toList

def Layout.check7 (l : Layout) : Option CheckFailure :=
  firstFailing 7 .zone (l.zones.keys.filter (fun z => l.stoppable z)) (fun z =>
    (l.leavingGates z).all (fun g =>
      match l.walk Config.extensionMax g with
      | some e => decide (z ∉ e.map (fun q => q.1))
      | none => false))

def Layout.check8 (l : Layout) : Option CheckFailure :=
  firstFailing 8 .zone (l.zones.keys.filter (fun z => l.isKind z .launch)) (fun z =>
    match l.launchOf z, (l.exitGates z).head?.bind (fun g => l.walk Config.extensionMax g) with
    | some (_, _, crest), some ((x, _) :: _ :: _) =>
      (l.gates.find crest).isSome && decide ((l.exitGates x).head? = some crest)
    | _, _ => false)

/-- It names the circuit record, with the key 0: R14 asks for a key and R1 gives that record none (DESIGN CHOICE, log 27). -/
def Layout.check9 (l : Layout) : Option CheckFailure :=
  if 2 ≤ l.stoppableCount then none else some ⟨9, .circuit, 0⟩

def Layout.check10 (l : Layout) : Option CheckFailure :=
  firstFailing 10 .zone (l.zones.keys.filter (fun z => l.isKind z .run)) (fun z =>
    match l.runOf z with
    | some (a, b) => decide (a < b)
    | none => false)

/-- The first check that fails, with the record it names; none where the layout is sound. -/
def Layout.invalid (l : Layout) : Option CheckFailure :=
  l.check1.or (l.check2.or (l.check3.or (l.check4.or (l.check5.or
    (l.check6.or (l.check7.or (l.check8.or (l.check9.or l.check10))))))))

/-! ## Layout records and their images (R2, R3, R166, section 13.4) -/

/-- A layout record under its key. -/
inductive Record where
  | circuit (r : CircuitRec)
  | zone (k : Nat) (r : ZoneRec)
  | gate (k : Nat) (r : GateRec)
  | node (k : Nat) (address : Nat)
  | switch (k : Nat) (r : SwitchRec)
deriving DecidableEq, Repr

/-- A two-byte number, most significant byte first. -/
def half (hi lo : Byte) : Nat := hi.toNat * 256 + lo.toNat

/-- The permit pair of a zone image: absent when both bytes are 0xFF, out of range when one is (R166). -/
def permitOfImage (n c : Byte) : Option (Option (Nat × Nat)) :=
  if n = 0xFF ∧ c = 0xFF then some none
  else if n.toNat < Config.nodeKeys ∧ c.toNat ≤ 1 then some (some (n.toNat, c.toNat))
  else none

/-- The kind of a zone image with the fields that apply to it, range-checked; other fields are not read (R3). -/
def specOfImage (kind minHi minLo maxHi maxLo holdHi holdLo limit crest : Byte) : Option ZoneSpec :=
  match kind.toNat with
  | 0 => some .station
  | 1 => some .storage
  | 2 => some .lift
  | 3 =>
    if 100 ≤ half holdHi holdLo ∧ limit.toNat ≤ 3 ∧ crest.toNat < Config.gateKeys
    then some (.launch (half holdHi holdLo) limit.toNat crest.toNat) else none
  | 4 => some .brake
  | 5 => some .transfer
  | 6 => some (.run (half minHi minLo) (half maxHi maxLo))
  | _ => none

/-- A line parameter of the circuit image: 0 stands for the default (R2). -/
def withDefault (v d : Nat) : Nat := if v = 0 then d else v

/-- The record an image gives, where every field that applies is in range (R11). -/
def recordOfImage (kind : Byte) (image : List Byte) : Option Record :=
  match RecordKind.ofCode kind.toNat, image with
  | some .circuit, [n, t, u, d] =>
    if 2 ≤ n.toNat ∧ n.toNat ≤ 32 ∧ t.toNat ≤ 15 ∧ u.toNat ≤ 7 ∧ d.toNat ≤ 7
    then some (.circuit ⟨n.toNat, withDefault t.toNat Config.defaultTimeout, withDefault u.toNat Config.defaultLinkUp,
      withDefault d.toNat Config.defaultLinkDown⟩) else none
  | some .zone, [k, kd, g, pn, pc, mh, ml, xh, xl, hh, hl, lim, cr] =>
    match permitOfImage pn pc, specOfImage kd mh ml xh xl hh hl lim cr with
    | some pm, some sp =>
      if k.toNat < Config.zoneKeys ∧ g.toNat ≤ 3 then some (.zone k.toNat ⟨sp, g.toNat, pm⟩) else none
    | _, _ => none
  | some .gate, [k, a, b, n, c] =>
    if k.toNat < Config.gateKeys ∧ a.toNat < Config.zoneKeys ∧ b.toNat < Config.zoneKeys ∧ n.toNat < Config.nodeKeys ∧ c.toNat ≤ 3
    then some (.gate k.toNat ⟨a.toNat, b.toNat, n.toNat, c.toNat⟩) else none
  | some .node, [k, a] =>
    if k.toNat < Config.nodeKeys ∧ a.toNat ≤ 31 then some (.node k.toNat a.toNat) else none
  | some .switch, [k, z, f, m, b, n, th, tl] =>
    match Fork.ofCode f.toNat with
    | some fk =>
      if k.toNat < Config.switchKeys ∧ z.toNat < Config.zoneKeys ∧ m.toNat < Config.gateKeys ∧ b.toNat < Config.gateKeys ∧
        n.toNat < Config.nodeKeys ∧ 500 ≤ half th tl
      then some (.switch k.toNat ⟨z.toNat, fk, m.toNat, b.toNat, n.toNat, half th tl⟩) else none
    | none => none
  | _, _ => none

/-- Store a record under its key, in place of one held there (R11). -/
def Layout.store (l : Layout) : Record → Layout
  | .circuit r => { l with circuit := some r }
  | .zone k r => { l with zones := l.zones.put k r }
  | .gate k r => { l with gates := l.gates.put k r }
  | .node k a => { l with nodes := l.nodes.put k a }
  | .switch k r => { l with switches := l.switches.put k r }

/-- Whether a key is in the range of its record kind (R1, R13). -/
def RecordKind.keyInRange : RecordKind → Nat → Bool
  | .circuit, k => decide (k = 0)
  | .zone, k => decide (k < Config.zoneKeys)
  | .gate, k => decide (k < Config.gateKeys)
  | .node, k => decide (k < Config.nodeKeys)
  | .switch, k => decide (k < Config.switchKeys)

/-- The record held under a kind and key. -/
def Layout.record (l : Layout) (kind : RecordKind) (k : Nat) : Option Record :=
  match kind with
  | .circuit => l.circuit.map (fun r => .circuit r)
  | .zone => (l.zones.find k).map (fun r => .zone k r)
  | .gate => (l.gates.find k).map (fun r => .gate k r)
  | .node => (l.nodes.find k).map (fun a => .node k a)
  | .switch => (l.switches.find k).map (fun r => .switch k r)

/-- The two bytes of a number, most significant first. -/
def halfBytes (n : Nat) : List Byte := [byte (n / 256), byte n]

/-- The kind-specific bytes of a zone image: absent fields are 0xFF or 0xFFFF (R166). -/
def ZoneSpec.image : ZoneSpec → List Byte
  | .run a b => halfBytes a ++ halfBytes b ++ [0xFF, 0xFF, 0xFF, 0xFF]
  | .launch h m g => [0xFF, 0xFF, 0xFF, 0xFF] ++ halfBytes h ++ [byte m, byte g]
  | .station => List.replicate 8 0xFF
  | .storage => List.replicate 8 0xFF
  | .lift => List.replicate 8 0xFF
  | .brake => List.replicate 8 0xFF
  | .transfer => List.replicate 8 0xFF

/-- The body of READ LAYOUT RECORD: the record kind and the layout image. -/
def Record.image : Record → List Byte
  | .circuit r => [0, byte r.zoneCount, byte r.answerTimeout, byte r.linkUp, byte r.linkDown]
  | .zone k r =>
    [1, byte k, byte r.spec.kind.code, byte r.group] ++
    (match r.permit with
     | some q => [byte q.1, byte q.2]
     | none => [0xFF, 0xFF]) ++ r.spec.image
  | .gate k r => [2, byte k, byte r.src, byte r.dst, byte r.node, byte r.channel]
  | .node k a => [3, byte k, byte a]
  | .switch k r =>
    [4, byte k, byte r.zone, byte r.fork.code, byte r.main, byte r.branch, byte r.node] ++ halfBytes r.moveTimeout

/-- The body of READ LAYOUT RECORD for the record held under a kind and key. -/
def Layout.body (l : Layout) (kind : RecordKind) (key : Nat) : Option (List Byte) := (l.record kind key).map (fun r => r.image)

end Sys2Proof.Machine
end

