-- ==== Sys2Proof/Machine/Flags.lean ====
section
/-! DEFINITION. What the part derives from its records: a zone's and a train's places, the permit (R34), the indicator
conditions (R158), the notice flags (R161), the status byte (R153) and the levels of the output pins. -/

namespace Sys2Proof.Machine

/-! ## Reading records -/

def State.live (s : State) : Bool := s.circuit.live

/-- The state of a zone, where the Zone Table has it. -/
def State.zoneState (s : State) (z : Nat) : Option ZoneState := (s.zones.find z).map (fun r => r.state)

/-- The holder of a zone. -/
def State.holder (s : State) (z : Nat) : Option Nat := (s.zones.find z).bind (fun r => r.holder)

/-- The motion of a train. -/
def State.motion (s : State) (t : Nat) : Option Motion := (s.trains.find t).map (fun r => r.motion)

def State.isReserved (s : State) (z : Nat) : Bool := decide (s.zoneState z = some .reserved)

/-- The head zone of a hold list: its front-most entry that is not RESERVED (R41). -/
def State.headOf (s : State) (hold : List Nat) : Option Nat := hold.reverse.find? (fun z => !s.isReserved z)

/-- The head zone of a train. -/
def State.head (s : State) (t : Nat) : Option Nat := (s.trains.find t).bind (fun r => s.headOf r.hold)

/-- The entry after a zone in a hold list. -/
def entryAfter : List Nat → Nat → Option Nat
  | a :: b :: r, z => if a = z then some b else entryAfter (b :: r) z
  | [_], _ => none
  | [], _ => none

/-- The exit extension of a zone as the layout and the switches stand (R9). -/
def State.extension (s : State) (z : Nat) : Option (List (Nat × Nat)) := s.layout.extension s.switches z

/-- A node is LINKED (R141). -/
def State.linked (s : State) (n : Nat) : Bool := (s.nodes.find n).any (fun r => decide (r.state = .linked))

/-- Every serving node of a zone is LINKED (R28). -/
def State.nodesLinked (s : State) (z : Nat) : Bool := (s.layout.servingNodes z).all (fun n => s.linked n)

/-- If the zone is TRANSFER, its switch is SET_MAIN or SET_BRANCH (R28). -/
def State.switchSet (s : State) (z : Nat) : Bool :=
  if s.layout.isKind z .transfer then
    (s.layout.switchOf z).any (fun e => (switchPosition s.switches e.1).isSome)
  else true

/-- The zone is TRANSFER and its switch is MOVING (R118). -/
def State.switchMoving (s : State) (z : Nat) : Bool :=
  (s.layout.switchOf z).any (fun e =>
    (s.switches.find e.1).any (fun w =>
      match w.state with
      | .moving _ => true
      | _ => false))

/-! ## The permit (R34) -/

/-- Whether a train whose record is `r` has the permit of zone `z`, whose record is `x`. -/
def State.permitGo (s : State) (z : Nat) (x : Zone) (t : Nat) (r : Train) : Bool :=
  decide (x.state = .occupied) && decide (r.claim = .granted) &&
  (decide (r.motion = .cleared) || decide (r.motion = .moving)) &&
  (match s.extension z with
   | some e => e.all (fun q => decide (q.1 ∈ r.hold) && s.isReserved q.1 && decide (s.holder q.1 = some t))
   | none => false) &&
  (!x.stopHold || r.stepGrant)

/-- The permit of a zone: GO is true, HOLD is false; absent for a RUN zone and for a zone without a record. -/
def State.permit (s : State) (z : Nat) : Option Bool :=
  match s.zones.find z with
  | none => none
  | some x =>
    if s.layout.stoppable z then
      match x.holder with
      | none => some false
      | some t =>
        match s.trains.find t with
        | none => some false
        | some r => some (s.permitGo z x t r)
    else none

/-! ## Indicator lines (R158) -/

/-- Whether an assignment's condition is true. -/
def State.conditionTrue (s : State) (a : Assignment) : Bool :=
  match a.condition, a.zone with
  | .circuitOperating, _ => decide (s.circuit = .operating)
  | _, none => false
  | .permitGo, some z => decide (s.permit z = some true)
  | .occupied, some z => decide (s.zoneState z = some .occupied) || decide (s.zoneState z = some .trailing)
  | .free, some z => decide (s.zoneState z = some .free)
  | .suspect, some z => decide (s.zoneState z = some .suspect)
  | .stopHold, some z => (s.zones.find z).any (fun r => r.stopHold)
  | .standing, some z => (s.holder z).any (fun t => decide (s.motion t = some .standing))

/-- The level of an indicator line: low while unassigned. -/
def State.indicatorLevel (s : State) (line : Nat) : Bool :=
  match s.indicators.find line with
  | none => false
  | some a =>
    match a.sense with
    | .activeHigh => s.conditionTrue a
    | .activeLow => !s.conditionTrue a

/-! ## Notices (R161) -/

/-- The byte with one notice's bit set. -/
def Notice.mask (n : Notice) : Byte := (1 : Byte) <<< n.bit

/-- Set a notice's flag on one port. -/
def PortState.raise (n : Notice) (x : PortState) : PortState := { x with flags := x.flags ||| n.mask }

/-- Raise a notice on both ports. -/
def State.raise (n : Notice) (s : State) : State :=
  { s with supervisor := s.supervisor.raise n, console := s.console.raise n }

/-- Some flag of the port is both set and enabled. -/
def PortState.noticed (x : PortState) : Bool := decide (x.flags &&& x.mask ≠ 0)

/-! ## Outputs -/

/-- Some part of an answer frame or of an arrival refusal waits to be shifted out (R150). -/
def PortState.waiting (x : PortState) : Bool :=
  !x.refusals.isEmpty ||
  x.sending.any (fun w => decide (w.sent < w.frame.length)) ||
  (x.answer.isSome && !x.sending.any (fun w => w.ends))

/-- The levels the outputs are driven to: all low while RESET is asserted (R134); RUN EN exactly in OPERATING (R120). -/
def State.driven (s : State) : Pins :=
  if s.resetPin then .low
  else
    { runEn := decide (s.circuit = .operating)
      ind := (List.range Config.indicatorLines).map (fun i => s.indicatorLevel i)
      ardy := s.supervisor.waiting
      snot := s.supervisor.noticed
      cnot := s.console.noticed }

/-- Drive the outputs from the records as they stand. Every command ends so. -/
def State.settle (s : State) : State := { s with pins := s.driven }

/-- Slots of the port's queue that hold no request (R153). -/
def PortState.freeSlots (x : PortState) : Nat := Config.queueSlots - x.queue.length

/-- The status byte of an answer on a port (R153, section 13.2). -/
def State.statusByte (s : State) (p : Port) : Byte :=
  byte (s.circuit.code + 8 * s.authority.code + 32 * (!s.anomalies.isEmpty).toNat + 64 * s.tableFull.toNat +
    128 * (s.port p).noticed.toNat)

end Sys2Proof.Machine
end

