-- ==== Sys2Proof/Machine/Ops.lean ====
section
/-! DEFINITION. The operations every meaning is made of: claims on zone and train records, stop causes and anomalies, the Claim
Engine, building and discarding the live tables, and taking a request at its port. -/

namespace Sys2Proof

/-- Change every record whose number is listed. -/
def Table.updAll {α : Type} (t : Table α) (ks : List Nat) (f : α → α) : Table α :=
  t.map (fun e => if e.1 ∈ ks then (e.1, f e.2) else e)

namespace Machine

def State.updZones (s : State) (zs : List Nat) (f : Zone → Zone) : State := { s with zones := s.zones.updAll zs f }

/-! ## Zone records: what a claim makes of one -/

/-- The timer that stays when a zone's state becomes `st`: a RUN transit needs OCCUPIED, a trailing hold TRAILING (R106). -/
def ZoneTimer.kept (st : ZoneState) : ZoneTimer → ZoneTimer
  | .idle => .idle
  | .running .runTransit e x => if st = .occupied then .running .runTransit e x else .idle
  | .running .trailingHold e x => if st = .trailing then .running .trailingHold e x else .idle

/-- A new state, the holder kept. -/
def Zone.turn (st : ZoneState) (x : Zone) : Zone := { x with state := st, timer := x.timer.kept st }

/-- A new state, held by a train. -/
def Zone.give (st : ZoneState) (t : Nat) (x : Zone) : Zone := { x.turn st with holder := some t }

/-- A new state, without a holder. -/
def Zone.leave (st : ZoneState) (x : Zone) : Zone := { x.turn st with holder := none }

/-- What release makes of a zone held by the train named: a SUSPECT zone stays SUSPECT, any other becomes FREE (R27). -/
def Zone.released (x : Zone) : Zone := x.leave (if x.state = .suspect then .suspect else .free)

/-! ## Zone claims (section 2.2), each with its hold list change (R22, R55) -/

/-- The RESERVED entries of a hold list that stand before one that is not RESERVED (R56). -/
def State.stale (s : State) : List Nat → List Nat
  | [] => []
  | z :: r => if s.isReserved z && r.any (fun y => !s.isReserved y) then z :: s.stale r else s.stale r

/-- Mark those entries SUSPECT, their holder kept (R56). -/
def State.keepOrder (s : State) (t : Nat) : State :=
  match s.trains.find t with
  | none => s
  | some r => s.updZones (s.stale r.hold) (Zone.turn .suspect)

/-- Every zone of the extension is FREE, and a TRANSFER zone's switch connects the entering gate (R24, R67). -/
def State.grantable (s : State) (e : List (Nat × Nat)) : Bool :=
  e.all (fun q => decide (s.zoneState q.1 = some .free) &&
    (!s.layout.isKind q.1 .transfer || s.layout.connects s.switches q.2 q.1))

/-- The reserve claim (R24); none where it is returned unchanged. -/
def State.reserve (s : State) (t : Nat) (e : List (Nat × Nat)) : Option State :=
  match s.trains.find t with
  | none => none
  | some r =>
    if s.grantable e ∧ r.hold.length + e.length ≤ Config.holdMax then
      some ((s.updZones (e.map (fun q => q.1)) (Zone.give .reserved t)).updTrain t
        (fun r => { r with hold := r.hold ++ e.map (fun q => q.1) }))
    else none

/-- The occupy claim (R25). -/
def State.occupy (s : State) (z t : Nat) : Option State :=
  if s.holder z = some t ∧ (s.zoneState z = some .reserved ∨ s.zoneState z = some .trailing)
  then some (s.updZone z (Zone.turn .occupied)) else none

/-- The trail claim (R26). -/
def State.trail (s : State) (z t : Nat) : Option State :=
  if s.layout.isKind z .launch ∧ s.holder z = some t ∧ s.zoneState z = some .occupied
  then some (s.updZone z (Zone.turn .trailing)) else none

/-- Of the zones named, those the train holds. -/
def State.heldBy (s : State) (t : Nat) (zs : List Nat) : List Nat := zs.filter (fun z => decide (s.holder z = some t))

/-- A train's hold list. -/
def State.holdOf (s : State) (t : Nat) : List Nat := ((s.trains.find t).map (fun r => r.hold)).getD []

/-- The release claim (R27), taken whole: unchanged where the train holds none of the zones, or where its last entry would go
(R55). -/
def State.release (s : State) (t : Nat) (zs : List Nat) : Option State :=
  match s.trains.find t with
  | none => none
  | some r =>
    if s.heldBy t zs = [] ∨ r.hold.filter (fun z => decide (z ∉ s.heldBy t zs)) = [] then none
    else some ((s.updZones (s.heldBy t zs) Zone.released).updTrain t
      (fun r => { r with hold := r.hold.filter (fun z => decide (z ∉ s.heldBy t zs)) }))

/-- Whether releasing these zones makes one FREE: then the Claim Engine is told (R23). -/
def State.frees (s : State) (t : Nat) (zs : List Nat) : Bool :=
  (s.heldBy t zs).any (fun z => decide (s.zoneState z ≠ some .suspect))

/-- Whether an adopting claim may append the zone (R30, R118). -/
def State.mayAdopt (s : State) (t z : Nat) : Bool :=
  (s.trains.find t).any (fun r => decide (r.hold.length < Config.holdMax)) && !s.switchMoving z

/-- The mark suspect claim (R30) with what R56 does in the same act. -/
def State.markSuspect (s : State) (z : Nat) (adopt : Option Nat) : State :=
  match s.holder z with
  | some u => (s.updZone z (Zone.turn .suspect)).keepOrder u
  | none =>
    match adopt with
    | none => s.updZone z (Zone.turn .suspect)
    | some t =>
      if (s.zones.find z).isSome && s.mayAdopt t z then
        ((s.updZone z (Zone.give .suspect t)).updTrain t (fun r => { r with hold := r.hold ++ [z] })).keepOrder t
      else s.updZone z (Zone.turn .suspect)

/-- What line suspect makes of a zone: SUSPECT and OUT_OF_SERVICE stay as they are (R31). -/
def Zone.lineLost (x : Zone) : Zone :=
  match x.state with
  | .suspect => x
  | .outOfService => x
  | .free => x.turn .suspect
  | .reserved => x.turn .suspect
  | .occupied => x.turn .suspect
  | .trailing => x.turn .suspect

/-- The hold all claim (R32). -/
def State.holdAll (s : State) : State :=
  s.updZones s.zones.keys (fun x => { x with stopHold := true })

/-- The release group claim (R33). -/
def State.releaseGroup (s : State) (g : Nat) : State :=
  s.updZones (s.layout.zones.keys.filter (fun z => decide (s.layout.groupOf z = some g))) (fun x => { x with stopHold := false })

/-- Whether any zone still carries a stop hold. -/
def State.anyHold (s : State) : Bool := s.zones.any (fun e => e.2.stopHold)

/-! ## Motion claims (section 3.2) -/

/-- clear (R45). -/
def Motion.clear : Motion → Motion
  | .standing => .cleared
  | m => m

/-- depart, or resume for a train STRANDED by OVERDUE or STUCK (R45, R49). -/
def Motion.advance : Motion → Motion
  | .cleared => .moving
  | .stranded .overdue => .moving
  | .stranded .stuck => .moving
  | m => m

/-- stand (R46). -/
def Motion.stand : Motion → Motion
  | .moving => .standing
  | m => m

/-- recover (R47). -/
def Motion.recover : Motion → Motion
  | .moving => .recovering
  | .stranded .stuck => .recovering
  | m => m

/-- rock (R47). -/
def Motion.rock : Motion → Motion
  | .recovering => .moving
  | .stranded .overdue => .moving
  | m => m

/-- strand (R49). -/
def Motion.strand (c : StrandCause) : Motion → Motion
  | .moving => .stranded c
  | .recovering => .stranded c
  | .stranded .overdue => .stranded c
  | .stranded .stuck => .stranded c
  | m => m

def Motion.isStranded : Motion → Bool
  | .stranded _ => true
  | .standing => false
  | .cleared => false
  | .moving => false
  | .recovering => false
  | .untracked => false

def State.move (s : State) (t : Nat) (f : Motion → Motion) : State := s.updTrain t (fun r => { r with motion := f r.motion })

/-- untrack (R50). -/
def State.untrack (s : State) (t : Nat) : State := s.move t (fun _ => .untracked)

/-- Mark a zone SUSPECT, adopting nobody, and untrack the train that held it. -/
def State.disturb (s : State) (z : Nat) : State :=
  match s.holder z with
  | some u => (s.markSuspect z none).untrack u
  | none => s.markSuspect z none

/-! ## Stop causes and anomalies (spec 08) -/

def Causes.add (c : Causes) : StopCause → Causes
  | .stopIn => { c with stopIn := true }
  | .key => { c with key := true }
  | .commanded => { c with commanded := true }
  | .anomaly => { c with anomaly := true }

def Causes.isEmpty (c : Causes) : Bool := !c.stopIn && !c.key && !c.commanded && !c.anomaly

/-- A stop cause arises (R123). -/
def State.arise (s : State) (c : StopCause) : State :=
  match s.circuit with
  | .operating => ({ s with causes := s.causes.add c, circuit := .halted }.holdAll).raise .circuit
  | .halted => ({ s with causes := s.causes.add c }.holdAll).raise .circuit
  | .census => { s with causes := s.causes.add c }
  | .unconfigured =>
    match c with
    | .stopIn => { s with causes := s.causes.add c }
    | .key => { s with causes := s.causes.add c }
    | .commanded => s
    | .anomaly => s
  | .config =>
    match c with
    | .stopIn => { s with causes := s.causes.add c }
    | .key => { s with causes := s.causes.add c }
    | .commanded => s
    | .anomaly => s

/-- Whether the resolving condition of an entry of this kind and subject holds (R129). -/
def State.resolved (s : State) (k : AnomalyKind) (n : Nat) : Bool :=
  match k with
  | .unexpectedEntry => decide (s.zoneState n ≠ some .suspect)
  | .sequenceFault => decide (s.motion n ≠ some .untracked)
  | .overspeed => true
  | .overdue => !(s.holder n).any (fun t => (s.motion t).any (fun m => m.isStranded))
  | .stuck => decide (s.zoneState n ≠ some .trailing)
  | .strandedLaunch => !(s.motion n).any (fun m => m.isStranded)
  | .nodeLost => s.linked n
  | .eventsLost => s.linked n
  | .switchFault => (switchPosition s.switches n).isSome
  | .switchDrift => (switchPosition s.switches n).isSome
  | .censusMotion => true

/-- Remove the acknowledged entries whose resolving condition holds (R130). -/
def State.sweep (s : State) : State :=
  { s with anomalies := s.anomalies.filter (fun a => !(a.acked && s.resolved a.kind a.subject)) }

def Anomaly.about (a : Anomaly) (k : AnomalyKind) (n : Nat) : Bool := decide (a.kind = k) && decide (a.subject = n)

/-- The entry step of an anomaly report (R128, step 1). -/
def State.enterAnomaly (s : State) (k : AnomalyKind) (n : Nat) (stop : Bool) : State :=
  if s.anomalies.any (fun a => a.about k n) then
    { s with anomalies := s.anomalies.map (fun a =>
        if a.about k n then { a with acked := false, stop := a.stop || stop } else a) }
  else if s.anomalies.length < Config.anomalySlots then
    { s with anomalies := s.anomalies ++ [⟨k, n, stop, false, s.timebase, s.nextSerial⟩], nextSerial := s.nextSerial + 1 }
  else { s with tableFull := true }

/-- The Circuit Stop Unit takes an anomaly report (R128). -/
def State.anomaly (s : State) (k : AnomalyKind) (n : Nat) (stop : Bool) : State :=
  let s1 := (s.enterAnomaly k n stop).raise .anomaly
  if stop then s1.arise .anomaly else s1

/-! ## The Claim Engine (spec 04) -/

/-- COURSE before YARD, then oldest first (R64). -/
def serviceOrder (q : List Claim) : List Claim :=
  q.filter (fun c => decide (c.cls = .course)) ++ q.filter (fun c => decide (c.cls = .yard))

/-- One entry of an evaluation (R66, R68). -/
def State.tryGrant (s : State) (c : Claim) : State :=
  match s.trains.find c.train with
  | none => s
  | some r =>
    if r.motion = .standing ∨ r.motion = .moving then
      match (s.headOf r.hold).bind (fun z => s.extension z) with
      | none => s
      | some e =>
        match s.reserve c.train e with
        | none => s
        | some s1 =>
          let s2 := { s1 with waitQueue := s1.waitQueue.filter (fun d => decide (d.train ≠ c.train)) }.updTrain c.train
            (fun r => { r with claim := .granted, motion := r.motion.clear })
          match c.cls with
          | .yard => s2.raise .claimGranted
          | .course => s2
    else s

/-- One pass over the queue in service order (R66). -/
def State.evaluate (s : State) : State := (serviceOrder s.waitQueue).foldl State.tryGrant s

/-- The class of a claim entered now: by the kind of the train's head zone (R61). -/
def State.classFor (s : State) (t : Nat) : ClaimClass :=
  if (s.head t).any (fun z => s.layout.yard z) then .yard else .course

/-- Enter a claim for a train whose claim status is NONE (R63), without the evaluation; none where it is not entered. -/
def State.enterClaim (s : State) (t : Nat) (step : Bool) : Option State :=
  match s.trains.find t with
  | none => none
  | some r =>
    if r.claim = .none then
      let s1 : State := { s with
        waitQueue := s.waitQueue ++ [⟨t, s.classFor t, s.entryCounter, step, s.nextSerial⟩]
        entryCounter := s.entryCounter + 1
        nextSerial := s.nextSerial + 1 }
      some (s1.updTrain t (fun r => { r with claim := .pending }))
    else none

/-- The claim status returns to NONE and an entry of the train, if there is one, is removed (R80, R75). -/
def State.dropClaim (s : State) (t : Nat) : State :=
  { s with waitQueue := s.waitQueue.filter (fun d => decide (d.train ≠ t)) }.updTrain t (fun r => { r with claim := .none })

/-- The step grant becomes no (R53). -/
def State.dropStep (s : State) (t : Nat) : State := s.updTrain t (fun r => { r with stepGrant := false })

/-! ## Zone timers (R105) -/

def State.startTimer (s : State) (z : Nat) (u : TimerUse) : State :=
  s.updZone z (fun x => { x with timer := .running u 0 .notDue })

def State.stopTimer (s : State) (z : Nat) : State := s.updZone z (fun x => { x with timer := .idle })

/-! ## The live tables (R10, R16) -/

/-- A zone of a freshly built Zone Table (R20). -/
def Zone.fresh : Zone := ⟨.suspect, none, false, .idle⟩

/-- Every live table and what goes with it is discarded; the timebase is held at 0 (R10, R134). -/
def State.discardLive (s : State) : State :=
  { s with
    zones := [], trains := [], waitQueue := [], entryCounter := 0, switches := [], nodes := []
    polled := none, poll := none, anomalies := [], tableFull := false, timebase := 0 }

/-- The live tables are built from the Layout Table (R16). -/
def State.buildLive (s : State) : State :=
  { s.discardLive with
    zones := s.layout.zones.map (fun e => (e.1, Zone.fresh))
    switches := s.layout.switches.map (fun e => (e.1, ⟨.unproven, .idle⟩))
    nodes := (List.range Config.nodeKeys).map (fun n => (n, ⟨if s.layout.mapped n then .down else .unmapped, 0, 0, none⟩))
    circuit := .census }

/-! ## The ports and the taking of requests (R151, R152, R157) -/

/-- An arrival refusal is added to the port's list, or the discard count rises where the list is full (R151). -/
def PortState.refuse (x : PortState) (tag : Byte) (result : Result) : PortState :=
  if x.refusals.length < Config.refusalSlots then { x with refusals := x.refusals ++ [⟨tag, result⟩] }
  else { x with discards := min (x.discards + 1) Config.discardMax }

/-- A request frame that passed its check arrives: it takes the youngest place, or is refused as the queue is full (R151). -/
def PortState.arrive (x : PortState) (q : Request) : PortState :=
  if x.queue.length < Config.queueSlots then { x with queue := x.queue ++ [q] }
  else x.refuse q.tag .refusedFull

/-- Whether a port holds authority (section 11.4). -/
def Authority.heldBy : Authority → Port → Bool
  | .console, .console => true
  | .maintenance, .console => true
  | .supervisor, .supervisor => true
  | .supervisorFixed, .supervisor => true
  | .console, .supervisor => false
  | .maintenance, .supervisor => false
  | .supervisor, .console => false
  | .supervisorFixed, .console => false

/-- What an owning block does with a request taken: the state after it, and the answer. -/
abbrev Owner := State → State × Answer

/-- The answer DONE without a body. -/
def State.done (s : State) : State × Answer := (s, .reply .done [])

/-- A refusal, or another answer that changes nothing. -/
def State.answered (s : State) (r : Result) : State × Answer := (s, .reply r [])

/-- The Authority Unit's step for a change request (R157, last row). -/
def withAuthority (p : Port) (own : Owner) : Owner := fun s =>
  if s.authority.heldBy p then own s else s.answered .refusedAuthority

/-- The port takes its oldest request: the owner acts, and its answer is then to be sent (R152). -/
def State.take (s : State) (p : Port) (own : Owner) : State :=
  let (s1, a) := own s
  s1.setPort p { s1.port p with answer := some a }

/-- A request presented at a port. It is taken now when its turn has come: no answer of the port is unfinished, and it is the
oldest request waiting, or none waits and it arrives now. Otherwise it arrives and waits its turn (R151, R152; log 2). -/
def State.present (s : State) (p : Port) (q : Request) (own : Owner) : State :=
  match (s.port p).answer, (s.port p).queue with
  | none, [] => (s.setPort p ((s.port p).arrive q)).take p own
  | none, r :: _ => if r = q then s.take p own else s.setPort p ((s.port p).arrive q)
  | some _, _ => s.setPort p ((s.port p).arrive q)

/-- A command's effect, with the outputs driven after it. While RESET is asserted nothing is taken (R134; log 5). -/
def act (f : State → State) (s : State) : Host.Outcome State Fault Refusal :=
  .next (if s.resetPin then s else (f s).settle)

/-- A request command. -/
def request (p : Port) (tag : Byte) (code : RequestCode) (args : List Byte) (own : Owner) (s : State) :
    Host.Outcome State Fault Refusal :=
  act (fun s => s.present p ⟨tag, code.code, args⟩ own) s

end Machine

end Sys2Proof
end

