-- ==== Sys2Proof/Machine/AuthorityRequests.lean ====
section
/-! DEFINITION. The authority state: the three requests (R156). The KEY input's part is in Machine/Inputs.lean. -/

namespace Sys2Proof.Machine

/-- The authority becomes `a`; a change raises notice AUTHORITY on both ports in the same act (R156). -/
def State.setAuthority (s : State) (a : Authority) : State :=
  if s.authority = a then s else { s with authority := a }.raise .authority

/-- TAKE AUTHORITY by port (R156). -/
def State.ownTakeAuthority (p : Port) (s : State) : State × Answer :=
  match p, s.authority with
  | .supervisor, .console => (s.setAuthority .supervisor).done
  | .supervisor, .supervisor => s.done
  | .supervisor, .supervisorFixed => s.done
  | .supervisor, .maintenance => s.answered .refusedState
  | .console, .console => s.done
  | .console, .supervisor => (s.setAuthority .console).done
  | .console, .supervisorFixed => s.answered .refusedState
  | .console, .maintenance => s.done

/-- TAKE_AUTHORITY (R156). -/
def execTakeAuthority (p : Port) (tag : Byte) (s : State) : Host.Outcome State Fault Refusal :=
  request p tag .takeAuthority [] (State.ownTakeAuthority p) s

/-- FIX SUPERVISOR by port (R156). -/
def State.ownFixSupervisor (p : Port) (s : State) : State × Answer :=
  match p, s.authority with
  | .supervisor, .console => s.answered .refusedAuthority
  | .supervisor, .supervisor => (s.setAuthority .supervisorFixed).done
  | .supervisor, .supervisorFixed => s.done
  | .supervisor, .maintenance => s.answered .refusedState
  | .console, .console => s.answered .refusedState
  | .console, .supervisor => s.answered .refusedState
  | .console, .supervisorFixed => s.answered .refusedState
  | .console, .maintenance => s.answered .refusedState

/-- FIX_SUPERVISOR (R156). -/
def execFixSupervisor (p : Port) (tag : Byte) (s : State) : Host.Outcome State Fault Refusal :=
  request p tag .fixSupervisor [] (State.ownFixSupervisor p) s

/-- HAND TO CONSOLE by port (R156). -/
def State.ownHandToConsole (p : Port) (s : State) : State × Answer :=
  match p, s.authority with
  | .supervisor, .console => s.done
  | .supervisor, .supervisor => (s.setAuthority .console).done
  | .supervisor, .supervisorFixed => (s.setAuthority .console).done
  | .supervisor, .maintenance => s.answered .refusedState
  | .console, .console => s.answered .refusedState
  | .console, .supervisor => s.answered .refusedState
  | .console, .supervisorFixed => s.answered .refusedState
  | .console, .maintenance => s.answered .refusedState

/-- HAND_TO_CONSOLE (R156). -/
def execHandToConsole (p : Port) (tag : Byte) (s : State) : Host.Outcome State Fault Refusal :=
  request p tag .handToConsole [] (State.ownHandToConsole p) s

end Sys2Proof.Machine
end

