-- ==== Sys2Proof/Machine/CircuitStop.lean ====
section
/-! DEFINITION. HALT, RESUME GROUP and the acknowledgement of anomalies (spec 08). -/

namespace Sys2Proof.Machine

/-- HALT (R124). -/
def State.ownHalt (s : State) : State × Answer :=
  if s.live then (s.arise .commanded).done else s.done

/-- HALT (R124): passed from both ports in every authority state (R157). -/
def execHalt (p : Port) (tag : Byte) (s : State) : Host.Outcome State Fault Refusal :=
  request p tag .halt [] State.ownHalt s

/-- COMMANDED and ANOMALY leave the cause set (R125). -/
def State.clearCauses (s : State) : State := { s with causes := { s.causes with commanded := false, anomaly := false } }

/-- The release group claim, and the return to OPERATING where no stop hold remains (R125, condition 9). -/
def State.resumed (s : State) (g : Nat) : State :=
  let s1 := s.releaseGroup g
  if s1.anyHold then s1 else { s1.clearCauses with circuit := .operating }.raise .circuit

/-- REFUSED_STATE to RESUME GROUP names the condition that refused it (R125). -/
def State.resumeRefused (s : State) (condition : Nat) : State × Answer := (s, .reply .refusedState [byte condition])

/-- RESUME GROUP, its conditions in order (R125). -/
def State.ownResumeGroup (g : Nat) (s : State) : State × Answer :=
  if !s.live then s.resumeRefused 1
  else if 3 < g then s.answered .refusedRange
  else if s.causes.stopIn then s.resumeRefused 3
  else if s.causes.key then s.resumeRefused 4
  else if s.anomalies.any (fun a => a.stop && !a.acked) then s.resumeRefused 5
  else if s.tableFull then s.resumeRefused 6
  else
    match s.circuit with
    | .operating => s.done
    | .census => s.clearCauses.done
    | .halted => (s.resumed g).done
    | .unconfigured => s.resumeRefused 1
    | .config => s.resumeRefused 1

/-- RESUME_GROUP (R125). -/
def execResumeGroup (p : Port) (tag group : Byte) (s : State) : Host.Outcome State Fault Refusal :=
  request p tag .resumeGroup [group] (withAuthority p (State.ownResumeGroup group.toNat)) s

/-- Whether a subject is in the range of its kind's class (R129, R131; 00, identifiers and ranges). -/
def State.subjectInRange (s : State) (k : AnomalyKind) (n : Nat) : Bool :=
  match k with
  | .unexpectedEntry => decide (n < s.layout.zoneCount)
  | .overspeed => decide (n < s.layout.zoneCount)
  | .overdue => decide (n < s.layout.zoneCount)
  | .stuck => decide (n < s.layout.zoneCount)
  | .sequenceFault => decide (1 ≤ n) && decide (n ≤ Config.trainSlots)
  | .strandedLaunch => decide (1 ≤ n) && decide (n ≤ Config.trainSlots)
  | .nodeLost => decide (n < Config.nodeKeys)
  | .eventsLost => decide (n < Config.nodeKeys)
  | .switchFault => decide (n < Config.switchKeys)
  | .switchDrift => decide (n < Config.switchKeys)
  | .censusMotion => decide (n < Config.gateKeys)

/-- One entry becomes acknowledged, and is removed where its resolving condition holds (R131, R130). -/
def State.acknowledged (s : State) (k : AnomalyKind) (n : Nat) : State :=
  State.sweep { s with anomalies := s.anomalies.map (fun a => if a.about k n then { a with acked := true } else a) }

/-- ACKNOWLEDGE ANOMALY, its conditions in order (R131). -/
def State.ownAcknowledgeAnomaly (kind n : Nat) (s : State) : State × Answer :=
  if !s.live then s.answered .refusedState
  else
    match AnomalyKind.ofCode kind with
    | none => s.answered .refusedRange
    | some k =>
      if !s.subjectInRange k n then s.answered .refusedRange
      else if !s.anomalies.any (fun a => a.about k n) then s.answered .refusedState
      else (s.acknowledged k n, .reply .done [byte (s.resolved k n).toNat])

/-- ACKNOWLEDGE_ANOMALY (R131). -/
def execAcknowledgeAnomaly (p : Port) (tag kind subject : Byte) (s : State) : Host.Outcome State Fault Refusal :=
  request p tag .acknowledgeAnomaly [kind, subject] (withAuthority p (State.ownAcknowledgeAnomaly kind.toNat subject.toNat)) s

/-- Every entry acknowledged, the resolved ones removed, TABLE_FULL cleared (R132). -/
def State.allAcknowledged (s : State) : State :=
  State.sweep { s with anomalies := s.anomalies.map (fun a => { a with acked := true }), tableFull := false }

/-- ACKNOWLEDGE ALL (R132): answered with the numbers removed and remaining. -/
def State.ownAcknowledgeAll (s : State) : State × Answer :=
  if !s.live then s.answered .refusedState
  else
    let s1 := s.allAcknowledged
    (s1, .reply .done [byte (s.anomalies.length - s1.anomalies.length), byte s1.anomalies.length])

/-- ACKNOWLEDGE_ALL (R132). -/
def execAcknowledgeAll (p : Port) (tag : Byte) (s : State) : Host.Outcome State Fault Refusal :=
  request p tag .acknowledgeAll [] (withAuthority p State.ownAcknowledgeAll) s

end Sys2Proof.Machine
end

