-- ==== Sys2Proof/Machine/Trains.lean ====
section
/-! DEFINITION. Placing, withdrawing and relocating trains, in census and in maintenance, and BEGIN OPERATION (R57 to R59,
R136 to R139). -/

namespace Sys2Proof.Machine

/-- The lowest-numbered empty slot (R42). -/
def State.emptySlot (s : State) : Option Nat :=
  ((List.range Config.trainSlots).map (fun i => i + 1)).find? (fun t => (s.trains.find t).isNone)

/-- One train more would leave no spare stoppable zone (R42). -/
def State.noSpareZone (s : State) : Bool := decide (s.layout.stoppableCount ≤ s.trains.length + 1)

/-- The record PLACE TRAIN makes (R57). -/
def Train.placed (tag : Byte) (z : Nat) : Train := ⟨tag, .standing, .none, [z], 0, false⟩

/-- PLACE TRAIN carried out: the record, and the seat claim in the same act (R57, R28). -/
def State.placed (s : State) (t : Nat) (tag : Byte) (z : Nat) : State :=
  let s1 : State := { s.updZone z (Zone.give .occupied t) with trains := s.trains.put t (Train.placed tag z) }
  s1.sweep

/-- The last conditions of PLACE TRAIN, the same in census and outside it (R57, 9 to 11; R136, 7 to 9). -/
def State.placeIn (s : State) (tag : Byte) (z : Nat) : State × Answer :=
  match s.emptySlot with
  | none => s.answered .refusedFull
  | some t =>
    if s.noSpareZone then s.answered .refusedState
    else (s.placed t tag z, .reply .done [byte t])

/-- PLACE TRAIN in CENSUS (R136). -/
def State.placeInCensus (s : State) (tag : Byte) (z : Nat) : State × Answer :=
  if s.layout.zoneCount ≤ z then s.answered .refusedRange
  else if !s.layout.stoppable z then s.answered .refusedState
  else if (s.holder z).isSome then s.answered .refusedHeld
  else if s.zoneState z ≠ some .free ∧ s.zoneState z ≠ some .suspect then s.answered .refusedState
  else if !s.nodesLinked z then s.answered .refusedState
  else if !s.switchSet z then s.answered .refusedState
  else s.placeIn tag z

/-- PLACE TRAIN outside census, from condition 3 (R57). -/
def State.placeInMaintenance (s : State) (tag : Byte) (z : Nat) : State × Answer :=
  if s.authority ≠ .maintenance then s.answered .refusedState
  else if s.layout.zoneCount ≤ z then s.answered .refusedRange
  else if !s.layout.isKind z .storage then s.answered .refusedState
  else if (s.holder z).isSome then s.answered .refusedHeld
  else if s.zoneState z ≠ some .free then s.answered .refusedState
  else if !s.nodesLinked z then s.answered .refusedState
  else s.placeIn tag z

def State.ownPlaceTrain (tag : Byte) (z : Nat) (s : State) : State × Answer :=
  match s.circuit with
  | .census => s.placeInCensus tag z
  | .operating => s.placeInMaintenance tag z
  | .halted => s.placeInMaintenance tag z
  | .unconfigured => s.answered .refusedState
  | .config => s.answered .refusedState

/-- PLACE_TRAIN (R57, R136). -/
def execPlaceTrain (p : Port) (tag trainTag zone : Byte) (s : State) : Host.Outcome State Fault Refusal :=
  request p tag .placeTrain [trainTag, zone] (withAuthority p (State.ownPlaceTrain trainTag zone.toNat)) s

/-- Whether a train number is 1 to 12. -/
def trainInRange (t : Nat) : Bool := decide (1 ≤ t) && decide (t ≤ Config.trainSlots)

/-- A train's record goes, with an entry it might have; its zones become what `f` makes of them without a holder (R58, R137). -/
def State.withdrawn (s : State) (t : Nat) (f : Zone → Zone) : State :=
  let s1 : State := { s.updZones (s.heldBy t (s.holdOf t)) f with
    trains := s.trains.del t
    waitQueue := s.waitQueue.filter (fun d => decide (d.train ≠ t)) }
  s1.sweep

/-- The hold list is a single STORAGE zone (R58, condition 7). -/
def State.standsInStorage (s : State) (r : Train) : Bool :=
  match r.hold with
  | [z] => s.layout.isKind z .storage
  | _ => false

/-- WITHDRAW TRAIN in CENSUS (R137): the zone is abandoned. -/
def State.withdrawInCensus (s : State) (t : Nat) : State × Answer :=
  if !trainInRange t then s.answered .refusedRange
  else
    match s.trains.find t with
    | none => s.answered .refusedState
    | some r =>
      if r.motion ≠ .standing then s.answered .refusedState
      else (s.withdrawn t (Zone.leave .suspect)).done

/-- WITHDRAW TRAIN outside census, from condition 3 (R58): the zone is released, and the Claim Engine evaluates. -/
def State.withdrawInMaintenance (s : State) (t : Nat) : State × Answer :=
  if s.authority ≠ .maintenance then s.answered .refusedState
  else if !trainInRange t then s.answered .refusedRange
  else
    match s.trains.find t with
    | none => s.answered .refusedState
    | some r =>
      if r.motion ≠ .standing ∨ r.claim ≠ .none then s.answered .refusedState
      else if !s.standsInStorage r then s.answered .refusedState
      else ((s.withdrawn t Zone.released).evaluate).done

def State.ownWithdrawTrain (t : Nat) (s : State) : State × Answer :=
  match s.circuit with
  | .census => s.withdrawInCensus t
  | .operating => s.withdrawInMaintenance t
  | .halted => s.withdrawInMaintenance t
  | .unconfigured => s.answered .refusedState
  | .config => s.answered .refusedState

/-- WITHDRAW_TRAIN (R58, R137). -/
def execWithdrawTrain (p : Port) (tag train : Byte) (s : State) : Host.Outcome State Fault Refusal :=
  request p tag .withdrawTrain [train] (withAuthority p (State.ownWithdrawTrain train.toNat)) s

/-- What relocation makes of the train's record (R59). -/
def Train.relocated (z : Nat) (r : Train) : Train :=
  { r with motion := .standing, hold := [z], relaunches := 0, stepGrant := false }

/-- RELOCATE TRAIN carried out (R59): the seat claim for the zone, an abandon claim for every other zone of the train, and the
claim dropped, in one act. -/
def State.relocated (s : State) (t z : Nat) : State :=
  let others := (s.heldBy t (s.holdOf t)).filter (fun y => decide (y ≠ z))
  let s1 := (s.updZones others (Zone.leave .suspect)).updZone z (Zone.give .occupied t)
  ((s1.updTrain t (Train.relocated z)).dropClaim t).sweep

/-- The conditions on the zone of RELOCATE TRAIN, the same in census and outside it (R59, 7 to 12; R138, 4 to 9). -/
def State.relocateTo (s : State) (t z : Nat) : State × Answer :=
  if !s.layout.stoppable z then s.answered .refusedState
  else if (s.holder z).any (fun u => decide (u ≠ t)) then s.answered .refusedHeld
  else if s.holder z = none ∧ s.zoneState z ≠ some .free ∧ s.zoneState z ≠ some .suspect then s.answered .refusedState
  else if !s.nodesLinked z then s.answered .refusedState
  else if !s.switchSet z then s.answered .refusedState
  else (s.relocated t z).done

/-- RELOCATE TRAIN in CENSUS (R138). -/
def State.relocateInCensus (s : State) (t z : Nat) : State × Answer :=
  if !trainInRange t || decide (s.layout.zoneCount ≤ z) then s.answered .refusedRange
  else
    match s.trains.find t with
    | none => s.answered .refusedState
    | some r =>
      if r.motion ≠ .standing ∧ r.motion ≠ .untracked then s.answered .refusedState
      else s.relocateTo t z

/-- RELOCATE TRAIN outside census, from condition 3 (R59). -/
def State.relocateInMaintenance (s : State) (t z : Nat) : State × Answer :=
  if s.authority ≠ .maintenance then s.answered .refusedState
  else if !trainInRange t || decide (s.layout.zoneCount ≤ z) then s.answered .refusedRange
  else
    match s.trains.find t with
    | none => s.answered .refusedState
    | some r =>
      if r.motion ≠ .untracked ∧ !r.motion.isStranded then s.answered .refusedState
      else s.relocateTo t z

def State.ownRelocateTrain (t z : Nat) (s : State) : State × Answer :=
  match s.circuit with
  | .census => s.relocateInCensus t z
  | .operating => s.relocateInMaintenance t z
  | .halted => s.relocateInMaintenance t z
  | .unconfigured => s.answered .refusedState
  | .config => s.answered .refusedState

/-- RELOCATE_TRAIN (R59, R138). -/
def execRelocateTrain (p : Port) (tag train zone : Byte) (s : State) : Host.Outcome State Fault Refusal :=
  request p tag .relocateTrain [train, zone] (withAuthority p (State.ownRelocateTrain train.toNat zone.toNat)) s

/-! ## BEGIN OPERATION -/

/-- The bit number of the first present stop cause (R139, condition 6). -/
def Causes.first (c : Causes) : Option Nat :=
  if c.stopIn then some 0 else if c.key then some 1 else if c.commanded then some 2 else if c.anomaly then some 3 else none

/-- The condition of R139 that refuses BEGIN OPERATION, with the two items its body names; none where nothing refuses it. -/
def State.beginRefusal (s : State) : Option (Nat × Byte × Byte) :=
  if s.circuit ≠ .census then some (1, 0xFF, 0xFF)
  else
    match s.zones.least (fun _ x => decide (x.state = .suspect)) with
    | some z => some (2, byte z, 0xFF)
    | none =>
      match s.nodes.least (fun n _ => s.layout.mapped n && !s.linked n) with
      | some n => some (3, byte n, 0xFF)
      | none =>
        match s.switches.least (fun k _ => (switchPosition s.switches k).isNone) with
        | some k => some (4, byte k, 0xFF)
        | none =>
          match s.trains.least (fun _ r => decide (r.motion = .untracked)) with
          | some t => some (5, byte t, 0xFF)
          | none =>
            match s.causes.first with
            | some b => some (6, byte b, 0xFF)
            | none =>
              match s.anomalies.find? (fun a => !a.acked) with
              | some a => some (7, byte a.kind.code, byte a.subject)
              | none => none

/-- BEGIN OPERATION (R139). -/
def State.ownBeginOperation (s : State) : State × Answer :=
  match s.beginRefusal with
  | some (c, i, j) => (s, .reply .refusedState [byte c, i, j])
  | none => ({ s with circuit := .operating }.raise .circuit).done

/-- BEGIN_OPERATION (R139). -/
def execBeginOperation (p : Port) (tag : Byte) (s : State) : Host.Outcome State Fault Refusal :=
  request p tag .beginOperation [] (withAuthority p State.ownBeginOperation) s

end Sys2Proof.Machine
end

