-- ==== Sys2Proof/Machine/Claims.lean ====
section
/-! DEFINITION. The requests on claims: DISPATCH, CANCEL DISPATCH, STEP TRAIN, RELAUNCH (section 4.6). -/

namespace Sys2Proof.Machine

/-- GRANTED where the train's claim is now granted, otherwise QUEUED (R63). -/
def State.claimAnswer (s : State) (t : Nat) : State × Answer :=
  if (s.trains.find t).any (fun r => decide (r.claim = .granted)) then s.answered .granted else s.answered .queued

/-- DISPATCH (R74). -/
def State.ownDispatch (t : Nat) (s : State) : State × Answer :=
  if s.circuit ≠ .operating then s.answered .refusedState
  else if s.authority = .maintenance then s.answered .refusedState
  else if !trainInRange t then s.answered .refusedRange
  else
    match s.trains.find t with
    | none => s.answered .refusedState
    | some r =>
      if r.motion ≠ .standing ∨ r.claim ≠ .none then s.answered .refusedState
      else if !(s.headOf r.hold).any (fun z => s.layout.yard z) then s.answered .refusedState
      else
        match s.enterClaim t false with
        | some s1 => s1.evaluate.claimAnswer t
        | none => s.answered .refusedState

/-- DISPATCH (R74). -/
def execDispatch (p : Port) (tag train : Byte) (s : State) : Host.Outcome State Fault Refusal :=
  request p tag .dispatch [train] (withAuthority p (State.ownDispatch train.toNat)) s

/-- The Wait Queue entry of a train. -/
def State.entryOf (s : State) (t : Nat) : Option Claim := s.waitQueue.find? (fun c => decide (c.train = t))

/-- CANCEL DISPATCH (R75). -/
def State.ownCancelDispatch (t : Nat) (s : State) : State × Answer :=
  if s.circuit ≠ .operating ∧ s.circuit ≠ .halted then s.answered .refusedState
  else if !trainInRange t then s.answered .refusedRange
  else
    match s.trains.find t with
    | none => s.answered .refusedState
    | some r =>
      match r.claim with
      | .none => s.answered .refusedState
      | .granted => s.answered .late
      | .pending =>
        match s.entryOf t with
        | some c =>
          if c.cls = .course ∧ c.step = false then s.answered .refusedState
          else if c.step then ((s.dropClaim t).dropStep t).done
          else (s.dropClaim t).done
        | none => s.answered .refusedState

/-- CANCEL_DISPATCH (R75). -/
def execCancelDispatch (p : Port) (tag train : Byte) (s : State) : Host.Outcome State Fault Refusal :=
  request p tag .cancelDispatch [train] (withAuthority p (State.ownCancelDispatch train.toNat)) s

/-- The step grant becomes yes (R53). -/
def State.giveStep (s : State) (t : Nat) : State := s.updTrain t (fun r => { r with stepGrant := true })

/-- STEP TRAIN (R77). -/
def State.ownStepTrain (t : Nat) (s : State) : State × Answer :=
  if s.circuit ≠ .halted then s.answered .refusedState
  else if s.authority ≠ .maintenance then s.answered .refusedState
  else if !trainInRange t then s.answered .refusedRange
  else
    match s.trains.find t with
    | none => s.answered .refusedState
    | some r =>
      if r.motion = .cleared ∧ r.claim = .granted then (s.giveStep t).answered .granted
      else if r.motion = .standing ∧ r.claim = .none then
        match (s.giveStep t).enterClaim t true with
        | some s1 => s1.evaluate.claimAnswer t
        | none => s.answered .refusedState
      else s.answered .refusedState

/-- STEP_TRAIN (R77). -/
def execStepTrain (p : Port) (tag train : Byte) (s : State) : Host.Outcome State Fault Refusal :=
  request p tag .stepTrain [train] (withAuthority p (State.ownStepTrain train.toNat)) s

/-- The relaunch claim (R51), and what the Circuit Stop Unit then finds resolved. -/
def State.relaunchClaim (s : State) (t : Nat) : State :=
  (s.updTrain t (fun r => { r with relaunches := 0, motion := .standing })).sweep

/-- RELAUNCH (R79). A train whose claim status is not NONE, which does not arise (R48), is evaluated with the claim it has. -/
def State.ownRelaunch (t : Nat) (s : State) : State × Answer :=
  if s.circuit ≠ .operating ∧ s.circuit ≠ .halted then s.answered .refusedState
  else if !trainInRange t then s.answered .refusedRange
  else
    match s.trains.find t with
    | none => s.answered .refusedState
    | some r =>
      if r.motion ≠ .stranded .launchLimit then s.answered .refusedState
      else
        match (s.relaunchClaim t).enterClaim t false with
        | some s1 => s1.evaluate.claimAnswer t
        | none => (s.relaunchClaim t).evaluate.claimAnswer t

/-- RELAUNCH (R79). -/
def execRelaunch (p : Port) (tag train : Byte) (s : State) : Host.Outcome State Fault Refusal :=
  request p tag .relaunch [train] (withAuthority p (State.ownRelaunch train.toNat)) s

end Sys2Proof.Machine
end

