-- ==== Sys2Proof/Machine/Indicators.lean ====
section
/-! DEFINITION. Indicator assignments and notice masks (R159, R160, R162). -/

namespace Sys2Proof.Machine

/-- ASSIGN INDICATOR, its conditions in order (R159). -/
def State.ownAssignIndicator (line z condition sense : Nat) (s : State) : State × Answer :=
  if !s.live then s.answered .refusedState
  else
    match Condition.ofCode condition, Sense.ofCode sense with
    | some c, some n =>
      if Config.indicatorLines ≤ line ∨ (c ≠ Condition.circuitOperating ∧ s.layout.zoneCount ≤ z) then s.answered .refusedRange
      else if c = Condition.permitGo ∧ s.layout.isKind z .run then s.answered .refusedState
      else { s with indicators := s.indicators.put line ⟨if c = Condition.circuitOperating then none else some z, c, n⟩ }.done
    | _, _ => s.answered .refusedRange

/-- ASSIGN_INDICATOR (R159). -/
def execAssignIndicator (p : Port) (tag line zone condition sense : Byte) (s : State) : Host.Outcome State Fault Refusal :=
  request p tag .assignIndicator [line, zone, condition, sense]
    (withAuthority p (State.ownAssignIndicator line.toNat zone.toNat condition.toNat sense.toNat)) s

/-- RELEASE INDICATOR (R160). -/
def State.ownReleaseIndicator (line : Nat) (s : State) : State × Answer :=
  if Config.indicatorLines ≤ line then s.answered .refusedRange
  else { s with indicators := s.indicators.del line }.done

/-- RELEASE_INDICATOR (R160). -/
def execReleaseIndicator (p : Port) (tag line : Byte) (s : State) : Host.Outcome State Fault Refusal :=
  request p tag .releaseIndicator [line] (withAuthority p (State.ownReleaseIndicator line.toNat)) s

/-- SET NOTICE MASK (R162): a nonzero first byte names a notice not among the eight (R164). -/
def State.ownSetNoticeMask (p : Port) (high low : Byte) (s : State) : State × Answer :=
  if high ≠ 0 then s.answered .refusedRange
  else (s.setPort p { s.port p with mask := low }).done

/-- SET_NOTICE_MASK (R162): both ports may send it in every authority state (R157). -/
def execSetNoticeMask (p : Port) (tag high low : Byte) (s : State) : Host.Outcome State Fault Refusal :=
  request p tag .setNoticeMask [high, low] (State.ownSetNoticeMask p high low) s

end Sys2Proof.Machine
end

