-- ==== Sys2Proof/Machine/Formats.lean ====
section
/-! DEFINITION. Spec 13: the CRC-8 check, the frames the part sends, the record images, and the reading of a trackside answer. -/

namespace Sys2Proof.Machine

/-! ## The check value (section 13.1) -/

/-- One bit of the division by x^8 + x^2 + x + 1. -/
def crcBit (c : Byte) : Byte := if c.msb then (c <<< 1) ^^^ 0x07 else c <<< 1

/-- One byte, most significant bit first. -/
def crcByte (c b : Byte) : Byte :=
  crcBit (crcBit (crcBit (crcBit (crcBit (crcBit (crcBit (crcBit (c ^^^ b))))))))

/-- The check over a run of bytes: initial value 0, no final inversion. -/
def crc8 (bs : List Byte) : Byte := bs.foldl crcByte 0

/-! ## Frames the part sends -/

/-- A body of more than 32 bytes is not sent (R165); the length byte is the body's length. -/
def answerFrame (tag : Byte) (r : Result) (more : Bool) (free : Nat) (status : Byte) (body : List Byte) : List Byte :=
  let content := [byte body.length, tag, byte r.code, byte (128 * more.toNat + free), status] ++ body
  [Config.portSync] ++ content ++ [crc8 content]

/-- A request frame as a sender builds it (section 13.2); the model's tests use it. -/
def requestFrame (q : Request) : List Byte :=
  let content := [byte q.args.length, q.tag, q.code] ++ q.args
  [Config.portSync] ++ content ++ [crc8 content]

/-- The switch command of a poll: NONE, or the target of a move (R115, R144). -/
def switchCommand (w : Option SwitchState) : Byte :=
  match w with
  | some (.moving .main) => 1
  | some (.moving .branch) => 2
  | some .unproven => 0
  | some .setMain => 0
  | some .setBranch => 0
  | some .faulted => 0
  | none => 0

/-- The permit a poll carries on a node's channel: that of the zone that names them, or HOLD (R144). -/
def State.channelGo (s : State) (n c : Nat) : Bool :=
  (s.layout.permitZoneAt n c).any (fun z => decide (s.permit z = some true))

/-- The poll frame to a node at an address, as things stand (R144, R167). -/
def State.pollFrame (s : State) (n address : Nat) : List Byte :=
  let served := (s.layout.switchAt n).bind (fun e => (s.switches.find e.1).map (fun w => w.state))
  let content := [byte address, byte ((s.channelGo n 0).toNat + 2 * (s.channelGo n 1).toNat), switchCommand served,
    byte (decide (s.circuit = .operating)).toNat]
  [Config.lineSync] ++ content ++ [crc8 content]

/-! ## Record images (section 13.3) -/

/-- A number, or 0xFF for none. -/
def orNone (n : Option Nat) : Byte := (n.map byte).getD 0xFF

def ZoneTimer.image : ZoneTimer → List Byte
  | .idle => [0, 0, 0]
  | .running .runTransit e _ => 1 :: halfBytes e
  | .running .trailingHold e _ => 2 :: halfBytes e

/-- The kind code of a zone. -/
def Layout.kindCode (l : Layout) (z : Nat) : Nat := ((l.kindOf z).map (fun k => k.code)).getD 0

/-- The zone image (R40). -/
def State.zoneImage (s : State) (z : Nat) (x : Zone) : List Byte :=
  [byte z, byte (s.layout.kindCode z), byte ((s.layout.groupOf z).getD 0), byte x.state.code, orNone x.holder,
   byte x.stopHold.toNat, orNone ((s.permit z).map (fun g => g.toNat))] ++ x.timer.image

/-- The code of the state a zone of a hold list is in. -/
def State.zoneStateCode (s : State) (z : Nat) : Nat := ((s.zoneState z).map (fun x => x.code)).getD 0

/-- The train image (R60). -/
def State.trainImage (s : State) (t : Nat) (r : Train) : List Byte :=
  [byte t, r.tag, byte r.motion.code, byte r.motion.strandCode, byte r.claim.code, byte r.relaunches, byte r.stepGrant.toNat,
   orNone (s.headOf r.hold), orNone r.hold.head?, byte r.hold.length] ++
  r.hold.flatMap (fun z => [byte z, byte (s.zoneStateCode z)])

/-- The first zone of an extension that is not FREE. -/
def State.firstNotFree (s : State) (e : List (Nat × Nat)) : Option Nat :=
  (e.find? (fun q => decide (s.zoneState q.1 ≠ some .free))).map (fun q => q.1)

/-- The extension an entry asks for: that of its train's head zone. -/
def State.claimExtension (s : State) (c : Claim) : Option (List (Nat × Nat)) :=
  (s.head c.train).bind (fun z => s.extension z)

/-- The wait reason of an entry (R81). -/
def State.waitReason (s : State) (c : Claim) : WaitReason :=
  if !(s.motion c.train).any (fun m => decide (m ≠ .recovering) && decide (m ≠ .untracked) && !m.isStranded) then .motion
  else
    match s.claimExtension c with
    | none => .unresolved
    | some e =>
      if (s.firstNotFree e).isSome then .zone
      else if !s.grantable e then .route
      else if decide (Config.holdMax < (s.trains.find c.train).elim 0 (fun r => r.hold.length) + e.length) then .listFull
      else .ready

/-- The zone the reason ZONE names. -/
def State.waitZone (s : State) (c : Claim) : Option Nat :=
  if s.waitReason c = .zone then (s.claimExtension c).bind (fun e => s.firstNotFree e) else none

/-- The Wait Queue entry image (R81). -/
def State.claimImage (s : State) (c : Claim) : List Byte :=
  let e := ((s.claimExtension c).map (fun e => e.map (fun q => q.1))).getD []
  [byte c.train, byte c.cls.code, c.order, byte c.step.toNat, byte (s.waitReason c).code, orNone (s.waitZone c), byte e.length] ++
  e.map byte

/-- The four bytes of a count of milliseconds, most significant first. -/
def millisBytes (t : Millis) : List Byte :=
  [t.extractLsb' 24 8, t.extractLsb' 16 8, t.extractLsb' 8 8, t.extractLsb' 0 8]

/-- The anomaly image (R133). The table names bits 0 to 2 of the flags and does not say what the others are: 0 (DESIGN CHOICE, log 26). -/
def State.anomalyImage (s : State) (a : Anomaly) : List Byte :=
  [byte a.kind.code, byte a.subject, byte (a.stop.toNat + 2 * a.acked.toNat + 4 * (s.resolved a.kind a.subject).toNat)] ++
  millisBytes a.time

def SwitchState.target : SwitchState → Option Position
  | .moving q => some q
  | .unproven => none
  | .setMain => none
  | .setBranch => none
  | .faulted => none

def SwitchTimer.image : SwitchTimer → List Byte
  | .running e => 1 :: halfBytes e
  | .idle => [0, 0, 0]
  | .expired => [0, 0, 0]

/-- The switch image (R119). -/
def switchImage (k : Nat) (r : SwitchRec) (w : Switch) : List Byte :=
  [byte k, byte r.zone, byte r.fork.code, byte r.node, byte w.state.code, orNone (w.state.target.map (fun q => q.code))] ++
  w.timer.image

/-- The node image (R149). -/
def State.nodeImage (s : State) (n : Nat) (x : Node) : List Byte :=
  [byte n, byte ((s.layout.nodes.find n).getD 0), byte x.state.code, byte x.good, byte x.miss,
   orNone (x.expected.map (fun q => q.toNat)), orNone ((s.layout.switchAt n).map (fun e => e.1))]

/-- The READ STATUS body on a port (R155). The table names bits 0 to 2 of the inputs and does not say what the others are: 0 (DESIGN CHOICE,
log 26). -/
def State.statusImage (s : State) (p : Port) : List Byte :=
  [byte s.circuit.code, byte s.authority.code, byte s.causes.bits, byte s.store.state.code] ++ millisBytes s.timebase ++
  [byte (if s.live then s.layout.zoneCount else 0), byte s.trains.length, byte s.waitQueue.length, byte s.anomalies.length,
   byte s.tableFull.toNat,
   byte (s.stopInPin.toNat + 2 * s.keyMaint.toNat + 4 * (decide (s.circuit = .operating)).toNat),
   byte (s.port p).discards]

/-! ## Reading a trackside answer (R167) -/

/-- A gate event as an answer carries it (section 13.5). -/
structure LineEvent where
  seq : Seq
  channel : Nat
  kind : EventKind
deriving DecidableEq, Repr

/-- An event's two bytes: the first with 0 in bits 7 to 6, the second a known kind. -/
def lineEventOf (hi lo : Byte) : Option LineEvent :=
  match EventKind.ofCode lo.toNat with
  | some k => if hi.toNat < 64 then some ⟨hi.extractLsb' 0 4, (hi.extractLsb' 4 2).toNat, k⟩ else none
  | none => none

/-- The events of an answer, where every one is well formed. -/
def lineEventsOf : List Byte → Option (List LineEvent)
  | [] => some []
  | hi :: lo :: r =>
    match lineEventOf hi lo, lineEventsOf r with
    | some e, some es => some (e :: es)
    | _, _ => none
  | [_] => none

/-- How the reading of an answer stands: not at its end yet, ended as a miss, or ended as a good answer. -/
inductive LineAnswer where
  | incomplete
  | miss
  | good (report : Report) (events : List LineEvent)
deriving DecidableEq, Repr

/-- The answer in the bytes after its sync, to a poll of this address. -/
def answerAfterSync (address : Nat) : List Byte → LineAnswer
  | a :: r :: c :: rest =>
    if c.toNat > Config.eventMax then .miss
    else if rest.length < 2 * c.toNat + 1 then .incomplete
    else
      let body := rest.take (2 * c.toNat)
      let check := (rest.drop (2 * c.toNat)).head?
      match Report.ofCode r.toNat, lineEventsOf body with
      | some q, some es =>
        if check = some (crc8 ([a, r, c] ++ body)) ∧ a.toNat = address then .good q es else .miss
      | _, _ => .miss
  | [_, _] => .incomplete
  | [_] => .incomplete
  | [] => .incomplete

/-- The answer in the bytes received since the poll: those before a sync byte are discarded. -/
def lineAnswer (address : Nat) : List Byte → LineAnswer
  | [] => .incomplete
  | b :: r => if b = Config.lineSync then answerAfterSync address r else lineAnswer address r

end Sys2Proof.Machine
end

