-- ==== Sys2Proof/Machine/LayoutRequests.lean ====
section
/-! DEFINITION. Loading, committing and storing a layout, and the node map (R10 to R18, R148). -/

namespace Sys2Proof.Machine

/-- Some train is CLEARED, MOVING or RECOVERING (R10, condition 5). -/
def State.trainUnderWay (s : State) : Bool :=
  s.trains.any (fun e => decide (e.2.motion = .cleared) || decide (e.2.motion = .moving) || decide (e.2.motion = .recovering))

/-- ENTER CONFIG carried out (R10). -/
def State.configEntered (s : State) : State :=
  { s.discardLive with
    indicators := []
    causes := { s.causes with commanded := false, anomaly := false }
    circuit := .config }.raise .circuit

/-- ENTER CONFIG, its conditions in order (R10). -/
def State.ownEnterConfig (s : State) : State × Answer :=
  if s.store.state = .writing then s.answered .busy
  else
    match s.circuit with
    | .config => s.done
    | .operating => s.answered .refusedState
    | .unconfigured => s.configEntered.done
    | .census =>
      if s.authority ≠ .maintenance ∨ s.trainUnderWay then s.answered .refusedState else s.configEntered.done
    | .halted =>
      if s.authority ≠ .maintenance ∨ s.trainUnderWay then s.answered .refusedState else s.configEntered.done

/-- ENTER_CONFIG (R10). -/
def execEnterConfig (p : Port) (tag : Byte) (s : State) : Host.Outcome State Fault Refusal :=
  request p tag .enterConfig [] (withAuthority p State.ownEnterConfig) s

/-- LOAD LAYOUT RECORD (R11). -/
def State.ownLoadLayoutRecord (kind : Byte) (image : List Byte) (s : State) : State × Answer :=
  if s.circuit = .config then
    match recordOfImage kind image with
    | some r => { s with layout := s.layout.store r }.done
    | none => s.answered .refusedRange
  else s.answered .refusedState

/-- LOAD_LAYOUT_RECORD (R11). The port's step refuses a kind other than 0 to 4 and an image of another length (R164). -/
def execLoadLayoutRecord (p : Port) (tag kind : Byte) (image : List Byte) (s : State) : Host.Outcome State Fault Refusal :=
  request p tag .loadLayoutRecord (kind :: image)
    (if portPasses RequestCode.loadLayoutRecord.code (kind :: image) then withAuthority p (State.ownLoadLayoutRecord kind image)
     else fun s => s.answered .refusedRange) s

/-- CLEAR LAYOUT (R12). -/
def State.ownClearLayout (s : State) : State × Answer :=
  if s.circuit = .config then { s with layout := .empty }.done else s.answered .refusedState

/-- CLEAR_LAYOUT (R12). -/
def execClearLayout (p : Port) (tag : Byte) (s : State) : Host.Outcome State Fault Refusal :=
  request p tag .clearLayout [] (withAuthority p State.ownClearLayout) s

/-- COMMIT LAYOUT (R14, R16). -/
def State.ownCommitLayout (s : State) : State × Answer :=
  if s.circuit = .config then
    match s.layout.invalid with
    | some f => (s, .reply .invalid [byte f.check, byte f.kind.code, byte f.key])
    | none => (s.buildLive.raise .circuit).done
  else s.answered .refusedState

/-- COMMIT_LAYOUT (R14). -/
def execCommitLayout (p : Port) (tag : Byte) (s : State) : Host.Outcome State Fault Refusal :=
  request p tag .commitLayout [] (withAuthority p State.ownCommitLayout) s

/-- STORE LAYOUT (R17): the whole Layout Table is captured as it stands. -/
def State.ownStoreLayout (s : State) : State × Answer :=
  if s.store.state = .writing then s.answered .busy
  else if s.live then { s with store := ⟨.writing, s.layout, true⟩ }.done
  else s.answered .refusedState

/-- STORE_LAYOUT (R17). -/
def execStoreLayout (p : Port) (tag : Byte) (s : State) : Host.Outcome State Fault Refusal :=
  request p tag .storeLayout [] (withAuthority p State.ownStoreLayout) s

/-- STORE_WRITE_COMPLETE (R17). Where no write is in flight none completes (log 4). -/
def execStoreWriteComplete (s : State) : Host.Outcome State Fault Refusal :=
  act (fun s =>
    if s.store.state = .writing then { s with store := ⟨.valid, s.store.image, true⟩ }.raise .storeDone else s) s

/-- The store that holds no layout the part will load (section 1.6). -/
def Store.erased : Store := ⟨.invalid, .empty, false⟩

/-- ERASE STORE (R18). -/
def State.ownEraseStore (s : State) : State × Answer :=
  if s.store.state = .writing then s.answered .busy
  else if s.authority ≠ .maintenance then s.answered .refusedState
  else { s with store := .erased }.done

/-- ERASE_STORE (R18). -/
def execEraseStore (p : Port) (tag : Byte) (s : State) : Host.Outcome State Fault Refusal :=
  request p tag .eraseStore [] (withAuthority p State.ownEraseStore) s

/-- REMAP NODE carried out (R148): the new address, the node DOWN, a poll of it outstanding no longer counted. -/
def State.remapped (s : State) (n address : Nat) : State :=
  { s with
    layout := { s.layout with nodes := s.layout.nodes.put n address }
    nodes := s.nodes.upd n (fun _ => ⟨.down, 0, 0, none⟩)
    poll := s.poll.map (fun q => if q.node = n then { q with counted := false } else q) }

/-- REMAP NODE, its conditions in order (R148). -/
def State.ownRemapNode (n address : Nat) (s : State) : State × Answer :=
  if !s.live then s.answered .refusedState
  else if s.authority ≠ .maintenance then s.answered .refusedState
  else if ¬(n < Config.nodeKeys ∧ 1 ≤ address ∧ address ≤ 31) then s.answered .refusedRange
  else if !s.layout.mapped n || s.linked n then s.answered .refusedState
  else if s.layout.nodes.any (fun e => decide (e.1 ≠ n) && decide (e.2 = address)) then s.answered .refusedState
  else if (s.layout.affectedZones n).any (fun z => (s.holder z).isSome) then s.answered .refusedHeld
  else if (s.layout.affectedZones n).any (fun z =>
      decide (s.zoneState z ≠ some .suspect) && decide (s.zoneState z ≠ some .outOfService)) then s.answered .refusedState
  else (s.remapped n address).done

/-- REMAP_NODE (R148). -/
def execRemapNode (p : Port) (tag node address : Byte) (s : State) : Host.Outcome State Fault Refusal :=
  request p tag .remapNode [node, address] (withAuthority p (State.ownRemapNode node.toNat address.toNat)) s

end Sys2Proof.Machine
end

