-- ==== Sys2Proof/Machine/Inputs.lean ====
section
/-! DEFINITION. Hard reset (R134, R19) and the inputs STOP IN and KEY (R122). -/

namespace Sys2Proof.Machine

/-- A write in flight is interrupted and leaves the store INVALID (R19). -/
def Store.interrupted (x : Store) : Store :=
  match x.state with
  | .writing => .erased
  | .valid => x
  | .invalid => x

/-- The layout the part loads at hard reset: that of a VALID store whose check value is good and which passes the ten checks
(R19). -/
def Store.loads (x : Store) : Option Layout :=
  if x.state = .valid ∧ x.checkGood ∧ x.image.invalid = none then some x.image else none

/-- What a hard reset leaves whatever the store holds (R134): no live state, the ports and the Indicator Unit empty, the causes
and the authority as the inputs stand. -/
def State.bare (s : State) : State :=
  { s.discardLive with
    resetPin := false
    indicators := []
    nextSerial := 0
    supervisor := .reset
    console := .reset
    causes := ⟨s.stopInPin, s.keyMaint, false, false⟩
    authority := if s.keyMaint then .maintenance else .console
    layout := .empty
    store := .erased
    circuit := .unconfigured }

/-- The hard reset as one act (R134, R19). -/
def State.hardReset (s : State) : State :=
  match s.store.interrupted.loads with
  | some l => { s.bare with layout := l, store := s.store }.buildLive
  | none => s.bare

/-- HARD_RESET (R134): RESET is released, or power-up completes. -/
def execHardReset (s : State) : Host.Outcome State Fault Refusal := .next s.hardReset.settle

/-- RESET_ASSERTED (R134): the outputs go low, the line is not driven, indicator assignments, notice flags and masks are gone
(R158, R161), and a store write is interrupted (R19). The rest is discarded by the hard reset that follows. -/
def execResetAsserted (s : State) : Host.Outcome State Fault Refusal :=
  .next (State.settle { s with
    resetPin := true
    store := s.store.interrupted
    poll := none
    indicators := []
    supervisor := { s.supervisor with flags := 0, mask := 0 }
    console := { s.console with flags := 0, mask := 0 } })

/-- An input changes: its level is what it is even while RESET is asserted; the part takes the change otherwise (R122; log 5). -/
def inputChange (level : State → State) (taken : State → State) (s : State) : Host.Outcome State Fault Refusal :=
  .next (if s.resetPin then level s else (taken (level s)).settle)

/-- STOP_IN_ASSERTED (R122). -/
def execStopInAsserted (s : State) : Host.Outcome State Fault Refusal :=
  inputChange (fun s => { s with stopInPin := true }) (fun s => s.arise .stopIn) s

/-- STOP_IN_DEASSERTED (R122). -/
def execStopInDeasserted (s : State) : Host.Outcome State Fault Refusal :=
  inputChange (fun s => { s with stopInPin := false }) (fun s => { s with causes := { s.causes with stopIn := false } }) s

/-- KEY_TURNED_TO_MAINT (R122, R156): the cause arises and the authority becomes MAINTENANCE in the same act. -/
def execKeyTurnedToMaint (s : State) : Host.Outcome State Fault Refusal :=
  inputChange (fun s => { s with keyMaint := true }) (fun s => (s.arise .key).setAuthority .maintenance) s

/-- The authority after KEY is turned to RUN: from MAINTENANCE to CONSOLE (R156). -/
def State.keyReleased (s : State) : State :=
  let s1 : State := { s with causes := { s.causes with key := false } }
  if s1.authority = .maintenance then s1.setAuthority .console else s1

/-- KEY_TURNED_TO_RUN (R122, R156). -/
def execKeyTurnedToRun (s : State) : Host.Outcome State Fault Refusal :=
  inputChange (fun s => { s with keyMaint := false }) State.keyReleased s

end Sys2Proof.Machine
end

