-- ==== Sys2Proof/Machine/Ports.lean ====
section
/-! DEFINITION. The port links (R150, R151, R164) and the sending of answers (R152 to R154, R165). -/

namespace Sys2Proof.Machine

/-! ## Receiving request frames -/

/-- A frame that has all its bytes: sync, A, tag, code, A argument bytes, check (R164). -/
def PortState.frameArrived (x : PortState) : List Byte → PortState
  | _ :: a :: tag :: code :: rest =>
    let args := rest.take a.toNat
    if (rest.drop a.toNat).head? = some (crc8 ([a, tag, code] ++ args)) then x.arrive ⟨tag, code, args⟩
    else x.refuse tag .badFrame
  | _ => x

/-- One byte arrives (R164). -/
def PortState.receiveByte (x : PortState) (b : Byte) : PortState :=
  match x.rx with
  | [] => if b = Config.portSync then { x with rx := [b] } else x
  | [_] =>
    if b.toNat > Config.argumentMax then { x with rx := [] }.refuse 0 .badFrame
    else { x with rx := x.rx ++ [b] }
  | _ :: a :: _ =>
    if x.rx.length + 1 < 5 + a.toNat then { x with rx := x.rx ++ [b] }
    else { x with rx := [] }.frameArrived (x.rx ++ [b])

/-- A frame cut short fails its check; the refusal carries the tag byte if it was received, and 0 otherwise (R164). -/
def PortState.cut (x : PortState) : PortState :=
  match x.rx with
  | [] => x
  | _ :: _ :: tag :: _ => { x with rx := [] }.refuse tag .badFrame
  | [_, _] => { x with rx := [] }.refuse 0 .badFrame
  | [_] => { x with rx := [] }.refuse 0 .badFrame

/-- REQUEST_FRAME_ARRIVAL: these bytes arrive, each in turn (R151, R164). -/
def execRequestFrameArrival (p : Port) (bytes : List Byte) (s : State) : Host.Outcome State Fault Refusal :=
  act (fun s => s.setPort p (bytes.foldl PortState.receiveByte (s.port p))) s

/-- A frame being sent of which `n` bytes have gone out. -/
def Sending.shift (n : Nat) (w : Sending) : Sending := { w with sent := min w.frame.length (max w.sent n) }

/-- SPI_DESELECT: a request frame inside the selection fails its check; an answer frame keeps its unsent bytes (R150). -/
def execSpiDeselect (shifted : Nat) (s : State) : Host.Outcome State Fault Refusal :=
  act (fun s => { s with supervisor := { s.supervisor.cut with sending := s.supervisor.sending.map (Sending.shift shifted) } }) s

/-- CONSOLE_BYTE_GAP: the frame being received fails its check (R150). -/
def execConsoleByteGap (s : State) : Host.Outcome State Fault Refusal :=
  act (fun s => { s with console := s.console.cut }) s

/-- CONSOLE_FRAMING_ERROR: the frame being received fails its check (R150). The byte with the error is not received (log 15). -/
def execConsoleFramingError (s : State) : Host.Outcome State Fault Refusal :=
  act (fun s => { s with console := s.console.cut }) s

/-! ## Sending answers -/

/-- One frame of an answer as it is filled (R165): result, body, whether more follow, and what the answer is after it. -/
structure FrameFill where
  result : Result
  body : List Byte
  more : Bool
  next : Answer
deriving DecidableEq, Repr

/-- A single VOID frame marked END (R154). -/
def voidFrame (a : Answer) : FrameFill := ⟨.void, [], false, a⟩

/-- The Wait Queue entries that follow the one sent last, in service order (R81). -/
def State.claimsAfter (s : State) (after : Option (ClaimClass × Nat)) : List Claim :=
  (serviceOrder s.waitQueue).filter (fun c =>
    match after with
    | none => true
    | some (.course, n) => decide (c.cls = .yard) || decide (n < c.serial)
    | some (.yard, n) => decide (c.cls = .yard) && decide (n < c.serial))

/-- The Anomaly Table entries that follow the one sent last (R133). -/
def State.anomaliesAfter (s : State) (after : Option Nat) : List Anomaly :=
  s.anomalies.filter (fun a => after.all (fun n => decide (n < a.serial)))

/-- The train records in slots above the one sent last (R60). -/
def State.trainsAfter (s : State) (after : Nat) : List (Nat × Train) := s.trains.filter (fun e => decide (after < e.1))

/-- The next frame of an answer, as the records stand (R154, R165). READ ZONES of numbers that no zone has sends in a committed circuit
one VOID frame for each number, as R40 has it, and not the single VOID frame of R154 for a stream without a record (DEDUCED, log 25). READ
LAYOUT RECORD shows the record held when its request was taken (R13; DEDUCED, log 13). -/
def State.nextFrame (s : State) (p : Port) (a : Answer) : FrameFill :=
  match a with
  | .reply r b => ⟨r, b, false, a⟩
  | .status => ⟨.done, s.statusImage p, false, a⟩
  | .zone z =>
    match s.zones.find z with
    | some x => ⟨.done, s.zoneImage z x, false, a⟩
    | none => voidFrame a
  | .train t =>
    match s.trains.find t with
    | some r => ⟨.done, s.trainImage t r, false, a⟩
    | none => voidFrame a
  | .switch k =>
    match s.layout.switches.find k, s.switches.find k with
    | some r, some w => ⟨.done, switchImage k r w, false, a⟩
    | _, _ => voidFrame a
  | .node n =>
    match s.nodes.find n with
    | some x => ⟨.done, s.nodeImage n x, false, a⟩
    | none => voidFrame a
  | .layoutRecord _ _ taken =>
    match taken with
    | some b => ⟨.done, b, false, a⟩
    | none => voidFrame a
  | .notices => ⟨.done, [(s.port p).flags], false, a⟩
  | .zones n last =>
    if s.live then
      match s.zones.find n with
      | some x => ⟨.done, s.zoneImage n x, decide (n < last), .zones (n + 1) last⟩
      | none => ⟨.void, [], decide (n < last), .zones (n + 1) last⟩
    else voidFrame a
  | .trains after =>
    match s.trainsAfter after with
    | (t, r) :: rest => ⟨.done, s.trainImage t r, !rest.isEmpty, .trains t⟩
    | [] => voidFrame a
  | .waitQueue after =>
    match s.claimsAfter after with
    | c :: rest => ⟨.done, s.claimImage c, !rest.isEmpty, .waitQueue (some (c.cls, c.serial))⟩
    | [] => voidFrame a
  | .anomalies after =>
    match s.anomaliesAfter after with
    | e :: rest => ⟨.done, s.anomalyImage e, !rest.isEmpty, .anomalies (some e.serial)⟩
    | [] => voidFrame a

/-- What sending a frame of this answer changes in the same act: READ NOTICES clears the port's flags (R162). -/
def PortState.onFill (a : Answer) (x : PortState) : PortState :=
  match a with
  | .notices => { x with flags := 0 }
  | .reply _ _ => x
  | .status => x
  | .zone _ => x
  | .train _ => x
  | .switch _ => x
  | .node _ => x
  | .layoutRecord _ _ _ => x
  | .zones _ _ => x
  | .trains _ => x
  | .waitQueue _ => x
  | .anomalies _ => x

/-- The tag of the request a port is answering. -/
def PortState.tag (x : PortState) : Byte := (x.queue.head?.map (fun q => q.tag)).getD 0

/-- The oldest arrival refusal goes out (R151, R153). It leaves the refusal list at the first byte of its frame, so that a further
rejection then finds room: the spec does not say when it leaves (DESIGN CHOICE, log 24). -/
def State.sendRefusal (s : State) (p : Port) (r : ArrivalRefusal) (rest : List ArrivalRefusal) : State :=
  let x := s.port p
  s.setPort p { x with
    refusals := rest
    sending := some ⟨answerFrame r.tag r.result false x.freeSlots (s.statusByte p) [], 1, false⟩ }

/-- The next frame of the port's answer goes out (R154, R165). -/
def State.sendAnswer (s : State) (p : Port) (a : Answer) : State :=
  let f := s.nextFrame p a
  let s1 := s.setPort p ((s.port p).onFill a)
  let x := s1.port p
  s1.setPort p { x with
    answer := some f.next
    sending := some ⟨answerFrame x.tag f.result f.more x.freeSlots (s1.statusByte p) f.body, 1, !f.more⟩ }

/-- ANSWER_FRAME_SEND: the oldest arrival refusal, or else the next frame of the answer (R151). Nothing goes out where nothing
waits, nor while the frame that ends an answer is still going out (log 14). -/
def execAnswerFrameSend (p : Port) (s : State) : Host.Outcome State Fault Refusal :=
  act (fun s =>
    if (s.port p).sending.any (fun w => w.ends) then s
    else
      match (s.port p).refusals with
      | r :: rest => s.sendRefusal p r rest
      | [] =>
        match (s.port p).answer with
        | some a => s.sendAnswer p a
        | none => s) s

/-- The frame going out has gone out in whole: at the end of an answer its request's slot empties (R151, R152). -/
def PortState.complete (x : PortState) : PortState :=
  match x.sending with
  | none => x
  | some w => if w.ends then { x with queue := x.queue.tail, answer := none, sending := none } else { x with sending := none }

/-- ANSWER_COMPLETE (R152). -/
def execAnswerComplete (p : Port) (s : State) : Host.Outcome State Fault Refusal :=
  act (fun s => s.setPort p (s.port p).complete) s

/-- UNKNOWN_REQUEST_CODE: a request whose code is not in the catalogue, or whose argument bytes have not the length its code
requires, is taken in its turn and answered REFUSED_RANGE by the port (R152, step 1). A request the port's step passes is taken
by its own command: here it arrives, unless it is already the oldest (log 2). -/
def execUnknownRequestCode (p : Port) (tag code : Byte) (args : List Byte) (s : State) : Host.Outcome State Fault Refusal :=
  act (fun s =>
    if portPasses code args then
      if (s.port p).queue.head? = some ⟨tag, code, args⟩ then s else s.setPort p ((s.port p).arrive ⟨tag, code, args⟩)
    else s.present p ⟨tag, code, args⟩ (fun s => s.answered .refusedRange)) s

end Sys2Proof.Machine
end

