-- ==== Sys2Proof/Machine/Reads.lean ====
section
/-! DEFINITION. The reads: taken from both ports in every state (R157), range-checked when taken, filled when sent (R165). -/

namespace Sys2Proof.Machine

/-- A read whose number is in range is answered by a frame filled when it is sent; otherwise REFUSED_RANGE. -/
def readIn (inRange : Bool) (a : Answer) : Owner := fun s => if inRange then (s, a) else s.answered .refusedRange

/-- READ_STATUS (R155). -/
def execReadStatus (p : Port) (tag : Byte) (s : State) : Host.Outcome State Fault Refusal :=
  request p tag .readStatus [] (readIn true .status) s

/-- READ_ZONE (R40). -/
def execReadZone (p : Port) (tag zone : Byte) (s : State) : Host.Outcome State Fault Refusal :=
  request p tag .readZone [zone] (readIn (decide (zone.toNat < Config.zoneKeys)) (.zone zone.toNat)) s

/-- READ_ZONES (R40). -/
def execReadZones (p : Port) (tag first count : Byte) (s : State) : Host.Outcome State Fault Refusal :=
  request p tag .readZones [first, count]
    (readIn (decide (first.toNat < Config.zoneKeys ∧ 1 ≤ count.toNat ∧ first.toNat + count.toNat ≤ Config.zoneKeys))
      (.zones first.toNat (first.toNat + count.toNat - 1))) s

/-- READ_TRAIN (R60). -/
def execReadTrain (p : Port) (tag train : Byte) (s : State) : Host.Outcome State Fault Refusal :=
  request p tag .readTrain [train]
    (readIn (decide (1 ≤ train.toNat ∧ train.toNat ≤ Config.trainSlots)) (.train train.toNat)) s

/-- READ_TRAINS (R60). -/
def execReadTrains (p : Port) (tag : Byte) (s : State) : Host.Outcome State Fault Refusal :=
  request p tag .readTrains [] (readIn true (.trains 0)) s

/-- READ_WAIT_QUEUE (R81). -/
def execReadWaitQueue (p : Port) (tag : Byte) (s : State) : Host.Outcome State Fault Refusal :=
  request p tag .readWaitQueue [] (readIn true (.waitQueue none)) s

/-- READ_ANOMALIES (R133). -/
def execReadAnomalies (p : Port) (tag : Byte) (s : State) : Host.Outcome State Fault Refusal :=
  request p tag .readAnomalies [] (readIn true (.anomalies none)) s

/-- READ_SWITCH (R119). -/
def execReadSwitch (p : Port) (tag switch : Byte) (s : State) : Host.Outcome State Fault Refusal :=
  request p tag .readSwitch [switch] (readIn (decide (switch.toNat < Config.switchKeys)) (.switch switch.toNat)) s

/-- READ_NODE (R149). -/
def execReadNode (p : Port) (tag node : Byte) (s : State) : Host.Outcome State Fault Refusal :=
  request p tag .readNode [node] (readIn (decide (node.toNat < Config.nodeKeys)) (.node node.toNat)) s

/-- READ LAYOUT RECORD, its kind and key checked when the request is taken, and its record kept as held then (R13, log 13). -/
def State.layoutAnswer (s : State) (kind key : Nat) : State × Answer :=
  match RecordKind.ofCode kind with
  | none => s.answered .refusedRange
  | some k => readIn (k.keyInRange key) (.layoutRecord k key (s.layout.body k key)) s

/-- READ_LAYOUT_RECORD (R13). -/
def execReadLayoutRecord (p : Port) (tag kind key : Byte) (s : State) : Host.Outcome State Fault Refusal :=
  request p tag .readLayoutRecord [kind, key] (fun s => s.layoutAnswer kind.toNat key.toNat) s

/-- READ_NOTICES (R162). -/
def execReadNotices (p : Port) (tag : Byte) (s : State) : Host.Outcome State Fault Refusal :=
  request p tag .readNotices [] (readIn true .notices) s

end Sys2Proof.Machine
end

