-- ==== Sys2Proof/Machine/Switches.lean ====
section
/-! DEFINITION. Transfer switches (spec 07): SET SWITCH, position reports, drift, and the end of a move that ran out of time. -/

namespace Sys2Proof.Machine

def Position.setState : Position → SwitchState
  | .main => .setMain
  | .branch => .setBranch

/-- A move begins: MOVING with its target, the switch timer started (R114, R111). -/
def State.beginMove (s : State) (k : Nat) (q : Position) : State := s.updSwitch k (fun _ => ⟨.moving q, .running 0⟩)

/-- SET SWITCH, its conditions in order (R114). -/
def State.ownSetSwitch (k position : Nat) (s : State) : State × Answer :=
  if !s.live then s.answered .refusedState
  else if Config.switchKeys ≤ k then s.answered .refusedRange
  else
    match Position.ofCode position, s.layout.switches.find k, s.switches.find k with
    | some q, some r, some w =>
      match w.state with
      | .moving _ => s.answered .busy
      | _ =>
        if (s.holder r.zone).isSome then s.answered .refusedHeld
        else if !s.linked r.node then s.answered .refusedState
        else if w.state.position = some q then s.done
        else (s.beginMove k q).done
    | _, _, _ => s.answered .refusedRange

/-- SET_SWITCH (R114). -/
def execSetSwitch (p : Port) (tag switch position : Byte) (s : State) : Host.Outcome State Fault Refusal :=
  request p tag .setSwitch [switch, position] (withAuthority p (State.ownSetSwitch switch.toNat position.toNat)) s

/-- A switch becomes SET: the Circuit Stop Unit re-examines its entries, the Claim Engine evaluates (R112). -/
def State.switchBecomes (s : State) (k : Nat) (q : Position) : State :=
  (s.updSwitch k (fun _ => ⟨q.setState, .idle⟩)).sweep.evaluate

/-- Drift (R117). -/
def State.drift (s : State) (k zone : Nat) : State :=
  let s1 := s.updSwitch k (fun w => { w with state := .faulted })
  match s1.holder zone with
  | some _ => (s1.disturb zone).sweep.anomaly .switchDrift k true
  | none => s1.anomaly .switchDrift k false

/-- The position a report gives, if it gives one. -/
def Report.position : Report → Option Position
  | .main => some .main
  | .branch => some .branch
  | .moving => none
  | .unknown => none

/-- The Switch Controller takes a position report (R113, R115, R117). -/
def State.takeReport (s : State) (k : Nat) (r : SwitchRec) (q : Report) : State :=
  match s.switches.find k with
  | none => s
  | some w =>
    match w.state with
    | .unproven =>
      match q.position with
      | some x => s.switchBecomes k x
      | none => s
    | .moving target => if q.position = some target then (s.switchBecomes k target).raise .switchDone else s
    | .setMain => if q.position = some .main then s else s.drift k r.zone
    | .setBranch => if q.position = some .branch then s else s.drift k r.zone
    | .faulted => s

/-- SWITCH_TIMER_EXPIRY: the expiry of a switch timer is taken against the switch as it stands (R116). Where no expiry is
waiting to be taken there is none (log 4). -/
def execSwitchTimerExpiry (switch : Nat) (s : State) : Host.Outcome State Fault Refusal :=
  act (fun s =>
    match s.switches.find switch with
    | some ⟨st, .expired⟩ =>
      match st with
      | .moving _ => (s.updSwitch switch (fun _ => ⟨.faulted, .idle⟩)).anomaly .switchFault switch false
      | _ => s.updSwitch switch (fun w => { w with timer := .idle })
    | _ => s) s

end Sys2Proof.Machine
end

