-- ==== Sys2Proof/Machine/Timers.lean ====
section
/-! DEFINITION. The timebase, the timers and their expiries (spec 06). -/

namespace Sys2Proof.Machine

/-- One more millisecond, saturating (R104). -/
def elapsedNext (e : Nat) : Nat := min (e + 1) Config.elapsedMax

/-- The elapsed time at which a zone timer of this use expires: max transit or trailing hold (R108, R109). -/
def Layout.timerLimit (l : Layout) (z : Nat) : TimerUse → Option Nat
  | .runTransit => (l.runOf z).map (fun q => q.2)
  | .trailingHold => (l.launchOf z).map (fun q => q.1)

/-- A zone timer at a tick: its one expiry falls due when the elapsed time reaches the limit (R104). -/
def ZoneTimer.tick (limit : TimerUse → Option Nat) : ZoneTimer → ZoneTimer
  | .idle => .idle
  | .running u e .notDue =>
    .running u (elapsedNext e) (if (limit u).any (fun m => decide (m ≤ elapsedNext e)) then .due else .notDue)
  | .running u e .due => .running u (elapsedNext e) .due
  | .running u e .reported => .running u (elapsedNext e) .reported

/-- A switch timer at a tick: at its expiry it becomes idle, the report of the expiry not yet taken (R111). -/
def SwitchTimer.tick (limit : Option Nat) : SwitchTimer → SwitchTimer
  | .idle => .idle
  | .expired => .expired
  | .running e => if limit.any (fun m => decide (m ≤ elapsedNext e)) then .expired else .running (elapsedNext e)

/-- Each millisecond while the timebase runs (R103, R104, R111). -/
def State.tick (s : State) : State :=
  { s with
    timebase := s.timebase + 1
    zones := s.zones.map (fun e => (e.1, { e.2 with timer := e.2.timer.tick (s.layout.timerLimit e.1) }))
    switches := s.switches.map (fun e =>
      (e.1, { e.2 with timer := e.2.timer.tick ((s.layout.switches.find e.1).map (fun r => r.moveTimeout)) })) }

/-- TIMEBASE_TICK (R103): in UNCONFIGURED and CONFIG the timebase is held. -/
def execTimebaseTick (s : State) : Host.Outcome State Fault Refusal := act (fun s => if s.live then s.tick else s) s

/-- Whether a zone's timer runs for this use with an expiry to be taken. -/
def State.expiryDue (s : State) (z : Nat) (u : TimerUse) : Bool :=
  match s.zones.find z with
  | some x =>
    match x.timer with
    | .running u' _ .due => decide (u' = u)
    | _ => false
  | none => false

/-- The expiry of a timer is taken: it is not reported again (R104). -/
def ZoneTimer.reported : ZoneTimer → ZoneTimer
  | .idle => .idle
  | .running u e _ => .running u e .reported

/-- An expiry is taken: the holder is stranded with the cause, and the anomaly is raised whatever that finds (R108, R109). -/
def State.takeExpiry (s : State) (z : Nat) (c : StrandCause) (k : AnomalyKind) : State :=
  let s1 := s.updZone z (fun x => { x with timer := x.timer.reported })
  let s2 :=
    match s1.holder z with
    | some t => s1.move t (Motion.strand c)
    | none => s1
  s2.sweep.anomaly k z true

/-- RUN_TRANSIT_EXPIRY (R108). Where no such expiry is due there is none to take (log 4). -/
def execRunTransitExpiry (zone : Nat) (s : State) : Host.Outcome State Fault Refusal :=
  act (fun s => if s.expiryDue zone .runTransit then s.takeExpiry zone .overdue .overdue else s) s

/-- TRAILING_HOLD_EXPIRY (R109). -/
def execTrailingHoldExpiry (zone : Nat) (s : State) : Host.Outcome State Fault Refusal :=
  act (fun s => if s.expiryDue zone .trailingHold then s.takeExpiry zone .stuck .stuck else s) s

end Sys2Proof.Machine
end

