-- ==== Sys2Proof/Machine/Passage.lean ====
section
/-! DEFINITION. Passage tracking (spec 05): a gate event is classified against its subject train, taken as one act, and its work
handed on in the order of R82. -/

namespace Sys2Proof.Machine

/-- How an event is classified (R83): the subject train, where there is one, and what the event is for it. -/
inductive EventClass where
  | phantom
  | untrackedSubject (t : Nat)
  | advance (t : Nat)
  | leave (t : Nat)
  | reverse (t : Nat)
  | rollback (t : Nat)
  | wrongFork (t : Nat)
  | unexpected (t : Nat)
  | fault (t : Nat)
deriving DecidableEq, Repr

/-- The subject train of an event from zone `a` to zone `b` (R83). -/
def State.subject (s : State) (k : EventKind) (a b : Nat) : Option Nat :=
  match k with
  | .fwdHead => s.holder a
  | .fwdTail => s.holder a
  | .revHead => (s.holder b).or (s.holder a)
  | .revTail => (s.holder b).or (s.holder a)

/-- MOVING, or STRANDED with cause OVERDUE or STUCK. -/
def Motion.underWay : Motion → Bool
  | .moving => true
  | .stranded .overdue => true
  | .stranded .stuck => true
  | .stranded .launchLimit => false
  | .standing => false
  | .cleared => false
  | .recovering => false
  | .untracked => false

/-- The classification of an event against a subject train that is not UNTRACKED (R83). -/
def State.classifyFor (s : State) (k : EventKind) (a b t : Nat) (r : Train) : EventClass :=
  let next := entryAfter r.hold a
  let rear : Bool := decide (r.hold.head? = some a)
  let head := s.headOf r.hold
  match k with
  | .fwdHead =>
    if head = some a then
      if next.any (fun n => s.isReserved n) then
        if next = some b then
          if r.motion = .cleared ∨ r.motion.underWay then .advance t else .fault t
        else .wrongFork t
      else .unexpected t
    else .fault t
  | .fwdTail =>
    if rear ∧ s.zoneState a = some .occupied ∧ next = some b ∧ s.zoneState b = some .occupied ∧
        (r.motion.underWay ∨ (r.motion = .recovering ∧ s.layout.isKind a .launch)) then .leave t
    else .fault t
  | .revHead =>
    if s.layout.isKind a .launch ∧ rear ∧ s.zoneState a = some .trailing ∧ next = some b ∧ head = some b ∧ r.motion.underWay
    then .reverse t else .fault t
  | .revTail =>
    if s.layout.isKind a .launch ∧ rear ∧ s.zoneState a = some .occupied ∧ next = some b ∧ head = some b ∧
        (r.motion.underWay ∨ r.motion = .recovering) then .rollback t
    else .fault t

/-- The classification of an event (R83). -/
def State.classify (s : State) (k : EventKind) (a b : Nat) : EventClass :=
  match s.subject k a b with
  | none => .phantom
  | some t =>
    match s.trains.find t with
    | none => .phantom
    | some r => if r.motion = .untracked then .untrackedSubject t else s.classifyFor k a b t r

/-- What an event's zone and motion claims and timer orders leave to hand on (R82): the state, whether the Claim Engine is to
evaluate, the train an automatic course claim is entered for, whether that claim's refusal is a sequence fault (R88), the
anomalies, and whether a train has arrived in a yard zone. -/
structure Handover where
  state : State
  evaluate : Bool
  auto : Option Nat
  refusalFaults : Bool
  anomalies : List (AnomalyKind × Nat × Bool)
  arrived : Bool

/-- A train PENDING that has left STRANDED for MOVING or STANDING is a trigger of R65. -/
def State.woken (before after : State) (t : Nat) : Bool :=
  (before.motion t).any (fun m => m.isStranded) &&
  (after.trains.find t).any (fun r => decide (r.claim = .pending) && (decide (r.motion = .moving) || decide (r.motion = .standing)))

/-- The LAUNCH zone a train holds TRAILING whose crest gate is `g` (R86). -/
def State.crestOf (s : State) (g t : Nat) : Option Nat :=
  (s.trains.find t).bind (fun r => r.hold.find? (fun z =>
    (s.layout.launchOf z).any (fun q => decide (q.2.2 = g)) && decide (s.zoneState z = some .trailing)))

/-- The release of a launch zone that is the crest passage: the relaunch count returns to 0 (R51). -/
def State.crestRelease (s : State) (t l : Nat) : Option State :=
  (s.release t [l]).map (fun s1 => s1.updTrain t (fun r => { r with relaunches := 0 }))

/-- Whether stopping a zone's timer as an exit finds a transit shorter than the zone's min transit (R107). -/
def State.shortTransit (s : State) (z : Nat) : Bool :=
  match s.layout.runOf z, s.zones.find z with
  | some (least, _), some x =>
    match x.timer with
    | .running .runTransit e _ => decide (e < least)
    | .running .trailingHold _ _ => false
    | .idle => false
  | _, _ => false

/-- Stop a RUN zone's transit timer. -/
def State.stopRun (s : State) (z : Nat) : State := if s.layout.isKind z .run then s.stopTimer z else s

/-- Start a RUN zone's transit timer. -/
def State.startRun (s : State) (z : Nat) : State := if s.layout.isKind z .run then s.startTimer z .runTransit else s

/-- An expected FWD_HEAD (R85 to R88); none where the occupy claim is returned unchanged. -/
def State.actAdvance (s : State) (g a b t : Nat) : Option Handover :=
  match s.occupy b t with
  | none => none
  | some s1 =>
    let s2 := s1.move t Motion.advance
    let crest := (s2.crestOf g t).bind (fun l => s2.crestRelease t l)
    let s3 := crest.getD s2
    let ends := s.layout.stoppable b
    let s4 := if ends then (s3.dropClaim t).dropStep t else s3
    some
      { state := (s4.stopRun a).startRun b
        evaluate := crest.isSome || s.woken s4 t
        auto := if s.layout.stoppableCourse b then some t else none
        refusalFaults := true
        anomalies := if s4.shortTransit a then [(.overspeed, a, true)] else []
        arrived := false }

/-- Whether a train is wholly in its head zone, and the stand claim is due there (R90). -/
def State.standDue (s : State) (t : Nat) : Bool :=
  (s.trains.find t).any (fun r =>
    match r.hold.filter (fun z => !s.isReserved z) with
    | [h] => s.layout.yard h || (s.layout.stoppableCourse h && decide (r.claim = .pending))
    | _ => false)

/-- The stand claim where it is due (R90). -/
def State.standIfDue (s : State) (t : Nat) : State := if s.standDue t then s.move t Motion.stand else s

/-- An expected FWD_TAIL (R89, R90, R92); none where the release or trail claim is returned unchanged. -/
def State.actLeave (s : State) (a t : Nat) : Option Handover :=
  let launch := s.layout.isKind a .launch
  let climbing := launch && decide (s.head t = s.layout.zoneAbove a)
  let taken := if climbing then (s.trail a t).map (fun s1 => (s1.move t Motion.rock).startTimer a .trailingHold)
    else if launch then s.crestRelease t a else s.release t [a]
  match taken with
  | none => none
  | some s1 =>
    let s2 := s1.standIfDue t
    some
      { state := s2
        evaluate := (!climbing && s.frees t [a]) || s.woken s2 t
        auto := none
        refusalFaults := false
        anomalies := []
        arrived := decide (s2.motion t ≠ s1.motion t) && (s2.head t).any (fun h => s.layout.yard h) }

/-- An expected REV_HEAD (R91); none where the occupy claim is returned unchanged. -/
def State.actReverse (s : State) (a t : Nat) : Option Handover :=
  match s.occupy a t with
  | none => none
  | some s1 =>
    some
      { state := (s1.move t Motion.recover).stopTimer a
        evaluate := false
        auto := none
        refusalFaults := false
        anomalies := []
        arrived := false }

/-- What the rollback claim makes of a train, with relaunch limit `m` (R48, R94). -/
def Train.rollback (m : Nat) (r : Train) : Train :=
  if r.relaunches < m then { r with relaunches := r.relaunches + 1, motion := .standing }
  else { r with motion := .stranded .launchLimit }

/-- An expected REV_TAIL: a rollback (R93, R94); none where the release is returned unchanged. -/
def State.actRollback (s : State) (a b t : Nat) : Option Handover :=
  match s.trains.find t, s.layout.launchOf a with
  | some r, some (_, m, _) =>
    match s.release t (r.hold.drop 1) with
    | none => none
    | some s1 =>
      let within := decide (r.relaunches < m)
      let s2 := ((s1.updTrain t (fun r => r.rollback m)).dropClaim t).dropStep t
      some
        { state := s2.stopRun b
          evaluate := s.frees t (r.hold.drop 1)
          auto := if within then some t else none
          refusalFaults := false
          anomalies := if within then [] else [(.strandedLaunch, t, false)]
          arrived := false }
  | _, _ => none

/-- An unexpected entry of `t` into `b` (R96), after what a wrong fork has released (R95). -/
def State.enterUnexpected (s : State) (b t : Nat) : State :=
  let s1 := s.markSuspect b (some t)
  let s2 := match s.holder b with
    | some u => s1.untrack u
    | none => s1
  s2.untrack t

def State.actUnexpected (s : State) (b t : Nat) : Handover :=
  { state := s.enterUnexpected b t
    evaluate := false
    auto := none
    refusalFaults := false
    anomalies := [(.unexpectedEntry, b, true)]
    arrived := false }

/-- The RESERVED entries of a train's hold list. -/
def State.reservedOf (s : State) (t : Nat) : List Nat :=
  ((s.trains.find t).map (fun r => r.hold.filter (fun z => s.isReserved z))).getD []

/-- A wrong-fork entry (R95). -/
def State.actWrongFork (s : State) (b t : Nat) : Handover :=
  let released := s.release t (s.reservedOf t)
  { state := (released.getD s).enterUnexpected b t
    evaluate := released.isSome && s.frees t (s.reservedOf t)
    auto := none
    refusalFaults := false
    anomalies := [(.unexpectedEntry, b, true)]
    arrived := false }

/-- The zone a phantom event enters (R97). -/
def EventKind.entered (k : EventKind) (a b : Nat) : Nat :=
  match k with
  | .fwdHead => b
  | .fwdTail => b
  | .revHead => a
  | .revTail => a

/-- A phantom event (R97). -/
def State.actPhantom (s : State) (k : EventKind) (a b : Nat) : Handover :=
  { state := s.disturb (k.entered a b)
    evaluate := false
    auto := none
    refusalFaults := false
    anomalies := [(.unexpectedEntry, k.entered a b, true)]
    arrived := false }

/-- The marks of a sequence fault of `t` (R98). -/
def State.faultMarks (s : State) (a b t : Nat) : State :=
  let own := s.holdOf t
  let s1 := own.foldl (fun s z => s.markSuspect z none) s
  let s2 := ([a, b].filter (fun z => decide (z ∉ own))).foldl State.disturb s1
  s2.untrack t

/-- A sequence fault of `t` (R98). -/
def State.actFault (s : State) (a b t : Nat) : Handover :=
  { state := s.faultMarks a b t
    evaluate := false
    auto := none
    refusalFaults := false
    anomalies := [(.sequenceFault, t, true)]
    arrived := false }

/-- An event of an UNTRACKED train (R99). -/
def State.actUntracked (s : State) (a b : Nat) : Handover :=
  let zs := [a, b].filter (fun z => decide (s.zoneState z ≠ some .suspect))
  { state := zs.foldl State.disturb s
    evaluate := false
    auto := none
    refusalFaults := false
    anomalies := (zs.filter (fun z => (s.holder z).isNone)).map (fun z => (.unexpectedEntry, z, true))
    arrived := false }

/-- An event of the CENSUS (R84). -/
def State.actCensus (s : State) (g a b : Nat) : Handover :=
  { state := (s.disturb a).disturb b
    evaluate := false
    auto := none
    refusalFaults := false
    anomalies := [(.censusMotion, g, false)]
    arrived := false }

/-- The act of an event as classified; none where its principal claim is returned unchanged (R100). -/
def State.actAs (s : State) (c : EventClass) (k : EventKind) (g a b : Nat) : Option Handover :=
  match c with
  | .phantom => some (s.actPhantom k a b)
  | .untrackedSubject _ => some (s.actUntracked a b)
  | .advance t => s.actAdvance g a b t
  | .leave t => s.actLeave a t
  | .reverse t => s.actReverse a t
  | .rollback t => s.actRollback a b t
  | .wrongFork t => some (s.actWrongFork b t)
  | .unexpected t => some (s.actUnexpected b t)
  | .fault t => some (s.actFault a b t)

/-- The act of an event. When the principal claim is returned unchanged, the event is classified once more and, when that is
unchanged too, is a sequence fault of its subject train, or a phantom (R100). No other claim comes between (log 10), so the
second classification is the first one. -/
def State.actEvent (s : State) (k : EventKind) (g a b : Nat) : Handover :=
  match s.actAs (s.classify k a b) k g a b with
  | some h => h
  | none =>
    match s.subject k a b with
    | some t => s.actFault a b t
    | none => s.actPhantom k a b

/-- The report to the Claim Engine (R82, R65): the automatic claim is entered first, then one evaluation. The second part says
whether a claim was refused entry. -/
def Handover.report (h : Handover) (s : State) : State × Bool :=
  match h.auto with
  | some t =>
    match s.enterClaim t false with
    | some s1 => (s1.evaluate, false)
    | none => (if h.evaluate then s.evaluate else s, true)
  | none => (if h.evaluate then s.evaluate else s, false)

def State.anomalyAll (s : State) (l : List (AnomalyKind × Nat × Bool)) : State :=
  l.foldl (fun s q => s.anomaly q.1 q.2.1 q.2.2) s

/-- Hand an event's work on, in the order of R82. -/
def Handover.finish (h : Handover) (a b : Nat) : State :=
  let (s1, refused) := h.report h.state.sweep
  let s2 :=
    match h.auto with
    | some t => if refused && h.refusalFaults then ((s1.faultMarks a b t).sweep).anomaly .sequenceFault t true else s1
    | none => s1
  let s3 := s2.anomalyAll h.anomalies
  if h.arrived then s3.raise .trainArrived else s3

/-- The Passage Tracker takes a gate event (R82, R84). -/
def State.takeEvent (s : State) (g : Nat) (r : GateRec) (k : EventKind) : State :=
  match s.circuit with
  | .census => (s.actCensus g r.src r.dst).finish r.src r.dst
  | .operating => (s.actEvent k g r.src r.dst).finish r.src r.dst
  | .halted => (s.actEvent k g r.src r.dst).finish r.src r.dst
  | .unconfigured => s
  | .config => s

end Sys2Proof.Machine
end

