-- ==== Sys2Proof/Machine/Trackside.lean ====
section
/-! DEFINITION. The trackside line (spec 10): polling, counting, the sequence check, loss, and the taking of an answer. -/

namespace Sys2Proof.Machine

/-! ## Polling (R142, R144) -/

/-- The mapped node polled next: the lowest above the node polled last, or else the lowest of all (R142). -/
def State.nextPolled (s : State) : Option Nat :=
  (s.nodes.least (fun n _ => s.layout.mapped n && s.polled.all (fun m => decide (m < n)))).or
    (s.nodes.least (fun n _ => s.layout.mapped n))

/-- A poll goes out to a node (R144, R167). -/
def State.sendPoll (s : State) (n : Nat) : State :=
  let address := (s.layout.nodes.find n).getD 0
  { s with polled := some n, poll := some ⟨n, address, true, s.pollFrame n address, []⟩ }

/-- POLL_SEND (R142). No poll is sent while one is outstanding, nor where no node is polled (log 4). -/
def execPollSend (s : State) : Host.Outcome State Fault Refusal :=
  act (fun s =>
    if s.live && s.poll.isNone then
      match s.nextPolled with
      | some n => s.sendPoll n
      | none => s
    else s) s

/-! ## Counting and loss (R143, R147) -/

def Layout.linkUp (l : Layout) : Nat := (l.circuit.map (fun c => c.linkUp)).getD Config.defaultLinkUp

def Layout.linkDown (l : Layout) : Nat := (l.circuit.map (fun c => c.linkDown)).getD Config.defaultLinkDown

/-- A node in a new state: counts 0, expectation absent (R141). -/
def Node.enter (st : NodeState) : Node := ⟨st, 0, 0, none⟩

/-- The node becomes LINKED (R143). -/
def State.becomeLinked (s : State) (n : Nat) : State := ((s.updNode n (fun _ => Node.enter .linked)).sweep).raise .link

/-- A good answer is counted (R143). -/
def State.countGood (s : State) (n : Nat) : State :=
  match s.nodes.find n with
  | none => s
  | some x =>
    match x.state with
    | .linked => s.updNode n (fun x => { x with miss := 0 })
    | .down =>
      if s.layout.linkUp ≤ x.good + 1 then s.becomeLinked n
      else s.updNode n (fun x => { x with good := x.good + 1, miss := 0 })
    | .lost =>
      if s.layout.linkUp ≤ x.good + 1 then s.becomeLinked n
      else s.updNode n (fun x => { x with good := x.good + 1, miss := 0 })
    | .unmapped => s

/-- The holders of the zones a node serves. -/
def State.affectedHolders (s : State) (n : Nat) : List Nat := (s.layout.affectedZones n).filterMap (fun z => s.holder z)

/-- The line suspect claim with the untrack claims and R56 (R147, steps 1 and 2). -/
def State.lineSuspect (s : State) (n : Nat) : State :=
  let s1 := s.updZones (s.layout.affectedZones n) Zone.lineLost
  (s.affectedHolders n).foldl (fun s t => (s.untrack t).keepOrder t) s1

/-- A loss: a node LOST, or a gap in its events (R147). -/
def State.loss (s : State) (n : Nat) (k : AnomalyKind) : State :=
  ((s.lineSuspect n).sweep).anomaly k n (!(s.affectedHolders n).isEmpty)

/-- A miss is counted (R143). -/
def State.countMiss (s : State) (n : Nat) : State :=
  match s.nodes.find n with
  | none => s
  | some x =>
    match x.state with
    | .linked =>
      if s.layout.linkDown ≤ x.miss + 1 then ((s.updNode n (fun _ => Node.enter .lost)).raise .link).loss n .nodeLost
      else s.updNode n (fun x => { x with miss := x.miss + 1, good := 0 })
    | .down => s.updNode n (fun x => { x with miss := min (x.miss + 1) Config.countMax, good := 0 })
    | .lost => s.updNode n (fun x => { x with miss := min (x.miss + 1) Config.countMax, good := 0 })
    | .unmapped => s

/-! ## The taking of an answer (R145, R146) -/

/-- The events of an answer, one at a time: the sequence check, then the Passage Tracker; at a gap the rest is discarded (R146). -/
def State.takeEvents (s : State) (n : Nat) : List LineEvent → State
  | [] => s
  | e :: r =>
    match s.nodes.find n with
    | none => s
    | some x =>
      if x.expected.all (fun q => decide (q = e.seq)) then
        let s1 := s.updNode n (fun x => { x with expected := some (e.seq + 1) })
        let s2 :=
          match s1.layout.gateAt n e.channel with
          | some (g, rec) => s1.takeEvent g rec e.kind
          | none => s1
        s2.takeEvents n r
      else (s.updNode n (fun x => { x with expected := none })).loss n .eventsLost

/-- The position report goes to the Switch Controller where the node serves a switch (R113). -/
def State.takeNodeReport (s : State) (n : Nat) (q : Report) : State :=
  match s.layout.switchAt n with
  | some (k, r) => s.takeReport k r q
  | none => s

/-- A good answer of a node: counted, and taken where the node is LINKED once it has been counted (R145). -/
def State.takeGood (s : State) (n : Nat) (q : Report) (es : List LineEvent) : State :=
  let s1 := s.countGood n
  if s1.linked n then (s1.takeEvents n es).takeNodeReport n q else s1

/-- Bytes of an answer arrive (R142, R167). Bytes that arrive with no poll outstanding are discarded; an answer not yet
complete leaves the poll outstanding (log 18); an ending that REMAP NODE has set aside is not counted (R148). Bytes are read as the
answer of the poll outstanding, whichever poll they answer: the line gives no way to tell a late answer of an earlier poll (DESIGN
CHOICE, log 23). -/
def State.takeAnswer (s : State) (bytes : List Byte) : State :=
  match s.poll with
  | none => s
  | some q =>
    match lineAnswer q.address (q.rx ++ bytes) with
    | .incomplete => { s with poll := some { q with rx := q.rx ++ bytes } }
    | .miss => if q.counted then State.countMiss { s with poll := none } q.node else { s with poll := none }
    | .good rep es => if q.counted then State.takeGood { s with poll := none } q.node rep es else { s with poll := none }

/-- TRACKSIDE_ANSWER (R145). -/
def execTracksideAnswer (bytes : List Byte) (s : State) : Host.Outcome State Fault Refusal :=
  act (fun s => s.takeAnswer bytes) s

/-- The answer timeout of the poll outstanding expires: a miss (R142). -/
def State.timeOut (s : State) : State :=
  match s.poll with
  | none => s
  | some q => if q.counted then State.countMiss { s with poll := none } q.node else { s with poll := none }

/-- ANSWER_TIMEOUT (R142). -/
def execAnswerTimeout (s : State) : Host.Outcome State Fault Refusal := act State.timeOut s

end Sys2Proof.Machine
end

