-- ==== Sys2Proof/Machine/ZoneRequests.lean ====
section
/-! DEFINITION. The service and clearing requests (section 2.5). -/

namespace Sys2Proof.Machine

/-- A zone without a holder takes a new state by request, and the Circuit Stop Unit is told (R23). -/
def State.setUnheld (s : State) (z : Nat) (st : ZoneState) : State := (s.updZone z (Zone.turn st)).sweep

/-- SET SERVICE OFF from condition 3 (R36). -/
def State.serviceOff (s : State) (z : Nat) : State × Answer :=
  if (s.holder z).isSome then s.answered .refusedHeld
  else if s.zoneState z = some .outOfService then s.done
  else (s.setUnheld z .outOfService).done

/-- SET SERVICE ON from condition 3 (R37). -/
def State.serviceOn (s : State) (z : Nat) : State × Answer :=
  if s.zoneState z ≠ some .outOfService then s.answered .refusedState
  else if !s.nodesLinked z then s.answered .refusedState
  else (s.setUnheld z .free).evaluate.done

/-- SET SERVICE (R36, R37): setting 0 is OFF, 1 is ON. -/
def State.ownSetService (z setting : Nat) (s : State) : State × Answer :=
  if !s.live then s.answered .refusedState
  else if s.layout.zoneCount ≤ z then s.answered .refusedRange
  else
    match setting with
    | 0 => s.serviceOff z
    | 1 => s.serviceOn z
    | _ => s.answered .refusedRange

/-- SET_SERVICE_OFF (R36). -/
def execSetServiceOff (p : Port) (tag zone setting : Byte) (s : State) : Host.Outcome State Fault Refusal :=
  request p tag .setService [zone, setting] (withAuthority p (State.ownSetService zone.toNat setting.toNat)) s

/-- SET_SERVICE_ON (R37). -/
def execSetServiceOn (p : Port) (tag zone : Byte) (s : State) : Host.Outcome State Fault Refusal :=
  request p tag .setService [zone, 1] (withAuthority p (State.ownSetService zone.toNat 1)) s

/-- CLEAR ZONE (R38). -/
def State.ownClearZone (z : Nat) (s : State) : State × Answer :=
  if !s.live then s.answered .refusedState
  else if s.layout.zoneCount ≤ z then s.answered .refusedRange
  else if s.zoneState z ≠ some .suspect then s.answered .refusedState
  else if (s.holder z).isSome then s.answered .refusedHeld
  else if !s.nodesLinked z then s.answered .refusedState
  else (s.setUnheld z .free).evaluate.done

/-- CLEAR_ZONE (R38). -/
def execClearZone (p : Port) (tag zone : Byte) (s : State) : Host.Outcome State Fault Refusal :=
  request p tag .clearZone [zone] (withAuthority p (State.ownClearZone zone.toNat)) s

/-- The zones CLEAR UNHELD ZONES makes FREE: SUSPECT unheld with every serving node LINKED (R39). -/
def State.clearable (s : State) : List Nat :=
  s.zones.keys.filter (fun z => decide (s.zoneState z = some .suspect) && (s.holder z).isNone && s.nodesLinked z)

/-- CLEAR UNHELD ZONES (R39): taken whole, and the Claim Engine told once where a zone became FREE. -/
def State.ownClearUnheldZones (s : State) : State × Answer :=
  if !s.live then s.answered .refusedState
  else
    let s1 := (s.updZones s.clearable (Zone.turn .free)).sweep
    (if s.clearable.isEmpty then s1 else s1.evaluate, .reply .done [byte s.clearable.length])

/-- CLEAR_UNHELD_ZONES (R39). -/
def execClearUnheldZones (p : Port) (tag : Byte) (s : State) : Host.Outcome State Fault Refusal :=
  request p tag .clearUnheldZones [] (withAuthority p State.ownClearUnheldZones) s

end Sys2Proof.Machine
end

