-- ==== Sys2Proof/Machine/Dispatch.lean ====
section
/-! DEFINITION. One arm for each command: the meaning of its row. -/

namespace Sys2Proof.Machine

/-- The effect of a command on everything but the queue. -/
def exec (i : Instr) (s : State) : Host.Outcome State Fault Refusal :=
  match i with
  | .hardReset => Sys2Proof.Machine.execHardReset s
  | .resetAsserted => Sys2Proof.Machine.execResetAsserted s
  | .stopInAsserted => Sys2Proof.Machine.execStopInAsserted s
  | .stopInDeasserted => Sys2Proof.Machine.execStopInDeasserted s
  | .keyTurnedToMaint => Sys2Proof.Machine.execKeyTurnedToMaint s
  | .keyTurnedToRun => Sys2Proof.Machine.execKeyTurnedToRun s
  | .requestFrameArrival p bytes => Sys2Proof.Machine.execRequestFrameArrival p bytes s
  | .spiDeselect shifted => Sys2Proof.Machine.execSpiDeselect shifted s
  | .consoleByteGap => Sys2Proof.Machine.execConsoleByteGap s
  | .answerFrameSend p => Sys2Proof.Machine.execAnswerFrameSend p s
  | .answerComplete p => Sys2Proof.Machine.execAnswerComplete p s
  | .readStatus p tag => Sys2Proof.Machine.execReadStatus p tag s
  | .readZone p tag zone => Sys2Proof.Machine.execReadZone p tag zone s
  | .readZones p tag first count => Sys2Proof.Machine.execReadZones p tag first count s
  | .readTrain p tag train => Sys2Proof.Machine.execReadTrain p tag train s
  | .readTrains p tag => Sys2Proof.Machine.execReadTrains p tag s
  | .readWaitQueue p tag => Sys2Proof.Machine.execReadWaitQueue p tag s
  | .readAnomalies p tag => Sys2Proof.Machine.execReadAnomalies p tag s
  | .readSwitch p tag switch => Sys2Proof.Machine.execReadSwitch p tag switch s
  | .readNode p tag node => Sys2Proof.Machine.execReadNode p tag node s
  | .readLayoutRecord p tag kind key => Sys2Proof.Machine.execReadLayoutRecord p tag kind key s
  | .readNotices p tag => Sys2Proof.Machine.execReadNotices p tag s
  | .enterConfig p tag => Sys2Proof.Machine.execEnterConfig p tag s
  | .loadLayoutRecord p tag kind image => Sys2Proof.Machine.execLoadLayoutRecord p tag kind image s
  | .clearLayout p tag => Sys2Proof.Machine.execClearLayout p tag s
  | .commitLayout p tag => Sys2Proof.Machine.execCommitLayout p tag s
  | .storeLayout p tag => Sys2Proof.Machine.execStoreLayout p tag s
  | .storeWriteComplete => Sys2Proof.Machine.execStoreWriteComplete s
  | .eraseStore p tag => Sys2Proof.Machine.execEraseStore p tag s
  | .remapNode p tag node address => Sys2Proof.Machine.execRemapNode p tag node address s
  | .placeTrain p tag trainTag zone => Sys2Proof.Machine.execPlaceTrain p tag trainTag zone s
  | .withdrawTrain p tag train => Sys2Proof.Machine.execWithdrawTrain p tag train s
  | .relocateTrain p tag train zone => Sys2Proof.Machine.execRelocateTrain p tag train zone s
  | .beginOperation p tag => Sys2Proof.Machine.execBeginOperation p tag s
  | .dispatch p tag train => Sys2Proof.Machine.execDispatch p tag train s
  | .cancelDispatch p tag train => Sys2Proof.Machine.execCancelDispatch p tag train s
  | .stepTrain p tag train => Sys2Proof.Machine.execStepTrain p tag train s
  | .relaunch p tag train => Sys2Proof.Machine.execRelaunch p tag train s
  | .setServiceOff p tag zone setting => Sys2Proof.Machine.execSetServiceOff p tag zone setting s
  | .setServiceOn p tag zone => Sys2Proof.Machine.execSetServiceOn p tag zone s
  | .clearZone p tag zone => Sys2Proof.Machine.execClearZone p tag zone s
  | .clearUnheldZones p tag => Sys2Proof.Machine.execClearUnheldZones p tag s
  | .setSwitch p tag switch position => Sys2Proof.Machine.execSetSwitch p tag switch position s
  | .halt p tag => Sys2Proof.Machine.execHalt p tag s
  | .resumeGroup p tag group => Sys2Proof.Machine.execResumeGroup p tag group s
  | .acknowledgeAnomaly p tag kind subject => Sys2Proof.Machine.execAcknowledgeAnomaly p tag kind subject s
  | .acknowledgeAll p tag => Sys2Proof.Machine.execAcknowledgeAll p tag s
  | .takeAuthority p tag => Sys2Proof.Machine.execTakeAuthority p tag s
  | .fixSupervisor p tag => Sys2Proof.Machine.execFixSupervisor p tag s
  | .handToConsole p tag => Sys2Proof.Machine.execHandToConsole p tag s
  | .assignIndicator p tag line zone condition sense => Sys2Proof.Machine.execAssignIndicator p tag line zone condition sense s
  | .releaseIndicator p tag line => Sys2Proof.Machine.execReleaseIndicator p tag line s
  | .setNoticeMask p tag high low => Sys2Proof.Machine.execSetNoticeMask p tag high low s
  | .pollSend => Sys2Proof.Machine.execPollSend s
  | .tracksideAnswer bytes => Sys2Proof.Machine.execTracksideAnswer bytes s
  | .answerTimeout => Sys2Proof.Machine.execAnswerTimeout s
  | .runTransitExpiry zone => Sys2Proof.Machine.execRunTransitExpiry zone s
  | .trailingHoldExpiry zone => Sys2Proof.Machine.execTrailingHoldExpiry zone s
  | .switchTimerExpiry switch => Sys2Proof.Machine.execSwitchTimerExpiry switch s
  | .timebaseTick => Sys2Proof.Machine.execTimebaseTick s
  | .consoleFramingError => Sys2Proof.Machine.execConsoleFramingError s
  | .unknownRequestCode p tag code args => Sys2Proof.Machine.execUnknownRequestCode p tag code args s

end Sys2Proof.Machine
end

