-- ==== Sys2Proof/Safety.lean ====
section
/-! DEFINITION. What the statements speak of: which request a command presents, what taking a request leaves, and the conditions
every step is to keep. -/

namespace Sys2Proof.Machine

/-! ## Requests -/

/-- The port a command's request comes from, and the request (section 13.2); none for a command that presents none. -/
def requestOf (i : Instr) : Option (Port × Request) :=
  match i with
  | .readStatus p tag => some (p, ⟨tag, 0x01, []⟩)
  | .readZone p tag zone => some (p, ⟨tag, 0x02, [zone]⟩)
  | .readZones p tag first count => some (p, ⟨tag, 0x03, [first, count]⟩)
  | .readTrain p tag train => some (p, ⟨tag, 0x04, [train]⟩)
  | .readTrains p tag => some (p, ⟨tag, 0x05, []⟩)
  | .readWaitQueue p tag => some (p, ⟨tag, 0x06, []⟩)
  | .readAnomalies p tag => some (p, ⟨tag, 0x07, []⟩)
  | .readSwitch p tag switch => some (p, ⟨tag, 0x08, [switch]⟩)
  | .readNode p tag node => some (p, ⟨tag, 0x09, [node]⟩)
  | .readLayoutRecord p tag kind key => some (p, ⟨tag, 0x0A, [kind, key]⟩)
  | .readNotices p tag => some (p, ⟨tag, 0x0B, []⟩)
  | .enterConfig p tag => some (p, ⟨tag, 0x10, []⟩)
  | .loadLayoutRecord p tag kind image => some (p, ⟨tag, 0x11, kind :: image⟩)
  | .clearLayout p tag => some (p, ⟨tag, 0x12, []⟩)
  | .commitLayout p tag => some (p, ⟨tag, 0x13, []⟩)
  | .storeLayout p tag => some (p, ⟨tag, 0x14, []⟩)
  | .eraseStore p tag => some (p, ⟨tag, 0x15, []⟩)
  | .remapNode p tag node address => some (p, ⟨tag, 0x16, [node, address]⟩)
  | .placeTrain p tag trainTag zone => some (p, ⟨tag, 0x20, [trainTag, zone]⟩)
  | .withdrawTrain p tag train => some (p, ⟨tag, 0x21, [train]⟩)
  | .relocateTrain p tag train zone => some (p, ⟨tag, 0x22, [train, zone]⟩)
  | .beginOperation p tag => some (p, ⟨tag, 0x23, []⟩)
  | .dispatch p tag train => some (p, ⟨tag, 0x28, [train]⟩)
  | .cancelDispatch p tag train => some (p, ⟨tag, 0x29, [train]⟩)
  | .stepTrain p tag train => some (p, ⟨tag, 0x2A, [train]⟩)
  | .relaunch p tag train => some (p, ⟨tag, 0x2B, [train]⟩)
  | .setServiceOff p tag zone setting => some (p, ⟨tag, 0x30, [zone, setting]⟩)
  | .setServiceOn p tag zone => some (p, ⟨tag, 0x30, [zone, 1]⟩)
  | .clearZone p tag zone => some (p, ⟨tag, 0x31, [zone]⟩)
  | .clearUnheldZones p tag => some (p, ⟨tag, 0x32, []⟩)
  | .setSwitch p tag switch position => some (p, ⟨tag, 0x34, [switch, position]⟩)
  | .halt p tag => some (p, ⟨tag, 0x38, []⟩)
  | .resumeGroup p tag group => some (p, ⟨tag, 0x39, [group]⟩)
  | .acknowledgeAnomaly p tag kind subject => some (p, ⟨tag, 0x3A, [kind, subject]⟩)
  | .acknowledgeAll p tag => some (p, ⟨tag, 0x3B, []⟩)
  | .takeAuthority p tag => some (p, ⟨tag, 0x40, []⟩)
  | .fixSupervisor p tag => some (p, ⟨tag, 0x41, []⟩)
  | .handToConsole p tag => some (p, ⟨tag, 0x42, []⟩)
  | .assignIndicator p tag line zone condition sense => some (p, ⟨tag, 0x48, [line, zone, condition, sense]⟩)
  | .releaseIndicator p tag line => some (p, ⟨tag, 0x49, [line]⟩)
  | .setNoticeMask p tag high low => some (p, ⟨tag, 0x4A, [high, low]⟩)
  | .unknownRequestCode p tag code args => some (p, ⟨tag, code, args⟩)
  | .hardReset => none
  | .resetAsserted => none
  | .stopInAsserted => none
  | .stopInDeasserted => none
  | .keyTurnedToMaint => none
  | .keyTurnedToRun => none
  | .requestFrameArrival _ _ => none
  | .spiDeselect _ => none
  | .consoleByteGap => none
  | .consoleFramingError => none
  | .answerFrameSend _ => none
  | .answerComplete _ => none
  | .storeWriteComplete => none
  | .pollSend => none
  | .tracksideAnswer _ => none
  | .answerTimeout => none
  | .runTransitExpiry _ => none
  | .trailingHoldExpiry _ => none
  | .switchTimerExpiry _ => none
  | .timebaseTick => none

/-- The codes of the requests both ports may send in every authority state: the reads, HALT, SET NOTICE MASK and the three
requests the Authority Unit itself takes (R157). -/
def openCodes : List Byte :=
  [0x01, 0x02, 0x03, 0x04, 0x05, 0x06, 0x07, 0x08, 0x09, 0x0A, 0x0B, 0x38, 0x4A, 0x40, 0x41, 0x42]

/-- It is this request's turn at its port (R152): RESET is not asserted, no answer is unfinished, and the request is the oldest
one waiting, or none waits. -/
abbrev Turn (p : Port) (q : Request) (s : State) : Prop :=
  s.resetPin = false ∧ (s.port p).answer = none ∧ ((s.port p).queue = [] ∨ (s.port p).queue.head? = some q)

/-- The state in which a request is taken: it occupies a slot of its port's queue (R151). -/
def State.arrived (p : Port) (q : Request) (s : State) : State :=
  if (s.port p).queue = [] then s.setPort p { s.port p with queue := [q] } else s

/-- The port has an answer to send. -/
def State.answering (p : Port) (a : Answer) (s : State) : State := s.setPort p { s.port p with answer := some a }

/-- What taking a request leaves: its effect on the records, its answer waiting at its port, and the outputs driven. -/
def took (p : Port) (q : Request) (a : Answer) (effect : State → State) (s : State) : State :=
  ((effect (s.arrived p q)).answering p a).settle

/-- The command presents a request, and it is that request's turn. -/
def Asked (i : Instr) (s : State) : Prop := ∃ p q, requestOf i = some (p, q) ∧ Turn p q s

/-- The command presents a request, it is that request's turn, and its port holds authority (section 11.4). -/
def Allowed (i : Instr) (s : State) : Prop :=
  ∃ p q, requestOf i = some (p, q) ∧ Turn p q s ∧ s.authority.heldBy p = true

/-- What an owner makes of a request: the records after it, the result and the answer's body. -/
abbrev Effect := State → State × Result × List Byte

/-- The command runs to a next state: the owner's effect on the records, with the request in its port's slot and its answer ready to
be sent, and the outputs driven. -/
def Replies (i : Instr) (s : State) (f : Effect) : Prop :=
  ∃ p q, requestOf i = some (p, q) ∧
    exec i s = .next (State.settle (State.answering p (.reply (f (s.arrived p q)).2.1 (f (s.arrived p q)).2.2) (f (s.arrived p q)).1))

/-- The command runs to a next state in which its answer is to be filled as its frames are sent, and nothing else has changed. -/
def Reads (i : Instr) (s : State) (a : Answer) : Prop :=
  ∃ p q, requestOf i = some (p, q) ∧ exec i s = .next (took p q a (fun u => u) s)

/-- A claim entered for a train, of the class of its head zone (R61 to R63). -/
def State.withEntry (s : State) (t : Nat) (marked : Bool) : State :=
  { s with
    waitQueue := s.waitQueue ++ [⟨t, if (s.head t).any (fun z => s.layout.yard z) then .yard else .course, s.entryCounter, marked, s.nextSerial⟩]
    entryCounter := s.entryCounter + 1
    nextSerial := s.nextSerial + 1
    trains := s.trains.upd t (fun r => { r with claim := .pending }) }

/-- The answer to a claim just entered and evaluated (R63). -/
def State.claimResult (s : State) (t : Nat) : Result :=
  if (s.trains.find t).any (fun r => decide (r.claim = .granted)) then .granted else .queued

/-- The conditions of BEGIN OPERATION, by number (R139). -/
def State.beginCondition (s : State) : Nat → Prop
  | 1 => s.circuit = .census
  | 2 => ∀ e, e ∈ s.zones → e.2.state ≠ .suspect
  | 3 => ∀ e, e ∈ s.nodes → s.layout.mapped e.1 = true → s.linked e.1 = true
  | 4 => ∀ e, e ∈ s.switches → (switchPosition s.switches e.1).isSome = true
  | 5 => ∀ e, e ∈ s.trains → e.2.motion ≠ .untracked
  | 6 => s.causes = ⟨false, false, false, false⟩
  | 7 => ∀ a, a ∈ s.anomalies → a.acked = true
  | _ => True

/-! ## The circuit layout -/

/-- An entry gate of a zone (R7). -/
def Layout.IsEntry (l : Layout) (z g : Nat) : Prop := ∃ r, l.gates.find g = some r ∧ r.dst = z

/-- An exit gate of a zone (R7). -/
def Layout.IsExit (l : Layout) (z g : Nat) : Prop := ∃ r, l.gates.find g = some r ∧ r.src = z

/-- The one exit gate of a zone; the lowest, in a layout that check 5 would not pass (log 17). -/
def Layout.ExitGate (l : Layout) (z g : Nat) : Prop := l.IsExit z g ∧ ∀ h, l.IsExit z h → g ≤ h

/-- The switch of a TRANSFER zone (R7), with its number; the lowest, in a layout that check 5 would not pass (log 17). -/
def Layout.Switched (l : Layout) (z k : Nat) (r : SwitchRec) : Prop :=
  l.kindOf z = some .transfer ∧ l.switches.find k = some r ∧ r.zone = z ∧
    ∀ j q, l.switches.find j = some q → q.zone = z → k ≤ j

/-- The current exit gate of a zone, with the switches as `w` has them (R8): the MAIN or the BRANCH gate of a TRANSFER zone with fork side
EXIT whose switch is SET, none while it is not; the one exit gate of any other zone. -/
def Layout.LeftBy (l : Layout) (w : Table Switch) (z g : Nat) : Prop :=
  (∃ k r x, l.Switched z k r ∧ r.fork = .exit ∧ w.find k = some x ∧
    ((x.state = .setMain ∧ g = r.main) ∨ (x.state = .setBranch ∧ g = r.branch))) ∨
  ((∀ k r, l.Switched z k r → r.fork = .entry) ∧ l.ExitGate z g)

/-- A gate connects into a TRANSFER zone, with the switches as `w` has them (R8). -/
def Layout.JoinsInto (l : Layout) (w : Table Switch) (g z : Nat) : Prop :=
  ∃ k r x, l.Switched z k r ∧ w.find k = some x ∧
    ((r.fork = .exit ∧ (x.state = .setMain ∨ x.state = .setBranch) ∧ l.IsEntry z g) ∨
     (r.fork = .entry ∧ ((x.state = .setMain ∧ g = r.main) ∨ (x.state = .setBranch ∧ g = r.branch))))

/-- The derivation of R9 from a gate: one to four zones, each with its entering gate, the first entered by that gate and each other by the
one exit gate of the RUN zone before it; the last is the first that is stoppable. -/
structure Layout.Route (l : Layout) (g : Nat) (e : List (Nat × Nat)) : Prop where
  size : 1 ≤ e.length ∧ e.length ≤ 4
  first : ∃ y, e.head? = some (y, g)
  leads : ∀ y h, (y, h) ∈ e → ∃ r, l.gates.find h = some r ∧ r.dst = y
  joined : ∀ i x f y h, e[i]? = some (x, f) → e[i + 1]? = some (y, h) → l.kindOf x = some .run ∧ l.ExitGate x h
  last : ∀ y h, e.getLast? = some (y, h) → ∃ k, l.kindOf y = some k ∧ k ≠ .run

/-- The condition of a validation check at one record it examines (R15): the check's number, the record's kind and key. -/
def Layout.Passes (l : Layout) : Nat → RecordKind → Nat → Prop
  | 1, .circuit, k => k = 0 → l.circuit ≠ none
  | 1, .zone, z => ∀ c, l.circuit = some c → z < 32 → (z < c.zoneCount ↔ l.zones.find z ≠ none)
  | 2, .gate, g => ∀ r, l.gates.find g = some r →
      ∃ c, l.circuit = some c ∧ r.src < c.zoneCount ∧ r.dst < c.zoneCount ∧ r.src ≠ r.dst
  | 3, .gate, g => ∀ r, l.gates.find g = some r →
      (∃ a, l.nodes.find r.node = some a ∧ 1 ≤ a) ∧
      ∀ h q, l.gates.find h = some q → h < g → ¬(q.node = r.node ∧ q.channel = r.channel)
  | 3, .node, n => ∀ a, l.nodes.find n = some a → 1 ≤ a → ∀ m b, l.nodes.find m = some b → m < n → b ≠ a
  | 4, .zone, z => l.zones.find z ≠ none → ∃ g h, l.IsEntry z g ∧ l.IsEntry z h ∧ ∀ i, l.IsEntry z i → i = g ∨ i = h
  | 5, .zone, z => ∀ q, l.zones.find z = some q →
      if q.spec.kind = .transfer then
        ∃ k r, l.switches.find k = some r ∧ r.zone = z ∧ (∀ j p, l.switches.find j = some p → p.zone = z → j = k) ∧
          (r.fork = .exit → (∀ g, l.IsExit z g ↔ g = r.main ∨ g = r.branch) ∧ ∃ g, ∀ h, l.IsEntry z h ↔ h = g) ∧
          (r.fork = .entry → (∀ g, l.IsEntry z g ↔ g = r.main ∨ g = r.branch) ∧ ∃ g, ∀ h, l.IsExit z h ↔ h = g)
      else ∃ g, ∀ h, l.IsExit z h ↔ h = g
  | 5, .switch, k => ∀ r, l.switches.find k = some r →
      l.kindOf r.zone = some .transfer ∧
      (∃ m b, l.gates.find r.main = some m ∧ l.gates.find r.branch = some b ∧ r.main ≠ r.branch ∧
        (r.fork = .exit → m.dst ≠ b.dst) ∧ (r.fork = .entry → m.src ≠ b.src)) ∧
      (∃ a, l.nodes.find r.node = some a ∧ 1 ≤ a) ∧
      ∀ j p, l.switches.find j = some p → j < k → p.node ≠ r.node
  | 6, .zone, z => ∀ q, l.zones.find z = some q →
      if q.spec.kind = .run then q.permit = none
      else ∃ n c, q.permit = some (n, c) ∧ (∃ a, l.nodes.find n = some a ∧ 1 ≤ a) ∧
        ∀ y p, l.zones.find y = some p → y < z → p.permit ≠ some (n, c)
  | 7, .zone, z => ∀ q, l.zones.find z = some q → q.spec.kind ≠ .run →
      ∀ w g, l.LeftBy w z g → ∃ e, l.Route g e ∧ ∀ h, (z, h) ∉ e
  | 8, .zone, z => ∀ q hold limit crest, l.zones.find z = some q → q.spec = .launch hold limit crest →
      ∃ g e x h, l.ExitGate z g ∧ l.Route g e ∧ 2 ≤ e.length ∧ e.head? = some (x, h) ∧ l.ExitGate x crest
  | 9, .circuit, k => k = 0 → ∃ y z p q, y ≠ z ∧ l.zones.find y = some p ∧ p.spec.kind ≠ .run ∧
      l.zones.find z = some q ∧ q.spec.kind ≠ .run
  | 10, .zone, z => ∀ q least most, l.zones.find z = some q → q.spec = .run least most → least < most
  | _, _, _ => True

/-! ## Zones -/

/-- A zone's state and the presence of a holder fit together (R21). -/
def Zone.Fits (x : Zone) : Prop :=
  match x.state with
  | .free => x.holder = none
  | .outOfService => x.holder = none
  | .reserved => x.holder.isSome = true
  | .occupied => x.holder.isSome = true
  | .trailing => x.holder.isSome = true
  | .suspect => True

/-- What marking the zones `found` leaves (R30, R31, R50, R56): each of them as `f` makes it; every other zone as it was, or, RESERVED in
the hold list of a train that holds one of them, SUSPECT with its holder; every train that holds one of them UNTRACKED, and every other
train, and every hold list, as it was. -/
structure State.Marked (s : State) (found : List Nat) (f : Zone → Zone) (zones : Table Zone) (trains : Table Train) : Prop where
  named : ∀ z, z ∈ found → zones.find z = (s.zones.find z).map f
  others : ∀ z, z ∉ found → zones.find z = s.zones.find z ∨
    ((∃ y t, y ∈ found ∧ s.holder y = some t ∧ z ∈ s.holdOf t) ∧ s.zoneState z = some .reserved ∧
      zones.find z = (s.zones.find z).map (fun x => { x with state := .suspect, timer := .idle }))
  trains : ∀ t, trains.find t = (s.trains.find t).map (fun r =>
    if ∃ z, z ∈ found ∧ s.holder z = some t then { r with motion := .untracked } else r)

/-- What an entry of train `t` into zone `b` that its hold list does not expect leaves (R96, R30, R118): the zone SUSPECT, its holder kept,
or `t` where it has none and `t` may adopt it, which it then has at the end of its hold list; `t` and the zone's holder UNTRACKED; of the
other zones only those that R56 marks changed. -/
structure State.Entered (s : State) (b t : Nat) (zones : Table Zone) (trains : Table Train) : Prop where
  entered : zones.find b = (s.zones.find b).map (fun x => { x with
    state := .suspect
    timer := .idle
    holder := if s.holder b = none ∧ (s.holdOf t).length < 6 ∧ s.switchMoving b = false then some t else x.holder })
  others : ∀ z, z ≠ b → zones.find z = s.zones.find z ∨
    ((∃ u, (s.holder b = some u ∨ (s.holder b = none ∧ u = t)) ∧ z ∈ s.holdOf u) ∧ s.zoneState z = some .reserved ∧
      zones.find z = (s.zones.find z).map (fun x => { x with state := .suspect, timer := .idle }))
  trains : ∀ u, trains.find u = (s.trains.find u).map (fun r => { r with
    motion := if u = t ∨ s.holder b = some u then .untracked else r.motion
    hold := if u = t ∧ s.holder b = none ∧ (s.zones.find b).isSome = true ∧ r.hold.length < 6 ∧ s.switchMoving b = false
      then r.hold ++ [b] else r.hold })

/-! ## Conditions every step keeps -/

/-- The outputs are what the records give (R120, R150, R158, R161). -/
def State.PinsDriven (s : State) : Prop := s.pins = s.driven

def Layout.Canonical (l : Layout) : Prop := l.zones.wf ∧ l.gates.wf ∧ l.nodes.wf ∧ l.switches.wf

/-- Every table holds at most one record for each number, in rising order (R1, R20, R41). -/
structure State.Canonical (s : State) : Prop where
  layout : s.layout.Canonical
  image : s.store.image.Canonical
  zones : s.zones.wf
  trains : s.trains.wf
  switches : s.switches.wf
  nodes : s.nodes.wf
  indicators : s.indicators.wf

/-- The interlock: zone states and holders fit (R21), and a train holds a zone exactly when the zone is in its hold list and the
zone's holder names it (R22). -/
structure State.Interlock (s : State) : Prop where
  fits : ∀ z x, s.zones.find z = some x → x.Fits
  agree : ∀ z t, s.holder z = some t ↔ z ∈ s.holdOf t

/-- Every hold list has 1 to 6 distinct zones, its RESERVED zones after its others (R54). -/
def State.HoldLists (s : State) : Prop :=
  ∀ t r, s.trains.find t = some r → r.hold ≠ [] ∧ r.hold.length ≤ Config.holdMax ∧ r.hold.Nodup ∧ s.stale r.hold = []

/-- The entries a train has in the Wait Queue. -/
def State.entriesOf (s : State) (t : Nat) : List Claim := s.waitQueue.filter (fun c => decide (c.train = t))

/-- The claim status of a train, NONE for an empty slot. -/
def State.claimOf (s : State) (t : Nat) : ClaimStatus := ((s.trains.find t).map (fun r => r.claim)).getD .none

/-- The Wait Queue and the claim statuses fit (R62), trains having the numbers of slots (R41). -/
structure State.QueueFits (s : State) : Prop where
  slots : ∀ t r, s.trains.find t = some r → 1 ≤ t ∧ t ≤ Config.trainSlots
  pending : ∀ t, (s.entriesOf t).length = if s.claimOf t = .pending then 1 else 0

/-- Stop holds, stop causes and the circuit state fit (R121, section 8.1). -/
structure State.StopFits (s : State) : Prop where
  operating : s.circuit = .operating → s.causes.isEmpty = true ∧ s.anyHold = false
  census : s.circuit = .census → s.anyHold = false
  halted : s.circuit = .halted → s.zones ≠ [] → s.anyHold = true

/-- The authority is MAINTENANCE exactly while KEY is in the cause set (R122). -/
def State.AuthorityFits (s : State) : Prop := s.authority = .maintenance ↔ s.causes.key = true

/-- STOP_IN and KEY are in the cause set exactly as their inputs stand, but while RESET is asserted (R121). -/
def State.InputsFit (s : State) : Prop :=
  s.resetPin = false → s.causes.stopIn = s.stopInPin ∧ s.causes.key = s.keyMaint

/-- At most 16 anomalies, no two with the same kind and subject (R127). -/
structure State.AnomaliesFit (s : State) : Prop where
  size : s.anomalies.length ≤ Config.anomalySlots
  distinct : s.anomalies.Pairwise (fun a b => ¬(a.kind = b.kind ∧ a.subject = b.subject))

/-- A port within its capacities, its answer that of a request in its queue (R151, R152). -/
structure PortState.Fits (x : PortState) : Prop where
  queue : x.queue.length ≤ Config.queueSlots
  refusals : x.refusals.length ≤ Config.refusalSlots
  discards : x.discards ≤ Config.discardMax
  answered : x.answer.isSome = true → x.queue ≠ []
  ends : x.sending.any (fun w => w.ends) = true → x.answer.isSome = true

def State.PortsFit (s : State) : Prop := s.supervisor.Fits ∧ s.console.Fits

/-- The live records exist exactly while a layout is committed, one for each record of the layout (R20, R41, R62, R112, R127,
R141). -/
structure State.LiveFits (s : State) : Prop where
  absent : s.live = false → s.zones = [] ∧ s.trains = [] ∧ s.waitQueue = [] ∧ s.switches = [] ∧ s.nodes = [] ∧
    s.anomalies = [] ∧ s.tableFull = false ∧ s.timebase = 0 ∧ s.poll = none ∧ s.causes.commanded = false ∧
    s.causes.anomaly = false
  built : s.live = true → s.zones.keys = s.layout.zones.keys ∧ s.switches.keys = s.layout.switches.keys ∧
    s.nodes.keys = List.range Config.nodeKeys
  trailing : ∀ z, s.zoneState z = some .trailing → s.layout.isKind z .launch = true

/-- In CENSUS nothing waits, and every train stands or is untracked in one zone, without claim or step grant (R135). -/
def State.CensusFits (s : State) : Prop :=
  s.circuit = .census → s.waitQueue = [] ∧ ∀ t r, s.trains.find t = some r →
    (r.motion = .standing ∨ r.motion = .untracked) ∧ r.claim = .none ∧ r.stepGrant = false ∧ r.hold.length = 1

/-- A TRANSFER zone whose switch is MOVING has no holder (R118). -/
def State.SwitchesFit (s : State) : Prop := ∀ z, s.switchMoving z = true → s.holder z = none

end Sys2Proof.Machine
end

