-- ==== Sys2Proof/Certificates/Slice0/Obligations.lean ====
section
/-! DEFINITION. The statements for the provers. A request's statement says, for every state in which the request is taken, the
records it leaves, its result and its body: the conditions of its rule in their order, each state written out in the fields that
change, so that every field not named stays as it was. -/

open Sys2Proof Sys2Proof.Machine

/-! ## The queue and every command -/

/-- A step takes the command at the front of the queue (spec 95); on an empty queue the part idles, which is the model's choice
(log 3). -/
def Obligations.StepTakesTheFrontCommand : Prop :=
  (∀ (c : Instr) (rest : List Instr) (s : State), s.pending = c :: rest → step s = exec c { s with pending := rest }) ∧
  (∀ s : State, s.pending = [] → step s = .next s)

/-- No command stops the part, and none touches the queue of the others: what goes wrong is an answer or an anomaly. -/
def Obligations.EveryCommandRunsToANextState : Prop :=
  ∀ (c : Instr) (s : State), ∃ t, exec c s = .next t ∧ t.pending = s.pending

/-! ## Hard reset and the inputs -/

/-- R134 and R19: what a hard reset leaves, without and with a store that the part loads. -/
def Obligations.HardResetRebuildsTheMachine : Prop :=
  ∀ s : State,
    let bare : State := { State.reset with
      pending := s.pending, stopInPin := s.stopInPin, keyMaint := s.keyMaint
      causes := ⟨s.stopInPin, s.keyMaint, false, false⟩
      authority := if s.keyMaint = true then .maintenance else .console }
    exec .hardReset s = .next (State.settle
      (if s.store.state = .valid ∧ s.store.checkGood = true ∧ s.store.image.invalid = none then
        { bare with
          layout := s.store.image, store := s.store, circuit := .census
          zones := s.store.image.zones.map (fun e => (e.1, ⟨.suspect, none, false, .idle⟩))
          switches := s.store.image.switches.map (fun e => (e.1, ⟨.unproven, .idle⟩))
          nodes := (List.range 24).map (fun n => (n, ⟨if s.store.image.mapped n = true then .down else .unmapped, 0, 0, none⟩)) }
      else bare))

/-- R134, R19: the assertion of RESET, and that until its release only the levels of the inputs move; that nothing else is taken
meanwhile is the model's reading (log 5). -/
def Obligations.NothingIsTakenWhileResetIsAsserted : Prop :=
  (∀ s : State, exec .resetAsserted s = .next { s with
      resetPin := true
      store := if s.store.state = .writing then ⟨.invalid, .empty, false⟩ else s.store
      poll := none
      indicators := []
      supervisor := { s.supervisor with flags := 0, mask := 0 }
      console := { s.console with flags := 0, mask := 0 }
      pins := .low }) ∧
  (∀ (c : Instr) (s : State), s.resetPin = true → c ≠ .hardReset → c ≠ .resetAsserted →
    exec c s = .next (match c with
      | .stopInAsserted => { s with stopInPin := true }
      | .stopInDeasserted => { s with stopInPin := false }
      | .keyTurnedToMaint => { s with keyMaint := true }
      | .keyTurnedToRun => { s with keyMaint := false }
      | _ => s))

/-- R122, R156: each change of STOP IN and of KEY moves its cause, and KEY moves the authority in the same act. That a level which
already stands is taken as a change all the same, so that its cause arises again, is the model's own reading (log 16). -/
def Obligations.InputsMoveCausesAndAuthority : Prop :=
  ∀ s : State, s.resetPin = false →
    exec .stopInAsserted s = .next (State.settle (State.arise { s with stopInPin := true } .stopIn)) ∧
    exec .stopInDeasserted s = .next (State.settle { s with stopInPin := false, causes := { s.causes with stopIn := false } }) ∧
    exec .keyTurnedToMaint s = .next (State.settle
      (let u := State.arise { s with keyMaint := true } .key
       if s.authority = .maintenance then u else State.raise .authority { u with authority := .maintenance })) ∧
    exec .keyTurnedToRun s = .next (State.settle
      (let u : State := { s with keyMaint := false, causes := { s.causes with key := false } }
       if s.authority = .maintenance then State.raise .authority { u with authority := .console } else u))

/-- R123, R32: what a cause that arises does, by the circuit state. R128: what an anomaly report does: a repeat takes the acknowledgement
from its entry, gives it stop class yes where the report has it, and keeps its time; otherwise an entry is made at the young end, or, with
16 entries, the latch is set; notice ANOMALY is raised in all three cases, and a report of stop class yes makes ANOMALY arise. The running
number of an entry is the model's own (log 8). -/
def Obligations.AStopCauseHoldsEveryZone : Prop :=
  (∀ (s : State) (c : StopCause),
    let held := s.zones.map (fun e => (e.1, { e.2 with stopHold := true }))
    (s.circuit = .operating →
      s.arise c = State.raise .circuit { s with causes := s.causes.add c, circuit := .halted, zones := held }) ∧
    (s.circuit = .halted → s.arise c = State.raise .circuit { s with causes := s.causes.add c, zones := held }) ∧
    (s.circuit = .census → s.arise c = { s with causes := s.causes.add c }) ∧
    (s.circuit = .unconfigured ∨ s.circuit = .config →
      s.arise c = if c = .stopIn ∨ c = .key then { s with causes := s.causes.add c } else s)) ∧
  (∀ (s : State) (k : AnomalyKind) (n : Nat) (stop : Bool),
    let entered : State :=
      if ∃ a, a ∈ s.anomalies ∧ a.kind = k ∧ a.subject = n then
        { s with anomalies := s.anomalies.map (fun a =>
            if a.kind = k ∧ a.subject = n then { a with acked := false, stop := a.stop || stop } else a) }
      else if s.anomalies.length < 16 then
        { s with anomalies := s.anomalies ++ [⟨k, n, stop, false, s.timebase, s.nextSerial⟩], nextSerial := s.nextSerial + 1 }
      else { s with tableFull := true }
    s.anomaly k n stop =
      if stop = true then State.arise (State.raise .anomaly entered) .anomaly else State.raise .anomaly entered)

/-! ## The request ports -/

/-- R151, R164: a whole frame arrives on an idle link. A right check: its request takes the youngest slot, or is refused as the
queue is full, or counts as discarded. A wrong check, or a length byte above 16: BAD_FRAME. -/
def Obligations.FramesArriveAtTheirPort : Prop :=
  ∀ (p : Port) (s : State), s.resetPin = false → (s.port p).rx = [] →
    (∀ q : Request, q.args.length ≤ 16 →
      exec (.requestFrameArrival p (requestFrame q)) s = .next (State.settle (s.setPort p (
        let x := s.port p
        if x.queue.length < 8 then { x with queue := x.queue ++ [q] }
        else if x.refusals.length < 8 then { x with refusals := x.refusals ++ [⟨q.tag, .refusedFull⟩] }
        else { x with discards := min (x.discards + 1) 255 })))) ∧
    (∀ (q : Request) (check : Byte), q.args.length ≤ 16 → check ≠ crc8 ([byte q.args.length, q.tag, q.code] ++ q.args) →
      exec (.requestFrameArrival p ([0xC3, byte q.args.length, q.tag, q.code] ++ q.args ++ [check])) s =
        .next (State.settle (s.setPort p ((s.port p).refuse q.tag .badFrame)))) ∧
    (∀ a : Byte, 16 < a.toNat →
      exec (.requestFrameArrival p [0xC3, a]) s = .next (State.settle (s.setPort p ((s.port p).refuse 0 .badFrame))))

/-- R150, R164: a frame cut short by deselection, by a gap or by a framing error fails its check; the refusal has its tag byte if
that was received. Deselection keeps the unsent bytes of the frame going out. The model's own choice (log 15): a byte with a framing
error is not counted as received, so that the tag comes only from bytes before it, and SPI_DESELECT carries the number of bytes that the
selection shifted out. -/
def Obligations.AFrameCutShortIsRefused : Prop :=
  ∀ (s : State) (n : Nat), s.resetPin = false →
    let cut := fun (x : PortState) =>
      if x.rx = [] then x else PortState.refuse { x with rx := [] } (x.rx.getD 2 0) .badFrame
    exec .consoleByteGap s = .next (State.settle { s with console := cut s.console }) ∧
    exec .consoleFramingError s = .next (State.settle { s with console := cut s.console }) ∧
    exec (.spiDeselect n) s = .next (State.settle { s with supervisor := { cut s.supervisor with
      sending := s.supervisor.sending.map (fun w => { w with sent := min w.frame.length (max w.sent n) }) } })

/-- R151 to R154, R165: arrival refusals go out first, then the frames of the answer, each filled as it is sent; at the end of the frame
that ends an answer the request's slot empties, and any other frame leaves the answer unfinished. That no frame starts while the frame
that ends an answer is going out is the model's reading (log 14); that a send with nothing waiting, and a completion with nothing going
out, leave the state is its reading of events that cannot come then (log 4); that a refusal leaves the list at the first byte of its frame
is its choice (log 24). Section 13.2: the bytes of an answer frame; R153: the bits of its status byte; section 13.1: its check byte, one bit
of the content after another. -/
def Obligations.AnswerFramesGoOutInOrder : Prop :=
  ∀ (p : Port) (s : State), s.resetPin = false →
    exec (.answerFrameSend p) s = .next (State.settle (
      let x := s.port p
      if x.sending.any (fun w => w.ends) = true then s
      else
        match x.refusals with
        | r :: rest =>
          s.setPort p { x with
            refusals := rest
            sending := some ⟨answerFrame r.tag r.result false (8 - x.queue.length) (s.statusByte p) [], 1, false⟩ }
        | [] =>
          match x.answer with
          | none => s
          | some a =>
            let f := s.nextFrame p a
            let y := if a = .notices then { x with flags := 0 } else x
            s.setPort p { y with
              answer := some f.next
              sending := some ⟨answerFrame ((x.queue.head?.map (fun q => q.tag)).getD 0) f.result f.more (8 - x.queue.length)
                (State.statusByte (s.setPort p y) p) f.body, 1, !f.more⟩ })) ∧
    exec (.answerComplete p) s = .next (State.settle (
      let x := s.port p
      match x.sending with
      | none => s
      | some w =>
        if w.ends = true then s.setPort p { x with queue := x.queue.tail, answer := none, sending := none }
        else s.setPort p { x with sending := none })) ∧
    (∀ (tag : Byte) (r : Result) (more : Bool) (free : Nat) (status : Byte) (body : List Byte),
      let content := [byte body.length, tag, byte r.code, byte ((if more = true then 128 else 0) + free), status] ++ body
      answerFrame tag r more free status body = [0xC3] ++ content ++ [crc8 content]) ∧
    ((s.statusByte p).toNat % 8 = s.circuit.code ∧
      (s.statusByte p).toNat / 8 % 4 = s.authority.code ∧
      ((s.statusByte p).getLsbD 5 = true ↔ s.anomalies ≠ []) ∧
      ((s.statusByte p).getLsbD 6 = true ↔ s.tableFull = true) ∧
      ((s.statusByte p).getLsbD 7 = true ↔
        ∃ i, i < 8 ∧ (s.port p).flags.getLsbD i = true ∧ (s.port p).mask.getLsbD i = true)) ∧
    (∀ bytes : List Byte,
      let bits := bytes.flatMap (fun b => [7, 6, 5, 4, 3, 2, 1, 0].map (fun i => b.getLsbD i))
      crc8 bytes = bits.foldl (fun (c : Byte) bit => if c.msb = bit then c <<< 1 else (c <<< 1) ^^^ 0x07) 0)

/-- R162, R161: SET NOTICE MASK replaces the sending port's mask and no other; READ NOTICES shows that port's flags and clears them
in the act that fixes the frame. -/
def Obligations.NoticesAreMaskedAndReadByPort : Prop :=
  (∀ (p : Port) (tag high low : Byte) (s : State), Asked (.setNoticeMask p tag high low) s →
    Replies (.setNoticeMask p tag high low) s (fun u =>
      if high ≠ 0 then (u, .refusedRange, [])
      else (u.setPort p { u.port p with mask := low }, .done, []))) ∧
  (∀ (p : Port) (s : State), s.resetPin = false → (s.port p).answer = some .notices → (s.port p).refusals = [] →
    (s.port p).sending = none → ∃ t w, exec (.answerFrameSend p) s = .next t ∧ (t.port p).flags = 0 ∧
      (∀ p', p' ≠ p → t.port p' = s.port p') ∧ (t.port p).sending = some w ∧
      w.frame = answerFrame (s.port p).tag .done false (8 - (s.port p).queue.length) (s.statusByte p &&& 0x7F) [(s.port p).flags])

/-- R151, R152, R164: a request that arrives while an answer of its port is unfinished, or behind another request, waits: only its
arrival is taken (that a request command stands for the request's arrival too is the model's reading, log 2). In its turn, a request
whose code is not in the catalogue or whose argument length is wrong is answered REFUSED_RANGE and changes nothing; section 13.2 gives the
codes with their lengths, section 13.4 those of the layout images. -/
def Obligations.RequestsAreTakenInTheirTurn : Prop :=
  (∀ (i : Instr) (p : Port) (q : Request) (s : State), requestOf i = some (p, q) →
    (∀ p' tag code args, i = .unknownRequestCode p' tag code args → portPasses code args = false) →
    s.resetPin = false →
    ((s.port p).answer.isSome = true ∨ ((s.port p).queue ≠ [] ∧ (s.port p).queue.head? ≠ some q)) →
    exec i s = .next (State.settle (s.setPort p ((s.port p).arrive q)))) ∧
  (∀ (p : Port) (tag code : Byte) (args : List Byte) (s : State), portPasses code args = false →
    Asked (.unknownRequestCode p tag code args) s →
    Replies (.unknownRequestCode p tag code args) s (fun u => (u, .refusedRange, []))) ∧
  (∀ (code : Byte) (args : List Byte), portPasses code args = true ↔
    (code.toNat, args.length) ∈
      [(0x01, 0), (0x02, 1), (0x03, 2), (0x04, 1), (0x05, 0), (0x06, 0), (0x07, 0), (0x08, 1), (0x09, 1), (0x0A, 2), (0x0B, 0)] ++
      [(0x10, 0), (0x12, 0), (0x13, 0), (0x14, 0), (0x15, 0), (0x16, 2), (0x20, 2), (0x21, 1), (0x22, 2), (0x23, 0), (0x28, 1)] ++
      [(0x29, 1), (0x2A, 1), (0x2B, 1), (0x30, 2), (0x31, 1), (0x32, 0), (0x34, 2), (0x38, 0), (0x39, 1), (0x3A, 2), (0x3B, 0)] ++
      [(0x40, 0), (0x41, 0), (0x42, 0), (0x48, 4), (0x49, 1), (0x4A, 2)] ∨
    (code = 0x11 ∧ ∃ kind image, args = kind :: image ∧ [4, 13, 5, 2, 8][kind.toNat]? = some image.length))

/-- R157: a change request from the port without authority is answered REFUSED_AUTHORITY and changes nothing. -/
def Obligations.ChangesNeedAuthority : Prop :=
  ∀ (i : Instr) (p : Port) (q : Request) (s : State), requestOf i = some (p, q) →
    (∀ p' tag code args, i ≠ .unknownRequestCode p' tag code args) →
    portPasses q.code q.args = true → q.code ∉ openCodes → Turn p q s → s.authority.heldBy p = false →
    Replies i s (fun u => (u, .refusedAuthority, []))

/-! ## Reads -/

/-- R157, R155, R40, R60, R81, R133, R119, R149, R162: a read in range is taken from either port in every state, and changes nothing;
a number out of range is answered REFUSED_RANGE. R150, R165: what each frame of a read carries, over the records as they stand when it is
sent, with the codes and images of sections 13.3 and 13.4; a record that does not exist is VOID. R13: the body of READ LAYOUT
RECORD is its record as the Layout Table holds it when the request is taken; that R150, by which a frame is fixed when it is sent, does not
make it the record held then, is the model's reading (log 13). The bits of a byte that the tables do not name are 0 (log 26), the place of
a stream in the Wait Queue and the Anomaly Table is kept by the model's own running numbers (log 8), READ ZONES of numbers that no zone has
sends one VOID frame each (log 25), and an entry whose train has no record waits for MOTION (log 17). -/
def Obligations.ReadsAreTakenInEveryState : Prop :=
  let two := fun (n : Nat) => [byte (n / 256), byte n]
  let held := fun (l : Layout) (kind : RecordKind) (j : Nat) =>
    match kind with
    | .circuit => l.circuit.map (fun r => [0, byte r.zoneCount, byte r.answerTimeout, byte r.linkUp, byte r.linkDown])
    | .zone => (l.zones.find j).map (fun r => [1, byte j, byte r.spec.kind.code, byte r.group] ++
        (match r.permit with
         | some (n, c) => [byte n, byte c]
         | none => [0xFF, 0xFF]) ++
        (match r.spec with
         | .run least most => two least ++ two most ++ [0xFF, 0xFF, 0xFF, 0xFF]
         | .launch hold limit crest => [0xFF, 0xFF, 0xFF, 0xFF] ++ two hold ++ [byte limit, byte crest]
         | _ => [0xFF, 0xFF, 0xFF, 0xFF, 0xFF, 0xFF, 0xFF, 0xFF]))
    | .gate => (l.gates.find j).map (fun r => [2, byte j, byte r.src, byte r.dst, byte r.node, byte r.channel])
    | .node => (l.nodes.find j).map (fun a => [3, byte j, byte a])
    | .switch => (l.switches.find j).map (fun r =>
        [4, byte j, byte r.zone, byte r.fork.code, byte r.main, byte r.branch, byte r.node] ++ two r.moveTimeout)
  (∀ (p : Port) (tag a b : Byte) (s : State),
    (Asked (.readStatus p tag) s → Reads (.readStatus p tag) s .status) ∧
    (Asked (.readTrains p tag) s → Reads (.readTrains p tag) s (.trains 0)) ∧
    (Asked (.readWaitQueue p tag) s → Reads (.readWaitQueue p tag) s (.waitQueue none)) ∧
    (Asked (.readAnomalies p tag) s → Reads (.readAnomalies p tag) s (.anomalies none)) ∧
    (Asked (.readNotices p tag) s → Reads (.readNotices p tag) s .notices) ∧
    (Asked (.readZone p tag a) s → if a.toNat < 32 then Reads (.readZone p tag a) s (.zone a.toNat)
      else Replies (.readZone p tag a) s (fun u => (u, .refusedRange, []))) ∧
    (Asked (.readZones p tag a b) s →
      if a.toNat < 32 ∧ 1 ≤ b.toNat ∧ a.toNat + b.toNat ≤ 32
      then Reads (.readZones p tag a b) s (.zones a.toNat (a.toNat + b.toNat - 1))
      else Replies (.readZones p tag a b) s (fun u => (u, .refusedRange, []))) ∧
    (Asked (.readTrain p tag a) s → if 1 ≤ a.toNat ∧ a.toNat ≤ 12 then Reads (.readTrain p tag a) s (.train a.toNat)
      else Replies (.readTrain p tag a) s (fun u => (u, .refusedRange, []))) ∧
    (Asked (.readSwitch p tag a) s → if a.toNat < 4 then Reads (.readSwitch p tag a) s (.switch a.toNat)
      else Replies (.readSwitch p tag a) s (fun u => (u, .refusedRange, []))) ∧
    (Asked (.readNode p tag a) s → if a.toNat < 24 then Reads (.readNode p tag a) s (.node a.toNat)
      else Replies (.readNode p tag a) s (fun u => (u, .refusedRange, []))) ∧
    (Asked (.readLayoutRecord p tag a b) s →
      match [(RecordKind.circuit, 1), (.zone, 32), (.gate, 48), (.node, 24), (.switch, 4)][a.toNat]? with
      | some (k, keys) =>
        if b.toNat < keys then Reads (.readLayoutRecord p tag a b) s (.layoutRecord k b.toNat (held s.layout k b.toNat))
        else Replies (.readLayoutRecord p tag a b) s (fun u => (u, .refusedRange, []))
      | none => Replies (.readLayoutRecord p tag a b) s (fun u => (u, .refusedRange, [])))) ∧
  (∀ (p : Port) (s : State),
    let orNone := fun (n : Option Nat) =>
      match n with
      | some n => byte n
      | none => 0xFF
    let flag := fun (b : Bool) => if b = true then 1 else 0
    let state := fun (z : Nat) =>
      match s.zoneState z with
      | some x => byte x.code
      | none => 0
    let millis := fun (t : Millis) => [byte (t.toNat / 16777216), byte (t.toNat / 65536), byte (t.toNat / 256), byte t.toNat]
    let zoneBody := fun (z : Nat) (q : ZoneRec) (x : Zone) =>
      [byte z, byte q.spec.kind.code, byte q.group, byte x.state.code, orNone x.holder, byte (flag x.stopHold),
        orNone ((s.permit z).map flag)] ++
      (match x.timer with
       | .idle => [0, 0, 0]
       | .running .runTransit n _ => [1, byte (n / 256), byte n]
       | .running .trailingHold n _ => [2, byte (n / 256), byte n])
    let trainBody := fun (t : Nat) (r : Train) =>
      [byte t, r.tag, byte r.motion.code, byte r.motion.strandCode, byte r.claim.code, byte r.relaunches, byte (flag r.stepGrant),
        orNone (r.hold.reverse.find? (fun z => decide (s.zoneState z ≠ some .reserved))), orNone r.hold.head?, byte r.hold.length] ++
      r.hold.flatMap (fun z => [byte z, state z])
    let claimBody := fun (c : Claim) =>
      let extension := (s.head c.train).bind (fun z => s.extension z)
      let reason : WaitReason :=
        match s.motion c.train with
        | none => .motion
        | some .recovering => .motion
        | some (.stranded _) => .motion
        | some .untracked => .motion
        | some _ =>
          match extension with
          | none => .unresolved
          | some e =>
            if ∃ q, q ∈ e ∧ s.zoneState q.1 ≠ some .free then .zone
            else if ∃ q, q ∈ e ∧ s.layout.kindOf q.1 = some .transfer ∧ s.layout.connects s.switches q.2 q.1 = false then .route
            else if 6 < (s.holdOf c.train).length + e.length then .listFull
            else .ready
      let zones := (extension.getD []).map (fun q => q.1)
      [byte c.train, byte c.cls.code, c.order, byte (flag c.step), byte reason.code,
        if reason = .zone then orNone (zones.find? (fun z => decide (s.zoneState z ≠ some .free))) else 0xFF, byte zones.length] ++
      zones.map byte
    let anomalyBody := fun (a : Anomaly) =>
      [byte a.kind.code, byte a.subject, byte (flag a.stop + 2 * flag a.acked + 4 * flag (s.resolved a.kind a.subject))] ++ millis a.time
    s.nextFrame p .status = ⟨.done,
      [byte s.circuit.code, byte s.authority.code,
        byte (flag s.causes.stopIn + 2 * flag s.causes.key + 4 * flag s.causes.commanded + 8 * flag s.causes.anomaly),
        byte s.store.state.code] ++ millis s.timebase ++
      [if s.live = true then byte s.layout.zoneCount else 0, byte s.trains.length, byte s.waitQueue.length, byte s.anomalies.length,
        byte (flag s.tableFull),
        byte (flag s.stopInPin + 2 * flag s.keyMaint + 4 * (if s.circuit = .operating then 1 else 0)), byte (s.port p).discards],
      false, .status⟩ ∧
    (∀ z x q, s.zones.find z = some x → s.layout.zones.find z = some q → s.nextFrame p (.zone z) = ⟨.done, zoneBody z q x, false, .zone z⟩) ∧
    (∀ z, s.zones.find z = none → s.nextFrame p (.zone z) = ⟨.void, [], false, .zone z⟩) ∧
    (∀ z last x q, s.live = true → s.zones.find z = some x → s.layout.zones.find z = some q →
      s.nextFrame p (.zones z last) = ⟨.done, zoneBody z q x, decide (z < last), .zones (z + 1) last⟩) ∧
    (∀ z last, s.live = true → s.zones.find z = none →
      s.nextFrame p (.zones z last) = ⟨.void, [], decide (z < last), .zones (z + 1) last⟩) ∧
    (∀ z last, s.live = false → s.nextFrame p (.zones z last) = ⟨.void, [], false, .zones z last⟩) ∧
    (∀ t, s.nextFrame p (.train t) =
      match s.trains.find t with
      | some r => ⟨.done, trainBody t r, false, .train t⟩
      | none => ⟨.void, [], false, .train t⟩) ∧
    (∀ last, s.nextFrame p (.trains last) =
      match s.trains.filter (fun e => decide (last < e.1)) with
      | e :: rest => ⟨.done, trainBody e.1 e.2, decide (rest ≠ []), .trains e.1⟩
      | [] => ⟨.void, [], false, .trains last⟩) ∧
    (∀ last, s.nextFrame p (.waitQueue last) =
      match (serviceOrder s.waitQueue).filter (fun c =>
        match last with
        | none => true
        | some (.course, n) => decide (c.cls = .yard ∨ n < c.serial)
        | some (.yard, n) => decide (c.cls = .yard ∧ n < c.serial)) with
      | c :: rest => ⟨.done, claimBody c, decide (rest ≠ []), .waitQueue (some (c.cls, c.serial))⟩
      | [] => ⟨.void, [], false, .waitQueue last⟩) ∧
    (∀ last, s.nextFrame p (.anomalies last) =
      match s.anomalies.filter (fun a => decide (∀ n, last = some n → n < a.serial)) with
      | a :: rest => ⟨.done, anomalyBody a, decide (rest ≠ []), .anomalies (some a.serial)⟩
      | [] => ⟨.void, [], false, .anomalies last⟩) ∧
    (∀ k, s.nextFrame p (.switch k) =
      match s.layout.switches.find k, s.switches.find k with
      | some r, some w => ⟨.done,
          [byte k, byte r.zone, byte r.fork.code, byte r.node, byte w.state.code,
            match w.state with
            | .moving .main => 0
            | .moving .branch => 1
            | _ => 0xFF] ++
          (match w.timer with
           | .running n => [1, byte (n / 256), byte n]
           | _ => [0, 0, 0]), false, .switch k⟩
      | _, _ => ⟨.void, [], false, .switch k⟩) ∧
    (∀ n, s.nextFrame p (.node n) =
      match s.nodes.find n with
      | some x => ⟨.done,
          [byte n, byte ((s.layout.nodes.find n).getD 0), byte x.state.code, byte x.good, byte x.miss,
            orNone (x.expected.map (fun q => q.toNat)), orNone ((s.layout.switchAt n).map (fun e => e.1))], false, .node n⟩
      | none => ⟨.void, [], false, .node n⟩)) ∧
  (∀ (p : Port) (s : State) (k : RecordKind) (j : Nat) (taken : Option (List Byte)),
    s.nextFrame p (.layoutRecord k j taken) =
      match taken with
      | some body => ⟨.done, body, false, .layoutRecord k j taken⟩
      | none => ⟨.void, [], false, .layoutRecord k j taken⟩) ∧
  ([ZoneKind.station, .storage, .lift, .launch, .brake, .transfer, .run].map ZoneKind.code = List.range 7 ∧
   [ZoneState.free, .reserved, .occupied, .trailing, .suspect, .outOfService].map ZoneState.code = List.range 6 ∧
   [Motion.standing, .cleared, .moving, .recovering, .stranded .overdue, .untracked].map Motion.code = List.range 6 ∧
   (∀ c, (Motion.stranded c).code = 4) ∧
   [Motion.stranded .overdue, .stranded .stuck, .stranded .launchLimit].map Motion.strandCode = [1, 2, 3] ∧
   (∀ m : Motion, m.code ≠ 4 → m.strandCode = 0) ∧
   [ClaimStatus.none, .pending, .granted].map ClaimStatus.code = List.range 3 ∧
   [ClaimClass.course, .yard].map ClaimClass.code = List.range 2 ∧
   [AnomalyKind.unexpectedEntry, .sequenceFault, .overspeed, .overdue, .stuck, .strandedLaunch, .nodeLost, .eventsLost, .switchFault,
     .switchDrift, .censusMotion].map AnomalyKind.code = (List.range 11).map (fun n => n + 1) ∧
   [SwitchState.unproven, .setMain, .setBranch, .moving .main, .faulted].map SwitchState.code = List.range 5 ∧
   (SwitchState.moving .branch).code = 3 ∧
   [NodeState.unmapped, .down, .linked, .lost].map NodeState.code = List.range 4 ∧
   [WaitReason.ready, .motion, .unresolved, .zone, .route, .listFull].map WaitReason.code = List.range 6 ∧
   [StoreState.valid, .writing, .invalid].map StoreState.code = List.range 3 ∧
   [Fork.entry, .exit].map Fork.code = List.range 2 ∧
   [ZoneSpec.station, .storage, .lift, .launch 0 0 0, .brake, .transfer, .run 0 0].map (fun x => x.kind.code) = List.range 7 ∧
   (∀ a b c, (ZoneSpec.launch a b c).kind = .launch) ∧ (∀ a b, (ZoneSpec.run a b).kind = .run) ∧
   [CircuitState.unconfigured, .config, .census, .operating, .halted].map CircuitState.code = List.range 5 ∧
   [Authority.console, .supervisor, .supervisorFixed, .maintenance].map Authority.code = List.range 4 ∧
   [Notice.anomaly, .trainArrived, .claimGranted, .switchDone, .circuit, .authority, .storeDone, .link].map Notice.bit = List.range 8 ∧
   [Result.done, .granted, .queued, .late, .void, .invalid, .busy, .refusedAuthority, .refusedState, .refusedRange, .refusedFull,
     .refusedHeld, .badFrame].map Result.code = List.range 13)

/-! ## The layout and the store -/

/-- R10: ENTER CONFIG discards the live tables, or is refused. -/
def Obligations.EnterConfigDiscardsTheLiveTables : Prop :=
  ∀ (p : Port) (tag : Byte) (s : State), Allowed (.enterConfig p tag) s →
    Replies (.enterConfig p tag) s (fun u =>
      let entered := State.raise .circuit { u with
        zones := [], trains := [], waitQueue := [], entryCounter := 0, switches := [], nodes := [], polled := none, poll := none
        anomalies := [], tableFull := false, timebase := 0, indicators := [], circuit := .config
        causes := { u.causes with commanded := false, anomaly := false } }
      if u.store.state = .writing then (u, .busy, [])
      else
        match u.circuit with
        | .config => (u, .done, [])
        | .unconfigured => (entered, .done, [])
        | .operating => (u, .refusedState, [])
        | _ =>
          if u.authority ≠ .maintenance ∨ ∃ e, e ∈ u.trains ∧
              (e.2.motion = .cleared ∨ e.2.motion = .moving ∨ e.2.motion = .recovering)
          then (u, .refusedState, []) else (entered, .done, []))

/-- R11, R164: LOAD LAYOUT RECORD stores a record in CONFIG under its kind and key, in place of one held there. R2 to R6, R166, section 13.4:
the record that an image of each kind gives, with the ranges of the fields that apply, the defaults of the circuit record, and the fields
that are dropped; an image of another kind, of another length, or with a field out of range gives none. -/
def Obligations.LayoutRecordsLoadInConfig : Prop :=
  (∀ (p : Port) (tag kind : Byte) (image : List Byte) (s : State), Allowed (.loadLayoutRecord p tag kind image) s →
    Replies (.loadLayoutRecord p tag kind image) s (fun u =>
      if portPasses 0x11 (kind :: image) = false then (u, .refusedRange, [])
      else if u.circuit ≠ .config then (u, .refusedState, [])
      else
        match recordOfImage kind image with
        | none => (u, .refusedRange, [])
        | some r => ({ u with layout := u.layout.store r }, .done, []))) ∧
  (∀ (l : Layout) (k : Nat),
    (∀ r, l.store (.circuit r) = { l with circuit := some r }) ∧
    (∀ r, ∃ zones, l.store (.zone k r) = { l with zones := zones } ∧ ∀ j, zones.find j = if j = k then some r else l.zones.find j) ∧
    (∀ r, ∃ gates, l.store (.gate k r) = { l with gates := gates } ∧ ∀ j, gates.find j = if j = k then some r else l.gates.find j) ∧
    (∀ a, ∃ nodes, l.store (.node k a) = { l with nodes := nodes } ∧ ∀ j, nodes.find j = if j = k then some a else l.nodes.find j) ∧
    (∀ r, ∃ switches, l.store (.switch k r) = { l with switches := switches } ∧
      ∀ j, switches.find j = if j = k then some r else l.switches.find j)) ∧
  (let two := fun (high low : Byte) => high.toNat * 256 + low.toNat
   let unless0 := fun (v : Byte) (d : Nat) => if v = 0 then d else v.toNat
   (∀ n timeout up down : Byte, recordOfImage 0 [n, timeout, up, down] =
     if 2 ≤ n.toNat ∧ n.toNat ≤ 32 ∧ timeout.toNat ≤ 15 ∧ up.toNat ≤ 7 ∧ down.toNat ≤ 7
     then some (.circuit ⟨n.toNat, unless0 timeout 4, unless0 up 3, unless0 down 2⟩) else none) ∧
   (∀ k kind group node channel m1 m0 x1 x0 h1 h0 limit crest : Byte,
     recordOfImage 1 [k, kind, group, node, channel, m1, m0, x1, x0, h1, h0, limit, crest] =
       let permit : Option (Option (Nat × Nat)) :=
         if node = 0xFF ∧ channel = 0xFF then some none
         else if node.toNat < 24 ∧ channel.toNat ≤ 1 then some (some (node.toNat, channel.toNat))
         else none
       let spec : Option ZoneSpec :=
         if kind = 0 then some .station
         else if kind = 1 then some .storage
         else if kind = 2 then some .lift
         else if kind = 3 then
           if 100 ≤ two h1 h0 ∧ limit.toNat ≤ 3 ∧ crest.toNat < 48 then some (.launch (two h1 h0) limit.toNat crest.toNat) else none
         else if kind = 4 then some .brake
         else if kind = 5 then some .transfer
         else if kind = 6 then some (.run (two m1 m0) (two x1 x0))
         else none
       match permit, spec with
       | some permit, some spec => if k.toNat < 32 ∧ group.toNat ≤ 3 then some (.zone k.toNat ⟨spec, group.toNat, permit⟩) else none
       | _, _ => none) ∧
   (∀ k src dst node channel : Byte, recordOfImage 2 [k, src, dst, node, channel] =
     if k.toNat < 48 ∧ src.toNat < 32 ∧ dst.toNat < 32 ∧ node.toNat < 24 ∧ channel.toNat ≤ 3
     then some (.gate k.toNat ⟨src.toNat, dst.toNat, node.toNat, channel.toNat⟩) else none) ∧
   (∀ k address : Byte, recordOfImage 3 [k, address] =
     if k.toNat < 24 ∧ address.toNat ≤ 31 then some (.node k.toNat address.toNat) else none) ∧
   (∀ k zone fork main branch node t1 t0 : Byte, recordOfImage 4 [k, zone, fork, main, branch, node, t1, t0] =
     if k.toNat < 4 ∧ zone.toNat < 32 ∧ fork.toNat ≤ 1 ∧ main.toNat < 48 ∧ branch.toNat < 48 ∧ node.toNat < 24 ∧ 500 ≤ two t1 t0
     then some (.switch k.toNat ⟨zone.toNat, if fork = 0 then .entry else .exit, main.toNat, branch.toNat, node.toNat, two t1 t0⟩)
     else none) ∧
   (∀ (kind : Byte) (image : List Byte), [4, 13, 5, 2, 8][kind.toNat]? ≠ some image.length → recordOfImage kind image = none))

/-- R12: CLEAR LAYOUT empties the Layout Table in CONFIG and changes nothing elsewhere; a layout without a circuit record, or without
a zone record its zone count asks for, fails check 1. -/
def Obligations.ClearLayoutEmptiesTheTable : Prop :=
  (∀ (p : Port) (tag : Byte) (s : State), Allowed (.clearLayout p tag) s →
    Replies (.clearLayout p tag) s (fun u =>
      if u.circuit = .config then ({ u with layout := ⟨none, [], [], [], []⟩ }, .done, []) else (u, .refusedState, []))) ∧
  (∀ l : Layout, (l.circuit = none ∨ ∃ c z, l.circuit = some c ∧ z < c.zoneCount ∧ z < 32 ∧ l.zones.find z = none) →
    ∃ f, l.invalid = some f ∧ f.check = 1) ∧
  (∀ (p : Port) (tag : Byte) (s : State), s.circuit = .config →
    (s.layout.circuit = none ∨ ∃ c z, s.layout.circuit = some c ∧ z < c.zoneCount ∧ z < 32 ∧ s.layout.zones.find z = none) →
    Allowed (.commitLayout p tag) s →
    ∃ kind key, Replies (.commitLayout p tag) s (fun u => (u, .invalid, [1, kind, key])))

/-- R14, R16: COMMIT LAYOUT names the first check that fails, or builds the live tables. R15: a layout is sound exactly when every record
passes every check; otherwise the failure named is that of the first check, and in it of the first record in the order examined (a lower
record kind before a higher one, then by key), that does not pass. That the circuit record is named with the key 0 is the model's choice
(log 27). -/
def Obligations.CommitLayoutBuildsTheLiveTables : Prop :=
  (∀ l : Layout, l.Canonical →
    (l.invalid = none ↔ ∀ check kind key, l.Passes check kind key) ∧
    (∀ f, l.invalid = some f ↔
      ¬l.Passes f.check f.kind f.key ∧
      (∀ check kind key, check < f.check → l.Passes check kind key) ∧
      (∀ kind key, kind.code < f.kind.code ∨ (kind = f.kind ∧ key < f.key) → l.Passes f.check kind key))) ∧
  (∀ (p : Port) (tag : Byte) (s : State), Allowed (.commitLayout p tag) s →
    Replies (.commitLayout p tag) s (fun u =>
      if u.circuit ≠ .config then (u, .refusedState, [])
      else
        match u.layout.invalid with
        | some f => (u, .invalid, [byte f.check, byte f.kind.code, byte f.key])
        | none =>
          (State.raise .circuit { u with
            zones := u.layout.zones.map (fun e => (e.1, ⟨.suspect, none, false, .idle⟩))
            trains := [], waitQueue := [], entryCounter := 0
            switches := u.layout.switches.map (fun e => (e.1, ⟨.unproven, .idle⟩))
            nodes := (List.range 24).map (fun n => (n, ⟨if u.layout.mapped n = true then .down else .unmapped, 0, 0, none⟩))
            polled := none, poll := none, anomalies := [], tableFull := false, timebase := 0, circuit := .census }, .done, [])))

/-- R17: STORE LAYOUT captures the Layout Table; the completion of the write makes the store VALID and raises STORE_DONE. That a
completion with no write in flight leaves the state is the model's reading of an event that cannot come then (log 4). -/
def Obligations.TheStoreTakesTheCommittedLayout : Prop :=
  (∀ (p : Port) (tag : Byte) (s : State), Allowed (.storeLayout p tag) s →
    Replies (.storeLayout p tag) s (fun u =>
      if u.store.state = .writing then (u, .busy, [])
      else if u.circuit = .unconfigured ∨ u.circuit = .config then (u, .refusedState, [])
      else ({ u with store := ⟨.writing, u.layout, true⟩ }, .done, []))) ∧
  (∀ s : State, s.resetPin = false → exec .storeWriteComplete s = .next (State.settle (
    if s.store.state = .writing then State.raise .storeDone { s with store := ⟨.valid, s.store.image, true⟩ } else s)))

/-- R18: ERASE STORE makes the store INVALID and changes nothing else; a STORE LAYOUT in a live circuit then writes the committed layout
again, and a hard reset leaves the part UNCONFIGURED. -/
def Obligations.EraseStoreMakesTheStoreInvalid : Prop :=
  (∀ (p : Port) (tag : Byte) (s : State), Allowed (.eraseStore p tag) s →
    Replies (.eraseStore p tag) s (fun u =>
      if u.store.state = .writing then (u, .busy, [])
      else if u.authority ≠ .maintenance then (u, .refusedState, [])
      else ({ u with store := ⟨.invalid, .empty, false⟩ }, .done, []))) ∧
  (∀ (p : Port) (tag : Byte) (s : State), s.store.state = .invalid → s.live = true → Allowed (.storeLayout p tag) s →
    Replies (.storeLayout p tag) s (fun u => ({ u with store := ⟨.writing, u.layout, true⟩ }, .done, []))) ∧
  (∀ s : State, s.store.state = .invalid → ∃ t, exec .hardReset s = .next t ∧ t.circuit = .unconfigured)

/-- R148: REMAP NODE gives a node another line address in maintenance, with its conditions in order. R5: a node is mapped when it has a
record with a line address from 1. R7: a node's affected zones are those it serves. That condition 6 answers
REFUSED_HELD where any affected zone is held, whatever another affected zone is, is the model's own reading (log 17). -/
def Obligations.RemapNodeNeedsItsZonesOutOfUse : Prop :=
  (∀ (l : Layout) (n z : Nat), l.Canonical →
    (l.mapped n = true ↔ ∃ a, l.nodes.find n = some a ∧ 1 ≤ a) ∧
    (z ∈ l.affectedZones n ↔ l.zones.find z ≠ none ∧
      ((∃ g r, l.gates.find g = some r ∧ (r.src = z ∨ r.dst = z) ∧ r.node = n) ∨
       (∃ q c, l.zones.find z = some q ∧ q.permit = some (n, c))))) ∧
  (∀ (p : Port) (tag node address : Byte) (s : State), Allowed (.remapNode p tag node address) s →
    Replies (.remapNode p tag node address) s (fun u =>
      let n := node.toNat
      let a := address.toNat
      if u.live = false then (u, .refusedState, [])
      else if u.authority ≠ .maintenance then (u, .refusedState, [])
      else if ¬(n < 24 ∧ 1 ≤ a ∧ a ≤ 31) then (u, .refusedRange, [])
      else if u.layout.mapped n = false ∨ u.linked n = true then (u, .refusedState, [])
      else if ∃ e, e ∈ u.layout.nodes ∧ e.1 ≠ n ∧ e.2 = a then (u, .refusedState, [])
      else if ∃ z, z ∈ u.layout.affectedZones n ∧ u.holder z ≠ none then (u, .refusedHeld, [])
      else if ∃ z, z ∈ u.layout.affectedZones n ∧ u.zoneState z ≠ some .suspect ∧ u.zoneState z ≠ some .outOfService
        then (u, .refusedState, [])
      else
        ({ u with
          layout := { u.layout with nodes := u.layout.nodes.put n a }
          nodes := u.nodes.upd n (fun _ => ⟨.down, 0, 0, none⟩)
          poll := u.poll.map (fun q => if q.node = n then { q with counted := false } else q) }, .done, [])))

/-! ## Trains -/

/-- R57, R136, R28, R42: PLACE TRAIN in census and in maintenance, its conditions in order; the new train takes the lowest empty slot, and
none is empty when all twelve hold a record. The stoppable zones are counted, and a TRANSFER zone's switch is tested, over the records; that
the lowest switch stands for it where more than one names the zone is the model's reading (log 17). -/
def Obligations.PlaceTrainSeatsANewTrain : Prop :=
  (∀ (s : State) (t : Nat), s.emptySlot = some t →
    1 ≤ t ∧ t ≤ 12 ∧ s.trains.find t = none ∧ ∀ v, 1 ≤ v → v < t → (s.trains.find v).isSome = true) ∧
  (∀ s : State, s.emptySlot = none ↔ ∀ v, 1 ≤ v → v ≤ 12 → (s.trains.find v).isSome = true) ∧
  (∀ l : Layout, l.Canonical → l.stoppableCount = (l.zones.filter (fun e => decide (e.2.spec.kind ≠ .run))).length) ∧
  (∀ (s : State) (z : Nat), s.layout.Canonical → (s.switchSet z = true ↔ (s.layout.kindOf z = some .transfer →
    ∃ k r w, s.layout.Switched z k r ∧ s.switches.find k = some w ∧ (w.state = .setMain ∨ w.state = .setBranch)))) ∧
  (∀ (p : Port) (tag trainTag zone : Byte) (s : State), Allowed (.placeTrain p tag trainTag zone) s →
    Replies (.placeTrain p tag trainTag zone) s (fun u =>
      let z := zone.toNat
      let seated := fun (t : Nat) => State.sweep { u with
        zones := u.zones.upd z (fun x => { x with state := .occupied, holder := some t, timer := x.timer.kept .occupied })
        trains := u.trains.put t ⟨trainTag, .standing, .none, [z], 0, false⟩ }
      let last :=
        match u.emptySlot with
        | none => (u, Result.refusedFull, [])
        | some t => if u.layout.stoppableCount ≤ u.trains.length + 1 then (u, .refusedState, []) else (seated t, .done, [byte t])
      match u.circuit with
      | .unconfigured => (u, .refusedState, [])
      | .config => (u, .refusedState, [])
      | .census =>
        if u.layout.zoneCount ≤ z then (u, .refusedRange, [])
        else if u.layout.stoppable z = false then (u, .refusedState, [])
        else if u.holder z ≠ none then (u, .refusedHeld, [])
        else if u.zoneState z ≠ some .free ∧ u.zoneState z ≠ some .suspect then (u, .refusedState, [])
        else if u.nodesLinked z = false then (u, .refusedState, [])
        else if u.switchSet z = false then (u, .refusedState, [])
        else last
      | _ =>
        if u.authority ≠ .maintenance then (u, .refusedState, [])
        else if u.layout.zoneCount ≤ z then (u, .refusedRange, [])
        else if u.layout.kindOf z ≠ some .storage then (u, .refusedState, [])
        else if u.holder z ≠ none then (u, .refusedHeld, [])
        else if u.zoneState z ≠ some .free then (u, .refusedState, [])
        else if u.nodesLinked z = false then (u, .refusedState, [])
        else last))

/-- R58, R137: WITHDRAW TRAIN removes a standing train: in census its zone is abandoned, in maintenance it leaves a STORAGE zone, which
becomes FREE. That an entry of the train in the Wait Queue goes with it, should one be there, is the model's own (log 17). -/
def Obligations.WithdrawTrainRemovesAStandingTrain : Prop :=
  ∀ (p : Port) (tag train : Byte) (s : State), Allowed (.withdrawTrain p tag train) s →
    Replies (.withdrawTrain p tag train) s (fun u =>
      let t := train.toNat
      let without := fun (f : Zone → Zone) => State.sweep { u with
        zones := u.zones.updAll (u.heldBy t (u.holdOf t)) f
        trains := u.trains.del t
        waitQueue := u.waitQueue.filter (fun d => decide (d.train ≠ t)) }
      match u.circuit with
      | .unconfigured => (u, .refusedState, [])
      | .config => (u, .refusedState, [])
      | .census =>
        if ¬(1 ≤ t ∧ t ≤ 12) then (u, .refusedRange, [])
        else
          match u.trains.find t with
          | none => (u, .refusedState, [])
          | some r => if r.motion ≠ .standing then (u, .refusedState, []) else (without (Zone.leave .suspect), .done, [])
      | _ =>
        if u.authority ≠ .maintenance then (u, .refusedState, [])
        else if ¬(1 ≤ t ∧ t ≤ 12) then (u, .refusedRange, [])
        else
          match u.trains.find t with
          | none => (u, .refusedState, [])
          | some r =>
            if r.motion ≠ .standing ∨ r.claim ≠ .none then (u, .refusedState, [])
            else if ¬(r.hold.length = 1 ∧ ∀ z, z ∈ r.hold → u.layout.kindOf z = some .storage) then (u, .refusedState, [])
            else ((without Zone.released).evaluate, .done, []))

/-- R59, R138: RELOCATE TRAIN makes a train stand in one zone and abandons its others. R28, R29, R27, R106: what being seated, abandoned and
released makes of a zone, and which timer stays; what counts as STRANDED. -/
def Obligations.RelocateTrainSeatsItWhereDeclared : Prop :=
  (∀ (t : Nat) (x : Zone) (st : ZoneState) (use : TimerUse) (n : Nat) (e : Expiry),
    Zone.give .occupied t x = { x with state := .occupied, holder := some t, timer := x.timer.kept .occupied } ∧
    Zone.leave .suspect x = { x with state := .suspect, holder := none, timer := .idle } ∧
    Zone.released x = { x with state := if x.state = .suspect then .suspect else .free, holder := none, timer := .idle } ∧
    ZoneTimer.kept st .idle = .idle ∧
    ZoneTimer.kept st (.running use n e) =
      if (use = .runTransit ∧ st = .occupied) ∨ (use = .trailingHold ∧ st = .trailing) then .running use n e else .idle) ∧
  (∀ (s : State) (t z : Nat) (zs : List Nat), z ∈ s.heldBy t zs ↔ z ∈ zs ∧ s.holder z = some t) ∧
  (∀ m : Motion, m.isStranded = true ↔ ∃ c, m = .stranded c) ∧
  (∀ (p : Port) (tag train zone : Byte) (s : State), Allowed (.relocateTrain p tag train zone) s →
    Replies (.relocateTrain p tag train zone) s (fun u =>
      let t := train.toNat
      let z := zone.toNat
      let moved := State.sweep { u with
        zones := (u.zones.updAll ((u.heldBy t (u.holdOf t)).filter (fun y => decide (y ≠ z))) (Zone.leave .suspect)).upd z
          (Zone.give .occupied t)
        trains := u.trains.upd t (fun r => { r with motion := .standing, hold := [z], relaunches := 0, stepGrant := false, claim := .none })
        waitQueue := u.waitQueue.filter (fun d => decide (d.train ≠ t)) }
      let last :=
        if u.layout.stoppable z = false then (u, Result.refusedState, [])
        else if ∃ v, u.holder z = some v ∧ v ≠ t then (u, .refusedHeld, [])
        else if u.holder z = none ∧ u.zoneState z ≠ some .free ∧ u.zoneState z ≠ some .suspect then (u, .refusedState, [])
        else if u.nodesLinked z = false then (u, .refusedState, [])
        else if u.switchSet z = false then (u, .refusedState, [])
        else (moved, .done, [])
      match u.circuit with
      | .unconfigured => (u, .refusedState, [])
      | .config => (u, .refusedState, [])
      | .census =>
        if ¬(1 ≤ t ∧ t ≤ 12 ∧ z < u.layout.zoneCount) then (u, .refusedRange, [])
        else
          match u.trains.find t with
          | none => (u, .refusedState, [])
          | some r => if r.motion ≠ .standing ∧ r.motion ≠ .untracked then (u, .refusedState, []) else last
      | _ =>
        if u.authority ≠ .maintenance then (u, .refusedState, [])
        else if ¬(1 ≤ t ∧ t ≤ 12 ∧ z < u.layout.zoneCount) then (u, .refusedRange, [])
        else
          match u.trains.find t with
          | none => (u, .refusedState, [])
          | some r => if r.motion ≠ .untracked ∧ r.motion.isStranded = false then (u, .refusedState, []) else last))

/-- R139: BEGIN OPERATION takes the circuit from CENSUS to OPERATING when all seven conditions hold; otherwise it changes nothing and
its body names the first that does not, with the item that the last column of R139 gives it (0xFF where there is none): the lowest
SUSPECT zone, unlinked mapped node, unset switch or UNTRACKED train, the first cause, or the oldest unacknowledged entry. -/
def Obligations.BeginOperationNeedsSevenConditions : Prop :=
  ∀ (p : Port) (tag : Byte) (s : State), Allowed (.beginOperation p tag) s →
    ((∀ c, 1 ≤ c → c ≤ 7 → s.beginCondition c) →
      Replies (.beginOperation p tag) s (fun u => (State.raise .circuit { u with circuit := .operating }, .done, []))) ∧
    (∀ c, 1 ≤ c → c ≤ 7 → ¬ s.beginCondition c → (∀ d, 1 ≤ d → d < c → s.beginCondition d) →
      ∃ i j, Replies (.beginOperation p tag) s (fun u => (u, .refusedState, [byte c, i, j])) ∧
        (c ≤ 6 → j = 0xFF) ∧
        (c = 1 → i = 0xFF) ∧
        (s.Canonical → c = 2 → ∃ z, i = byte z ∧ s.zoneState z = some .suspect ∧ ∀ y, s.zoneState y = some .suspect → z ≤ y) ∧
        (s.Canonical → c = 3 →
          let unlinked := fun n => (s.nodes.find n).isSome = true ∧ s.layout.mapped n = true ∧ s.linked n = false
          ∃ n, i = byte n ∧ unlinked n ∧ ∀ m, unlinked m → n ≤ m) ∧
        (s.Canonical → c = 4 →
          let unset := fun k => (s.switches.find k).isSome = true ∧ switchPosition s.switches k = none
          ∃ k, i = byte k ∧ unset k ∧ ∀ l, unset l → k ≤ l) ∧
        (s.Canonical → c = 5 → ∃ t, i = byte t ∧ s.motion t = some .untracked ∧ ∀ v, s.motion v = some .untracked → t ≤ v) ∧
        (c = 6 → i = if s.causes.stopIn = true then 0 else if s.causes.key = true then 1 else if s.causes.commanded = true then 2 else 3) ∧
        (c = 7 → ∃ older a younger, s.anomalies = older ++ a :: younger ∧ (∀ d, d ∈ older → d.acked = true) ∧ a.acked = false ∧
          i = byte a.kind.code ∧ j = byte a.subject))

/-! ## Claims -/

/-- R74, R61 to R63: DISPATCH enters a claim for a train that stands in a yard zone, and evaluates. -/
def Obligations.DispatchEntersAClaim : Prop :=
  ∀ (p : Port) (tag train : Byte) (s : State), Allowed (.dispatch p tag train) s →
    Replies (.dispatch p tag train) s (fun u =>
      let t := train.toNat
      if u.circuit ≠ .operating then (u, .refusedState, [])
      else if u.authority = .maintenance then (u, .refusedState, [])
      else if ¬(1 ≤ t ∧ t ≤ 12) then (u, .refusedRange, [])
      else
        match u.trains.find t with
        | none => (u, .refusedState, [])
        | some r =>
          if r.motion ≠ .standing ∨ r.claim ≠ .none then (u, .refusedState, [])
          else if ¬ ∃ z, u.headOf r.hold = some z ∧ u.layout.yard z = true then (u, .refusedState, [])
          else ((u.withEntry t false).evaluate, (u.withEntry t false).evaluate.claimResult t, []))

/-- R75, R53: CANCEL DISPATCH takes back a claim that is still pending, but not an automatic one; with a claim entered by STEP TRAIN the
step grant goes too. -/
def Obligations.CancelDispatchTakesBackAPendingClaim : Prop :=
  ∀ (p : Port) (tag train : Byte) (s : State), Allowed (.cancelDispatch p tag train) s →
    Replies (.cancelDispatch p tag train) s (fun u =>
      let t := train.toNat
      if u.circuit ≠ .operating ∧ u.circuit ≠ .halted then (u, .refusedState, [])
      else if ¬(1 ≤ t ∧ t ≤ 12) then (u, .refusedRange, [])
      else
        match u.trains.find t with
        | none => (u, .refusedState, [])
        | some r =>
          match r.claim with
          | .none => (u, .refusedState, [])
          | .granted => (u, .late, [])
          | .pending =>
            match u.waitQueue.find? (fun d => decide (d.train = t)) with
            | none => (u, .refusedState, [])
            | some c =>
              if c.cls = .course ∧ c.step = false then (u, .refusedState, [])
              else
                ({ u with
                  waitQueue := u.waitQueue.filter (fun d => decide (d.train ≠ t))
                  trains := u.trains.upd t (fun r => { r with claim := .none, stepGrant := if c.step = true then false else r.stepGrant }) },
                  .done, []))

/-- R77, R53: STEP TRAIN gives a step grant in a circuit halted for maintenance, and enters a claim for a train that stands. -/
def Obligations.StepTrainGivesAStepGrant : Prop :=
  ∀ (p : Port) (tag train : Byte) (s : State), Allowed (.stepTrain p tag train) s →
    Replies (.stepTrain p tag train) s (fun u =>
      let t := train.toNat
      let given : State := { u with trains := u.trains.upd t (fun r => { r with stepGrant := true }) }
      if u.circuit ≠ .halted then (u, .refusedState, [])
      else if u.authority ≠ .maintenance then (u, .refusedState, [])
      else if ¬(1 ≤ t ∧ t ≤ 12) then (u, .refusedRange, [])
      else
        match u.trains.find t with
        | none => (u, .refusedState, [])
        | some r =>
          if r.motion = .cleared ∧ r.claim = .granted then (given, .granted, [])
          else if r.motion = .standing ∧ r.claim = .none then
            ((given.withEntry t true).evaluate, (given.withEntry t true).evaluate.claimResult t, [])
          else (u, .refusedState, []))

/-- R79, R51: RELAUNCH makes a train stranded by the launch limit stand again, with no relaunch counted, and enters its claim. That a
train whose claim is not NONE is evaluated with the claim it has is the model's own (log 17). -/
def Obligations.RelaunchRestoresAStrandedTrain : Prop :=
  ∀ (p : Port) (tag train : Byte) (s : State), Allowed (.relaunch p tag train) s →
    Replies (.relaunch p tag train) s (fun u =>
      let t := train.toNat
      let ready := State.sweep { u with trains := u.trains.upd t (fun r => { r with relaunches := 0, motion := .standing }) }
      if u.circuit ≠ .operating ∧ u.circuit ≠ .halted then (u, .refusedState, [])
      else if ¬(1 ≤ t ∧ t ≤ 12) then (u, .refusedRange, [])
      else
        match u.trains.find t with
        | none => (u, .refusedState, [])
        | some r =>
          if r.motion ≠ .stranded .launchLimit then (u, .refusedState, [])
          else
            let claimed := if r.claim = .none then ready.withEntry t false else ready
            (claimed.evaluate, claimed.evaluate.claimResult t, []))

/-- R66 to R69, R24, R45: an entry is granted exactly when its train stands or moves, the extension of its head zone is found, every
zone of it is FREE with its switch connecting, and the hold list has room; then the whole extension is reserved at once. R9: the exit
extension of a stoppable zone is the route from its current exit gate, and no other zone has one. R8: which gate connects into a TRANSFER
zone, and that none does while its switch is UNPROVEN, MOVING or FAULTED. That the lowest exit gate and the lowest switch stand for the one
in a layout that check 5 of R15 would not pass is the model's reading (log 17). -/
def Obligations.AGrantReservesTheWholeExtension : Prop :=
  (∀ (s : State) (z : Nat) (e : List (Nat × Nat)), s.layout.Canonical →
    (s.extension z = some e ↔
      (∃ k, s.layout.kindOf z = some k ∧ k ≠ .run) ∧ ∃ g, s.layout.LeftBy s.switches z g ∧ s.layout.Route g e)) ∧
  (∀ (s : State) (z g : Nat), s.layout.Canonical →
    (s.layout.connects s.switches g z = true ↔ s.layout.JoinsInto s.switches g z) ∧
    (∀ k r w, s.layout.Switched z k r → s.switches.find k = some w →
      (w.state = .unproven ∨ (∃ q, w.state = .moving q) ∨ w.state = .faulted) → s.layout.connects s.switches g z = false)) ∧
  (∀ (s : State) (z : Nat),
    s.layout.kindOf z = (s.layout.zones.find z).map (fun q => q.spec.kind) ∧
    (s.layout.stoppable z = true ↔ ∃ k, s.layout.kindOf z = some k ∧ k ≠ .run) ∧
    (s.layout.yard z = true ↔ s.layout.kindOf z = some .station ∨ s.layout.kindOf z = some .storage) ∧
    (∀ hold, s.headOf hold = hold.reverse.find? (fun y => decide (s.zoneState y ≠ some .reserved)))) ∧
  (∀ (s : State) (c : Claim),
    s.tryGrant c =
      match s.trains.find c.train with
      | none => s
      | some r =>
        match (s.headOf r.hold).bind (fun z => s.extension z) with
        | none => s
        | some e =>
          if (r.motion = .standing ∨ r.motion = .moving) ∧ r.hold.length + e.length ≤ 6 ∧
              ∀ q, q ∈ e → s.zoneState q.1 = some .free ∧
                (s.layout.kindOf q.1 = some .transfer → s.layout.connects s.switches q.2 q.1 = true) then
            let u : State := { s with
              zones := s.zones.updAll (e.map (fun q => q.1)) (Zone.give .reserved c.train)
              trains := s.trains.upd c.train (fun r => { r with
                hold := r.hold ++ e.map (fun q => q.1), claim := .granted
                motion := if r.motion = .standing then .cleared else r.motion })
              waitQueue := s.waitQueue.filter (fun d => decide (d.train ≠ c.train)) }
            if c.cls = .yard then State.raise .claimGranted u else u
          else s)

/-- R64, R66, R81: the service order is every COURSE entry before every YARD entry, each class oldest first; an evaluation goes through the
entries in that order, and READ WAIT QUEUE shows them in it. -/
def Obligations.CourseIsServedBeforeYard : Prop :=
  (∀ q : List Claim,
    (serviceOrder q).Pairwise (fun c d => ¬(c.cls = .yard ∧ d.cls = .course)) ∧
    (serviceOrder q).filter (fun c => decide (c.cls = .course)) = q.filter (fun c => decide (c.cls = .course)) ∧
    (serviceOrder q).filter (fun c => decide (c.cls = .yard)) = q.filter (fun c => decide (c.cls = .yard))) ∧
  (∀ s : State, s.evaluate = (serviceOrder s.waitQueue).foldl (fun u c => u.tryGrant c) s ∧
    s.claimsAfter none = serviceOrder s.waitQueue)

/-! ## Zones -/

/-- R36, R37: SET SERVICE withdraws an unheld zone from use, and returns one whose nodes are all LINKED. R7, R28: the nodes of a zone are
those of its entry and exit gates and its permit node. That every acknowledged entry is re-examined when a zone returns to service, where the
spec names no removal, is the model's reading (log 9). -/
def Obligations.SetServiceTakesOnlyUnheldZones : Prop :=
  (∀ (s : State) (z n : Nat), s.layout.Canonical →
    let serves := fun (n : Nat) =>
      (∃ g r, s.layout.gates.find g = some r ∧ (r.src = z ∨ r.dst = z) ∧ r.node = n) ∨
      (∃ q c, s.layout.zones.find z = some q ∧ q.permit = some (n, c))
    (n ∈ s.layout.servingNodes z ↔ serves n) ∧
    (s.nodesLinked z = true ↔ ∀ n, serves n → ∃ x, s.nodes.find n = some x ∧ x.state = .linked)) ∧
  (∀ (p : Port) (tag zone setting : Byte) (s : State),
    let z := zone.toNat
    let turned := fun (u : State) (st : ZoneState) => State.sweep { u with
      zones := u.zones.upd z (fun x => { x with state := st, timer := x.timer.kept st }) }
    (Allowed (.setServiceOff p tag zone setting) s → setting ≠ 1 →
      Replies (.setServiceOff p tag zone setting) s (fun u =>
        if u.live = false then (u, .refusedState, [])
        else if u.layout.zoneCount ≤ z then (u, .refusedRange, [])
        else if setting ≠ 0 then (u, .refusedRange, [])
        else if u.holder z ≠ none then (u, .refusedHeld, [])
        else if u.zoneState z = some .outOfService then (u, .done, [])
        else (turned u .outOfService, .done, []))) ∧
    (Allowed (.setServiceOn p tag zone) s →
      Replies (.setServiceOn p tag zone) s (fun u =>
        if u.live = false then (u, .refusedState, [])
        else if u.layout.zoneCount ≤ z then (u, .refusedRange, [])
        else if u.zoneState z ≠ some .outOfService then (u, .refusedState, [])
        else if u.nodesLinked z = false then (u, .refusedState, [])
        else ((turned u .free).evaluate, .done, []))))

/-- R38, R39: CLEAR ZONE and CLEAR UNHELD ZONES make FREE the zones that are SUSPECT without a holder and whose nodes are all LINKED. -/
def Obligations.ClearingFreesUnheldSuspectZones : Prop :=
  (∀ (p : Port) (tag zone : Byte) (s : State), Allowed (.clearZone p tag zone) s →
    Replies (.clearZone p tag zone) s (fun u =>
      let z := zone.toNat
      if u.live = false then (u, .refusedState, [])
      else if u.layout.zoneCount ≤ z then (u, .refusedRange, [])
      else if u.zoneState z ≠ some .suspect then (u, .refusedState, [])
      else if u.holder z ≠ none then (u, .refusedHeld, [])
      else if u.nodesLinked z = false then (u, .refusedState, [])
      else ((State.sweep { u with zones := u.zones.upd z (fun x => { x with state := .free, timer := x.timer.kept .free }) }).evaluate,
        .done, []))) ∧
  (∀ (p : Port) (tag : Byte) (s : State), Allowed (.clearUnheldZones p tag) s →
    Replies (.clearUnheldZones p tag) s (fun u =>
      let zs := u.zones.keys.filter (fun z => decide (u.zoneState z = some .suspect ∧ u.holder z = none ∧ u.nodesLinked z = true))
      let v := State.sweep { u with zones := u.zones.updAll zs (fun x => { x with state := .free, timer := x.timer.kept .free }) }
      if u.live = false then (u, .refusedState, [])
      else (if zs = [] then v else v.evaluate, .done, [byte zs.length])))

/-! ## Switches -/

/-- R114, R111: SET SWITCH begins a move of a switch whose zone has no holder, its conditions in order. -/
def Obligations.SetSwitchNeedsAnUnheldZone : Prop :=
  ∀ (p : Port) (tag switch position : Byte) (s : State), Allowed (.setSwitch p tag switch position) s →
    Replies (.setSwitch p tag switch position) s (fun u =>
      let k := switch.toNat
      if u.live = false then (u, .refusedState, [])
      else if 4 ≤ k then (u, .refusedRange, [])
      else
        match Position.ofCode position.toNat, u.layout.switches.find k, u.switches.find k with
        | some q, some r, some w =>
          if w.state = .moving .main ∨ w.state = .moving .branch then (u, .busy, [])
          else if u.holder r.zone ≠ none then (u, .refusedHeld, [])
          else if u.linked r.node = false then (u, .refusedState, [])
          else if w.state = (if q = .main then .setMain else .setBranch) then (u, .done, [])
          else ({ u with switches := u.switches.upd k (fun _ => ⟨.moving q, .running 0⟩) }, .done, [])
        | _, _, _ => (u, .refusedRange, []))

/-- R113, R115, R117: what a position report does to a switch, by the state it finds. Drift makes the switch FAULTED; where the TRANSFER zone
is held it marks that zone SUSPECT, its holder kept and UNTRACKED, with what R56 marks, and is of stop class yes; every other zone and train,
and every hold list, stays. That every acknowledged entry is re-examined then is the model's reading (log 9). -/
def Obligations.PositionReportsProveMoveOrDrift : Prop :=
  (∀ (s : State) (k : Nat) (r : SwitchRec) (q : Report) (w : Switch), s.switches.find k = some w → s.holder r.zone ≠ none →
    (w.state = .setMain ∧ q ≠ .main) ∨ (w.state = .setBranch ∧ q ≠ .branch) →
    ∃ zones trains,
      s.takeReport k r q = State.anomaly (State.sweep { s with
        switches := s.switches.upd k (fun w => { w with state := .faulted }), zones := zones, trains := trains }) .switchDrift k true ∧
      s.Marked [r.zone] (fun x => { x with state := .suspect, timer := .idle }) zones trains) ∧
  (∀ (s : State) (k : Nat) (r : SwitchRec) (q : Report) (w : Switch), s.switches.find k = some w →
    let at_ := fun (x : SwitchState) => (State.sweep { s with switches := s.switches.upd k (fun _ => ⟨x, .idle⟩) }).evaluate
    let faulted : State := { s with switches := s.switches.upd k (fun w => { w with state := .faulted }) }
    let drifted :=
      if s.holder r.zone = none then faulted.anomaly .switchDrift k false
      else (faulted.disturb r.zone).sweep.anomaly .switchDrift k true
    s.takeReport k r q =
      match w.state, q with
      | .unproven, .main => at_ .setMain
      | .unproven, .branch => at_ .setBranch
      | .unproven, _ => s
      | .moving .main, .main => (at_ .setMain).raise .switchDone
      | .moving .branch, .branch => (at_ .setBranch).raise .switchDone
      | .moving _, _ => s
      | .setMain, .main => s
      | .setMain, _ => drifted
      | .setBranch, .branch => s
      | .setBranch, _ => drifted
      | .faulted, _ => s)

/-- R116: the expiry of a switch timer, taken against the switch as it stands. That nothing happens where no expiry waits is the model's
reading (log 4), and so is that a timer which has expired, idle by R111, is held as expired until its expiry is taken (log 12). -/
def Obligations.AnExpiredMoveFaultsTheSwitch : Prop :=
  ∀ (k : Nat) (s : State), s.resetPin = false →
    exec (.switchTimerExpiry k) s = .next (State.settle (
      match s.switches.find k with
      | some ⟨.moving _, .expired⟩ =>
        State.anomaly { s with switches := s.switches.upd k (fun _ => ⟨.faulted, .idle⟩) } .switchFault k false
      | some ⟨_, .expired⟩ => { s with switches := s.switches.upd k (fun w => { w with timer := .idle }) }
      | _ => s))

/-! ## The circuit stop -/

/-- R124, R123: HALT is taken from both ports in every authority state: COMMANDED arises in a live circuit, and nothing changes in
another; either way it is answered DONE. -/
def Obligations.HaltStopsALiveCircuit : Prop :=
  ∀ (p : Port) (tag : Byte) (s : State), Asked (.halt p tag) s →
    Replies (.halt p tag) s (fun u =>
      let held := u.zones.map (fun e => (e.1, { e.2 with stopHold := true }))
      match u.circuit with
      | .unconfigured => (u, .done, [])
      | .config => (u, .done, [])
      | .census => ({ u with causes := { u.causes with commanded := true } }, .done, [])
      | .operating =>
        (State.raise .circuit { u with causes := { u.causes with commanded := true }, circuit := .halted, zones := held }, .done, [])
      | .halted => (State.raise .circuit { u with causes := { u.causes with commanded := true }, zones := held }, .done, []))

/-- R125, R33: RESUME GROUP releases a group's stop holds, and returns the circuit to OPERATING when no zone carries one; its conditions
in order. -/
def Obligations.ResumeGroupReleasesItsHolds : Prop :=
  ∀ (p : Port) (tag group : Byte) (s : State), Allowed (.resumeGroup p tag group) s →
    Replies (.resumeGroup p tag group) s (fun u =>
      let g := group.toNat
      let members := u.layout.zones.keys.filter (fun z => decide (u.layout.groupOf z = some g))
      let released : State := { u with zones := u.zones.updAll members (fun x => { x with stopHold := false }) }
      let quiet : Causes := { u.causes with commanded := false, anomaly := false }
      if u.live = false then (u, .refusedState, [1])
      else if 3 < g then (u, .refusedRange, [])
      else if u.causes.stopIn = true then (u, .refusedState, [3])
      else if u.causes.key = true then (u, .refusedState, [4])
      else if ∃ a, a ∈ u.anomalies ∧ a.stop = true ∧ a.acked = false then (u, .refusedState, [5])
      else if u.tableFull = true then (u, .refusedState, [6])
      else
        match u.circuit with
        | .operating => (u, .done, [])
        | .census => ({ u with causes := quiet }, .done, [])
        | _ =>
          if ∃ e, e ∈ released.zones ∧ e.2.stopHold = true then (released, .done, [])
          else (State.raise .circuit { released with causes := quiet, circuit := .operating }, .done, []))

/-- R131, R132, R130: acknowledging one entry, or all; an acknowledged entry whose resolving condition holds is removed. R129: the
resolving condition of each kind. What the other acts remove: every acknowledged entry whose condition holds, which is the model's reading
of the occasions of R130 (log 9). -/
def Obligations.AcknowledgedEntriesGoWhenResolved : Prop :=
  (∀ (p : Port) (tag kind subject : Byte) (s : State), Allowed (.acknowledgeAnomaly p tag kind subject) s →
    Replies (.acknowledgeAnomaly p tag kind subject) s (fun u =>
      let n := subject.toNat
      if u.live = false then (u, .refusedState, [])
      else
        match AnomalyKind.ofCode kind.toNat with
        | none => (u, .refusedRange, [])
        | some k =>
          if u.subjectInRange k n = false then (u, .refusedRange, [])
          else if ¬ ∃ a, a ∈ u.anomalies ∧ a.kind = k ∧ a.subject = n then (u, .refusedState, [])
          else
            let marked := u.anomalies.map (fun a => if a.kind = k ∧ a.subject = n then { a with acked := true } else a)
            let left := marked.filter (fun a => !(a.acked && u.resolved a.kind a.subject))
            ({ u with anomalies := left }, .done, [if u.resolved k n = true then 1 else 0]))) ∧
  (∀ (p : Port) (tag : Byte) (s : State), Allowed (.acknowledgeAll p tag) s →
    Replies (.acknowledgeAll p tag) s (fun u =>
      let left := (u.anomalies.map (fun a => { a with acked := true })).filter (fun a => !u.resolved a.kind a.subject)
      if u.live = false then (u, .refusedState, [])
      else ({ u with anomalies := left, tableFull := false }, .done, [byte (u.anomalies.length - left.length), byte left.length]))) ∧
  (∀ s : State, s.sweep = { s with
    anomalies := s.anomalies.filter (fun a => decide (¬(a.acked = true ∧ s.resolved a.kind a.subject = true))) }) ∧
  (∀ (s : State) (n : Nat),
    (s.resolved .unexpectedEntry n = true ↔ s.zoneState n ≠ some .suspect) ∧
    (s.resolved .sequenceFault n = true ↔ ∀ r, s.trains.find n = some r → r.motion ≠ .untracked) ∧
    s.resolved .overspeed n = true ∧
    (s.resolved .overdue n = true ↔ ∀ t r c, s.holder n = some t → s.trains.find t = some r → r.motion ≠ .stranded c) ∧
    (s.resolved .stuck n = true ↔ s.zoneState n ≠ some .trailing) ∧
    (s.resolved .strandedLaunch n = true ↔ ∀ r c, s.trains.find n = some r → r.motion ≠ .stranded c) ∧
    (s.resolved .nodeLost n = true ↔ ∃ x, s.nodes.find n = some x ∧ x.state = .linked) ∧
    (s.resolved .eventsLost n = true ↔ ∃ x, s.nodes.find n = some x ∧ x.state = .linked) ∧
    (s.resolved .switchFault n = true ↔ ∃ w, s.switches.find n = some w ∧ (w.state = .setMain ∨ w.state = .setBranch)) ∧
    (s.resolved .switchDrift n = true ↔ ∃ w, s.switches.find n = some w ∧ (w.state = .setMain ∨ w.state = .setBranch)) ∧
    s.resolved .censusMotion n = true)

/-! ## Authority, indicators and notices -/

/-- R156: the three requests by port and authority state; a change raises AUTHORITY on both ports, an answer without a change raises
nothing. -/
def Obligations.AuthorityChangesByTheTable : Prop :=
  ∀ (p : Port) (tag : Byte) (s : State),
    let turned := fun (u : State) (a : Authority) => (State.raise .authority { u with authority := a }, Result.done, ([] : List Byte))
    let kept := fun (u : State) (r : Result) => (u, r, ([] : List Byte))
    (Asked (.takeAuthority p tag) s → Replies (.takeAuthority p tag) s (fun u =>
      match p, u.authority with
      | .supervisor, .console => turned u .supervisor
      | .supervisor, .supervisor => kept u .done
      | .supervisor, .supervisorFixed => kept u .done
      | .supervisor, .maintenance => kept u .refusedState
      | .console, .console => kept u .done
      | .console, .supervisor => turned u .console
      | .console, .supervisorFixed => kept u .refusedState
      | .console, .maintenance => kept u .done)) ∧
    (Asked (.fixSupervisor p tag) s → Replies (.fixSupervisor p tag) s (fun u =>
      match p, u.authority with
      | .supervisor, .console => kept u .refusedAuthority
      | .supervisor, .supervisor => turned u .supervisorFixed
      | .supervisor, .supervisorFixed => kept u .done
      | _, _ => kept u .refusedState)) ∧
    (Asked (.handToConsole p tag) s → Replies (.handToConsole p tag) s (fun u =>
      match p, u.authority with
      | .supervisor, .console => kept u .done
      | .supervisor, .supervisor => turned u .console
      | .supervisor, .supervisorFixed => turned u .console
      | _, _ => kept u .refusedState))

/-- R159: ASSIGN INDICATOR gives a line its assignment, its conditions in order; for CIRCUIT_OPERATING the zone is not stored. -/
def Obligations.AssignIndicatorDrivesTheLine : Prop :=
  ∀ (p : Port) (tag line zone condition sense : Byte) (s : State), Allowed (.assignIndicator p tag line zone condition sense) s →
    Replies (.assignIndicator p tag line zone condition sense) s (fun u =>
      if u.live = false then (u, .refusedState, [])
      else
        match Condition.ofCode condition.toNat, Sense.ofCode sense.toNat with
        | some c, some n =>
          if 8 ≤ line.toNat ∨ (c ≠ .circuitOperating ∧ u.layout.zoneCount ≤ zone.toNat) then (u, .refusedRange, [])
          else if c = .permitGo ∧ u.layout.kindOf zone.toNat = some .run then (u, .refusedState, [])
          else
            let given : Assignment := ⟨if c = .circuitOperating then none else some zone.toNat, c, n⟩
            ({ u with indicators := u.indicators.put line.toNat given }, .done, [])
        | _, _ => (u, .refusedRange, []))

/-- R160, whole: RELEASE INDICATOR is refused from the port without authority; a line other than 0 to 7 is REFUSED_RANGE; otherwise, in any
circuit state, the assignment becomes absent and the line is low in the same act. -/
def Obligations.ReleaseIndicatorUnassignsTheLine : Prop :=
  ∀ (p : Port) (tag line : Byte) (s : State), Asked (.releaseIndicator p tag line) s →
    Replies (.releaseIndicator p tag line) s (fun u =>
      if u.authority.heldBy p = false then (u, .refusedAuthority, [])
      else if 8 ≤ line.toNat then (u, .refusedRange, [])
      else ({ u with indicators := u.indicators.del line.toNat }, .done, [])) ∧
    (s.authority.heldBy p = true → line.toNat < 8 → ∃ t, exec (.releaseIndicator p tag line) s = .next t ∧
      t.indicators.find line.toNat = none ∧ t.pins.ind[line.toNat]? = some false)

/-! ## The trackside line -/

/-- R142, R144, R167: a poll goes to the next mapped node, the lowest above the one polled last, or the lowest of all where none is
above it or none was polled, with the permits, the switch command and the run state as they stand. That
nothing goes out while a poll is outstanding or no node is mapped is the model's reading of a command that cannot come then (log 4). -/
def Obligations.PollsCarryPermitsAndSwitchCommand : Prop :=
  (∀ s : State, s.resetPin = false →
    exec .pollSend s = .next (State.settle (
      match s.nextPolled with
      | none => s
      | some n =>
        if s.live = false ∨ s.poll.isSome = true then s
        else
          let a := (s.layout.nodes.find n).getD 0
          let go := fun (c : Nat) =>
            match s.layout.permitZoneAt n c with
            | some z => if s.permit z = some true then 1 else 0
            | none => 0
          let command : Byte :=
            match (s.layout.switchAt n).bind (fun (e : Nat × SwitchRec) => (s.switches.find e.1).map (fun (w : Switch) => w.state)) with
            | some (.moving .main) => 1
            | some (.moving .branch) => 2
            | _ => 0
          let content := [byte a, byte (go 0 + 2 * go 1), command, if s.circuit = .operating then 1 else 0]
          { s with polled := some n, poll := some ⟨n, a, true, [0x96] ++ content ++ [crc8 content], []⟩ }))) ∧
  (∀ (s : State) (n : Nat), s.Canonical →
    let mapped := fun (m : Nat) => (s.nodes.find m).isSome = true ∧ s.layout.mapped m = true
    let above := fun (m : Nat) => mapped m ∧ ∀ l, s.polled = some l → l < m
    (s.nextPolled = some n ↔
      (above n ∧ ∀ m, above m → n ≤ m) ∨ ((¬ ∃ m, above m) ∧ mapped n ∧ ∀ m, mapped m → n ≤ m)))

/-- R142, R143, R145, R147, R167: how the bytes received after a poll end it, when they are not at an end, a miss or a good answer, and how
a good answer and a miss are counted. A count above 4 ends the answer as a miss; otherwise it ends at its check byte, and is good when the
check, the address, the report and every event are right. That bytes of an answer not yet at its end are kept, and bytes after its end
discarded, is the model's reading (log 18); that a timeout with no poll outstanding leaves the state is its reading of an event that cannot
come then (log 4); that bytes are read as the answer of the poll outstanding, whichever poll they answer, is its choice (log 23). -/
def Obligations.AnswersAreCountedAndTaken : Prop :=
  (∀ (bytes : List Byte) (s : State), s.resetPin = false →
    exec (.tracksideAnswer bytes) s = .next (State.settle (
      match s.poll with
      | none => s
      | some q =>
        match lineAnswer q.address (q.rx ++ bytes) with
        | .incomplete => { s with poll := some { q with rx := q.rx ++ bytes } }
        | .miss => if q.counted = true then State.countMiss { s with poll := none } q.node else { s with poll := none }
        | .good report events =>
          let u : State := { s with poll := none }
          if q.counted = false then u
          else if (u.countGood q.node).linked q.node = true then
            ((u.countGood q.node).takeEvents q.node events).takeNodeReport q.node report
          else u.countGood q.node))) ∧
  (∀ s : State, s.resetPin = false →
    exec .answerTimeout s = .next (State.settle (
      match s.poll with
      | none => s
      | some q => if q.counted = true then State.countMiss { s with poll := none } q.node else { s with poll := none }))) ∧
  (∀ (s : State) (n : Nat) (x : Node), s.nodes.find n = some x →
    let linked := State.raise .link (State.sweep { s with nodes := s.nodes.upd n (fun _ => ⟨.linked, 0, 0, none⟩) })
    let lost := State.raise .link { s with nodes := s.nodes.upd n (fun _ => ⟨.lost, 0, 0, none⟩) }
    s.countGood n =
      (if x.state = .unmapped then s
       else if x.state = .linked then { s with nodes := s.nodes.upd n (fun x => { x with miss := 0 }) }
       else if s.layout.linkUp ≤ x.good + 1 then linked
       else { s with nodes := s.nodes.upd n (fun x => { x with good := x.good + 1, miss := 0 }) }) ∧
    s.countMiss n =
      (if x.state = .unmapped then s
       else if x.state = .linked then
         if s.layout.linkDown ≤ x.miss + 1 then lost.loss n .nodeLost
         else { s with nodes := s.nodes.upd n (fun x => { x with miss := x.miss + 1, good := 0 }) }
       else { s with nodes := s.nodes.upd n (fun x => { x with miss := min (x.miss + 1) 7, good := 0 }) })) ∧
  (∀ (address : Nat) (before rest : List Byte), (0x96 : Byte) ∉ before →
    lineAnswer address before = .incomplete ∧
    (rest.length < 3 → lineAnswer address (before ++ 0x96 :: rest) = .incomplete) ∧
    (∀ (a r c : Byte) (tail : List Byte), rest = a :: r :: c :: tail →
      let n := c.toNat
      let body := tail.take (2 * n)
      let high := fun (i : Nat) => (body.getD (2 * i) 0).toNat
      let low := fun (i : Nat) => (body.getD (2 * i + 1) 0).toNat
      let sound := tail[2 * n]? = some (crc8 ([a, r, c] ++ body)) ∧ a.toNat = address ∧ r.toNat ≤ 3 ∧
        ∀ i, i < n → high i < 64 ∧ 1 ≤ low i ∧ low i ≤ 4
      let read := lineAnswer address (before ++ 0x96 :: rest)
      (4 < n → read = .miss) ∧
      (n ≤ 4 → tail.length < 2 * n + 1 → read = .incomplete) ∧
      (n ≤ 4 → 2 * n + 1 ≤ tail.length → ¬sound → read = .miss) ∧
      (n ≤ 4 → 2 * n + 1 ≤ tail.length → sound → ∃ report events, read = .good report events ∧
        [Report.main, .branch, .moving, .unknown][r.toNat]? = some report ∧ events.length = n ∧
        ∀ i, i < n → ∃ e, events[i]? = some e ∧ e.seq.toNat = high i % 16 ∧ e.channel = high i / 16 ∧
          [EventKind.fwdHead, .fwdTail, .revHead, .revTail][low i - 1]? = some e.kind)))

/-- R146: an event is taken when its sequence number is the one expected, or none is; at a gap the expectation goes, the rest of the
answer's events are discarded, and the loss is taken. R147, R31: a loss makes every zone the node serves SUSPECT, its holder kept, but
leaves SUSPECT and OUT_OF_SERVICE zones as they are; it untracks their holders, with what R56 marks, and reports the anomaly, of stop class
yes exactly when one of the zones was held. That every acknowledged entry is re-examined then is the model's reading (log 9). -/
def Obligations.AGapInSequenceDiscardsTheRest : Prop :=
  (∀ (s : State) (n : Nat) (x : Node) (e : LineEvent) (rest : List LineEvent), s.nodes.find n = some x →
    s.takeEvents n (e :: rest) =
      if x.expected = none ∨ x.expected = some e.seq then
        let u : State := { s with nodes := s.nodes.upd n (fun x => { x with expected := some (e.seq + 1) }) }
        match u.layout.gateAt n e.channel with
        | some (g, r) => (u.takeEvent g r e.kind).takeEvents n rest
        | none => u.takeEvents n rest
      else State.loss { s with nodes := s.nodes.upd n (fun x => { x with expected := none }) } n .eventsLost) ∧
  (∀ (s : State) (n : Nat) (k : AnomalyKind),
    let served := s.layout.zones.keys.filter (fun z => decide (n ∈ s.layout.servingNodes z))
    ∃ zones trains,
      s.loss n k = State.anomaly (State.sweep { s with zones := zones, trains := trains }) k n
        (decide (∃ z, z ∈ served ∧ s.holder z ≠ none)) ∧
      s.Marked served (fun x =>
        if x.state = .suspect ∨ x.state = .outOfService then x else { x with state := .suspect, timer := .idle }) zones trains)

/-! ## Passage tracking -/

/-- R83: an event is read against the holder of the zone left, or for a reverse event that of the zone ahead first, and classified by
the train's hold list and motion. That a holder without a record counts as none is the model's own (log 17). -/
def Obligations.EventsAreReadAgainstTheirTrain : Prop :=
  (∀ (front back : List Nat) (a b : Nat), a ∉ front →
    entryAfter (front ++ a :: b :: back) a = some b ∧ entryAfter (front ++ [a]) a = none ∧ entryAfter front a = none) ∧
  (∀ (s : State) (k : EventKind) (a b : Nat),
    let subject := if k = .fwdHead ∨ k = .fwdTail then s.holder a else if s.holder b = none then s.holder a else s.holder b
    s.classify k a b =
      match subject.bind (fun t => (s.trains.find t).map (fun r => (t, r))) with
      | none => .phantom
      | some (t, r) =>
        let stalled := r.motion = .moving ∨ r.motion = .stranded .overdue ∨ r.motion = .stranded .stuck
        let rear := r.hold.head? = some a
        let onward := entryAfter r.hold a = some b
        let launch := s.layout.kindOf a = some .launch
        let reserved := ((entryAfter r.hold a).bind (fun z => s.zoneState z)) = some .reserved
        if r.motion = .untracked then .untrackedSubject t
        else
          match k with
          | .fwdHead =>
            if s.headOf r.hold ≠ some a then .fault t
            else if ¬reserved then .unexpected t
            else if ¬onward then .wrongFork t
            else if r.motion = .cleared ∨ stalled then .advance t else .fault t
          | .fwdTail =>
            if rear ∧ s.zoneState a = some .occupied ∧ onward ∧ s.zoneState b = some .occupied ∧
                (stalled ∨ (r.motion = .recovering ∧ launch)) then .leave t else .fault t
          | .revHead =>
            if launch ∧ rear ∧ s.zoneState a = some .trailing ∧ onward ∧ s.headOf r.hold = some b ∧ stalled then .reverse t else .fault t
          | .revTail =>
            if launch ∧ rear ∧ s.zoneState a = some .occupied ∧ onward ∧ s.headOf r.hold = some b ∧ (stalled ∨ r.motion = .recovering)
            then .rollback t else .fault t)

/-- R85 to R94: what each expected event leaves. An expected FWD_HEAD leaves the zone entered OCCUPIED by the train, which moves; over a
crest it frees the TRAILING launch zone (R86), and at the end of the extension it takes back claim and step grant and, in a course zone,
enters the automatic claim (R87). An expected FWD_TAIL frees the zone left, or, out of a LAUNCH zone with the head in the zone above it,
leaves it TRAILING with its timer started and rocks the train (R89, R92); a train that is then wholly in its head zone may come to stand
there, and arrive (R90). An expected REV_HEAD takes the launch zone back (R91); an expected REV_TAIL frees every zone ahead of it and
counts the relaunch, or strands the train at the limit (R93, R94). What an event hands on is handed on in the order of R82, and an
automatic claim that is refused entry is a sequence fault after an advance only (R88). The model's own readings: that
every event is classified once (R100, log 10), that every acknowledged entry is re-examined at each report (log 9), that with the claim
an entry of the train goes, should one be there, and that a count above the limit strands as one at it does (log 17). -/
def Obligations.ExpectedEventsAdvanceTheTrain : Prop :=
  (∀ (s : State) (g t : Nat) (r : GateRec), s.circuit = .operating ∨ s.circuit = .halted →
    s.classify .fwdHead r.src r.dst = .advance t → s.holder r.dst = some t →
    let u := s.takeEvent g r .fwdHead
    u.zoneState r.dst = some .occupied ∧ u.holder r.dst = some t ∧ u.motion t = some .moving) ∧
  (∀ (s : State) (g a b t : Nat), a ≠ b → s.classify .fwdTail a b = .leave t →
    let u := (s.actEvent .fwdTail g a b).state
    (s.layout.kindOf a ≠ some .launch → u.zoneState a = some .free ∧ u.holder a = none ∧ a ∉ u.holdOf t) ∧
    (s.layout.kindOf a = some .launch → s.head t = s.layout.zoneAbove a →
      u.zoneState a = some .trailing ∧ u.holder a = some t ∧
      (u.zones.find a).map (fun x => x.timer) = some (.running .trailingHold 0 .notDue))) ∧
  (∀ (s : State) (g : Nat) (r : GateRec) (k : EventKind), s.circuit = .operating ∨ s.circuit = .halted →
    s.takeEvent g r k = (s.actEvent k g r.src r.dst).finish r.src r.dst) ∧
  (∀ (h : Handover) (a b : Nat),
    let u := h.state.sweep
    let freed := if h.evaluate = true then u.evaluate else u
    let claimed :=
      match h.auto with
      | none => freed
      | some t =>
        if (u.trains.find t).map (fun x => x.claim) = some .none then (u.withEntry t false).evaluate
        else if h.refusalFaults = true then (freed.faultMarks a b t).sweep.anomaly .sequenceFault t true
        else freed
    let told := h.anomalies.foldl (fun v q => v.anomaly q.1 q.2.1 q.2.2) claimed
    h.finish a b = if h.arrived = true then told.raise .trainArrived else told) ∧
  (∀ (s : State) (g a b t : Nat) (r : Train), s.Canonical → s.Interlock → s.HoldLists → s.trains.find t = some r →
    (s.classify .fwdHead a b = .advance t →
      let crest := r.hold.find? (fun z =>
        decide (s.zoneState z = some .trailing) && (s.layout.launchOf z).any (fun q => decide (q.2.2 = g)))
      let ends := s.layout.stoppable b
      let short := match s.layout.runOf a, (s.zones.find a).map (fun x => x.timer) with
        | some (least, _), some (.running .runTransit n _) => decide (n < least)
        | _, _ => false
      s.actEvent .fwdHead g a b =
        { state := { s with
            zones := s.zones.map (fun e => (e.1,
              if e.1 = b then { e.2 with
                state := .occupied
                timer := if s.layout.kindOf b = some .run then .running .runTransit 0 .notDue else e.2.timer.kept .occupied }
              else if crest = some e.1 then { e.2 with state := .free, holder := none, timer := .idle }
              else if e.1 = a ∧ s.layout.kindOf a = some .run then { e.2 with timer := .idle }
              else e.2))
            trains := s.trains.upd t (fun _ => { r with
              motion := .moving
              hold := r.hold.filter (fun z => decide (crest ≠ some z))
              relaunches := if crest = none then r.relaunches else 0
              claim := if ends = true then .none else r.claim
              stepGrant := if ends = true then false else r.stepGrant })
            waitQueue := if ends = true then s.waitQueue.filter (fun d => decide (d.train ≠ t)) else s.waitQueue }
          evaluate := decide (crest ≠ none ∨ (r.motion.isStranded = true ∧ r.claim = .pending ∧ ends = false))
          auto := if ends = true ∧ s.layout.yard b = false then some t else none
          refusalFaults := true
          anomalies := if short = true then [(.overspeed, a, true)] else []
          arrived := false }) ∧
    (s.classify .fwdTail a b = .leave t →
      let launch := s.layout.kindOf a = some .launch
      let climbs := launch ∧ s.headOf r.hold = s.layout.zoneAbove a
      let whole := r.hold.tail.filter (fun z => !s.isReserved z) = [b]
      let stands := ¬climbs ∧ whole ∧ r.motion = .moving ∧
        (s.layout.yard b = true ∨ (s.layout.stoppable b = true ∧ r.claim = .pending))
      s.actEvent .fwdTail g a b =
        { state := { s with
            zones := s.zones.upd a (fun x =>
              if climbs then { x with state := .trailing, timer := .running .trailingHold 0 .notDue }
              else { x with state := .free, holder := none, timer := .idle })
            trains := s.trains.upd t (fun _ => { r with
              hold := if climbs then r.hold else r.hold.tail
              relaunches := if launch ∧ ¬climbs then 0 else r.relaunches
              motion :=
                if climbs then if r.motion = .recovering ∨ r.motion = .stranded .overdue then .moving else r.motion
                else if stands then .standing else r.motion }) }
          evaluate := decide (¬climbs ∨ (r.motion = .stranded .overdue ∧ r.claim = .pending))
          auto := none
          refusalFaults := false
          anomalies := []
          arrived := decide (stands ∧ s.layout.yard b = true) }) ∧
    (s.classify .revHead a b = .reverse t →
      s.actEvent .revHead g a b =
        { state := { s with
            zones := s.zones.upd a (fun x => { x with state := .occupied, timer := .idle })
            trains := s.trains.upd t (fun _ => { r with
              motion := if r.motion = .moving ∨ r.motion = .stranded .stuck then .recovering else r.motion }) }
          evaluate := false
          auto := none
          refusalFaults := false
          anomalies := []
          arrived := false }) ∧
    (s.classify .revTail a b = .rollback t → ∃ hold limit crest, s.layout.launchOf a = some (hold, limit, crest) ∧
      s.actEvent .revTail g a b =
        { state := { s with
            zones := s.zones.updAll r.hold.tail (fun x => { x with
              state := if x.state = .suspect then .suspect else .free
              holder := none
              timer := .idle })
            trains := s.trains.upd t (fun _ => { r with
              hold := [a]
              claim := .none
              stepGrant := false
              relaunches := if r.relaunches < limit then r.relaunches + 1 else r.relaunches
              motion := if r.relaunches < limit then .standing else .stranded .launchLimit })
            waitQueue := s.waitQueue.filter (fun d => decide (d.train ≠ t)) }
          evaluate := decide (∃ z, z ∈ r.hold.tail ∧ s.zoneState z ≠ some .suspect)
          auto := if r.relaunches < limit then some t else none
          refusalFaults := false
          anomalies := if r.relaunches < limit then [] else [(.strandedLaunch, t, false)]
          arrived := false }))

/-- R95 to R98, R123: an event that does not fit marks the zones concerned SUSPECT, untracks its train, and stops the circuit. A phantom
marks the zone it enters and reports UNEXPECTED_ENTRY for it; an unexpected entry marks the zone entered, which its train adopts where it
has no holder, and reports the same; a wrong fork first frees what its train has reserved; a sequence fault marks every zone of its train
and both zones of the event, untracks their holders, and reports SEQUENCE_FAULT for its train; every other zone and train, and every hold
list but that of an adopting train, stays, but for what R56 marks (that it marks after an adoption too is the model's own, log 17). R99: an
event of an UNTRACKED train marks each of its two zones that is not SUSPECT, keeps and untracks their holders, and reports an unexpected
entry for each that has none; no hold list changes. R84: census motion marks both zones, keeps and untracks their holders, and reports
CENSUS_MOTION for the gate, which is no stop kind. That every acknowledged entry is re-examined then is the model's reading (log 9). -/
def Obligations.EventsThatDoNotFitStopTheCircuit : Prop :=
  (∀ (s : State) (g : Nat) (r : GateRec) (k : EventKind), s.circuit = .operating ∨ s.circuit = .halted →
    let c := s.classify k r.src r.dst
    let u := s.takeEvent g r k
    let marked := fun (z : Nat) => (s.zones.find z).isSome = true → u.zoneState z = some .suspect
    (c = .phantom → marked (if k = .fwdHead ∨ k = .fwdTail then r.dst else r.src) ∧ u.circuit = .halted ∧ u.causes.anomaly = true) ∧
    (∀ t, c = .unexpected t ∨ c = .wrongFork t →
      marked r.dst ∧ u.motion t = some .untracked ∧ u.circuit = .halted ∧ u.causes.anomaly = true) ∧
    (∀ t, c = .fault t →
      (∀ z, z ∈ s.holdOf t ∨ z = r.src ∨ z = r.dst → marked z) ∧
      u.motion t = some .untracked ∧ u.circuit = .halted ∧ u.causes.anomaly = true)) ∧
  (∀ (s : State) (g : Nat) (r : GateRec) (k : EventKind), s.circuit = .operating ∨ s.circuit = .halted → s.Interlock →
    let suspected := fun (x : Zone) => { x with state := .suspect, timer := .idle }
    let entered := if k = .fwdHead ∨ k = .fwdTail then r.dst else r.src
    (s.classify k r.src r.dst = .phantom → ∃ zones trains,
      s.takeEvent g r k = State.anomaly (State.sweep { s with zones := zones, trains := trains }) .unexpectedEntry entered true ∧
      s.Marked [entered] suspected zones trains) ∧
    (∀ t, s.classify k r.src r.dst = .unexpected t → ∃ zones trains,
      s.takeEvent g r k = State.anomaly (State.sweep { s with zones := zones, trains := trains }) .unexpectedEntry r.dst true ∧
      s.Entered r.dst t zones trains) ∧
    (∀ t, s.classify k r.src r.dst = .wrongFork t →
      let reserved := (s.holdOf t).filter (fun z => decide (s.zoneState z = some .reserved))
      let freed : State := { s with
        zones := s.zones.updAll reserved (fun x => { x with
          state := if x.state = .suspect then .suspect else .free
          holder := none
          timer := .idle })
        trains := s.trains.upd t (fun x => { x with hold := x.hold.filter (fun z => decide (z ∉ reserved)) }) }
      ∃ zones trains,
        s.takeEvent g r k =
          State.anomaly (State.sweep { freed with zones := zones, trains := trains }).evaluate .unexpectedEntry r.dst true ∧
        freed.Entered r.dst t zones trains) ∧
    (∀ t, s.classify k r.src r.dst = .fault t → ∃ zones trains,
      s.takeEvent g r k = State.anomaly (State.sweep { s with zones := zones, trains := trains }) .sequenceFault t true ∧
      s.Marked (s.holdOf t ++ [r.src, r.dst]) suspected zones trains)) ∧
  (∀ (s : State) (g t : Nat) (r : GateRec) (k : EventKind), s.circuit = .operating ∨ s.circuit = .halted →
    s.classify k r.src r.dst = .untrackedSubject t →
    let found := [r.src, r.dst].filter (fun z => decide (s.zoneState z ≠ some .suspect))
    ∃ zones trains,
      s.takeEvent g r k = (found.filter (fun z => decide (s.holder z = none))).foldl (fun u z => u.anomaly .unexpectedEntry z true)
        (State.sweep { s with zones := zones, trains := trains }) ∧
      s.Marked found (fun x => { x with state := .suspect, timer := .idle }) zones trains) ∧
  (∀ (s : State) (g : Nat) (r : GateRec) (k : EventKind), s.circuit = .census →
    ∃ zones trains,
      s.takeEvent g r k = State.anomaly (State.sweep { s with zones := zones, trains := trains }) .censusMotion g false ∧
      s.Marked [r.src, r.dst] (fun x => { x with state := .suspect, timer := .idle }) zones trains)

/-! ## Timers -/

/-- R108, R109, R104: an expiry that is due strands the holder of its zone and raises a stop-class anomaly; it is not reported again.
R49: what the strand claim makes of a motion. That nothing happens where no expiry is due is the model's reading (log 4), and so is that the
model holds whether an expiry is not due, due or reported (log 12), and that every acknowledged entry is re-examined at an expiry, where the
spec names no removal (log 9). -/
def Obligations.ExpiriesStrandTheHolder : Prop :=
  (∀ (m : Motion) (c : StrandCause), m.strand c =
    if m = .moving ∨ m = .recovering ∨ m = .stranded .overdue ∨ m = .stranded .stuck then .stranded c else m) ∧
  (∀ (use : TimerUse) (n : Nat) (e : Expiry),
    ZoneTimer.reported (.running use n e) = .running use n .reported ∧ ZoneTimer.reported .idle = .idle) ∧
  (∀ (z : Nat) (s : State), s.resetPin = false →
    let taken := fun (use : TimerUse) (c : StrandCause) (k : AnomalyKind) =>
      let reported := s.zones.upd z (fun x => { x with timer := x.timer.reported })
      if (s.zones.find z).any (fun x => match x.timer with | .running v _ .due => decide (v = use) | _ => false) = true then
        match s.holder z with
        | some t =>
          (State.sweep { s with zones := reported, trains := s.trains.upd t (fun r => { r with motion := r.motion.strand c }) }).anomaly k z true
        | none => (State.sweep { s with zones := reported }).anomaly k z true
      else s
    exec (.runTransitExpiry z) s = .next (State.settle (taken .runTransit .overdue .overdue)) ∧
    exec (.trailingHoldExpiry z) s = .next (State.settle (taken .trailingHold .stuck .stuck)))

/-- R103, R104, R111: each millisecond of a live circuit advances the timebase and every running timer, which saturates; an expiry falls
due when the elapsed time reaches the limit. In another circuit state nothing advances. That a switch timer which has expired, idle by R111,
is held as expired until its expiry is taken, and that the model holds whether a zone timer's expiry is not due, due or reported, is its
reading (log 12). -/
def Obligations.EachMillisecondAdvancesTheTimers : Prop :=
  ∀ s : State, s.resetPin = false →
    exec .timebaseTick s = .next (State.settle (
      if s.live = false then s
      else { s with
        timebase := s.timebase + 1
        zones := s.zones.map (fun e => (e.1, { e.2 with timer :=
          match e.2.timer with
          | .idle => .idle
          | .running use n x =>
            let limit :=
              match use with
              | .runTransit => (s.layout.runOf e.1).map (fun (q : Nat × Nat) => q.2)
              | .trailingHold => (s.layout.launchOf e.1).map (fun (q : Nat × Nat × Nat) => q.1)
            .running use (min (n + 1) 65535)
              (if x = .notDue ∧ limit.any (fun m => decide (m ≤ min (n + 1) 65535)) = true then .due else x) }))
        switches := s.switches.map (fun e => (e.1, { e.2 with timer :=
          match e.2.timer with
          | .running n =>
            if ((s.layout.switches.find e.1).map (fun r => r.moveTimeout)).any (fun m => decide (m ≤ min (n + 1) 65535)) = true
            then .expired else .running (min (n + 1) 65535)
          | x => x })) }))

/-! ## Claims on zones, and the permit -/

/-- R25 to R27, R55: occupy, trail and release each act only on a zone its train holds in the state named, and are otherwise returned
unchanged; a release that would leave the hold list empty is returned unchanged too; a stop hold stays as it was. -/
def Obligations.ZoneClaimsActOnlyOnTheirTrainsZones : Prop :=
  ∀ (s : State) (z t : Nat),
    (s.occupy z t =
      if s.holder z = some t ∧ (s.zoneState z = some .reserved ∨ s.zoneState z = some .trailing) then
        some { s with zones := s.zones.upd z (fun x => { x with state := .occupied, timer := x.timer.kept .occupied }) }
      else none) ∧
    (s.trail z t =
      if s.layout.kindOf z = some .launch ∧ s.holder z = some t ∧ s.zoneState z = some .occupied then
        some { s with zones := s.zones.upd z (fun x => { x with state := .trailing, timer := x.timer.kept .trailing }) }
      else none) ∧
    (∀ r, s.trains.find t = some r → s.holder z = some t → r.hold.filter (fun y => decide (y ≠ z)) ≠ [] →
      s.release t [z] = some { s with
        zones := s.zones.updAll [z] (fun x => { x with
          state := if x.state = .suspect then .suspect else .free
          holder := none
          timer := x.timer.kept (if x.state = .suspect then .suspect else .free) })
        trains := s.trains.upd t (fun r => { r with hold := r.hold.filter (fun y => decide (y ≠ z)) }) }) ∧
    (s.holder z ≠ some t → s.release t [z] = none) ∧
    (∀ r, s.trains.find t = some r → r.hold.filter (fun y => decide (y ≠ z)) = [] → s.release t [z] = none)

/-- R34: the permit of a stoppable zone is GO exactly when the zone is OCCUPIED by a train whose claim is GRANTED, whose motion is CLEARED
or MOVING, whose hold list contains every zone of the exit extension as RESERVED, and no stop hold stands against it without a step
grant; a RUN zone has no permit. -/
def Obligations.ThePermitIsGoOnlyOverReservedTrack : Prop :=
  ∀ (s : State) (z : Nat) (x : Zone), s.zones.find z = some x →
    (s.layout.stoppable z = false → s.permit z = none) ∧
    (s.layout.stoppable z = true → (s.permit z = some true ∨ s.permit z = some false)) ∧
    (s.permit z = some true ↔
      s.layout.stoppable z = true ∧ x.state = .occupied ∧ ∃ t r e, x.holder = some t ∧ s.trains.find t = some r ∧
        r.claim = .granted ∧ (r.motion = .cleared ∨ r.motion = .moving) ∧ s.extension z = some e ∧
        (∀ q, q ∈ e → q.1 ∈ r.hold ∧ s.zoneState q.1 = some .reserved ∧ s.holder q.1 = some t) ∧
        (x.stopHold = false ∨ r.stepGrant = true))

/-! ## What every step keeps -/

/-- R120, R134, R150, R158, R161: after every step from a state whose output pins are driven, every output is low while RESET is asserted;
otherwise RUN EN is high exactly in OPERATING, an indicator line is low while unassigned and else at the level its sense gives the truth
of its condition, ARDY is high exactly while some part of an answer or of an arrival refusal waits to be shifted out, and SNOT and CNOT
are high exactly while a notice is both set and enabled on their port. That the pins are driven at the end of each command is the model's
choice (log 6); that more of an answer waits until its last frame is going out is its reading (log 14). -/
def Obligations.PinsFollowTheRecords : Prop :=
  ∀ s t : State, s.PinsDriven → step s = .next t →
    let holds := fun (a : Assignment) =>
      match a.condition, a.zone with
      | .circuitOperating, _ => t.circuit = .operating
      | _, none => False
      | .permitGo, some z => t.permit z = some true
      | .occupied, some z => t.zoneState z = some .occupied ∨ t.zoneState z = some .trailing
      | .free, some z => t.zoneState z = some .free
      | .suspect, some z => t.zoneState z = some .suspect
      | .stopHold, some z => ∃ x, t.zones.find z = some x ∧ x.stopHold = true
      | .standing, some z => ∃ u, t.holder z = some u ∧ t.motion u = some .standing
    let noticed := fun (x : PortState) => ∃ i, i < 8 ∧ x.flags.getLsbD i = true ∧ x.mask.getLsbD i = true
    t.PinsDriven ∧
    (t.resetPin = true → t.pins = ⟨false, [false, false, false, false, false, false, false, false], false, false, false⟩) ∧
    (t.resetPin = false →
      (t.pins.runEn = true ↔ t.circuit = .operating) ∧
      t.pins.ind.length = 8 ∧
      (∀ i, i < 8 → t.indicators.find i = none → t.pins.ind[i]? = some false) ∧
      (∀ i a, i < 8 → t.indicators.find i = some a → a.sense = .activeHigh → (t.pins.ind[i]? = some true ↔ holds a)) ∧
      (∀ i a, i < 8 → t.indicators.find i = some a → a.sense = .activeLow → (t.pins.ind[i]? = some false ↔ holds a)) ∧
      (t.pins.ardy = true ↔ t.supervisor.refusals ≠ [] ∨
        (∃ w, t.supervisor.sending = some w ∧ w.sent < w.frame.length) ∨
        (t.supervisor.answer ≠ none ∧ ∀ w, t.supervisor.sending = some w → w.ends = false)) ∧
      (t.pins.snot = true ↔ noticed t.supervisor) ∧
      (t.pins.cnot = true ↔ noticed t.console))

/-- R1, R20, R41, R112, R141: every table holds one record for each number, in rising order, and the live records exist exactly while a
layout is committed, one for each of its records; only a LAUNCH zone is TRAILING (R21). -/
def Obligations.LiveTablesAreThoseOfTheLayout : Prop :=
  ∀ s t : State, s.Canonical → s.LiveFits → step s = .next t → t.Canonical ∧ t.LiveFits

/-- R21, R22: the interlock. A zone's state fits its holder, and a train holds a zone exactly when its hold list has it and the zone names
it; so no zone is ever in the hold lists of two trains. -/
def Obligations.NoZoneIsHeldByTwoTrains : Prop :=
  ∀ s t : State, s.Interlock → step s = .next t →
    t.Interlock ∧ ∀ z u v, z ∈ t.holdOf u → z ∈ t.holdOf v → u = v

/-- R54, R56: after every step each hold list has 1 to 6 distinct zones, its RESERVED zones after its others. -/
def Obligations.HoldListsStayInOrder : Prop :=
  (∀ s t : State, s.Interlock → s.HoldLists → step s = .next t → t.HoldLists) ∧
  (∀ (s : State) (l : List Nat), s.stale l = [] ↔
    ∀ i j y z : Nat, i < j → l[i]? = some y → l[j]? = some z → s.zoneState y = some .reserved → s.zoneState z = some .reserved)

/-- R118: a TRANSFER zone has no holder while its switch moves. That the lowest switch stands for it where more than one names the zone, in
a layout that check 5 would not pass, is the model's reading (log 17). -/
def Obligations.AMovingSwitchHasNoTrainOnIt : Prop :=
  (∀ s t : State, s.Canonical → s.LiveFits → s.SwitchesFit → step s = .next t → t.SwitchesFit) ∧
  (∀ (s : State) (z : Nat), s.layout.Canonical → (s.switchMoving z = true ↔
    ∃ k r w q, s.layout.Switched z k r ∧ s.switches.find k = some w ∧ w.state = .moving q))

/-- R62, R135: a train's claim is PENDING exactly when the Wait Queue holds an entry for it, and then one; in CENSUS nothing waits and every
train stands or is untracked in one zone. -/
def Obligations.TheWaitQueueFitsTheClaims : Prop :=
  ∀ s t : State, s.QueueFits → s.CensusFits → step s = .next t → t.QueueFits ∧ t.CensusFits

/-- R121, R122: in OPERATING no zone carries a stop hold and no cause stands; the authority is MAINTENANCE exactly while KEY is in the cause
set; STOP_IN and KEY are in the set as their inputs stand. -/
def Obligations.StopHoldsCausesAndAuthorityFit : Prop :=
  ∀ s t : State, s.StopFits → s.AuthorityFits → s.InputsFit → step s = .next t → t.StopFits ∧ t.AuthorityFits ∧ t.InputsFit

/-- R127, R151: at most 16 anomalies, no two of one kind and subject; the ports stay within their queues, lists and counts. -/
def Obligations.TablesAndPortsStayBounded : Prop :=
  ∀ s t : State, s.AnomaliesFit → s.PortsFit → step s = .next t → t.AnomaliesFit ∧ t.PortsFit

/-- The machine right after reset (R134, right column; the input levels and the store's contents are the model's choice, log 1) is as the
rule says and meets every condition that the steps keep. -/
def Obligations.ResetMeetsEveryCondition : Prop :=
  State.reset.circuit = .unconfigured ∧ State.reset.authority = .console ∧ State.reset.pins = .low ∧ State.reset.indicators = [] ∧
  State.reset.timebase = 0 ∧ State.reset.layout = .empty ∧ State.reset.supervisor = ⟨[], none, none, [], 0, [], 0, 0⟩ ∧
  State.reset.console = ⟨[], none, none, [], 0, [], 0, 0⟩ ∧ State.reset.pending = [] ∧
  State.reset.PinsDriven ∧ State.reset.Canonical ∧ State.reset.LiveFits ∧ State.reset.Interlock ∧ State.reset.HoldLists ∧
  State.reset.SwitchesFit ∧ State.reset.QueueFits ∧ State.reset.CensusFits ∧ State.reset.StopFits ∧ State.reset.AuthorityFits ∧
  State.reset.InputsFit ∧ State.reset.AnomaliesFit ∧ State.reset.PortsFit
end

