-- ==== Sys2Proof/Laws/Tables.lean ====
section
/-! SUPPORT. Keyed tables: what reading one finds after each kind of write, and that every write keeps the canonical form. -/

namespace Sys2Proof

variable {α : Type}

@[simp] theorem Table.find_nil (k : Nat) : Table.find ([] : Table α) k = none := rfl

theorem Table.find_cons (e : Nat × α) (t : Table α) (k : Nat) :
    Table.find (e :: t) k = if e.1 = k then some e.2 else Table.find t k := rfl

theorem Table.find_put (t : Table α) (k : Nat) (v : α) (k' : Nat) :
    (Table.put t k v).find k' = if k' = k then some v else Table.find t k' := by
  induction t with
  | nil => simp [Table.put, Table.find, eq_comm]
  | cons e r ih =>
    obtain ⟨a, b⟩ := e
    unfold Table.put
    split
    · simp [Table.find, eq_comm]
    · split
      · rename_i hk
        subst hk
        by_cases h : k = k'
        · simp [Table.find, h]
        · have h' : ¬ k' = k := fun e => h e.symm
          simp [Table.find, h, h']
      · simp only [Table.find, ih]
        by_cases h : a = k'
        · subst h; simp_all [eq_comm]
        · simp [h]

theorem Table.find_upd (t : Table α) (k : Nat) (f : α → α) (k' : Nat) :
    (Table.upd t k f).find k' = if k' = k then (Table.find t k').map f else Table.find t k' := by
  induction t with
  | nil => simp [Table.upd]
  | cons e r ih =>
    simp only [Table.upd, List.map_cons] at ih ⊢
    rw [Table.find_cons, Table.find_cons, ih]
    by_cases h1 : e.1 = k
    · by_cases h2 : k' = k
      · simp [h1, h2]
      · have : k ≠ k' := fun h => h2 h.symm
        simp [h1, h2, this]
    · by_cases h2 : e.1 = k'
      · subst h2; simp [h1]
      · simp [h1, h2]

theorem Table.find_updAll (t : Table α) (ks : List Nat) (f : α → α) (k' : Nat) :
    (Table.updAll t ks f).find k' = if k' ∈ ks then (Table.find t k').map f else Table.find t k' := by
  induction t with
  | nil => simp [Table.updAll]
  | cons e r ih =>
    simp only [Table.updAll, List.map_cons] at ih ⊢
    rw [Table.find_cons, Table.find_cons, ih]
    by_cases h2 : e.1 = k'
    · subst h2
      by_cases h1 : e.1 ∈ ks <;> simp [h1]
    · by_cases h1 : e.1 ∈ ks <;> simp [h1, h2]

theorem Table.find_del (t : Table α) (k k' : Nat) :
    (Table.del t k).find k' = if k' = k then none else Table.find t k' := by
  induction t with
  | nil => simp [Table.del]
  | cons e r ih =>
    simp only [Table.del, List.filter_cons] at ih ⊢
    by_cases h1 : e.1 = k
    · simp only [h1, ne_eq, not_true, decide_false, Bool.false_eq_true, if_false]
      rw [ih, Table.find_cons, h1]
      by_cases h2 : k' = k
      · simp [h2]
      · have : k ≠ k' := fun h => h2 h.symm
        simp [h2, this]
    · simp only [ne_eq, h1, not_false_eq_true, decide_true, if_true]
      rw [Table.find_cons, Table.find_cons, ih]
      by_cases h2 : e.1 = k'
      · subst h2; simp [h1]
      · simp [h2]

/-- Changing every record, whatever its number. -/
theorem Table.find_mapVals {β : Type} (t : Table α) (f : Nat → α → β) (k : Nat) :
    Table.find (t.map (fun e => (e.1, f e.1 e.2))) k = (Table.find t k).map (f k) := by
  induction t with
  | nil => rfl
  | cons e r ih =>
    rw [List.map_cons, Table.find_cons, Table.find_cons, ih]
    by_cases h : e.1 = k
    · subst h; simp
    · simp [h]

theorem Table.keys_mapVals {β : Type} (t : Table α) (f : Nat → α → β) :
    Table.keys (t.map (fun e => (e.1, f e.1 e.2))) = t.keys := by
  simp [Table.keys, Function.comp_def]

@[simp] theorem Table.keys_upd (t : Table α) (k : Nat) (f : α → α) : (Table.upd t k f).keys = t.keys := by
  simp only [Table.keys, Table.upd, List.map_map]
  apply List.map_congr_left
  intro e _
  simp only [Function.comp]
  split <;> rfl

@[simp] theorem Table.keys_updAll (t : Table α) (ks : List Nat) (f : α → α) : (Table.updAll t ks f).keys = t.keys := by
  simp only [Table.keys, Table.updAll, List.map_map]
  apply List.map_congr_left
  intro e _
  simp only [Function.comp]
  split <;> rfl

theorem Table.mem_keys_iff (t : Table α) (k : Nat) : k ∈ t.keys ↔ (Table.find t k).isSome = true := by
  induction t with
  | nil => simp [Table.keys]
  | cons e r ih =>
    rw [Table.find_cons]
    simp only [Table.keys, List.map_cons, List.mem_cons] at ih ⊢
    by_cases h : e.1 = k
    · simp [h]
    · simp only [h, if_false, ← ih]
      constructor
      · rintro (h' | h')
        · exact absurd h'.symm h
        · exact h'
      · exact fun h' => Or.inr h'

theorem Table.mem_of_find {t : Table α} {k : Nat} {v : α} (h : Table.find t k = some v) : (k, v) ∈ t := by
  induction t with
  | nil => simp at h
  | cons e r ih =>
    rw [Table.find_cons] at h
    split at h
    · rename_i he
      cases h
      subst he
      exact List.mem_cons_self ..
    · exact List.mem_cons_of_mem _ (ih h)

theorem Table.wf_nil : Table.wf ([] : Table α) := List.Pairwise.nil

theorem Table.wf_upd {t : Table α} (h : t.wf) (k : Nat) (f : α → α) : (Table.upd t k f).wf := by
  unfold Table.wf; rw [Table.keys_upd]; exact h

theorem Table.wf_updAll {t : Table α} (h : t.wf) (ks : List Nat) (f : α → α) : (Table.updAll t ks f).wf := by
  unfold Table.wf; rw [Table.keys_updAll]; exact h

theorem Table.wf_mapVals {β : Type} {t : Table α} (h : t.wf) (f : Nat → α → β) :
    Table.wf (t.map (fun e => (e.1, f e.1 e.2))) := by
  unfold Table.wf; rw [Table.keys_mapVals]; exact h

theorem Table.wf_del {t : Table α} (h : t.wf) (k : Nat) : (Table.del t k).wf := by
  unfold Table.wf Table.keys Table.del
  exact List.Pairwise.sublist ((List.filter_sublist).map _) h

theorem Table.mem_keys_put (t : Table α) (k : Nat) (v : α) (k' : Nat) :
    k' ∈ (Table.put t k v).keys ↔ k' = k ∨ k' ∈ t.keys := by
  rw [Table.mem_keys_iff, Table.mem_keys_iff, Table.find_put]
  by_cases h : k' = k <;> simp [h]

theorem Table.wf_put {t : Table α} (h : t.wf) (k : Nat) (v : α) : (Table.put t k v).wf := by
  induction t with
  | nil => simp [Table.put, Table.wf, Table.keys]
  | cons e r ih =>
    obtain ⟨a, b⟩ := e
    unfold Table.put
    have h' := h
    unfold Table.wf Table.keys at h'
    rw [List.map_cons, List.pairwise_cons] at h'
    split
    · rename_i hk
      unfold Table.wf Table.keys
      rw [List.map_cons, List.pairwise_cons]
      refine ⟨?_, h⟩
      intro c hc
      rw [List.map_cons, List.mem_cons] at hc
      rcases hc with hc | hc
      · subst hc; exact hk
      · exact Nat.lt_trans hk (h'.1 c hc)
    · split
      · rename_i hk
        unfold Table.wf Table.keys
        rw [List.map_cons, List.pairwise_cons]
        refine ⟨?_, h'.2⟩
        intro c hc
        rw [show (k, v).1 = a from hk]
        exact h'.1 c hc
      · rename_i h1 h2
        have := ih h'.2
        unfold Table.wf Table.keys
        rw [List.map_cons, List.pairwise_cons]
        refine ⟨?_, this⟩
        intro c hc
        have hc' : c ∈ (Table.put r k v).keys := hc
        rw [Table.mem_keys_put] at hc'
        rcases hc' with hc' | hc'
        · subst hc'; simp only; omega
        · exact h'.1 c hc'

/-- In canonical form every entry is the one found under its number. -/
theorem Table.find_of_mem {t : Table α} (h : t.wf) {e : Nat × α} (k : e ∈ t) : t.find e.1 = some e.2 := by
  induction t with
  | nil => cases k
  | cons a r ih =>
    unfold Table.wf Table.keys at h
    rw [List.map_cons, List.pairwise_cons] at h
    rw [Table.find_cons]
    rcases List.mem_cons.mp k with rfl | k
    · simp
    · have := h.1 e.1 (List.mem_map.mpr ⟨e, k, rfl⟩)
      rw [if_neg (by omega)]
      exact ih h.2 k

/-- The least number that meets a condition, in canonical form. -/
theorem Table.least_some {t : Table α} (h : t.wf) {q : Nat → α → Bool} {n : Nat} :
    t.least q = some n ↔ (∃ x, t.find n = some x ∧ q n x = true) ∧ ∀ m y, t.find m = some y → q m y = true → n ≤ m := by
  induction t with
  | nil => simp [Table.least]
  | cons a r ih =>
    have h' := h
    unfold Table.wf Table.keys at h'
    rw [List.map_cons, List.pairwise_cons] at h'
    have hr : ∀ m y, Table.find r m = some y → a.1 < m := fun m y hm =>
      h'.1 m (List.mem_map.mpr ⟨(m, y), Table.mem_of_find hm, rfl⟩)
    unfold Table.least
    rw [List.find?_cons]
    by_cases hq : q a.1 a.2 = true
    · rw [hq]
      simp only [Option.map_some, Option.some.injEq]
      constructor
      · rintro rfl
        refine ⟨⟨a.2, by simp [Table.find_cons], hq⟩, fun m y hm _ => ?_⟩
        rw [Table.find_cons] at hm
        split at hm
        · omega
        · exact Nat.le_of_lt (hr m y hm)
      · rintro ⟨⟨x, hx, _⟩, hl⟩
        have h1 := hl a.1 a.2 (by simp [Table.find_cons]) hq
        rw [Table.find_cons] at hx
        split at hx
        · assumption
        · have := hr n x hx; omega
    · rw [Bool.not_eq_true] at hq
      rw [hq]
      have := ih h'.2
      unfold Table.least at this
      rw [this]
      simp only [Table.find_cons]
      constructor
      · rintro ⟨⟨x, hx, hqx⟩, hl⟩
        refine ⟨⟨x, by rw [if_neg (by have := hr n x hx; omega)]; exact hx, hqx⟩, fun m y hm hqm => ?_⟩
        split at hm
        · rename_i e; subst e; cases hm; rw [hq] at hqm; cases hqm
        · exact hl m y hm hqm
      · rintro ⟨⟨x, hx, hqx⟩, hl⟩
        split at hx
        · rename_i e; subst e; cases hx; rw [hq] at hqx; cases hqx
        · refine ⟨⟨x, hx, hqx⟩, fun m y hm hqm => hl m y ?_ hqm⟩
          rw [if_neg (by have := hr m y hm; omega)]; exact hm

theorem Table.least_none {t : Table α} (h : t.wf) {q : Nat → α → Bool} :
    t.least q = none ↔ ∀ m y, t.find m = some y → q m y = false := by
  unfold Table.least
  rw [Option.map_eq_none_iff, List.find?_eq_none]
  constructor
  · intro hh m y hm
    have := hh _ (Table.mem_of_find hm)
    simpa using this
  · intro hh e he
    have := hh _ _ (Table.find_of_mem h he)
    simp [this]

/-! ## Two changes of one table -/

theorem Table.upd_upd (t : Table α) (k : Nat) (f g : α → α) : (Table.upd t k f).upd k g = Table.upd t k (fun x => g (f x)) := by
  unfold Table.upd
  rw [List.map_map]
  apply List.map_congr_left
  intro e _
  simp only [Function.comp]
  by_cases h : e.1 = k <;> simp [h]

theorem Table.updAll_singleton (t : Table α) (k : Nat) (f : α → α) : Table.updAll t [k] f = Table.upd t k f := by
  unfold Table.updAll Table.upd
  apply List.map_congr_left
  intro e _
  simp only [List.mem_singleton]

/-- In canonical form a change of one record is given by what it makes of that record. -/
theorem Table.upd_const {t : Table α} (h : t.wf) {k : Nat} {x y : α} {f : α → α} (hk : Table.find t k = some x) (hf : f x = y) :
    Table.upd t k f = Table.upd t k (fun _ => y) := by
  unfold Table.upd
  apply List.map_congr_left
  intro e he
  by_cases h1 : e.1 = k
  · have := Table.find_of_mem h he
    rw [h1, hk] at this
    cases this
    simp [h1, hf]
  · simp [h1]

end Sys2Proof
end

