-- ==== Sys2Proof/Laws/State.lean ====
section
/-! SUPPORT. One lemma for each field and each named update of the state, so that no proof unfolds a record update; and what the
reading functions find after an update. -/

namespace Sys2Proof.Machine

/-! ## updZone -/

@[simp] theorem State.updZone_pending (s : State) (z : Nat) (f : Zone → Zone) : (s.updZone z f).pending = s.pending := rfl
@[simp] theorem State.updZone_resetPin (s : State) (z : Nat) (f : Zone → Zone) : (s.updZone z f).resetPin = s.resetPin := rfl
@[simp] theorem State.updZone_stopInPin (s : State) (z : Nat) (f : Zone → Zone) : (s.updZone z f).stopInPin = s.stopInPin := rfl
@[simp] theorem State.updZone_keyMaint (s : State) (z : Nat) (f : Zone → Zone) : (s.updZone z f).keyMaint = s.keyMaint := rfl
@[simp] theorem State.updZone_circuit (s : State) (z : Nat) (f : Zone → Zone) : (s.updZone z f).circuit = s.circuit := rfl
@[simp] theorem State.updZone_causes (s : State) (z : Nat) (f : Zone → Zone) : (s.updZone z f).causes = s.causes := rfl
@[simp] theorem State.updZone_authority (s : State) (z : Nat) (f : Zone → Zone) : (s.updZone z f).authority = s.authority := rfl
@[simp] theorem State.updZone_layout (s : State) (z : Nat) (f : Zone → Zone) : (s.updZone z f).layout = s.layout := rfl
@[simp] theorem State.updZone_store (s : State) (z : Nat) (f : Zone → Zone) : (s.updZone z f).store = s.store := rfl
@[simp] theorem State.updZone_zones (s : State) (z : Nat) (f : Zone → Zone) : (s.updZone z f).zones = s.zones.upd z f := rfl
@[simp] theorem State.updZone_trains (s : State) (z : Nat) (f : Zone → Zone) : (s.updZone z f).trains = s.trains := rfl
@[simp] theorem State.updZone_waitQueue (s : State) (z : Nat) (f : Zone → Zone) : (s.updZone z f).waitQueue = s.waitQueue := rfl
@[simp] theorem State.updZone_entryCounter (s : State) (z : Nat) (f : Zone → Zone) : (s.updZone z f).entryCounter = s.entryCounter := rfl
@[simp] theorem State.updZone_nextSerial (s : State) (z : Nat) (f : Zone → Zone) : (s.updZone z f).nextSerial = s.nextSerial := rfl
@[simp] theorem State.updZone_switches (s : State) (z : Nat) (f : Zone → Zone) : (s.updZone z f).switches = s.switches := rfl
@[simp] theorem State.updZone_nodes (s : State) (z : Nat) (f : Zone → Zone) : (s.updZone z f).nodes = s.nodes := rfl
@[simp] theorem State.updZone_polled (s : State) (z : Nat) (f : Zone → Zone) : (s.updZone z f).polled = s.polled := rfl
@[simp] theorem State.updZone_poll (s : State) (z : Nat) (f : Zone → Zone) : (s.updZone z f).poll = s.poll := rfl
@[simp] theorem State.updZone_anomalies (s : State) (z : Nat) (f : Zone → Zone) : (s.updZone z f).anomalies = s.anomalies := rfl
@[simp] theorem State.updZone_tableFull (s : State) (z : Nat) (f : Zone → Zone) : (s.updZone z f).tableFull = s.tableFull := rfl
@[simp] theorem State.updZone_timebase (s : State) (z : Nat) (f : Zone → Zone) : (s.updZone z f).timebase = s.timebase := rfl
@[simp] theorem State.updZone_indicators (s : State) (z : Nat) (f : Zone → Zone) : (s.updZone z f).indicators = s.indicators := rfl
@[simp] theorem State.updZone_supervisor (s : State) (z : Nat) (f : Zone → Zone) : (s.updZone z f).supervisor = s.supervisor := rfl
@[simp] theorem State.updZone_console (s : State) (z : Nat) (f : Zone → Zone) : (s.updZone z f).console = s.console := rfl
@[simp] theorem State.updZone_pins (s : State) (z : Nat) (f : Zone → Zone) : (s.updZone z f).pins = s.pins := rfl

/-! ## updZones -/

@[simp] theorem State.updZones_pending (s : State) (zs : List Nat) (f : Zone → Zone) : (s.updZones zs f).pending = s.pending := rfl
@[simp] theorem State.updZones_resetPin (s : State) (zs : List Nat) (f : Zone → Zone) : (s.updZones zs f).resetPin = s.resetPin := rfl
@[simp] theorem State.updZones_stopInPin (s : State) (zs : List Nat) (f : Zone → Zone) : (s.updZones zs f).stopInPin = s.stopInPin := rfl
@[simp] theorem State.updZones_keyMaint (s : State) (zs : List Nat) (f : Zone → Zone) : (s.updZones zs f).keyMaint = s.keyMaint := rfl
@[simp] theorem State.updZones_circuit (s : State) (zs : List Nat) (f : Zone → Zone) : (s.updZones zs f).circuit = s.circuit := rfl
@[simp] theorem State.updZones_causes (s : State) (zs : List Nat) (f : Zone → Zone) : (s.updZones zs f).causes = s.causes := rfl
@[simp] theorem State.updZones_authority (s : State) (zs : List Nat) (f : Zone → Zone) : (s.updZones zs f).authority = s.authority := rfl
@[simp] theorem State.updZones_layout (s : State) (zs : List Nat) (f : Zone → Zone) : (s.updZones zs f).layout = s.layout := rfl
@[simp] theorem State.updZones_store (s : State) (zs : List Nat) (f : Zone → Zone) : (s.updZones zs f).store = s.store := rfl
@[simp] theorem State.updZones_zones (s : State) (zs : List Nat) (f : Zone → Zone) : (s.updZones zs f).zones = s.zones.updAll zs f := rfl
@[simp] theorem State.updZones_trains (s : State) (zs : List Nat) (f : Zone → Zone) : (s.updZones zs f).trains = s.trains := rfl
@[simp] theorem State.updZones_waitQueue (s : State) (zs : List Nat) (f : Zone → Zone) : (s.updZones zs f).waitQueue = s.waitQueue := rfl
@[simp] theorem State.updZones_entryCounter (s : State) (zs : List Nat) (f : Zone → Zone) : (s.updZones zs f).entryCounter = s.entryCounter := rfl
@[simp] theorem State.updZones_nextSerial (s : State) (zs : List Nat) (f : Zone → Zone) : (s.updZones zs f).nextSerial = s.nextSerial := rfl
@[simp] theorem State.updZones_switches (s : State) (zs : List Nat) (f : Zone → Zone) : (s.updZones zs f).switches = s.switches := rfl
@[simp] theorem State.updZones_nodes (s : State) (zs : List Nat) (f : Zone → Zone) : (s.updZones zs f).nodes = s.nodes := rfl
@[simp] theorem State.updZones_polled (s : State) (zs : List Nat) (f : Zone → Zone) : (s.updZones zs f).polled = s.polled := rfl
@[simp] theorem State.updZones_poll (s : State) (zs : List Nat) (f : Zone → Zone) : (s.updZones zs f).poll = s.poll := rfl
@[simp] theorem State.updZones_anomalies (s : State) (zs : List Nat) (f : Zone → Zone) : (s.updZones zs f).anomalies = s.anomalies := rfl
@[simp] theorem State.updZones_tableFull (s : State) (zs : List Nat) (f : Zone → Zone) : (s.updZones zs f).tableFull = s.tableFull := rfl
@[simp] theorem State.updZones_timebase (s : State) (zs : List Nat) (f : Zone → Zone) : (s.updZones zs f).timebase = s.timebase := rfl
@[simp] theorem State.updZones_indicators (s : State) (zs : List Nat) (f : Zone → Zone) : (s.updZones zs f).indicators = s.indicators := rfl
@[simp] theorem State.updZones_supervisor (s : State) (zs : List Nat) (f : Zone → Zone) : (s.updZones zs f).supervisor = s.supervisor := rfl
@[simp] theorem State.updZones_console (s : State) (zs : List Nat) (f : Zone → Zone) : (s.updZones zs f).console = s.console := rfl
@[simp] theorem State.updZones_pins (s : State) (zs : List Nat) (f : Zone → Zone) : (s.updZones zs f).pins = s.pins := rfl

/-! ## updTrain -/

@[simp] theorem State.updTrain_pending (s : State) (t : Nat) (f : Train → Train) : (s.updTrain t f).pending = s.pending := rfl
@[simp] theorem State.updTrain_resetPin (s : State) (t : Nat) (f : Train → Train) : (s.updTrain t f).resetPin = s.resetPin := rfl
@[simp] theorem State.updTrain_stopInPin (s : State) (t : Nat) (f : Train → Train) : (s.updTrain t f).stopInPin = s.stopInPin := rfl
@[simp] theorem State.updTrain_keyMaint (s : State) (t : Nat) (f : Train → Train) : (s.updTrain t f).keyMaint = s.keyMaint := rfl
@[simp] theorem State.updTrain_circuit (s : State) (t : Nat) (f : Train → Train) : (s.updTrain t f).circuit = s.circuit := rfl
@[simp] theorem State.updTrain_causes (s : State) (t : Nat) (f : Train → Train) : (s.updTrain t f).causes = s.causes := rfl
@[simp] theorem State.updTrain_authority (s : State) (t : Nat) (f : Train → Train) : (s.updTrain t f).authority = s.authority := rfl
@[simp] theorem State.updTrain_layout (s : State) (t : Nat) (f : Train → Train) : (s.updTrain t f).layout = s.layout := rfl
@[simp] theorem State.updTrain_store (s : State) (t : Nat) (f : Train → Train) : (s.updTrain t f).store = s.store := rfl
@[simp] theorem State.updTrain_zones (s : State) (t : Nat) (f : Train → Train) : (s.updTrain t f).zones = s.zones := rfl
@[simp] theorem State.updTrain_trains (s : State) (t : Nat) (f : Train → Train) : (s.updTrain t f).trains = s.trains.upd t f := rfl
@[simp] theorem State.updTrain_waitQueue (s : State) (t : Nat) (f : Train → Train) : (s.updTrain t f).waitQueue = s.waitQueue := rfl
@[simp] theorem State.updTrain_entryCounter (s : State) (t : Nat) (f : Train → Train) : (s.updTrain t f).entryCounter = s.entryCounter := rfl
@[simp] theorem State.updTrain_nextSerial (s : State) (t : Nat) (f : Train → Train) : (s.updTrain t f).nextSerial = s.nextSerial := rfl
@[simp] theorem State.updTrain_switches (s : State) (t : Nat) (f : Train → Train) : (s.updTrain t f).switches = s.switches := rfl
@[simp] theorem State.updTrain_nodes (s : State) (t : Nat) (f : Train → Train) : (s.updTrain t f).nodes = s.nodes := rfl
@[simp] theorem State.updTrain_polled (s : State) (t : Nat) (f : Train → Train) : (s.updTrain t f).polled = s.polled := rfl
@[simp] theorem State.updTrain_poll (s : State) (t : Nat) (f : Train → Train) : (s.updTrain t f).poll = s.poll := rfl
@[simp] theorem State.updTrain_anomalies (s : State) (t : Nat) (f : Train → Train) : (s.updTrain t f).anomalies = s.anomalies := rfl
@[simp] theorem State.updTrain_tableFull (s : State) (t : Nat) (f : Train → Train) : (s.updTrain t f).tableFull = s.tableFull := rfl
@[simp] theorem State.updTrain_timebase (s : State) (t : Nat) (f : Train → Train) : (s.updTrain t f).timebase = s.timebase := rfl
@[simp] theorem State.updTrain_indicators (s : State) (t : Nat) (f : Train → Train) : (s.updTrain t f).indicators = s.indicators := rfl
@[simp] theorem State.updTrain_supervisor (s : State) (t : Nat) (f : Train → Train) : (s.updTrain t f).supervisor = s.supervisor := rfl
@[simp] theorem State.updTrain_console (s : State) (t : Nat) (f : Train → Train) : (s.updTrain t f).console = s.console := rfl
@[simp] theorem State.updTrain_pins (s : State) (t : Nat) (f : Train → Train) : (s.updTrain t f).pins = s.pins := rfl

/-! ## updSwitch -/

@[simp] theorem State.updSwitch_pending (s : State) (k : Nat) (f : Switch → Switch) : (s.updSwitch k f).pending = s.pending := rfl
@[simp] theorem State.updSwitch_resetPin (s : State) (k : Nat) (f : Switch → Switch) : (s.updSwitch k f).resetPin = s.resetPin := rfl
@[simp] theorem State.updSwitch_stopInPin (s : State) (k : Nat) (f : Switch → Switch) : (s.updSwitch k f).stopInPin = s.stopInPin := rfl
@[simp] theorem State.updSwitch_keyMaint (s : State) (k : Nat) (f : Switch → Switch) : (s.updSwitch k f).keyMaint = s.keyMaint := rfl
@[simp] theorem State.updSwitch_circuit (s : State) (k : Nat) (f : Switch → Switch) : (s.updSwitch k f).circuit = s.circuit := rfl
@[simp] theorem State.updSwitch_causes (s : State) (k : Nat) (f : Switch → Switch) : (s.updSwitch k f).causes = s.causes := rfl
@[simp] theorem State.updSwitch_authority (s : State) (k : Nat) (f : Switch → Switch) : (s.updSwitch k f).authority = s.authority := rfl
@[simp] theorem State.updSwitch_layout (s : State) (k : Nat) (f : Switch → Switch) : (s.updSwitch k f).layout = s.layout := rfl
@[simp] theorem State.updSwitch_store (s : State) (k : Nat) (f : Switch → Switch) : (s.updSwitch k f).store = s.store := rfl
@[simp] theorem State.updSwitch_zones (s : State) (k : Nat) (f : Switch → Switch) : (s.updSwitch k f).zones = s.zones := rfl
@[simp] theorem State.updSwitch_trains (s : State) (k : Nat) (f : Switch → Switch) : (s.updSwitch k f).trains = s.trains := rfl
@[simp] theorem State.updSwitch_waitQueue (s : State) (k : Nat) (f : Switch → Switch) : (s.updSwitch k f).waitQueue = s.waitQueue := rfl
@[simp] theorem State.updSwitch_entryCounter (s : State) (k : Nat) (f : Switch → Switch) : (s.updSwitch k f).entryCounter = s.entryCounter := rfl
@[simp] theorem State.updSwitch_nextSerial (s : State) (k : Nat) (f : Switch → Switch) : (s.updSwitch k f).nextSerial = s.nextSerial := rfl
@[simp] theorem State.updSwitch_switches (s : State) (k : Nat) (f : Switch → Switch) : (s.updSwitch k f).switches = s.switches.upd k f := rfl
@[simp] theorem State.updSwitch_nodes (s : State) (k : Nat) (f : Switch → Switch) : (s.updSwitch k f).nodes = s.nodes := rfl
@[simp] theorem State.updSwitch_polled (s : State) (k : Nat) (f : Switch → Switch) : (s.updSwitch k f).polled = s.polled := rfl
@[simp] theorem State.updSwitch_poll (s : State) (k : Nat) (f : Switch → Switch) : (s.updSwitch k f).poll = s.poll := rfl
@[simp] theorem State.updSwitch_anomalies (s : State) (k : Nat) (f : Switch → Switch) : (s.updSwitch k f).anomalies = s.anomalies := rfl
@[simp] theorem State.updSwitch_tableFull (s : State) (k : Nat) (f : Switch → Switch) : (s.updSwitch k f).tableFull = s.tableFull := rfl
@[simp] theorem State.updSwitch_timebase (s : State) (k : Nat) (f : Switch → Switch) : (s.updSwitch k f).timebase = s.timebase := rfl
@[simp] theorem State.updSwitch_indicators (s : State) (k : Nat) (f : Switch → Switch) : (s.updSwitch k f).indicators = s.indicators := rfl
@[simp] theorem State.updSwitch_supervisor (s : State) (k : Nat) (f : Switch → Switch) : (s.updSwitch k f).supervisor = s.supervisor := rfl
@[simp] theorem State.updSwitch_console (s : State) (k : Nat) (f : Switch → Switch) : (s.updSwitch k f).console = s.console := rfl
@[simp] theorem State.updSwitch_pins (s : State) (k : Nat) (f : Switch → Switch) : (s.updSwitch k f).pins = s.pins := rfl

/-! ## updNode -/

@[simp] theorem State.updNode_pending (s : State) (n : Nat) (f : Node → Node) : (s.updNode n f).pending = s.pending := rfl
@[simp] theorem State.updNode_resetPin (s : State) (n : Nat) (f : Node → Node) : (s.updNode n f).resetPin = s.resetPin := rfl
@[simp] theorem State.updNode_stopInPin (s : State) (n : Nat) (f : Node → Node) : (s.updNode n f).stopInPin = s.stopInPin := rfl
@[simp] theorem State.updNode_keyMaint (s : State) (n : Nat) (f : Node → Node) : (s.updNode n f).keyMaint = s.keyMaint := rfl
@[simp] theorem State.updNode_circuit (s : State) (n : Nat) (f : Node → Node) : (s.updNode n f).circuit = s.circuit := rfl
@[simp] theorem State.updNode_causes (s : State) (n : Nat) (f : Node → Node) : (s.updNode n f).causes = s.causes := rfl
@[simp] theorem State.updNode_authority (s : State) (n : Nat) (f : Node → Node) : (s.updNode n f).authority = s.authority := rfl
@[simp] theorem State.updNode_layout (s : State) (n : Nat) (f : Node → Node) : (s.updNode n f).layout = s.layout := rfl
@[simp] theorem State.updNode_store (s : State) (n : Nat) (f : Node → Node) : (s.updNode n f).store = s.store := rfl
@[simp] theorem State.updNode_zones (s : State) (n : Nat) (f : Node → Node) : (s.updNode n f).zones = s.zones := rfl
@[simp] theorem State.updNode_trains (s : State) (n : Nat) (f : Node → Node) : (s.updNode n f).trains = s.trains := rfl
@[simp] theorem State.updNode_waitQueue (s : State) (n : Nat) (f : Node → Node) : (s.updNode n f).waitQueue = s.waitQueue := rfl
@[simp] theorem State.updNode_entryCounter (s : State) (n : Nat) (f : Node → Node) : (s.updNode n f).entryCounter = s.entryCounter := rfl
@[simp] theorem State.updNode_nextSerial (s : State) (n : Nat) (f : Node → Node) : (s.updNode n f).nextSerial = s.nextSerial := rfl
@[simp] theorem State.updNode_switches (s : State) (n : Nat) (f : Node → Node) : (s.updNode n f).switches = s.switches := rfl
@[simp] theorem State.updNode_nodes (s : State) (n : Nat) (f : Node → Node) : (s.updNode n f).nodes = s.nodes.upd n f := rfl
@[simp] theorem State.updNode_polled (s : State) (n : Nat) (f : Node → Node) : (s.updNode n f).polled = s.polled := rfl
@[simp] theorem State.updNode_poll (s : State) (n : Nat) (f : Node → Node) : (s.updNode n f).poll = s.poll := rfl
@[simp] theorem State.updNode_anomalies (s : State) (n : Nat) (f : Node → Node) : (s.updNode n f).anomalies = s.anomalies := rfl
@[simp] theorem State.updNode_tableFull (s : State) (n : Nat) (f : Node → Node) : (s.updNode n f).tableFull = s.tableFull := rfl
@[simp] theorem State.updNode_timebase (s : State) (n : Nat) (f : Node → Node) : (s.updNode n f).timebase = s.timebase := rfl
@[simp] theorem State.updNode_indicators (s : State) (n : Nat) (f : Node → Node) : (s.updNode n f).indicators = s.indicators := rfl
@[simp] theorem State.updNode_supervisor (s : State) (n : Nat) (f : Node → Node) : (s.updNode n f).supervisor = s.supervisor := rfl
@[simp] theorem State.updNode_console (s : State) (n : Nat) (f : Node → Node) : (s.updNode n f).console = s.console := rfl
@[simp] theorem State.updNode_pins (s : State) (n : Nat) (f : Node → Node) : (s.updNode n f).pins = s.pins := rfl

/-! ## raise -/

@[simp] theorem State.raise_pending (s : State) (n : Notice) : (s.raise n).pending = s.pending := rfl
@[simp] theorem State.raise_resetPin (s : State) (n : Notice) : (s.raise n).resetPin = s.resetPin := rfl
@[simp] theorem State.raise_stopInPin (s : State) (n : Notice) : (s.raise n).stopInPin = s.stopInPin := rfl
@[simp] theorem State.raise_keyMaint (s : State) (n : Notice) : (s.raise n).keyMaint = s.keyMaint := rfl
@[simp] theorem State.raise_circuit (s : State) (n : Notice) : (s.raise n).circuit = s.circuit := rfl
@[simp] theorem State.raise_causes (s : State) (n : Notice) : (s.raise n).causes = s.causes := rfl
@[simp] theorem State.raise_authority (s : State) (n : Notice) : (s.raise n).authority = s.authority := rfl
@[simp] theorem State.raise_layout (s : State) (n : Notice) : (s.raise n).layout = s.layout := rfl
@[simp] theorem State.raise_store (s : State) (n : Notice) : (s.raise n).store = s.store := rfl
@[simp] theorem State.raise_zones (s : State) (n : Notice) : (s.raise n).zones = s.zones := rfl
@[simp] theorem State.raise_trains (s : State) (n : Notice) : (s.raise n).trains = s.trains := rfl
@[simp] theorem State.raise_waitQueue (s : State) (n : Notice) : (s.raise n).waitQueue = s.waitQueue := rfl
@[simp] theorem State.raise_entryCounter (s : State) (n : Notice) : (s.raise n).entryCounter = s.entryCounter := rfl
@[simp] theorem State.raise_nextSerial (s : State) (n : Notice) : (s.raise n).nextSerial = s.nextSerial := rfl
@[simp] theorem State.raise_switches (s : State) (n : Notice) : (s.raise n).switches = s.switches := rfl
@[simp] theorem State.raise_nodes (s : State) (n : Notice) : (s.raise n).nodes = s.nodes := rfl
@[simp] theorem State.raise_polled (s : State) (n : Notice) : (s.raise n).polled = s.polled := rfl
@[simp] theorem State.raise_poll (s : State) (n : Notice) : (s.raise n).poll = s.poll := rfl
@[simp] theorem State.raise_anomalies (s : State) (n : Notice) : (s.raise n).anomalies = s.anomalies := rfl
@[simp] theorem State.raise_tableFull (s : State) (n : Notice) : (s.raise n).tableFull = s.tableFull := rfl
@[simp] theorem State.raise_timebase (s : State) (n : Notice) : (s.raise n).timebase = s.timebase := rfl
@[simp] theorem State.raise_indicators (s : State) (n : Notice) : (s.raise n).indicators = s.indicators := rfl
@[simp] theorem State.raise_supervisor (s : State) (n : Notice) : (s.raise n).supervisor = s.supervisor.raise n := rfl
@[simp] theorem State.raise_console (s : State) (n : Notice) : (s.raise n).console = s.console.raise n := rfl
@[simp] theorem State.raise_pins (s : State) (n : Notice) : (s.raise n).pins = s.pins := rfl

/-! ## settle -/

@[simp] theorem State.settle_pending (s : State) : (s.settle).pending = s.pending := rfl
@[simp] theorem State.settle_resetPin (s : State) : (s.settle).resetPin = s.resetPin := rfl
@[simp] theorem State.settle_stopInPin (s : State) : (s.settle).stopInPin = s.stopInPin := rfl
@[simp] theorem State.settle_keyMaint (s : State) : (s.settle).keyMaint = s.keyMaint := rfl
@[simp] theorem State.settle_circuit (s : State) : (s.settle).circuit = s.circuit := rfl
@[simp] theorem State.settle_causes (s : State) : (s.settle).causes = s.causes := rfl
@[simp] theorem State.settle_authority (s : State) : (s.settle).authority = s.authority := rfl
@[simp] theorem State.settle_layout (s : State) : (s.settle).layout = s.layout := rfl
@[simp] theorem State.settle_store (s : State) : (s.settle).store = s.store := rfl
@[simp] theorem State.settle_zones (s : State) : (s.settle).zones = s.zones := rfl
@[simp] theorem State.settle_trains (s : State) : (s.settle).trains = s.trains := rfl
@[simp] theorem State.settle_waitQueue (s : State) : (s.settle).waitQueue = s.waitQueue := rfl
@[simp] theorem State.settle_entryCounter (s : State) : (s.settle).entryCounter = s.entryCounter := rfl
@[simp] theorem State.settle_nextSerial (s : State) : (s.settle).nextSerial = s.nextSerial := rfl
@[simp] theorem State.settle_switches (s : State) : (s.settle).switches = s.switches := rfl
@[simp] theorem State.settle_nodes (s : State) : (s.settle).nodes = s.nodes := rfl
@[simp] theorem State.settle_polled (s : State) : (s.settle).polled = s.polled := rfl
@[simp] theorem State.settle_poll (s : State) : (s.settle).poll = s.poll := rfl
@[simp] theorem State.settle_anomalies (s : State) : (s.settle).anomalies = s.anomalies := rfl
@[simp] theorem State.settle_tableFull (s : State) : (s.settle).tableFull = s.tableFull := rfl
@[simp] theorem State.settle_timebase (s : State) : (s.settle).timebase = s.timebase := rfl
@[simp] theorem State.settle_indicators (s : State) : (s.settle).indicators = s.indicators := rfl
@[simp] theorem State.settle_supervisor (s : State) : (s.settle).supervisor = s.supervisor := rfl
@[simp] theorem State.settle_console (s : State) : (s.settle).console = s.console := rfl
@[simp] theorem State.settle_pins (s : State) : (s.settle).pins = s.driven := rfl

/-! ## sweep -/

@[simp] theorem State.sweep_pending (s : State) : (s.sweep).pending = s.pending := rfl
@[simp] theorem State.sweep_resetPin (s : State) : (s.sweep).resetPin = s.resetPin := rfl
@[simp] theorem State.sweep_stopInPin (s : State) : (s.sweep).stopInPin = s.stopInPin := rfl
@[simp] theorem State.sweep_keyMaint (s : State) : (s.sweep).keyMaint = s.keyMaint := rfl
@[simp] theorem State.sweep_circuit (s : State) : (s.sweep).circuit = s.circuit := rfl
@[simp] theorem State.sweep_causes (s : State) : (s.sweep).causes = s.causes := rfl
@[simp] theorem State.sweep_authority (s : State) : (s.sweep).authority = s.authority := rfl
@[simp] theorem State.sweep_layout (s : State) : (s.sweep).layout = s.layout := rfl
@[simp] theorem State.sweep_store (s : State) : (s.sweep).store = s.store := rfl
@[simp] theorem State.sweep_zones (s : State) : (s.sweep).zones = s.zones := rfl
@[simp] theorem State.sweep_trains (s : State) : (s.sweep).trains = s.trains := rfl
@[simp] theorem State.sweep_waitQueue (s : State) : (s.sweep).waitQueue = s.waitQueue := rfl
@[simp] theorem State.sweep_entryCounter (s : State) : (s.sweep).entryCounter = s.entryCounter := rfl
@[simp] theorem State.sweep_nextSerial (s : State) : (s.sweep).nextSerial = s.nextSerial := rfl
@[simp] theorem State.sweep_switches (s : State) : (s.sweep).switches = s.switches := rfl
@[simp] theorem State.sweep_nodes (s : State) : (s.sweep).nodes = s.nodes := rfl
@[simp] theorem State.sweep_polled (s : State) : (s.sweep).polled = s.polled := rfl
@[simp] theorem State.sweep_poll (s : State) : (s.sweep).poll = s.poll := rfl
@[simp] theorem State.sweep_anomalies (s : State) : (s.sweep).anomalies = s.anomalies.filter (fun a => !(a.acked && s.resolved a.kind a.subject)) := rfl
@[simp] theorem State.sweep_tableFull (s : State) : (s.sweep).tableFull = s.tableFull := rfl
@[simp] theorem State.sweep_timebase (s : State) : (s.sweep).timebase = s.timebase := rfl
@[simp] theorem State.sweep_indicators (s : State) : (s.sweep).indicators = s.indicators := rfl
@[simp] theorem State.sweep_supervisor (s : State) : (s.sweep).supervisor = s.supervisor := rfl
@[simp] theorem State.sweep_console (s : State) : (s.sweep).console = s.console := rfl
@[simp] theorem State.sweep_pins (s : State) : (s.sweep).pins = s.pins := rfl

/-! ## holdAll -/

@[simp] theorem State.holdAll_pending (s : State) : (s.holdAll).pending = s.pending := rfl
@[simp] theorem State.holdAll_resetPin (s : State) : (s.holdAll).resetPin = s.resetPin := rfl
@[simp] theorem State.holdAll_stopInPin (s : State) : (s.holdAll).stopInPin = s.stopInPin := rfl
@[simp] theorem State.holdAll_keyMaint (s : State) : (s.holdAll).keyMaint = s.keyMaint := rfl
@[simp] theorem State.holdAll_circuit (s : State) : (s.holdAll).circuit = s.circuit := rfl
@[simp] theorem State.holdAll_causes (s : State) : (s.holdAll).causes = s.causes := rfl
@[simp] theorem State.holdAll_authority (s : State) : (s.holdAll).authority = s.authority := rfl
@[simp] theorem State.holdAll_layout (s : State) : (s.holdAll).layout = s.layout := rfl
@[simp] theorem State.holdAll_store (s : State) : (s.holdAll).store = s.store := rfl
@[simp] theorem State.holdAll_zones (s : State) : (s.holdAll).zones = s.zones.updAll s.zones.keys (fun x => { x with stopHold := true }) := rfl
@[simp] theorem State.holdAll_trains (s : State) : (s.holdAll).trains = s.trains := rfl
@[simp] theorem State.holdAll_waitQueue (s : State) : (s.holdAll).waitQueue = s.waitQueue := rfl
@[simp] theorem State.holdAll_entryCounter (s : State) : (s.holdAll).entryCounter = s.entryCounter := rfl
@[simp] theorem State.holdAll_nextSerial (s : State) : (s.holdAll).nextSerial = s.nextSerial := rfl
@[simp] theorem State.holdAll_switches (s : State) : (s.holdAll).switches = s.switches := rfl
@[simp] theorem State.holdAll_nodes (s : State) : (s.holdAll).nodes = s.nodes := rfl
@[simp] theorem State.holdAll_polled (s : State) : (s.holdAll).polled = s.polled := rfl
@[simp] theorem State.holdAll_poll (s : State) : (s.holdAll).poll = s.poll := rfl
@[simp] theorem State.holdAll_anomalies (s : State) : (s.holdAll).anomalies = s.anomalies := rfl
@[simp] theorem State.holdAll_tableFull (s : State) : (s.holdAll).tableFull = s.tableFull := rfl
@[simp] theorem State.holdAll_timebase (s : State) : (s.holdAll).timebase = s.timebase := rfl
@[simp] theorem State.holdAll_indicators (s : State) : (s.holdAll).indicators = s.indicators := rfl
@[simp] theorem State.holdAll_supervisor (s : State) : (s.holdAll).supervisor = s.supervisor := rfl
@[simp] theorem State.holdAll_console (s : State) : (s.holdAll).console = s.console := rfl
@[simp] theorem State.holdAll_pins (s : State) : (s.holdAll).pins = s.pins := rfl

/-! ## dropClaim -/

@[simp] theorem State.dropClaim_pending (s : State) (t : Nat) : (s.dropClaim t).pending = s.pending := rfl
@[simp] theorem State.dropClaim_resetPin (s : State) (t : Nat) : (s.dropClaim t).resetPin = s.resetPin := rfl
@[simp] theorem State.dropClaim_stopInPin (s : State) (t : Nat) : (s.dropClaim t).stopInPin = s.stopInPin := rfl
@[simp] theorem State.dropClaim_keyMaint (s : State) (t : Nat) : (s.dropClaim t).keyMaint = s.keyMaint := rfl
@[simp] theorem State.dropClaim_circuit (s : State) (t : Nat) : (s.dropClaim t).circuit = s.circuit := rfl
@[simp] theorem State.dropClaim_causes (s : State) (t : Nat) : (s.dropClaim t).causes = s.causes := rfl
@[simp] theorem State.dropClaim_authority (s : State) (t : Nat) : (s.dropClaim t).authority = s.authority := rfl
@[simp] theorem State.dropClaim_layout (s : State) (t : Nat) : (s.dropClaim t).layout = s.layout := rfl
@[simp] theorem State.dropClaim_store (s : State) (t : Nat) : (s.dropClaim t).store = s.store := rfl
@[simp] theorem State.dropClaim_zones (s : State) (t : Nat) : (s.dropClaim t).zones = s.zones := rfl
@[simp] theorem State.dropClaim_trains (s : State) (t : Nat) : (s.dropClaim t).trains = s.trains.upd t (fun r => { r with claim := .none }) := rfl
@[simp] theorem State.dropClaim_waitQueue (s : State) (t : Nat) : (s.dropClaim t).waitQueue = s.waitQueue.filter (fun d => decide (d.train ≠ t)) := rfl
@[simp] theorem State.dropClaim_entryCounter (s : State) (t : Nat) : (s.dropClaim t).entryCounter = s.entryCounter := rfl
@[simp] theorem State.dropClaim_nextSerial (s : State) (t : Nat) : (s.dropClaim t).nextSerial = s.nextSerial := rfl
@[simp] theorem State.dropClaim_switches (s : State) (t : Nat) : (s.dropClaim t).switches = s.switches := rfl
@[simp] theorem State.dropClaim_nodes (s : State) (t : Nat) : (s.dropClaim t).nodes = s.nodes := rfl
@[simp] theorem State.dropClaim_polled (s : State) (t : Nat) : (s.dropClaim t).polled = s.polled := rfl
@[simp] theorem State.dropClaim_poll (s : State) (t : Nat) : (s.dropClaim t).poll = s.poll := rfl
@[simp] theorem State.dropClaim_anomalies (s : State) (t : Nat) : (s.dropClaim t).anomalies = s.anomalies := rfl
@[simp] theorem State.dropClaim_tableFull (s : State) (t : Nat) : (s.dropClaim t).tableFull = s.tableFull := rfl
@[simp] theorem State.dropClaim_timebase (s : State) (t : Nat) : (s.dropClaim t).timebase = s.timebase := rfl
@[simp] theorem State.dropClaim_indicators (s : State) (t : Nat) : (s.dropClaim t).indicators = s.indicators := rfl
@[simp] theorem State.dropClaim_supervisor (s : State) (t : Nat) : (s.dropClaim t).supervisor = s.supervisor := rfl
@[simp] theorem State.dropClaim_console (s : State) (t : Nat) : (s.dropClaim t).console = s.console := rfl
@[simp] theorem State.dropClaim_pins (s : State) (t : Nat) : (s.dropClaim t).pins = s.pins := rfl

/-! ## setPort -/

@[simp] theorem State.setPort_pending (s : State) (p : Port) (x : PortState) : (s.setPort p x).pending = s.pending := by cases p <;> rfl
@[simp] theorem State.setPort_resetPin (s : State) (p : Port) (x : PortState) : (s.setPort p x).resetPin = s.resetPin := by cases p <;> rfl
@[simp] theorem State.setPort_stopInPin (s : State) (p : Port) (x : PortState) : (s.setPort p x).stopInPin = s.stopInPin := by cases p <;> rfl
@[simp] theorem State.setPort_keyMaint (s : State) (p : Port) (x : PortState) : (s.setPort p x).keyMaint = s.keyMaint := by cases p <;> rfl
@[simp] theorem State.setPort_circuit (s : State) (p : Port) (x : PortState) : (s.setPort p x).circuit = s.circuit := by cases p <;> rfl
@[simp] theorem State.setPort_causes (s : State) (p : Port) (x : PortState) : (s.setPort p x).causes = s.causes := by cases p <;> rfl
@[simp] theorem State.setPort_authority (s : State) (p : Port) (x : PortState) : (s.setPort p x).authority = s.authority := by cases p <;> rfl
@[simp] theorem State.setPort_layout (s : State) (p : Port) (x : PortState) : (s.setPort p x).layout = s.layout := by cases p <;> rfl
@[simp] theorem State.setPort_store (s : State) (p : Port) (x : PortState) : (s.setPort p x).store = s.store := by cases p <;> rfl
@[simp] theorem State.setPort_zones (s : State) (p : Port) (x : PortState) : (s.setPort p x).zones = s.zones := by cases p <;> rfl
@[simp] theorem State.setPort_trains (s : State) (p : Port) (x : PortState) : (s.setPort p x).trains = s.trains := by cases p <;> rfl
@[simp] theorem State.setPort_waitQueue (s : State) (p : Port) (x : PortState) : (s.setPort p x).waitQueue = s.waitQueue := by cases p <;> rfl
@[simp] theorem State.setPort_entryCounter (s : State) (p : Port) (x : PortState) : (s.setPort p x).entryCounter = s.entryCounter := by cases p <;> rfl
@[simp] theorem State.setPort_nextSerial (s : State) (p : Port) (x : PortState) : (s.setPort p x).nextSerial = s.nextSerial := by cases p <;> rfl
@[simp] theorem State.setPort_switches (s : State) (p : Port) (x : PortState) : (s.setPort p x).switches = s.switches := by cases p <;> rfl
@[simp] theorem State.setPort_nodes (s : State) (p : Port) (x : PortState) : (s.setPort p x).nodes = s.nodes := by cases p <;> rfl
@[simp] theorem State.setPort_polled (s : State) (p : Port) (x : PortState) : (s.setPort p x).polled = s.polled := by cases p <;> rfl
@[simp] theorem State.setPort_poll (s : State) (p : Port) (x : PortState) : (s.setPort p x).poll = s.poll := by cases p <;> rfl
@[simp] theorem State.setPort_anomalies (s : State) (p : Port) (x : PortState) : (s.setPort p x).anomalies = s.anomalies := by cases p <;> rfl
@[simp] theorem State.setPort_tableFull (s : State) (p : Port) (x : PortState) : (s.setPort p x).tableFull = s.tableFull := by cases p <;> rfl
@[simp] theorem State.setPort_timebase (s : State) (p : Port) (x : PortState) : (s.setPort p x).timebase = s.timebase := by cases p <;> rfl
@[simp] theorem State.setPort_indicators (s : State) (p : Port) (x : PortState) : (s.setPort p x).indicators = s.indicators := by cases p <;> rfl
@[simp] theorem State.setPort_pins (s : State) (p : Port) (x : PortState) : (s.setPort p x).pins = s.pins := by cases p <;> rfl

@[simp] theorem State.port_setPort (s : State) (p : Port) (x : PortState) : (s.setPort p x).port p = x := by cases p <;> rfl
@[simp] theorem State.setPort_port (s : State) (p : Port) : s.setPort p (s.port p) = s := by cases p <;> rfl
@[simp] theorem State.setPort_setPort (s : State) (p : Port) (x y : PortState) : (s.setPort p x).setPort p y = s.setPort p y := by
  cases p <;> rfl

/-! ## Reading after an update -/

@[simp] theorem State.driven_settle (s : State) : s.settle.driven = s.driven := rfl
@[simp] theorem State.driven_pending (s : State) (l : List Instr) : State.driven { s with pending := l } = s.driven := rfl

theorem State.updZone_eq_updZones (s : State) (z : Nat) (f : Zone → Zone) : s.updZone z f = s.updZones [z] f := by
  have h : s.zones.upd z f = s.zones.updAll [z] f := by
    unfold Table.upd Table.updAll
    apply List.map_congr_left
    intro e _
    simp only [List.mem_singleton]
  unfold State.updZone State.updZones
  rw [h]

end Sys2Proof.Machine
end

