-- ==== Sys2Proof/Laws/Acts.lean ====
section
/-! SUPPORT. Every step is made of a few kinds of act. `Act` lists what the owning blocks do to the records, each act with what is
known where it is done; `Move` adds what the port links, the reset line and the output pins do. That every command is a run of
moves is in Laws/Steps.lean: a condition that every move keeps, every step keeps. -/

namespace Sys2Proof.Machine

/-- OPERATING or HALTED. -/
def State.Running (s : State) : Prop := s.circuit = .operating ∨ s.circuit = .halted

/-- The part is live, or holds some live record: what is not so in a circuit without a committed layout. -/
def State.Lively (s : State) : Prop :=
  s.live = true ∨ s.zones ≠ [] ∨ s.switches ≠ [] ∨ s.nodes ≠ [] ∨ s.poll ≠ none

/-- A port whose link and queue stand as they were. -/
def PortState.SameLink (x y : PortState) : Prop := ∃ f m, y = { x with flags := f, mask := m }

/-- One act of an owning block. -/
inductive Act : State → State → Prop
  | notices (s : State) (fs ms fc mc : Byte) :
    Act s { s with supervisor := { s.supervisor with flags := fs, mask := ms }, console := { s.console with flags := fc, mask := mc } }
  | indicators (s : State) (i : Table Assignment) : (s.indicators.wf → i.wf) → Act s { s with indicators := i }
  | store (s : State) (x : Store) : (s.layout.Canonical → s.store.image.Canonical → x.image.Canonical) → Act s { s with store := x }
  | load (s : State) (l : Layout) : s.circuit = .config → (s.layout.Canonical → l.Canonical) → Act s { s with layout := l }
  | stopInOn (s : State) : Act s (State.arise { s with stopInPin := true } .stopIn)
  | stopInOff (s : State) : Act s { s with stopInPin := false, causes := { s.causes with stopIn := false } }
  | keyOn (s : State) : Act s ((State.arise { s with keyMaint := true } .key).setAuthority .maintenance)
  | keyOff (s : State) : Act s (State.keyReleased { s with keyMaint := false })
  | arise (s : State) (c : StopCause) : c = .commanded ∨ c = .anomaly → Act s (s.arise c)
  | configEntered (s : State) : Act s s.configEntered
  | built (s : State) : s.circuit = .config → Act s (s.buildLive.raise .circuit)
  | begun (s : State) : s.beginRefusal = none → Act s (State.raise .circuit { s with circuit := .operating })
  | resumed (s : State) (g : Nat) : s.circuit = .halted → s.causes.stopIn = false → s.causes.key = false → Act s (s.resumed g)
  | clearCauses (s : State) : s.circuit = .census → Act s s.clearCauses
  | authority (s : State) (a : Authority) : s.authority ≠ .maintenance → a ≠ .maintenance → Act s (s.setAuthority a)
  | enterAnomaly (s : State) (k : AnomalyKind) (n : Nat) (b : Bool) : s.Lively → Act s (s.enterAnomaly k n b)
  | sweep (s : State) : Act s s.sweep
  | acknowledge (s : State) (f : Anomaly → Bool) (full : Bool) : (full = true → s.tableFull = true) →
    Act s { s with anomalies := s.anomalies.map (fun a => if f a then { a with acked := true } else a), tableFull := full }
  | tick (s : State) : s.live = true → Act s s.tick
  | zoneTimer (s : State) (z : Nat) (f : ZoneTimer → ZoneTimer) : Act s (s.updZone z (fun x => { x with timer := f x.timer }))
  | beginMove (s : State) (k : Nat) (r : SwitchRec) (q : Position) : s.layout.switches.find k = some r → s.holder r.zone = none →
    Act s (s.beginMove k q)
  | switchTo (s : State) (k : Nat) (f : Switch → Switch) : (∀ x q, (f x).state = .moving q → x.state = .moving q) →
    Act s (s.updSwitch k f)
  | node (s : State) (n : Nat) (f : Node → Node) : Act s (s.updNode n f)
  | remapped (s : State) (n a : Nat) : s.live = true → Act s (s.remapped n a)
  | poll (s : State) (a : Option Nat) (b : Option Poll) : s.Lively ∨ b = none → Act s { s with polled := a, poll := b }
  | occupy (s t : State) (z u : Nat) : s.occupy z u = some t →
    (∀ r, s.trains.find u = some r → r.hold.Nodup → s.stale r.hold = [] → t.stale r.hold = []) → Act s t
  | trail (s t : State) (z u : Nat) : s.trail z u = some t → Act s t
  | release (s t : State) (u : Nat) (zs : List Nat) : s.release u zs = some t → Act s t
  | evaluate (s : State) : Act s s.evaluate
  | mark (s : State) (z : Nat) (a : Option Nat) : a = none ∨ s.Running → Act s (s.markSuspect z a)
  | lineSuspect (s : State) (n : Nat) : Act s (s.lineSuspect n)
  | train (s : State) (u : Nat) (f : Train → Train) : (∀ r, (f r).hold = r.hold ∧ (f r).claim = r.claim) →
    (s.Running ∨ ∀ r, (r.motion = .standing ∨ r.motion = .untracked) ∧ r.stepGrant = false →
      ((f r).motion = .standing ∨ (f r).motion = .untracked) ∧ (f r).stepGrant = false) → Act s (s.updTrain u f)
  | dropClaim (s : State) (u : Nat) : Act s (s.dropClaim u)
  | enterClaim (s t : State) (u : Nat) (b : Bool) : s.Running → s.enterClaim u b = some t → Act s t
  | placed (s : State) (u : Nat) (tag : Byte) (z : Nat) : s.live = true → s.trains.find u = none → 1 ≤ u → u ≤ Config.trainSlots →
    s.holder z = none → (s.zones.find z).isSome = true → s.switchMoving z = false → Act s (s.placed u tag z)
  | withdrawn (s : State) (u : Nat) (f : Zone → Zone) : f = Zone.leave .suspect ∨ f = Zone.released → Act s (s.withdrawn u f)
  | relocated (s : State) (u z : Nat) (r : Train) : s.trains.find u = some r → s.holder z = none ∨ s.holder z = some u →
    (s.zones.find z).isSome = true → s.switchMoving z = false → Act s (s.relocated u z)
  | unheld (s : State) (zs : List Nat) (st : ZoneState) :
    (∀ z, z ∈ zs → s.holder z = none ∨ s.zoneState z = some .outOfService) → st = .free ∨ st = .outOfService →
    Act s (s.updZones zs (Zone.turn st))

/-- A run of acts. -/
inductive Acts : State → State → Prop
  | refl (s : State) : Acts s s
  | step {s t u : State} : Act s t → Acts t u → Acts s u

theorem Act.acts {s t : State} (h : Act s t) : Acts s t := .step h (.refl t)

theorem Acts.trans {s t u : State} (h : Acts s t) (k : Acts t u) : Acts s u := by
  induction h with
  | refl _ => exact k
  | step h _ ih => exact .step h (ih k)

/-- A condition every act keeps, a run of acts keeps. -/
theorem Acts.keeps {P : State → Prop} (hP : ∀ s t, P s → Act s t → P t) {s t : State} (h : Acts s t) (hs : P s) : P t := by
  induction h with
  | refl _ => exact hs
  | step h _ ih => exact ih (hP _ _ hs h)

/-- One move of the part: an act of an owning block, or what the links, the reset line and the pins do. -/
inductive Move : State → State → Prop
  | act {s t : State} : Act s t → Move s t
  | ports (s : State) (sup con : PortState) : (s.supervisor.Fits → sup.Fits) → (s.console.Fits → con.Fits) →
    Move s { s with supervisor := sup, console := con }
  | pins (s : State) (x : Pins) : Move s { s with pins := x }
  | taken (s : State) (l : List Instr) : Move s { s with pending := l }
  | level (s : State) (a b : Bool) : s.resetPin = true → Move s { s with stopInPin := a, keyMaint := b }
  | resetAsserted (s : State) : Move s { s with
      resetPin := true
      store := s.store.interrupted
      poll := none
      indicators := []
      supervisor := { s.supervisor with flags := 0, mask := 0 }
      console := { s.console with flags := 0, mask := 0 } }
  | hardReset (s : State) : Move s s.hardReset

/-- A run of moves. -/
inductive Moves : State → State → Prop
  | refl (s : State) : Moves s s
  | step {s t u : State} : Move s t → Moves t u → Moves s u

theorem Move.moves {s t : State} (h : Move s t) : Moves s t := .step h (.refl t)

theorem Moves.trans {s t u : State} (h : Moves s t) (k : Moves t u) : Moves s u := by
  induction h with
  | refl _ => exact k
  | step h _ ih => exact .step h (ih k)

theorem Acts.moves {s t : State} (h : Acts s t) : Moves s t := by
  induction h with
  | refl _ => exact .refl _
  | step h _ ih => exact .step (.act h) ih

/-- A condition every move keeps, a run of moves keeps. -/
theorem Moves.keeps {P : State → Prop} (hP : ∀ s t, P s → Move s t → P t) {s t : State} (h : Moves s t) (hs : P s) : P t := by
  induction h with
  | refl _ => exact hs
  | step h _ ih => exact ih (hP _ _ hs h)

end Sys2Proof.Machine
end

