-- ==== Sys2Proof/Laws/Frames.lean ====
section
/-! SUPPORT. What each shared operation can change, said once: the track records alone (zones and trains), or with them the claims,
the causes, the anomalies. Everything not named is as it was. -/

namespace Sys2Proof.Machine

/-- Nothing but zone and train records has changed. -/
def OnTrack (s t : State) : Prop := ∃ zs ts, t = { s with zones := zs, trains := ts }

theorem OnTrack.refl (s : State) : OnTrack s s := ⟨s.zones, s.trains, rfl⟩

theorem OnTrack.trans {s t u : State} (h : OnTrack s t) (k : OnTrack t u) : OnTrack s u := by
  obtain ⟨zs, ts, rfl⟩ := h
  obtain ⟨zs', ts', rfl⟩ := k
  exact ⟨zs', ts', rfl⟩

theorem updZone_onTrack (s : State) (z : Nat) (f : Zone → Zone) : OnTrack s (s.updZone z f) := ⟨_, s.trains, rfl⟩
theorem updZones_onTrack (s : State) (zs : List Nat) (f : Zone → Zone) : OnTrack s (s.updZones zs f) := ⟨_, s.trains, rfl⟩
theorem updTrain_onTrack (s : State) (t : Nat) (f : Train → Train) : OnTrack s (s.updTrain t f) := ⟨s.zones, _, rfl⟩
theorem move_onTrack (s : State) (t : Nat) (f : Motion → Motion) : OnTrack s (s.move t f) := updTrain_onTrack ..
theorem untrack_onTrack (s : State) (t : Nat) : OnTrack s (s.untrack t) := updTrain_onTrack ..

theorem keepOrder_onTrack (s : State) (t : Nat) : OnTrack s (s.keepOrder t) := by
  unfold State.keepOrder
  split
  · exact .refl s
  · exact updZones_onTrack ..

theorem markSuspect_onTrack (s : State) (z : Nat) (a : Option Nat) : OnTrack s (s.markSuspect z a) := by
  unfold State.markSuspect
  split
  · exact (updZone_onTrack ..).trans (keepOrder_onTrack ..)
  · split
    · exact updZone_onTrack ..
    · split
      · exact ((updZone_onTrack ..).trans (updTrain_onTrack ..)).trans (keepOrder_onTrack ..)
      · exact updZone_onTrack ..

theorem disturb_onTrack (s : State) (z : Nat) : OnTrack s (s.disturb z) := by
  unfold State.disturb
  split
  · exact (markSuspect_onTrack ..).trans (untrack_onTrack ..)
  · exact markSuspect_onTrack ..

theorem foldl_onTrack {α : Type} (f : State → α → State) (h : ∀ s a, OnTrack s (f s a)) (l : List α) (s : State) :
    OnTrack s (l.foldl f s) := by
  induction l generalizing s with
  | nil => exact .refl s
  | cons a r ih => exact (h s a).trans (ih _)

theorem lineSuspect_onTrack (s : State) (n : Nat) : OnTrack s (s.lineSuspect n) := by
  unfold State.lineSuspect
  exact (updZones_onTrack ..).trans
    (foldl_onTrack _ (fun s t => (untrack_onTrack s t).trans (keepOrder_onTrack _ t)) _ _)

theorem occupy_onTrack {s t : State} {z u : Nat} (h : s.occupy z u = some t) : OnTrack s t := by
  unfold State.occupy at h
  split at h <;> cases h
  exact updZone_onTrack ..

theorem trail_onTrack {s t : State} {z u : Nat} (h : s.trail z u = some t) : OnTrack s t := by
  unfold State.trail at h
  split at h <;> cases h
  exact updZone_onTrack ..

theorem release_onTrack {s t : State} {u : Nat} {zs : List Nat} (h : s.release u zs = some t) : OnTrack s t := by
  unfold State.release at h
  split at h
  · cases h
  · split at h <;> cases h
    exact (updZones_onTrack ..).trans (updTrain_onTrack ..)

theorem reserve_onTrack {s t : State} {u : Nat} {e : List (Nat × Nat)} (h : s.reserve u e = some t) : OnTrack s t := by
  unfold State.reserve at h
  split at h
  · cases h
  · split at h <;> cases h
    exact (updZones_onTrack ..).trans (updTrain_onTrack ..)

theorem crestRelease_onTrack {s t : State} {u l : Nat} (h : s.crestRelease u l = some t) : OnTrack s t := by
  unfold State.crestRelease at h
  cases hr : s.release u [l] with
  | none => rw [hr] at h; cases h
  | some s1 => rw [hr] at h; cases h; exact (release_onTrack hr).trans (updTrain_onTrack ..)

theorem faultMarks_onTrack (s : State) (a b t : Nat) : OnTrack s (s.faultMarks a b t) := by
  unfold State.faultMarks
  exact ((foldl_onTrack _ (fun s z => markSuspect_onTrack s z none) _ _).trans
    (foldl_onTrack _ (fun s z => disturb_onTrack s z) _ _)).trans (untrack_onTrack ..)

theorem enterUnexpected_onTrack (s : State) (b t : Nat) : OnTrack s (s.enterUnexpected b t) := by
  unfold State.enterUnexpected
  refine OnTrack.trans ?_ (untrack_onTrack ..)
  cases hh : s.holder b with
  | none => exact markSuspect_onTrack ..
  | some u => exact (markSuspect_onTrack ..).trans (untrack_onTrack ..)

/-- A grant: the entry leaves the queue, the claim is GRANTED, and the motion is cleared (R68). -/
def State.granted (s : State) (u : Nat) : State :=
  State.updTrain { s with waitQueue := s.waitQueue.filter (fun d => decide (d.train ≠ u)) } u
    (fun r => { r with claim := .granted, motion := r.motion.clear })

theorem OnTrack.circuit {s t : State} (h : OnTrack s t) : t.circuit = s.circuit := by obtain ⟨_, _, rfl⟩ := h; rfl
theorem OnTrack.running {s t : State} (h : OnTrack s t) (k : s.Running) : t.Running := by
  unfold State.Running; rw [h.circuit]; exact k
theorem OnTrack.live {s t : State} (h : OnTrack s t) : t.live = s.live := by unfold State.live; rw [h.circuit]
theorem OnTrack.waitQueue {s t : State} (h : OnTrack s t) : t.waitQueue = s.waitQueue := by obtain ⟨_, _, rfl⟩ := h; rfl
theorem OnTrack.layout {s t : State} (h : OnTrack s t) : t.layout = s.layout := by obtain ⟨_, _, rfl⟩ := h; rfl

/-- A running circuit is live. -/
theorem State.Running.live {s : State} (h : s.Running) : s.live = true := by
  unfold State.live
  rcases h with h | h <;> rw [h] <;> rfl

theorem State.raise_eq (s : State) (n : Notice) : s.raise n =
    { s with supervisor := { s.supervisor with flags := s.supervisor.flags ||| n.mask, mask := s.supervisor.mask },
             console := { s.console with flags := s.console.flags ||| n.mask, mask := s.console.mask } } := rfl

theorem raise_act (s : State) (n : Notice) : Act s (s.raise n) := by
  rw [State.raise_eq]; exact .notices ..

/-- What one entry of an evaluation can do: nothing, or reserve the extension of its train's head zone and grant the claim (R66,
R68). -/
theorem tryGrant_cases (s : State) (c : Claim) : s.tryGrant c = s ∨ ∃ r z e s1,
    s.trains.find c.train = some r ∧ (r.motion = .standing ∨ r.motion = .moving) ∧ s.headOf r.hold = some z ∧
    s.extension z = some e ∧ s.reserve c.train e = some s1 ∧
    (s.tryGrant c = s1.granted c.train ∨ s.tryGrant c = (s1.granted c.train).raise .claimGranted) := by
  cases hf : s.trains.find c.train with
  | none => left; unfold State.tryGrant; rw [hf]
  | some r =>
    by_cases hm : r.motion = .standing ∨ r.motion = .moving
    · cases hz : s.headOf r.hold with
      | none => left; unfold State.tryGrant; rw [hf]; simp [hm, hz]
      | some z =>
        cases he : s.extension z with
        | none => left; unfold State.tryGrant; rw [hf]; simp [hm, hz, he]
        | some e =>
          cases hr : s.reserve c.train e with
          | none => left; unfold State.tryGrant; rw [hf]; simp [hm, hz, he, hr]
          | some s1 =>
            right
            refine ⟨r, z, e, s1, rfl, hm, hz, he, hr, ?_⟩
            unfold State.tryGrant State.granted
            rw [hf]
            cases hc : c.cls <;> simp [hm, hz, he, hr]
    · left; unfold State.tryGrant; rw [hf]; simp [hm]

/-- A condition that one entry's evaluation keeps, the evaluation keeps. -/
theorem evaluate_keeps {P : State → Prop} (h : ∀ s c, P s → P (s.tryGrant c)) {s : State} (hs : P s) : P s.evaluate := by
  unfold State.evaluate
  generalize serviceOrder s.waitQueue = l
  induction l generalizing s with
  | nil => exact hs
  | cons c r ih => exact ih (h s c hs)

/-! ## What a cause, the authority, an evaluation and an entered claim can change -/

/-- Only the circuit state, the causes, the stop holds and the notices. -/
theorem arise_frame (s : State) (c : StopCause) : ∃ ci ca zs f g, s.arise c =
    { s with circuit := ci, causes := ca, zones := zs, supervisor := { s.supervisor with flags := f },
             console := { s.console with flags := g } } := by
  unfold State.arise
  split
  · exact ⟨_, _, _, _, _, rfl⟩
  · exact ⟨_, _, _, _, _, rfl⟩
  · exact ⟨s.circuit, _, s.zones, s.supervisor.flags, s.console.flags, rfl⟩
  · cases c <;> exact ⟨s.circuit, _, s.zones, s.supervisor.flags, s.console.flags, rfl⟩
  · cases c <;> exact ⟨s.circuit, _, s.zones, s.supervisor.flags, s.console.flags, rfl⟩

/-- Only the authority and the notices. -/
theorem setAuthority_frame (s : State) (a : Authority) : ∃ f g, s.setAuthority a =
    { s with authority := a, supervisor := { s.supervisor with flags := f }, console := { s.console with flags := g } } := by
  unfold State.setAuthority
  split
  · rename_i h; exact ⟨s.supervisor.flags, s.console.flags, by rw [← h]⟩
  · exact ⟨_, _, rfl⟩

/-- Only zones, trains, the Wait Queue and the notices. -/
theorem tryGrant_frame (s : State) (c : Claim) : ∃ zs ts q f g, s.tryGrant c =
    { s with zones := zs, trains := ts, waitQueue := q, supervisor := { s.supervisor with flags := f },
             console := { s.console with flags := g } } := by
  rcases tryGrant_cases s c with h1 | ⟨r, z, e, s1, _, _, _, _, hr, h1 | h1⟩ <;> rw [h1]
  · exact ⟨s.zones, s.trains, s.waitQueue, s.supervisor.flags, s.console.flags, rfl⟩
  · obtain ⟨zs, ts, rfl⟩ := reserve_onTrack hr
    exact ⟨_, _, _, s.supervisor.flags, s.console.flags, rfl⟩
  · obtain ⟨zs, ts, rfl⟩ := reserve_onTrack hr
    exact ⟨_, _, _, _, _, rfl⟩

theorem evaluate_frame (s : State) : ∃ zs ts q f g, s.evaluate =
    { s with zones := zs, trains := ts, waitQueue := q, supervisor := { s.supervisor with flags := f },
             console := { s.console with flags := g } } := by
  refine evaluate_keeps (P := fun t => ∃ zs ts q f g, t =
    { s with zones := zs, trains := ts, waitQueue := q, supervisor := { s.supervisor with flags := f },
             console := { s.console with flags := g } }) ?_ ⟨s.zones, s.trains, s.waitQueue, s.supervisor.flags, s.console.flags, rfl⟩
  rintro t c ⟨zs, ts, q, f, g, rfl⟩
  exact tryGrant_frame _ c

theorem enterClaim_eq {s t : State} {u : Nat} {b : Bool} (h : s.enterClaim u b = some t) :
    ∃ r, s.trains.find u = some r ∧ r.claim = .none ∧ t =
      { s with waitQueue := s.waitQueue ++ [⟨u, s.classFor u, s.entryCounter, b, s.nextSerial⟩],
               entryCounter := s.entryCounter + 1, nextSerial := s.nextSerial + 1,
               trains := s.trains.upd u (fun r => { r with claim := .pending }) } := by
  unfold State.enterClaim at h
  split at h
  · cases h
  · rename_i r hr
    split at h
    · rename_i hc; cases h; exact ⟨r, hr, hc, rfl⟩
    · cases h

/-! ## Acts keep the links and the reset line -/

/-- The links of both ports, the reset line and the queue of commands stand as they were. -/
structure SameSide (s t : State) : Prop where
  supervisor : s.supervisor.SameLink t.supervisor
  console : s.console.SameLink t.console
  resetPin : t.resetPin = s.resetPin
  pending : t.pending = s.pending

theorem PortState.SameLink.refl (x : PortState) : x.SameLink x := ⟨x.flags, x.mask, rfl⟩
theorem PortState.SameLink.trans {x y z : PortState} (h : x.SameLink y) (k : y.SameLink z) : x.SameLink z := by
  obtain ⟨_, _, rfl⟩ := h
  obtain ⟨f, m, rfl⟩ := k
  exact ⟨f, m, rfl⟩
theorem SameSide.of_eq {s t : State} (h1 : t.supervisor = s.supervisor) (h2 : t.console = s.console)
    (h3 : t.resetPin = s.resetPin) (h4 : t.pending = s.pending) : SameSide s t :=
  ⟨h1 ▸ .refl _, h2 ▸ .refl _, h3, h4⟩
theorem SameSide.refl (s : State) : SameSide s s := .of_eq rfl rfl rfl rfl
theorem SameSide.trans {s t u : State} (h : SameSide s t) (k : SameSide t u) : SameSide s u :=
  ⟨h.supervisor.trans k.supervisor, h.console.trans k.console, k.resetPin.trans h.resetPin, k.pending.trans h.pending⟩
theorem OnTrack.sameSide {s t : State} (h : OnTrack s t) : SameSide s t := by
  obtain ⟨_, _, rfl⟩ := h; exact .of_eq rfl rfl rfl rfl
theorem raise_sameSide (s : State) (n : Notice) : SameSide s (s.raise n) :=
  ⟨⟨_, s.supervisor.mask, rfl⟩, ⟨_, s.console.mask, rfl⟩, rfl, rfl⟩

/-- Raising a notice after something that leaves the sides alone. -/
theorem SameSide.raise {s t : State} (h : SameSide s t) (n : Notice) : SameSide s (t.raise n) := h.trans (raise_sameSide t n)

theorem arise_sameSide (s : State) (c : StopCause) : SameSide s (s.arise c) := by
  unfold State.arise
  split
  · refine SameSide.raise ?_ _; exact .of_eq rfl rfl rfl rfl
  · refine SameSide.raise ?_ _; exact .of_eq rfl rfl rfl rfl
  · exact .of_eq rfl rfl rfl rfl
  · cases c <;> exact .of_eq rfl rfl rfl rfl
  · cases c <;> exact .of_eq rfl rfl rfl rfl

theorem setAuthority_sameSide (s : State) (a : Authority) : SameSide s (s.setAuthority a) := by
  unfold State.setAuthority
  split
  · exact .refl s
  · refine SameSide.raise ?_ _; exact .of_eq rfl rfl rfl rfl

theorem granted_sameSide (s : State) (u : Nat) : SameSide s (s.granted u) := .of_eq rfl rfl rfl rfl

theorem evaluate_sameSide (s : State) : SameSide s s.evaluate := by
  refine evaluate_keeps (P := fun t => SameSide s t) ?_ (.refl s)
  intro t c h
  rcases tryGrant_cases t c with h1 | ⟨r, z, e, s1, _, _, _, _, hr, h1 | h1⟩ <;> rw [h1]
  · exact h
  · exact h.trans ((reserve_onTrack hr).sameSide.trans (granted_sameSide ..))
  · exact h.trans (((reserve_onTrack hr).sameSide.trans (granted_sameSide ..)).raise _)

set_option maxHeartbeats 2000000 in
theorem Act.sameSide {s t : State} (h : Act s t) : SameSide s t := by
  cases h with
  | notices => exact ⟨⟨_, _, rfl⟩, ⟨_, _, rfl⟩, rfl, rfl⟩
  | stopInOn => refine SameSide.trans ?_ (arise_sameSide _ _); exact .of_eq rfl rfl rfl rfl
  | keyOn => refine SameSide.trans (SameSide.trans ?_ (arise_sameSide _ _)) (setAuthority_sameSide _ _); exact .of_eq rfl rfl rfl rfl
  | keyOff =>
    unfold State.keyReleased
    dsimp only
    split
    · refine SameSide.trans ?_ (setAuthority_sameSide _ _); exact .of_eq rfl rfl rfl rfl
    · exact .of_eq rfl rfl rfl rfl
  | arise c _ => exact arise_sameSide s c
  | configEntered => refine SameSide.raise ?_ _; exact .of_eq rfl rfl rfl rfl
  | built _ => refine SameSide.raise ?_ _; exact .of_eq rfl rfl rfl rfl
  | begun _ => refine SameSide.raise ?_ _; exact .of_eq rfl rfl rfl rfl
  | resumed g _ _ _ =>
    unfold State.resumed
    dsimp only
    split
    · exact .of_eq rfl rfl rfl rfl
    · refine SameSide.raise ?_ _; exact .of_eq rfl rfl rfl rfl
  | authority a _ _ => exact setAuthority_sameSide s a
  | enterAnomaly k n b _ =>
    unfold State.enterAnomaly
    split
    · exact .of_eq rfl rfl rfl rfl
    · split <;> exact .of_eq rfl rfl rfl rfl
  | occupy _ z u h _ => exact (occupy_onTrack h).sameSide
  | trail _ z u h => exact (trail_onTrack h).sameSide
  | release _ u zs h => exact (release_onTrack h).sameSide
  | evaluate => exact evaluate_sameSide s
  | mark z a _ => exact (markSuspect_onTrack ..).sameSide
  | lineSuspect n => exact (lineSuspect_onTrack ..).sameSide
  | enterClaim _ u b _ h =>
    unfold State.enterClaim at h
    split at h
    · cases h
    · split at h <;> cases h
      exact .of_eq rfl rfl rfl rfl
  | indicators _ _ => exact .of_eq rfl rfl rfl rfl
  | store _ _ => exact .of_eq rfl rfl rfl rfl
  | load _ _ _ => exact .of_eq rfl rfl rfl rfl
  | stopInOff => exact .of_eq rfl rfl rfl rfl
  | clearCauses _ => exact .of_eq rfl rfl rfl rfl
  | sweep => exact .of_eq rfl rfl rfl rfl
  | acknowledge _ _ _ => exact .of_eq rfl rfl rfl rfl
  | tick _ => exact .of_eq rfl rfl rfl rfl
  | zoneTimer _ _ => exact .of_eq rfl rfl rfl rfl
  | beginMove _ _ _ _ _ => exact .of_eq rfl rfl rfl rfl
  | switchTo _ _ _ => exact .of_eq rfl rfl rfl rfl
  | node _ _ => exact .of_eq rfl rfl rfl rfl
  | remapped _ _ _ => exact .of_eq rfl rfl rfl rfl
  | poll _ _ _ => exact .of_eq rfl rfl rfl rfl
  | train _ _ _ _ => exact .of_eq rfl rfl rfl rfl
  | dropClaim _ => exact .of_eq rfl rfl rfl rfl
  | placed _ _ _ _ _ _ _ _ _ _ => exact .of_eq rfl rfl rfl rfl
  | withdrawn _ _ _ => exact .of_eq rfl rfl rfl rfl
  | relocated _ _ _ _ _ _ _ => exact .of_eq rfl rfl rfl rfl
  | unheld _ _ _ _ => exact .of_eq rfl rfl rfl rfl

theorem Acts.sameSide {s t : State} (h : Acts s t) : SameSide s t := by
  induction h with
  | refl _ => exact .refl _
  | step h _ ih => exact h.sameSide.trans ih

end Sys2Proof.Machine
end

