-- ==== Sys2Proof/Laws/Order.lean ====
section
/-! SUPPORT. The order of a hold list (R54, R56): when its RESERVED zones stand last, and that an occupy claim made for the next
zone keeps it so. -/

namespace Sys2Proof.Machine

/-- No RESERVED zone stands before one that is not: exactly when nothing is stale. -/
theorem stale_eq_nil_iff (s : State) (l : List Nat) :
    s.stale l = [] ↔ l.Pairwise (fun x y => s.isReserved x = true → s.isReserved y = true) := by
  induction l with
  | nil => simp [State.stale]
  | cons z r ih =>
    rw [List.pairwise_cons, ← ih, State.stale]
    split
    · rename_i h
      simp only [Bool.and_eq_true, List.any_eq_true, Bool.not_eq_true'] at h
      obtain ⟨hz, y, hy, hn⟩ := h
      simp only [reduceCtorEq, false_iff, not_and]
      intro hall
      have := hall y hy hz
      rw [hn] at this; cases this
    · rename_i h
      constructor
      · intro h2
        refine ⟨fun y hy hz => ?_, h2⟩
        cases hr : s.isReserved y with
        | true => rfl
        | false =>
          exact absurd (by simp only [hz, Bool.true_and, List.any_eq_true]; exact ⟨y, hy, by simp [hr]⟩) h
      · exact fun h2 => h2.2

theorem stale_congr {s t : State} (h : ∀ z, t.isReserved z = s.isReserved z) (l : List Nat) : t.stale l = s.stale l := by
  induction l with
  | nil => rfl
  | cons z r ih => simp only [State.stale, h, ih]

theorem zoneState_updZone (s : State) (z : Nat) (f : Zone → Zone) (z' : Nat) :
    (s.updZone z f).zoneState z' =
      if z' = z then (s.zones.find z).map (fun x => (f x).state) else s.zoneState z' := by
  unfold State.zoneState
  rw [State.updZone_zones, Table.find_upd]
  by_cases h : z' = z
  · subst h; simp [Option.map_map, Function.comp_def]
  · simp [h]

theorem zoneState_updZones (s : State) (zs : List Nat) (f : Zone → Zone) (z' : Nat) :
    (s.updZones zs f).zoneState z' =
      if z' ∈ zs then (s.zones.find z').map (fun x => (f x).state) else s.zoneState z' := by
  unfold State.zoneState
  rw [State.updZones_zones, Table.find_updAll]
  by_cases h : z' ∈ zs
  · simp [h, Option.map_map, Function.comp_def]
  · simp [h]

/-- A zone that turns OCCUPIED is no longer RESERVED; the others are as they were. -/
theorem isReserved_occupied (s : State) (z z' : Nat) :
    (s.updZone z (Zone.turn .occupied)).isReserved z' = (s.isReserved z' && decide (z' ≠ z)) := by
  unfold State.isReserved
  rw [zoneState_updZone]
  by_cases h : z' = z
  · subst h
    cases s.zones.find z' <;> simp [Zone.turn]
  · simp [h]

theorem mem_of_entryAfter {l : List Nat} {a b : Nat} (h : entryAfter l a = some b) : a ∈ l := by
  induction l with
  | nil => cases h
  | cons c r ih =>
    cases r with
    | nil => cases h
    | cons d r' =>
      unfold entryAfter at h
      by_cases hc : c = a
      · simp [hc]
      · simp only [hc, if_false] at h
        exact List.mem_cons_of_mem _ (ih h)

/-- The entry after a zone that is not RESERVED has no RESERVED zone before it, the list being in order and without repeats. -/
theorem pairwise_occupied {p : Nat → Bool} {l : List Nat} {a b : Nat} (hn : l.Nodup)
    (ho : l.Pairwise (fun x y => p x = true → p y = true)) (he : entryAfter l a = some b) (ha : p a = false) :
    l.Pairwise (fun x y => (p x && decide (x ≠ b)) = true → (p y && decide (y ≠ b)) = true) := by
  induction l with
  | nil => exact List.Pairwise.nil
  | cons c r ih =>
    rw [List.pairwise_cons] at ho ⊢
    have hn' := List.nodup_cons.mp hn
    cases r with
    | nil => exact ⟨fun y hy => absurd hy (by simp), List.Pairwise.nil⟩
    | cons d r' =>
      unfold entryAfter at he
      by_cases hc : c = a
      · simp only [hc, if_true, Option.some.injEq] at he
        subst he
        subst hc
        have hd := List.nodup_cons.mp hn'.2
        have hp := List.pairwise_cons.mp ho.2
        refine ⟨fun y _ h => ?_, List.pairwise_cons.mpr ⟨fun y _ h => ?_, ?_⟩⟩
        · simp [ha] at h
        · simp at h
        · refine List.Pairwise.imp_of_mem ?_ hp.2
          intro x y _ hy hxy hx
          simp only [Bool.and_eq_true, decide_eq_true_eq] at hx ⊢
          exact ⟨hxy hx.1, fun h => hd.1 (h ▸ hy)⟩
      · simp only [hc, if_false] at he
        refine ⟨fun y hy hp => ?_, ih hn'.2 ho.2 he⟩
        simp only [Bool.and_eq_true, decide_eq_true_eq] at hp ⊢
        have := ho.1 a (mem_of_entryAfter he) hp.1
        rw [ha] at this; cases this

/-- The occupy claim of an expected head keeps the order (R85). -/
theorem stale_occupy_next {s : State} {l : List Nat} {a b : Nat} (hn : l.Nodup) (ho : s.stale l = [])
    (he : entryAfter l a = some b) (ha : s.isReserved a = false) : (s.updZone b (Zone.turn .occupied)).stale l = [] := by
  rw [stale_eq_nil_iff] at ho ⊢
  simp only [isReserved_occupied]
  exact pairwise_occupied hn ho he ha

/-- The head zone is in the hold list and is not RESERVED. -/
theorem headOf_spec {s : State} {l : List Nat} {z : Nat} (h : s.headOf l = some z) : z ∈ l ∧ s.isReserved z = false := by
  unfold State.headOf at h
  have h1 := List.find?_some h
  have h2 := List.mem_of_find?_eq_some h
  exact ⟨List.mem_reverse.mp h2, by simpa using h1⟩

end Sys2Proof.Machine
end

