-- ==== Sys2Proof/Laws/Owners.lean ====
section
/-! SUPPORT. What each owning block does with a request it takes is a run of acts. -/

namespace Sys2Proof.Machine

theorem untrack_act (s : State) (t : Nat) : Act s (s.untrack t) :=
  .train s t _ (fun _ => ⟨rfl, rfl⟩) (.inr fun _ h => ⟨.inr rfl, h.2⟩)

theorem dropStep_act (s : State) (t : Nat) : Act s (s.dropStep t) :=
  .train s t _ (fun _ => ⟨rfl, rfl⟩) (.inr fun _ h => ⟨h.1, rfl⟩)

theorem move_act (s : State) (t : Nat) (f : Motion → Motion) (h : s.Running) : Act s (s.move t f) :=
  .train s t _ (fun _ => ⟨rfl, rfl⟩) (.inl h)

theorem disturb_acts (s : State) (z : Nat) : Acts s (s.disturb z) := by
  unfold State.disturb
  split
  · exact (Act.mark s z none (.inl rfl)).acts.trans (untrack_act ..).acts
  · exact (Act.mark s z none (.inl rfl)).acts

theorem foldl_acts {α : Type} (f : State → α → State) (h : ∀ s a, Acts s (f s a)) (l : List α) (s : State) :
    Acts s (l.foldl f s) := by
  induction l generalizing s with
  | nil => exact .refl s
  | cons a r ih => exact (h s a).trans (ih _)

theorem anomaly_acts (s : State) (k : AnomalyKind) (n : Nat) (b : Bool) (h : s.Lively) : Acts s (s.anomaly k n b) := by
  unfold State.anomaly
  have h1 : Acts s ((s.enterAnomaly k n b).raise .anomaly) := (Act.enterAnomaly s k n b h).acts.trans (raise_act ..).acts
  cases b with
  | false => exact h1
  | true => exact h1.trans (Act.arise _ .anomaly (.inr rfl)).acts

theorem enterClaim_circuit {s t : State} {u : Nat} {b : Bool} (h : s.enterClaim u b = some t) : t.circuit = s.circuit := by
  unfold State.enterClaim at h
  split at h
  · cases h
  · split at h <;> cases h
    rfl

/-! ## Requests -/

theorem readIn_acts (b : Bool) (a : Answer) (s : State) : Acts s (readIn b a s).1 := by
  unfold readIn; split <;> exact .refl s

theorem layoutAnswer_acts (kind key : Nat) (s : State) : Acts s (s.layoutAnswer kind key).1 := by
  unfold State.layoutAnswer
  split
  · exact .refl s
  · exact readIn_acts ..

theorem withAuthority_acts {p : Port} {own : Owner} (h : ∀ s, Acts s (own s).1) (s : State) :
    Acts s (withAuthority p own s).1 := by
  unfold withAuthority
  split
  · exact h s
  · exact .refl s

theorem ownEnterConfig_acts (s : State) : Acts s s.ownEnterConfig.1 := by
  unfold State.ownEnterConfig
  repeat' split
  all_goals first
    | exact .refl s
    | exact (Act.configEntered s).acts

theorem Layout.empty_canonical : Layout.empty.Canonical :=
  ⟨Table.wf_nil, Table.wf_nil, Table.wf_nil, Table.wf_nil⟩

theorem Layout.store_canonical {l : Layout} (h : l.Canonical) (r : Record) : (l.store r).Canonical := by
  obtain ⟨hz, hg, hn, hs⟩ := h
  cases r with
  | circuit r => exact ⟨hz, hg, hn, hs⟩
  | zone k r => exact ⟨Table.wf_put hz k r, hg, hn, hs⟩
  | gate k r => exact ⟨hz, Table.wf_put hg k r, hn, hs⟩
  | node k a => exact ⟨hz, hg, Table.wf_put hn k a, hs⟩
  | switch k r => exact ⟨hz, hg, hn, Table.wf_put hs k r⟩

theorem ownLoadLayoutRecord_acts (kind : Byte) (image : List Byte) (s : State) :
    Acts s (s.ownLoadLayoutRecord kind image).1 := by
  unfold State.ownLoadLayoutRecord
  split
  · rename_i hc
    split
    · exact (Act.load s _ hc (fun h => Layout.store_canonical h _)).acts
    · exact .refl s
  · exact .refl s

theorem ownClearLayout_acts (s : State) : Acts s s.ownClearLayout.1 := by
  unfold State.ownClearLayout
  split
  · rename_i hc; exact (Act.load s .empty hc (fun _ => Layout.empty_canonical)).acts
  · exact .refl s

theorem ownCommitLayout_acts (s : State) : Acts s s.ownCommitLayout.1 := by
  unfold State.ownCommitLayout
  split
  · rename_i hc
    split
    · exact .refl s
    · exact (Act.built s hc).acts
  · exact .refl s

theorem ownStoreLayout_acts (s : State) : Acts s s.ownStoreLayout.1 := by
  unfold State.ownStoreLayout
  split
  · exact .refl s
  · split
    · exact (Act.store s _ (fun h _ => h)).acts
    · exact .refl s

theorem ownEraseStore_acts (s : State) : Acts s s.ownEraseStore.1 := by
  unfold State.ownEraseStore
  repeat' split
  all_goals first
    | exact .refl s
    | exact (Act.store s _ (fun _ _ => Layout.empty_canonical)).acts

theorem ownRemapNode_acts (n a : Nat) (s : State) : Acts s (s.ownRemapNode n a).1 := by
  unfold State.ownRemapNode
  by_cases h : s.live = true
  · repeat' split
    all_goals first
      | exact .refl s
      | exact (Act.remapped s n a h).acts
  · simp only [Bool.not_eq_true] at h
    simp only [h, Bool.not_false, if_true]
    exact .refl s

/-- The lowest empty slot is a slot, and empty. -/
theorem emptySlot_spec {s : State} {t : Nat} (h : s.emptySlot = some t) :
    1 ≤ t ∧ t ≤ Config.trainSlots ∧ s.trains.find t = none := by
  unfold State.emptySlot at h
  have h1 := List.find?_some h
  have h2 := List.mem_of_find?_eq_some h
  simp only [List.mem_map, List.mem_range] at h2
  obtain ⟨i, hi, rfl⟩ := h2
  exact ⟨by omega, by omega, by simpa using h1⟩

theorem switchMoving_of_set {s : State} {z : Nat} (h : s.switchSet z = true) : s.switchMoving z = false := by
  unfold State.switchSet at h
  unfold State.switchMoving
  cases hs : s.layout.switchOf z with
  | none => rfl
  | some e =>
    rw [hs] at h
    have hk : s.layout.isKind z .transfer = true := by
      unfold Layout.switchOf at hs
      split at hs
      · assumption
      · cases hs
    rw [hk] at h
    simp only [if_true, Option.any_some] at h
    simp only [Option.any_some]
    unfold switchPosition at h
    cases hw : s.switches.find e.1 with
    | none => rfl
    | some w =>
      rw [hw] at h
      simp only [Option.bind_some] at h
      simp only [Option.any_some]
      cases hst : w.state <;> simp_all [SwitchState.position]

theorem switchMoving_of_storage {s : State} {z : Nat} (h : s.layout.isKind z .storage = true) : s.switchMoving z = false := by
  have : s.layout.switchOf z = none := by
    unfold Layout.switchOf
    unfold Layout.isKind at h ⊢
    simp only [decide_eq_true_eq] at h
    simp [h]
  unfold State.switchMoving
  rw [this]
  rfl

theorem isSome_of_zoneState {s : State} {z : Nat} {x : ZoneState} (h : s.zoneState z = some x) :
    (s.zones.find z).isSome = true := by
  unfold State.zoneState at h
  cases hf : s.zones.find z with
  | none => rw [hf] at h; cases h
  | some _ => rfl

theorem isSome_of_holder {s : State} {z t : Nat} (h : s.holder z = some t) : (s.zones.find z).isSome = true := by
  unfold State.holder at h
  cases hf : s.zones.find z with
  | none => rw [hf] at h; cases h
  | some _ => rfl

theorem placeIn_acts {s : State} {tag : Byte} {z : Nat} (hl : s.live = true) (hh : s.holder z = none)
    (hz : (s.zones.find z).isSome = true) (hm : s.switchMoving z = false) : Acts s (s.placeIn tag z).1 := by
  unfold State.placeIn
  split
  · exact .refl s
  · rename_i t ht
    split
    · exact .refl s
    · obtain ⟨h1, h2, h3⟩ := emptySlot_spec ht
      exact (Act.placed s t tag z hl h3 h1 h2 hh hz hm).acts

theorem ownPlaceTrain_acts (tag : Byte) (z : Nat) (s : State) : Acts s (s.ownPlaceTrain tag z).1 := by
  have maint : s.Running → Acts s (s.placeInMaintenance tag z).1 := by
    intro hr
    unfold State.placeInMaintenance
    by_cases h1 : s.authority ≠ .maintenance
    · simp only [h1, ne_eq, not_false_eq_true, if_true]; exact .refl s
    simp only [h1, if_false]
    split
    · exact .refl s
    split
    · exact .refl s
    rename_i hk
    split
    · exact .refl s
    rename_i hh
    split
    · exact .refl s
    rename_i hs
    split
    · exact .refl s
    simp only [ne_eq, Decidable.not_not] at hs
    refine placeIn_acts hr.live (by simpa using hh) (isSome_of_zoneState hs) (switchMoving_of_storage (by simpa using hk))
  unfold State.ownPlaceTrain
  split
  · rename_i hc
    unfold State.placeInCensus
    split
    · exact .refl s
    split
    · exact .refl s
    split
    · exact .refl s
    rename_i hh
    split
    · exact .refl s
    rename_i hs
    split
    · exact .refl s
    split
    · exact .refl s
    rename_i hw
    refine placeIn_acts (by unfold State.live; rw [hc]; rfl) (by simpa using hh) ?_ (switchMoving_of_set (by simpa using hw))
    by_cases h1 : s.zoneState z = some .free
    · exact isSome_of_zoneState h1
    · by_cases h2 : s.zoneState z = some .suspect
      · exact isSome_of_zoneState h2
      · exact absurd ⟨h1, h2⟩ hs
  · rename_i hc; exact maint (.inl hc)
  · rename_i hc; exact maint (.inr hc)
  · exact .refl s
  · exact .refl s

theorem ownWithdrawTrain_acts (t : Nat) (s : State) : Acts s (s.ownWithdrawTrain t).1 := by
  have maint : Acts s (s.withdrawInMaintenance t).1 := by
    unfold State.withdrawInMaintenance
    repeat' split
    all_goals first
      | exact .refl s
      | exact (Act.withdrawn s t _ (.inr rfl)).acts.trans (Act.evaluate _).acts
  unfold State.ownWithdrawTrain
  split
  · unfold State.withdrawInCensus
    repeat' split
    all_goals first
      | exact .refl s
      | exact (Act.withdrawn s t _ (.inl rfl)).acts
  · exact maint
  · exact maint
  · exact .refl s
  · exact .refl s

theorem relocateTo_acts {s : State} {t z : Nat} {r : Train} (hr : s.trains.find t = some r) :
    Acts s (s.relocateTo t z).1 := by
  unfold State.relocateTo
  split
  · exact .refl s
  split
  · exact .refl s
  rename_i hh
  split
  · exact .refl s
  rename_i hs
  split
  · exact .refl s
  split
  · exact .refl s
  rename_i hw
  refine (Act.relocated s t z r hr ?_ ?_ (switchMoving_of_set (by simpa using hw))).acts
  · cases hx : s.holder z with
    | none => exact .inl rfl
    | some u =>
      rw [hx] at hh
      simp only [Option.any_some, decide_eq_true_eq, ne_eq, Decidable.not_not] at hh
      exact .inr (by rw [hh])
  · cases hx : s.holder z with
    | some u => exact isSome_of_holder hx
    | none =>
      by_cases h1 : s.zoneState z = some .free
      · exact isSome_of_zoneState h1
      · by_cases h2 : s.zoneState z = some .suspect
        · exact isSome_of_zoneState h2
        · exact absurd ⟨hx, h1, h2⟩ hs

theorem ownRelocateTrain_acts (t z : Nat) (s : State) : Acts s (s.ownRelocateTrain t z).1 := by
  have maint : Acts s (s.relocateInMaintenance t z).1 := by
    unfold State.relocateInMaintenance
    split
    · exact .refl s
    split
    · exact .refl s
    split
    · exact .refl s
    split
    · exact .refl s
    exact relocateTo_acts (by assumption)
  unfold State.ownRelocateTrain
  split
  · unfold State.relocateInCensus
    split
    · exact .refl s
    split
    · exact .refl s
    split
    · exact .refl s
    exact relocateTo_acts (by assumption)
  · exact maint
  · exact maint
  · exact .refl s
  · exact .refl s

theorem ownBeginOperation_acts (s : State) : Acts s s.ownBeginOperation.1 := by
  unfold State.ownBeginOperation
  split
  · exact .refl s
  · rename_i h; exact (Act.begun s h).acts

theorem claimAnswer_state (s : State) (t : Nat) : (s.claimAnswer t).1 = s := by
  unfold State.claimAnswer; split <;> rfl

theorem ownDispatch_acts (t : Nat) (s : State) : Acts s (s.ownDispatch t).1 := by
  unfold State.ownDispatch
  split
  · exact .refl s
  rename_i hc
  simp only [ne_eq, Decidable.not_not] at hc
  split
  · exact .refl s
  split
  · exact .refl s
  split
  · exact .refl s
  split
  · exact .refl s
  split
  · exact .refl s
  split
  · rename_i s1 hs
    rw [claimAnswer_state]
    exact (Act.enterClaim s s1 t false (.inl hc) hs).acts.trans (Act.evaluate s1).acts
  · exact .refl s

theorem ownCancelDispatch_acts (t : Nat) (s : State) : Acts s (s.ownCancelDispatch t).1 := by
  unfold State.ownCancelDispatch
  repeat' split
  all_goals first
    | exact .refl s
    | exact (Act.dropClaim s t).acts.trans (dropStep_act ..).acts
    | exact (Act.dropClaim s t).acts

theorem giveStep_act (s : State) (t : Nat) (h : s.Running) : Act s (s.giveStep t) :=
  .train s t _ (fun _ => ⟨rfl, rfl⟩) (.inl h)

theorem ownStepTrain_acts (t : Nat) (s : State) : Acts s (s.ownStepTrain t).1 := by
  unfold State.ownStepTrain
  split
  · exact .refl s
  rename_i hc
  simp only [ne_eq, Decidable.not_not] at hc
  have hg := (giveStep_act s t (.inr hc)).acts
  split
  · exact .refl s
  split
  · exact .refl s
  split
  · exact .refl s
  split
  · exact hg
  split
  · split
    · rename_i s1 hs
      rw [claimAnswer_state]
      exact hg.trans ((Act.enterClaim (s.giveStep t) s1 t true (.inr hc) hs).acts.trans (Act.evaluate s1).acts)
    · exact .refl s
  · exact .refl s

theorem relaunchClaim_acts (s : State) (t : Nat) (h : s.Running) : Acts s (s.relaunchClaim t) :=
  (Act.train s t (fun r => { r with relaunches := 0, motion := .standing }) (fun _ => ⟨rfl, rfl⟩) (.inl h)).acts.trans
    (Act.sweep _).acts

theorem ownRelaunch_acts (t : Nat) (s : State) : Acts s (s.ownRelaunch t).1 := by
  unfold State.ownRelaunch
  split
  · exact .refl s
  rename_i hc
  have hr : s.Running := by
    unfold State.Running
    by_cases h : s.circuit = .operating
    · exact .inl h
    · right
      by_cases h2 : s.circuit = .halted
      · exact h2
      · exact absurd ⟨h, h2⟩ hc
  split
  · exact .refl s
  split
  · exact .refl s
  split
  · exact .refl s
  have h1 := relaunchClaim_acts s t hr
  split
  · rename_i s1 hs
    rw [claimAnswer_state]
    exact h1.trans ((Act.enterClaim (s.relaunchClaim t) s1 t false hr hs).acts.trans (Act.evaluate s1).acts)
  · rw [claimAnswer_state]
    exact h1.trans (Act.evaluate _).acts

theorem setUnheld_acts (s : State) (z : Nat) (st : ZoneState)
    (h : s.holder z = none ∨ s.zoneState z = some .outOfService) (hs : st = .free ∨ st = .outOfService) :
    Acts s (s.setUnheld z st) := by
  unfold State.setUnheld
  rw [State.updZone_eq_updZones]
  refine (Act.unheld s [z] st ?_ hs).acts.trans (Act.sweep _).acts
  intro z' hz
  simp only [List.mem_singleton] at hz
  rw [hz]; exact h

theorem ownSetService_acts (z setting : Nat) (s : State) : Acts s (s.ownSetService z setting).1 := by
  unfold State.ownSetService
  split
  · exact .refl s
  split
  · exact .refl s
  split
  · unfold State.serviceOff
    split
    · exact .refl s
    rename_i hh
    split
    · exact .refl s
    exact setUnheld_acts s z _ (.inl (by simpa using hh)) (.inr rfl)
  · unfold State.serviceOn
    split
    · exact .refl s
    rename_i hs
    split
    · exact .refl s
    exact (setUnheld_acts s z _ (.inr (by simpa using hs)) (.inl rfl)).trans (Act.evaluate _).acts
  · exact .refl s

theorem ownClearZone_acts (z : Nat) (s : State) : Acts s (s.ownClearZone z).1 := by
  unfold State.ownClearZone
  split
  · exact .refl s
  split
  · exact .refl s
  split
  · exact .refl s
  split
  · exact .refl s
  rename_i hh
  split
  · exact .refl s
  exact (setUnheld_acts s z _ (.inl (by simpa using hh)) (.inl rfl)).trans (Act.evaluate _).acts

theorem ownClearUnheldZones_acts (s : State) : Acts s s.ownClearUnheldZones.1 := by
  unfold State.ownClearUnheldZones
  split
  · exact .refl s
  have h : Acts s (s.updZones s.clearable (Zone.turn .free)).sweep := by
    refine (Act.unheld s s.clearable .free ?_ (.inl rfl)).acts.trans (Act.sweep _).acts
    intro z hz
    unfold State.clearable at hz
    simp only [List.mem_filter, Bool.and_eq_true, Option.isNone_iff_eq_none] at hz
    exact .inl hz.2.1.2
  dsimp only
  split
  · exact h
  · exact h.trans (Act.evaluate _).acts

theorem ownSetSwitch_acts (k position : Nat) (s : State) : Acts s (s.ownSetSwitch k position).1 := by
  unfold State.ownSetSwitch
  split
  · exact .refl s
  split
  · exact .refl s
  split
  · rename_i q r w _ hr _
    split
    · exact .refl s
    · split
      · exact .refl s
      rename_i hh
      split
      · exact .refl s
      split
      · exact .refl s
      exact (Act.beginMove s k r q hr (by simpa using hh)).acts
  · exact .refl s

theorem ownHalt_acts (s : State) : Acts s s.ownHalt.1 := by
  unfold State.ownHalt
  split
  · exact (Act.arise s .commanded (.inl rfl)).acts
  · exact .refl s

theorem ownResumeGroup_acts (g : Nat) (s : State) : Acts s (s.ownResumeGroup g).1 := by
  unfold State.ownResumeGroup
  split
  · exact .refl s
  split
  · exact .refl s
  split
  · exact .refl s
  rename_i h1
  split
  · exact .refl s
  rename_i h2
  split
  · exact .refl s
  split
  · exact .refl s
  split
  · exact .refl s
  · exact (Act.clearCauses s (by assumption)).acts
  · exact (Act.resumed s g (by assumption) (by simpa using h1) (by simpa using h2)).acts
  · exact .refl s
  · exact .refl s

theorem acknowledged_acts (s : State) (k : AnomalyKind) (n : Nat) : Acts s (s.acknowledged k n) :=
  (Act.acknowledge s (fun a => a.about k n) s.tableFull (fun h => h)).acts.trans (Act.sweep _).acts

theorem ownAcknowledgeAnomaly_acts (kind n : Nat) (s : State) : Acts s (s.ownAcknowledgeAnomaly kind n).1 := by
  unfold State.ownAcknowledgeAnomaly
  repeat' split
  all_goals first
    | exact .refl s
    | exact acknowledged_acts ..

theorem ownAcknowledgeAll_acts (s : State) : Acts s s.ownAcknowledgeAll.1 := by
  unfold State.ownAcknowledgeAll
  split
  · exact .refl s
  · exact (Act.acknowledge s (fun _ => true) false (fun h => by cases h)).acts.trans (Act.sweep _).acts

theorem ownTakeAuthority_acts (p : Port) (s : State) : Acts s (s.ownTakeAuthority p).1 := by
  unfold State.ownTakeAuthority
  split
  all_goals first
    | exact .refl s
    | exact (Act.authority s _ (by simp_all) (by simp)).acts

theorem ownFixSupervisor_acts (p : Port) (s : State) : Acts s (s.ownFixSupervisor p).1 := by
  unfold State.ownFixSupervisor
  split
  all_goals first
    | exact .refl s
    | exact (Act.authority s _ (by simp_all) (by simp)).acts

theorem ownHandToConsole_acts (p : Port) (s : State) : Acts s (s.ownHandToConsole p).1 := by
  unfold State.ownHandToConsole
  split
  all_goals first
    | exact .refl s
    | exact (Act.authority s _ (by simp_all) (by simp)).acts

theorem ownAssignIndicator_acts (line z c n : Nat) (s : State) : Acts s (s.ownAssignIndicator line z c n).1 := by
  unfold State.ownAssignIndicator
  repeat' split
  all_goals first
    | exact .refl s
    | exact (Act.indicators s _ (fun h => Table.wf_put h _ _)).acts

theorem ownReleaseIndicator_acts (line : Nat) (s : State) : Acts s (s.ownReleaseIndicator line).1 := by
  unfold State.ownReleaseIndicator
  split
  · exact .refl s
  · exact (Act.indicators s _ (fun h => Table.wf_del h _)).acts

theorem ownSetNoticeMask_acts (p : Port) (high low : Byte) (s : State) : Acts s (s.ownSetNoticeMask p high low).1 := by
  unfold State.ownSetNoticeMask
  split
  · exact .refl s
  · cases p
    · exact (Act.notices s s.supervisor.flags low s.console.flags s.console.mask).acts
    · exact (Act.notices s s.supervisor.flags s.supervisor.mask s.console.flags low).acts

end Sys2Proof.Machine
end

