-- ==== Sys2Proof/Laws/Events.lean ====
section
/-! SUPPORT. What the part does with gate events, position reports, answers of nodes and expiries is a run of acts. -/

namespace Sys2Proof.Machine

theorem Table.ne_nil_of_find {α : Type} {t : Table α} {k : Nat} {v : α} (h : Table.find t k = some v) : t ≠ [] := by
  intro ht; rw [ht] at h; cases h

theorem Table.upd_ne_nil {α : Type} {t : Table α} (h : t ≠ []) (k : Nat) (f : α → α) : Table.upd t k f ≠ [] := by
  cases t with
  | nil => exact absurd rfl h
  | cons e r => simp [Table.upd]

/-! ## Passage tracking -/

/-- An event's work on zones, motion and timers: a run of acts that leaves the circuit state alone. -/
structure Handover.Good (h : Handover) (s : State) : Prop where
  acts : Acts s h.state
  circuit : h.state.circuit = s.circuit

theorem crestRelease_acts {s t : State} {u l : Nat} (h : s.crestRelease u l = some t) : Acts s t := by
  unfold State.crestRelease at h
  cases hr : s.release u [l] with
  | none => rw [hr] at h; cases h
  | some s1 =>
    rw [hr] at h; cases h
    exact (Act.release s s1 u [l] hr).acts.trans 
      (Act.train s1 u (fun r => { r with relaunches := 0 }) (fun _ => ⟨rfl, rfl⟩) (.inr fun _ h => h)).acts

theorem stopTimer_act (s : State) (z : Nat) : Act s (s.stopTimer z) := .zoneTimer s z (fun _ => .idle)
theorem startTimer_act (s : State) (z : Nat) (u : TimerUse) : Act s (s.startTimer z u) :=
  .zoneTimer s z (fun _ => .running u 0 .notDue)

theorem stopRun_acts (s : State) (z : Nat) : Acts s (s.stopRun z) := by
  unfold State.stopRun
  split
  · exact (stopTimer_act ..).acts
  · exact .refl s

theorem startRun_acts (s : State) (z : Nat) : Acts s (s.startRun z) := by
  unfold State.startRun
  split
  · exact (startTimer_act ..).acts
  · exact .refl s

@[simp] theorem stopRun_circuit (s : State) (z : Nat) : (s.stopRun z).circuit = s.circuit := by
  unfold State.stopRun; split <;> rfl
@[simp] theorem startRun_circuit (s : State) (z : Nat) : (s.startRun z).circuit = s.circuit := by
  unfold State.startRun; split <;> rfl

theorem actAdvance_good {s : State} {g a b t : Nat} {h : Handover} (hr : s.Running)
    (ho : ∀ r, s.trains.find t = some r → r.hold.Nodup → s.stale r.hold = [] →
      (s.updZone b (Zone.turn .occupied)).stale r.hold = [])
    (ha : s.actAdvance g a b t = some h) : h.Good s := by
  unfold State.actAdvance at ha
  cases hs : s.occupy b t with
  | none => rw [hs] at ha; cases ha
  | some s1 =>
    rw [hs] at ha
    dsimp only at ha
    simp only [Option.some.injEq] at ha
    subst ha
    have hr1 : s1.Running := (occupy_onTrack hs).running hr
    have hs1 : s1 = s.updZone b (Zone.turn .occupied) := by
      unfold State.occupy at hs
      split at hs <;> cases hs
      rfl
    have k1 : Acts s s1 := (Act.occupy s s1 b t hs (fun r h1 h2 h3 => hs1 ▸ ho r h1 h2 h3)).acts
    generalize hm : s1.move t Motion.advance = s2
    have k2 : Acts s s2 := k1.trans (hm ▸ (move_act s1 t _ hr1)).acts
    have c2 : s2.circuit = s.circuit := by rw [← hm, ← (occupy_onTrack hs).circuit]; rfl
    generalize hc : (s2.crestOf g t).bind (fun l => s2.crestRelease t l) = crest
    have k3 : Acts s (crest.getD s2) ∧ (crest.getD s2).circuit = s.circuit := by
      cases crest with
      | none => exact ⟨k2, c2⟩
      | some s3 =>
        cases hg : s2.crestOf g t with
        | none => rw [hg] at hc; cases hc
        | some l =>
          rw [hg] at hc
          exact ⟨k2.trans (crestRelease_acts hc), (crestRelease_onTrack hc).circuit.trans c2⟩
    generalize crest.getD s2 = s3 at k3
    constructor
    · refine Acts.trans ?_ ((stopRun_acts ..).trans (startRun_acts ..))
      split
      · exact k3.1.trans ((Act.dropClaim s3 t).acts.trans (dropStep_act ..).acts)
      · exact k3.1
    · rw [startRun_circuit, stopRun_circuit]
      split
      · exact k3.2
      · exact k3.2

theorem standIfDue_acts (s : State) (t : Nat) (hr : s.Running) : Acts s (s.standIfDue t) := by
  unfold State.standIfDue
  split
  · exact (move_act s t _ hr).acts
  · exact .refl s

theorem standIfDue_circuit (s : State) (t : Nat) : (s.standIfDue t).circuit = s.circuit := by
  unfold State.standIfDue; split <;> rfl

theorem running_of_circuit {s t : State} (h : t.circuit = s.circuit) (k : s.Running) : t.Running := by
  unfold State.Running; rw [h]; exact k

theorem actLeave_good {s : State} {a t : Nat} {h : Handover} (hr : s.Running) (ha : s.actLeave a t = some h) : h.Good s := by
  unfold State.actLeave at ha
  dsimp only at ha
  split at ha
  · cases ha
  rename_i s1 hs
  simp only [Option.some.injEq] at ha
  subst ha
  have k : Acts s s1 ∧ s1.circuit = s.circuit := by
    split at hs
    · cases ht : s.trail a t with
      | none => rw [ht] at hs; cases hs
      | some s0 =>
        rw [ht] at hs
        cases hs
        have hr0 : s0.Running := (trail_onTrack ht).running hr
        exact ⟨(Act.trail s s0 a t ht).acts.trans ((move_act s0 t _ hr0).acts.trans (startTimer_act ..).acts),
          (trail_onTrack ht).circuit⟩
    · split at hs
      · exact ⟨crestRelease_acts hs, (crestRelease_onTrack hs).circuit⟩
      · exact ⟨(Act.release s s1 t [a] hs).acts, (release_onTrack hs).circuit⟩
  exact ⟨k.1.trans (standIfDue_acts s1 t (running_of_circuit k.2 hr)), (standIfDue_circuit ..).trans k.2⟩

theorem actReverse_good {s : State} {a t : Nat} {h : Handover} (hr : s.Running) (hz : s.zoneState a = some .trailing)
    (ha : s.actReverse a t = some h) : h.Good s := by
  unfold State.actReverse at ha
  cases hs : s.occupy a t with
  | none => rw [hs] at ha; cases ha
  | some s1 =>
    rw [hs] at ha
    simp only [Option.some.injEq] at ha
    subst ha
    have hs1 : s1 = s.updZone a (Zone.turn .occupied) := by
      unfold State.occupy at hs
      split at hs <;> cases hs
      rfl
    have hres : ∀ z, s1.isReserved z = s.isReserved z := by
      intro z
      rw [hs1, isReserved_occupied]
      by_cases hza : z = a
      · subst hza; simp [State.isReserved, hz]
      · simp [hza]
    have k1 : Acts s s1 := (Act.occupy s s1 a t hs (fun r _ _ h3 => (stale_congr hres r.hold).trans h3)).acts
    exact ⟨k1.trans ((move_act s1 t _ ((occupy_onTrack hs).running hr)).acts.trans (stopTimer_act ..).acts),
      (occupy_onTrack hs).circuit⟩

theorem actRollback_good {s : State} {a b t : Nat} {h : Handover} (hr : s.Running)
    (ha : s.actRollback a b t = some h) : h.Good s := by
  unfold State.actRollback at ha
  cases hf : s.trains.find t with
  | none => rw [hf] at ha; cases ha
  | some r =>
    cases hl : s.layout.launchOf a with
    | none => rw [hf, hl] at ha; cases ha
    | some q =>
      obtain ⟨x, m, y⟩ := q
      rw [hf, hl] at ha
      dsimp only at ha
      split at ha
      · cases ha
      rename_i s1 hs
      simp only [Option.some.injEq] at ha
      subst ha
      have hr1 : s1.Running := (release_onTrack hs).running hr
      refine ⟨?_, ?_⟩
      · refine (Act.release s s1 t _ hs).acts.trans (Acts.trans ?_ (stopRun_acts ..))
        refine (Act.train s1 t (fun r => r.rollback m) ?_ (.inl hr1)).acts.trans
          ((Act.dropClaim _ t).acts.trans (dropStep_act ..).acts)
        intro r
        unfold Train.rollback
        split <;> exact ⟨rfl, rfl⟩
      · rw [stopRun_circuit]; exact (release_onTrack hs).circuit

theorem enterUnexpected_acts (s : State) (b t : Nat) (hr : s.Running) : Acts s (s.enterUnexpected b t) := by
  unfold State.enterUnexpected
  have h1 : Acts s (s.markSuspect b (some t)) := (Act.mark s b (some t) (.inr hr)).acts
  dsimp only
  split
  · exact h1.trans ((untrack_act ..).acts.trans (untrack_act ..).acts)
  · exact h1.trans (untrack_act ..).acts

theorem actUnexpected_good (s : State) (b t : Nat) (hr : s.Running) : (s.actUnexpected b t).Good s :=
  ⟨enterUnexpected_acts s b t hr, (enterUnexpected_onTrack s b t).circuit⟩

theorem actWrongFork_good (s : State) (b t : Nat) (hr : s.Running) : (s.actWrongFork b t).Good s := by
  unfold State.actWrongFork
  cases hs : s.release t (s.reservedOf t) with
  | none => exact ⟨enterUnexpected_acts s b t hr, (enterUnexpected_onTrack s b t).circuit⟩
  | some s1 =>
    exact ⟨(Act.release s s1 t _ hs).acts.trans (enterUnexpected_acts s1 b t ((release_onTrack hs).running hr)),
      (enterUnexpected_onTrack s1 b t).circuit.trans (release_onTrack hs).circuit⟩

theorem actPhantom_good (s : State) (k : EventKind) (a b : Nat) : (s.actPhantom k a b).Good s :=
  ⟨disturb_acts .., (disturb_onTrack ..).circuit⟩

theorem faultMarks_acts (s : State) (a b t : Nat) : Acts s (s.faultMarks a b t) := by
  unfold State.faultMarks
  exact (foldl_acts _ (fun s z => (Act.mark s z none (.inl rfl)).acts) _ _).trans
    ((foldl_acts _ (fun s z => disturb_acts s z) _ _).trans (untrack_act ..).acts)

theorem actFault_good (s : State) (a b t : Nat) : (s.actFault a b t).Good s :=
  ⟨faultMarks_acts .., (faultMarks_onTrack ..).circuit⟩

theorem actUntracked_good (s : State) (a b : Nat) : (s.actUntracked a b).Good s :=
  ⟨foldl_acts _ (fun s z => disturb_acts s z) _ _, (foldl_onTrack _ (fun s z => disturb_onTrack s z) _ _).circuit⟩

theorem actCensus_good (s : State) (g a b : Nat) : (s.actCensus g a b).Good s :=
  ⟨(disturb_acts ..).trans (disturb_acts ..), ((disturb_onTrack ..).trans (disturb_onTrack ..)).circuit⟩

/-- What being an expected head or an expected return says of the records (R83). -/
theorem classify_spec {s : State} {k : EventKind} {a b : Nat} :
    (∀ t, s.classify k a b = .advance t → ∃ r, s.trains.find t = some r ∧ s.headOf r.hold = some a ∧
      entryAfter r.hold a = some b) ∧
    (∀ t, s.classify k a b = .reverse t → s.zoneState a = some .trailing) := by
  unfold State.classify
  cases hs : s.subject k a b with
  | none => constructor <;> intro t h <;> cases h
  | some u =>
    dsimp only
    cases hf : s.trains.find u with
    | none => constructor <;> intro t h <;> cases h
    | some r =>
      dsimp only
      by_cases hm : r.motion = .untracked
      · simp only [hm, if_true]
        constructor <;> intro t h <;> cases h
      · simp only [hm, if_false]
        unfold State.classifyFor
        cases k <;> dsimp only
        · constructor <;> intro t h
          · split at h
            · rename_i h1
              split at h
              · split at h
                · rename_i h2
                  split at h
                  · cases h; exact ⟨r, hf, h1, h2⟩
                  · cases h
                · cases h
              · cases h
            · cases h
          · split at h
            · split at h
              · split at h
                · split at h <;> cases h
                · cases h
              · cases h
            · cases h
        · constructor <;> intro t h <;> split at h <;> cases h
        · constructor <;> intro t h
          · split at h <;> cases h
          · split at h
            · rename_i h1; exact h1.2.2.1
            · cases h
        · constructor <;> intro t h <;> split at h <;> cases h

theorem actEvent_good (s : State) (k : EventKind) (g a b : Nat) (hr : s.Running) : (s.actEvent k g a b).Good s := by
  unfold State.actEvent
  cases hh : s.actAs (s.classify k a b) k g a b with
  | some h =>
    dsimp only
    unfold State.actAs at hh
    obtain ⟨hadv, hrev⟩ := classify_spec (s := s) (k := k) (a := a) (b := b)
    cases hc : s.classify k a b with
    | phantom => rw [hc] at hh; cases hh; exact actPhantom_good ..
    | untrackedSubject t => rw [hc] at hh; cases hh; exact actUntracked_good ..
    | advance t =>
      rw [hc] at hh
      refine actAdvance_good hr ?_ hh
      intro r h1 h2 h3
      obtain ⟨r', h4, h5, h6⟩ := hadv t hc
      rw [h4] at h1
      cases h1
      exact stale_occupy_next h2 h3 h6 (headOf_spec h5).2
    | leave t => rw [hc] at hh; exact actLeave_good hr hh
    | reverse t => rw [hc] at hh; exact actReverse_good hr (hrev t hc) hh
    | rollback t => rw [hc] at hh; exact actRollback_good hr hh
    | wrongFork t => rw [hc] at hh; cases hh; exact actWrongFork_good s b t hr
    | unexpected t => rw [hc] at hh; cases hh; exact actUnexpected_good s b t hr
    | fault t => rw [hc] at hh; cases hh; exact actFault_good ..
  | none =>
    dsimp only
    split
    · exact actFault_good ..
    · exact actPhantom_good ..

theorem evaluate_circuit (s : State) : s.evaluate.circuit = s.circuit := by
  refine evaluate_keeps (P := fun t => t.circuit = s.circuit) ?_ rfl
  intro t c h
  rcases tryGrant_cases t c with h1 | ⟨_, _, _, s1, _, _, _, _, hr, h1 | h1⟩ <;> rw [h1]
  · exact h
  · exact (reserve_onTrack hr).circuit.trans h
  · exact (reserve_onTrack hr).circuit.trans h

theorem report_acts (h : Handover) (s : State) (hr : h.auto.isSome = true → s.Running) :
    Acts s (h.report s).1 ∧ (h.report s).1.circuit = s.circuit := by
  unfold Handover.report
  split
  · rename_i t ht
    split
    · rename_i s1 hs
      exact ⟨(Act.enterClaim s s1 t false (hr (by rw [ht]; rfl)) hs).acts.trans (Act.evaluate s1).acts,
        (evaluate_circuit s1).trans (enterClaim_circuit hs)⟩
    · dsimp only
      split
      · exact ⟨(Act.evaluate s).acts, evaluate_circuit s⟩
      · exact ⟨.refl s, rfl⟩
  · dsimp only
    split
    · exact ⟨(Act.evaluate s).acts, evaluate_circuit s⟩
    · exact ⟨.refl s, rfl⟩

theorem arise_live (s : State) (c : StopCause) : (s.arise c).live = s.live := by
  unfold State.live State.arise
  cases h : s.circuit <;> (try cases c) <;> simp [h, CircuitState.live, State.raise, State.holdAll, State.updZones]

theorem enterAnomaly_circuit (s : State) (k : AnomalyKind) (n : Nat) (b : Bool) :
    (s.enterAnomaly k n b).circuit = s.circuit := by
  unfold State.enterAnomaly
  split
  · rfl
  · split <;> rfl

theorem anomaly_live (s : State) (k : AnomalyKind) (n : Nat) (b : Bool) : (s.anomaly k n b).live = s.live := by
  have h : ((s.enterAnomaly k n b).raise .anomaly).live = s.live := by
    unfold State.live
    exact congrArg _ (enterAnomaly_circuit s k n b)
  unfold State.anomaly
  cases b
  · exact h
  · exact (arise_live _ _).trans h

theorem anomalyAll_acts (l : List (AnomalyKind × Nat × Bool)) (s : State) (hl : s.live = true) : Acts s (s.anomalyAll l) := by
  unfold State.anomalyAll
  induction l generalizing s with
  | nil => exact .refl s
  | cons q r ih =>
    exact (anomaly_acts s q.1 q.2.1 q.2.2 (.inl hl)).trans (ih _ ((anomaly_live ..).trans hl))

theorem live_of_circuit {s t : State} (h : t.circuit = s.circuit) (k : s.live = true) : t.live = true := by
  unfold State.live; rw [h]; exact k

theorem finish_acts {h : Handover} {s : State} (g : h.Good s) (a b : Nat) (hl : s.live = true)
    (hr : h.auto.isSome = true → s.Running) : Acts s (h.finish a b) := by
  obtain ⟨st, ev, auto, rf, an, arr⟩ := h
  unfold Handover.finish
  have k1 : Acts s st.sweep := g.acts.trans (Act.sweep _).acts
  obtain ⟨k2, c2⟩ := report_acts ⟨st, ev, auto, rf, an, arr⟩ st.sweep (fun x => running_of_circuit g.circuit (hr x))
  dsimp only
  generalize Handover.report ⟨st, ev, auto, rf, an, arr⟩ st.sweep = q at k2 c2
  obtain ⟨s1, refused⟩ := q
  dsimp only at k2 c2 ⊢
  have hl1 : s1.live = true := live_of_circuit (c2.trans g.circuit) hl
  have k12 := k1.trans k2
  have last : ∀ s2, Acts s s2 → s2.live = true →
      Acts s (if arr = true then State.raise .trainArrived (s2.anomalyAll an) else s2.anomalyAll an) := by
    intro s2 k hl2
    have k5 := k.trans (anomalyAll_acts an s2 hl2)
    split
    · exact k5.trans (raise_act ..).acts
    · exact k5
  cases auto with
  | none => exact last s1 k12 hl1
  | some t =>
    dsimp only
    refine last _ ?_ ?_
    · split
      · have hl2 : ((s1.faultMarks a b t).sweep).live = true := live_of_circuit (faultMarks_onTrack ..).circuit hl1
        exact k12.trans ((faultMarks_acts ..).trans ((Act.sweep _).acts.trans (anomaly_acts _ _ _ _ (.inl hl2))))
      · exact k12
    · split
      · have hl2 : ((s1.faultMarks a b t).sweep).live = true := live_of_circuit (faultMarks_onTrack ..).circuit hl1
        exact (anomaly_live ..).trans hl2
      · exact hl1

theorem takeEvent_acts (s : State) (g : Nat) (r : GateRec) (k : EventKind) : Acts s (s.takeEvent g r k) := by
  unfold State.takeEvent
  split
  · rename_i hc
    exact finish_acts (actCensus_good ..) _ _ (by unfold State.live; rw [hc]; rfl) (fun h => by cases h)
  · rename_i hc
    have hr : s.Running := .inl hc
    exact finish_acts (actEvent_good s k g _ _ hr) _ _ hr.live (fun _ => hr)
  · rename_i hc
    have hr : s.Running := .inr hc
    exact finish_acts (actEvent_good s k g _ _ hr) _ _ hr.live (fun _ => hr)
  · exact .refl s
  · exact .refl s

/-! ## Switches -/

theorem switchBecomes_acts (s : State) (k : Nat) (q : Position) : Acts s (s.switchBecomes k q) := by
  unfold State.switchBecomes
  refine (Act.switchTo s k _ ?_).acts.trans ((Act.sweep _).acts.trans (Act.evaluate _).acts)
  intro x p h
  cases q <;> cases h

theorem drift_acts (s : State) (k z : Nat) (h : s.switches ≠ []) : Acts s (s.drift k z) := by
  unfold State.drift
  have k1 : Acts s (s.updSwitch k (fun w => { w with state := .faulted })) :=
    (Act.switchTo s k _ (fun x p h => by cases h)).acts
  have hne : (s.updSwitch k (fun w => { w with state := .faulted })).switches ≠ [] := by
    rw [State.updSwitch_switches]; exact Table.upd_ne_nil h _ _
  generalize s.updSwitch k (fun w => { w with state := .faulted }) = s1 at k1 hne
  dsimp only
  split
  · refine k1.trans ((disturb_acts ..).trans ((Act.sweep _).acts.trans (anomaly_acts _ _ _ _ ?_)))
    obtain ⟨zs, ts, hd⟩ := disturb_onTrack s1 z
    exact .inr (.inr (.inl (by rw [hd]; exact hne)))
  · exact k1.trans (anomaly_acts _ _ _ _ (.inr (.inr (.inl hne))))

theorem takeReport_acts (s : State) (k : Nat) (r : SwitchRec) (q : Report) : Acts s (s.takeReport k r q) := by
  unfold State.takeReport
  split
  · exact .refl s
  rename_i w hw
  have hne : s.switches ≠ [] := Table.ne_nil_of_find hw
  split
  · split
    · exact switchBecomes_acts ..
    · exact .refl s
  · split
    · exact (switchBecomes_acts ..).trans (raise_act ..).acts
    · exact .refl s
  · split
    · exact .refl s
    · exact drift_acts s k r.zone hne
  · split
    · exact .refl s
    · exact drift_acts s k r.zone hne
  · exact .refl s

/-! ## The trackside line -/

theorem OnTrack.nodes {s t : State} (h : OnTrack s t) : t.nodes = s.nodes := by obtain ⟨_, _, rfl⟩ := h; rfl

theorem loss_acts (s : State) (n : Nat) (k : AnomalyKind) (h : s.nodes ≠ []) : Acts s (s.loss n k) := by
  unfold State.loss
  refine (Act.lineSuspect s n).acts.trans ((Act.sweep _).acts.trans (anomaly_acts _ _ _ _ ?_))
  exact .inr (.inr (.inr (.inl (by rw [State.sweep_nodes, (lineSuspect_onTrack s n).nodes]; exact h))))

theorem becomeLinked_acts (s : State) (n : Nat) : Acts s (s.becomeLinked n) :=
  (Act.node s n _).acts.trans ((Act.sweep _).acts.trans (raise_act ..).acts)

theorem countGood_acts (s : State) (n : Nat) : Acts s (s.countGood n) := by
  unfold State.countGood
  repeat' split
  all_goals first
    | exact .refl s
    | exact becomeLinked_acts ..
    | exact (Act.node s n _).acts

theorem countMiss_acts (s : State) (n : Nat) : Acts s (s.countMiss n) := by
  unfold State.countMiss
  split
  · exact .refl s
  rename_i x hx
  have hne := Table.ne_nil_of_find hx
  split
  · split
    · exact (Act.node s n _).acts.trans ((raise_act ..).acts.trans (loss_acts _ _ _ (by
        rw [State.raise_nodes, State.updNode_nodes]; exact Table.upd_ne_nil hne _ _)))
    · exact (Act.node s n _).acts
  · exact (Act.node s n _).acts
  · exact (Act.node s n _).acts
  · exact .refl s

theorem takeEvents_acts (n : Nat) (es : List LineEvent) (s : State) : Acts s (s.takeEvents n es) := by
  induction es generalizing s with
  | nil => exact .refl s
  | cons e r ih =>
    unfold State.takeEvents
    split
    · exact .refl s
    rename_i x hx
    split
    · dsimp only
      refine Acts.trans (Acts.trans (Act.node s n (fun x => { x with expected := some (e.seq + 1) })).acts ?_) (ih _)
      split
      · exact takeEvent_acts ..
      · exact .refl _
    · exact (Act.node s n _).acts.trans (loss_acts _ _ _ (by
        rw [State.updNode_nodes]; exact Table.upd_ne_nil (Table.ne_nil_of_find hx) _ _))

theorem takeNodeReport_acts (s : State) (n : Nat) (q : Report) : Acts s (s.takeNodeReport n q) := by
  unfold State.takeNodeReport
  split
  · exact takeReport_acts ..
  · exact .refl s

theorem takeGood_acts (s : State) (n : Nat) (q : Report) (es : List LineEvent) : Acts s (s.takeGood n q es) := by
  unfold State.takeGood
  dsimp only
  split
  · exact (countGood_acts ..).trans ((takeEvents_acts ..).trans (takeNodeReport_acts ..))
  · exact countGood_acts ..

theorem noPoll_act (s : State) : Act s { s with poll := none } := .poll s s.polled none (.inr rfl)

theorem takeAnswer_acts (s : State) (bytes : List Byte) : Acts s (s.takeAnswer bytes) := by
  unfold State.takeAnswer
  split
  · exact .refl s
  rename_i q hq
  split
  · exact (Act.poll s s.polled _ (.inl (.inr (.inr (.inr (.inr (by rw [hq]; simp))))))).acts
  · split
    · exact (noPoll_act s).acts.trans (countMiss_acts ..)
    · exact (noPoll_act s).acts
  · split
    · exact (noPoll_act s).acts.trans (takeGood_acts ..)
    · exact (noPoll_act s).acts

theorem timeOut_acts (s : State) : Acts s s.timeOut := by
  unfold State.timeOut
  split
  · exact .refl s
  · split
    · exact (noPoll_act s).acts.trans (countMiss_acts ..)
    · exact (noPoll_act s).acts

/-! ## Expiries -/

theorem strand_motion (c : StrandCause) (m : Motion) (h : m = .standing ∨ m = .untracked) : Motion.strand c m = m := by
  rcases h with h | h <;> rw [h] <;> rfl

theorem takeExpiry_acts (s : State) (z : Nat) (c : StrandCause) (k : AnomalyKind) (h : s.zones ≠ []) :
    Acts s (s.takeExpiry z c k) := by
  unfold State.takeExpiry
  have k1 : Acts s (s.updZone z (fun x => { x with timer := x.timer.reported })) := (Act.zoneTimer s z _).acts
  have hne : (s.updZone z (fun x => { x with timer := x.timer.reported })).zones ≠ [] := by
    rw [State.updZone_zones]; exact Table.upd_ne_nil h _ _
  generalize s.updZone z (fun x => { x with timer := x.timer.reported }) = s1 at k1 hne
  dsimp only
  split
  · rename_i t _
    refine k1.trans ((Act.train s1 t (fun r => { r with motion := Motion.strand c r.motion }) (fun _ => ⟨rfl, rfl⟩)
      (.inr fun r h => ⟨?_, h.2⟩)).acts.trans ((Act.sweep _).acts.trans (anomaly_acts _ _ _ _ (.inr (.inl hne)))))
    rw [strand_motion c _ h.1]
    exact h.1
  · exact k1.trans ((Act.sweep _).acts.trans (anomaly_acts _ _ _ _ (.inr (.inl hne))))

theorem zones_ne_nil_of_expiryDue {s : State} {z : Nat} {u : TimerUse} (h : s.expiryDue z u = true) : s.zones ≠ [] := by
  unfold State.expiryDue at h
  split at h
  · rename_i hf; exact Table.ne_nil_of_find hf
  · cases h

end Sys2Proof.Machine
end

