-- ==== Sys2Proof/Laws/Formats.lean ====
section
/-! SUPPORT. What the bytes of a trackside answer say (section 13.5, R167), and what the derived conditions over one record say. -/

namespace Sys2Proof.Machine

/-! ## Trackside answers -/

/-- The two bytes of an event (section 13.5): when they are well formed, and what they then say. -/
theorem lineEventOf_spec (hi lo : Byte) :
    (∀ e, lineEventOf hi lo = some e → hi.toNat < 64 ∧ 1 ≤ lo.toNat ∧ lo.toNat ≤ 4 ∧ e.seq.toNat = hi.toNat % 16 ∧
      e.channel = hi.toNat / 16 ∧ [EventKind.fwdHead, .fwdTail, .revHead, .revTail][lo.toNat - 1]? = some e.kind) ∧
    (lineEventOf hi lo = none → ¬(hi.toNat < 64 ∧ 1 ≤ lo.toNat ∧ lo.toNat ≤ 4)) := by
  have hk : ∀ n, (∀ k, EventKind.ofCode n = some k → 1 ≤ n ∧ n ≤ 4 ∧ [EventKind.fwdHead, .fwdTail, .revHead, .revTail][n - 1]? = some k) ∧
      (EventKind.ofCode n = none → ¬(1 ≤ n ∧ n ≤ 4)) := by
    intro n
    match n with
    | 0 => simp [EventKind.ofCode]
    | 1 => simp [EventKind.ofCode]
    | 2 => simp [EventKind.ofCode]
    | 3 => simp [EventKind.ofCode]
    | 4 => simp [EventKind.ofCode]
    | n + 5 => simp [EventKind.ofCode]
  unfold lineEventOf
  constructor
  · intro e h
    split at h
    · rename_i k hk'
      split at h
      · rename_i hlt
        cases h
        obtain ⟨h1, h2, h3⟩ := (hk _).1 _ hk'
        refine ⟨hlt, h1, h2, ?_, ?_, h3⟩
        · simp [BitVec.extractLsb'_toNat]
        · simp [BitVec.extractLsb'_toNat, Nat.shiftRight_eq_div_pow]; omega
      · cases h
    · cases h
  · intro h
    split at h
    · split at h
      · cases h
      · rename_i hn; exact fun hx => hn hx.1
    · rename_i hk'
      exact fun hx => (hk _).2 hk' hx.2

/-- The event bytes of an answer (section 13.5): when every event is well formed, and what the events then are. -/
theorem lineEventsOf_spec (n : Nat) (body : List Byte) (hn : body.length = 2 * n) :
    let high := fun (i : Nat) => (body.getD (2 * i) 0).toNat
    let low := fun (i : Nat) => (body.getD (2 * i + 1) 0).toNat
    ((∀ i, i < n → high i < 64 ∧ 1 ≤ low i ∧ low i ≤ 4) ↔ (lineEventsOf body).isSome = true) ∧
    ∀ events, lineEventsOf body = some events → events.length = n ∧
        ∀ i, i < n → ∃ e, events[i]? = some e ∧ e.seq.toNat = high i % 16 ∧ e.channel = high i / 16 ∧
          [EventKind.fwdHead, .fwdTail, .revHead, .revTail][low i - 1]? = some e.kind := by
  induction n generalizing body with
  | zero =>
    have : body = [] := List.length_eq_zero_iff.mp (by omega)
    subst this
    simp [lineEventsOf]
  | succ n ih =>
    match body with
    | [] => simp at hn
    | [x] => simp at hn; omega
    | hi :: lo :: rest =>
      have hr : rest.length = 2 * n := by simp at hn; omega
      obtain ⟨i1, i2⟩ := ih rest hr
      obtain ⟨e1, e2⟩ := lineEventOf_spec hi lo
      intro high low
      have hs : ∀ i, high (i + 1) = (rest.getD (2 * i) 0).toNat := fun i => rfl
      have ls : ∀ i, low (i + 1) = (rest.getD (2 * i + 1) 0).toNat := fun i => rfl
      have h0 : high 0 = hi.toNat := rfl
      have l0 : low 0 = lo.toNat := rfl
      unfold lineEventsOf
      cases ev : lineEventOf hi lo with
      | none =>
        refine ⟨?_, fun _ h => by cases h⟩
        constructor
        · intro h; exact absurd (h 0 (by omega)) (e2 ev)
        · intro h; cases h
      | some e =>
        obtain ⟨a1, a2, a3, a4, a5, a6⟩ := e1 e ev
        cases es : lineEventsOf rest with
        | none =>
          refine ⟨?_, fun _ h => by cases h⟩
          constructor
          · intro h
            have := i1.mp (fun i hi => h (i + 1) (by omega))
            rw [es] at this; cases this
          · intro h; cases h
        | some l =>
          obtain ⟨j1, j2⟩ := i2 l es
          constructor
          · simp only [Option.isSome_some, iff_true]
            intro i hi'
            match i with
            | 0 => exact ⟨a1, a2, a3⟩
            | i + 1 => exact i1.mpr (by rw [es]; rfl) i (by omega)
          · intro events h
            cases h
            refine ⟨by simp [j1], fun i hi' => ?_⟩
            match i with
            | 0 => exact ⟨e, rfl, a4, a5, a6⟩
            | i + 1 => exact j2 i (by omega)

/-- The report byte of an answer (section 13.5). -/
theorem Report.ofCode_spec (n : Nat) : (n ≤ 3 ↔ (Report.ofCode n).isSome = true) ∧
  ∀ q, Report.ofCode n = some q → [Report.main, .branch, .moving, .unknown][n]? = some q := by
  match n with
  | 0 => simp [Report.ofCode]
  | 1 => simp [Report.ofCode]
  | 2 => simp [Report.ofCode]
  | 3 => simp [Report.ofCode]
  | n + 4 => simp [Report.ofCode]

/-- The bytes before a sync byte are discarded (R167). -/
theorem lineAnswer_discards (address : Nat) (before rest : List Byte) (h : (0x96 : Byte) ∉ before) :
    lineAnswer address before = .incomplete ∧ lineAnswer address (before ++ 0x96 :: rest) = answerAfterSync address rest := by
  induction before with
  | nil => exact ⟨rfl, by simp [lineAnswer, Config.lineSync]⟩
  | cons b l ih =>
    have hb : b ≠ Config.lineSync := fun e => h (by rw [e]; exact .head _)
    have := ih (fun hm => h (.tail _ hm))
    simp only [List.cons_append, lineAnswer, if_neg hb]
    exact this

/-! ## Conditions over one record -/

theorem Motion.isStranded_iff (m : Motion) : m.isStranded = true ↔ ∃ c, m = .stranded c := by
  cases m <;> simp [Motion.isStranded]

theorem SwitchState.position_isSome (w : SwitchState) : w.position.isSome = true ↔ w = .setMain ∨ w = .setBranch := by
  cases w <;> simp [SwitchState.position]

/-- A notice is both set and enabled on the port (R161). -/
theorem PortState.noticed_iff (x : PortState) :
    x.noticed = true ↔ ∃ i, i < 8 ∧ x.flags.getLsbD i = true ∧ x.mask.getLsbD i = true := by
  unfold PortState.noticed
  rw [decide_eq_true_iff]
  constructor
  · intro h
    refine Classical.byContradiction fun hn => h ?_
    apply BitVec.eq_of_getLsbD_eq
    intro i hi
    rw [BitVec.getLsbD_and]
    cases h1 : x.flags.getLsbD i <;> cases h2 : x.mask.getLsbD i <;> simp
    exact hn ⟨i, hi, h1, h2⟩
  · rintro ⟨i, hi, h1, h2⟩ h
    have := congrArg (fun b => BitVec.getLsbD b i) h
    simp [h1, h2] at this

end Sys2Proof.Machine
end

