-- ==== Sys2Proof/Laws/Steps.lean ====
section
/-! SUPPORT. Every command is a run of moves, so a condition that every move keeps, every step keeps; every command ends with the
outputs driven. -/

namespace Sys2Proof.Machine

/-! ## Ports within their capacities -/

theorem PortState.refuse_fits {x : PortState} (h : x.Fits) (tag : Byte) (r : Result) : (x.refuse tag r).Fits := by
  unfold PortState.refuse
  split
  · rename_i hl
    exact ⟨h.queue, by simpa using Nat.succ_le_of_lt hl, h.discards, h.answered, h.ends⟩
  · exact ⟨h.queue, h.refusals, Nat.min_le_right _ _, h.answered, h.ends⟩

theorem PortState.arrive_fits {x : PortState} (h : x.Fits) (q : Request) : (x.arrive q).Fits := by
  unfold PortState.arrive
  split
  · rename_i hl
    exact ⟨by simpa using Nat.succ_le_of_lt hl, h.refusals, h.discards, fun _ => by simp, h.ends⟩
  · exact refuse_fits h ..

theorem PortState.rx_fits {x : PortState} (h : x.Fits) (l : List Byte) : PortState.Fits { x with rx := l } :=
  ⟨h.queue, h.refusals, h.discards, h.answered, h.ends⟩

theorem PortState.receiveByte_fits {x : PortState} (h : x.Fits) (b : Byte) : (x.receiveByte b).Fits := by
  unfold PortState.receiveByte
  split
  · split
    · exact rx_fits h _
    · exact h
  · split
    · exact refuse_fits (rx_fits h _) ..
    · exact rx_fits h _
  · split
    · exact rx_fits h _
    · unfold PortState.frameArrived
      split
      · dsimp only
        split
        · exact arrive_fits (rx_fits h _) _
        · exact refuse_fits (rx_fits h _) ..
      · exact rx_fits h _

theorem PortState.received_fits (l : List Byte) {x : PortState} (h : x.Fits) :
    (l.foldl PortState.receiveByte x).Fits := by
  induction l generalizing x with
  | nil => exact h
  | cons b r ih => exact ih (receiveByte_fits h b)

theorem PortState.cut_fits {x : PortState} (h : x.Fits) : x.cut.Fits := by
  unfold PortState.cut
  split
  · exact h
  · exact refuse_fits (rx_fits h _) ..
  · exact refuse_fits (rx_fits h _) ..
  · exact refuse_fits (rx_fits h _) ..

theorem PortState.refuse_sending (x : PortState) (tag : Byte) (r : Result) :
    (x.refuse tag r).sending = x.sending ∧ (x.refuse tag r).answer = x.answer := by
  unfold PortState.refuse; split <;> exact ⟨rfl, rfl⟩

theorem PortState.cut_sending (x : PortState) : x.cut.sending = x.sending ∧ x.cut.answer = x.answer := by
  unfold PortState.cut
  split
  · exact ⟨rfl, rfl⟩
  · exact refuse_sending ..
  · exact refuse_sending ..
  · exact refuse_sending ..

theorem PortState.deselected_fits {x : PortState} (h : x.Fits) (n : Nat) :
    PortState.Fits { x.cut with sending := x.sending.map (Sending.shift n) } := by
  have hc := cut_fits h
  refine ⟨hc.queue, hc.refusals, hc.discards, hc.answered, fun he => ?_⟩
  dsimp only at he ⊢
  rw [(cut_sending x).2]
  refine h.ends ?_
  cases hs : x.sending with
  | none => rw [hs] at he; cases he
  | some w => rw [hs] at he; exact he

theorem PortState.complete_fits {x : PortState} (h : x.Fits) : x.complete.Fits := by
  unfold PortState.complete
  split
  · exact h
  · split
    · exact ⟨by have := h.queue; simp only [List.length_tail]; omega, h.refusals, h.discards, (fun h => by cases h), (fun h => by cases h)⟩
    · exact ⟨h.queue, h.refusals, h.discards, h.answered, (fun h => by cases h)⟩

theorem PortState.answer_fits {x : PortState} (h : x.Fits) (a : Answer) (w : Option Sending) (hq : x.queue ≠ []) :
    PortState.Fits { x with answer := some a, sending := w } :=
  ⟨h.queue, h.refusals, h.discards, fun _ => hq, fun _ => rfl⟩

theorem PortState.SameLink.fits {x y : PortState} (h : x.SameLink y) (k : x.Fits) : y.Fits := by
  obtain ⟨f, m, rfl⟩ := h
  exact ⟨k.queue, k.refusals, k.discards, k.answered, k.ends⟩

theorem SameSide.port {s t : State} (h : SameSide s t) (p : Port) : (s.port p).SameLink (t.port p) := by
  cases p
  · exact h.supervisor
  · exact h.console

/-! ## Moves -/

theorem setPort_move (s : State) (p : Port) (x : PortState) (h : (s.port p).Fits → x.Fits) : Move s (s.setPort p x) := by
  cases p
  · exact .ports s x s.console h id
  · exact .ports s s.supervisor x id h

theorem settle_move (s : State) : Move s s.settle := .pins s s.driven

theorem take_moves (s : State) (p : Port) (own : Owner) (hq : (s.port p).queue ≠ []) (ho : Acts s (own s).1) :
    Moves s (s.take p own) := by
  unfold State.take
  generalize own s = q at ho
  obtain ⟨s1, a⟩ := q
  dsimp only at ho ⊢
  refine ho.moves.trans (setPort_move s1 p _ (fun h => ?_)).moves
  obtain ⟨f, m, hl⟩ := ho.sameSide.port p
  have : (s1.port p).queue ≠ [] := by rw [hl]; exact hq
  exact ⟨h.queue, h.refusals, h.discards, fun _ => this, fun _ => rfl⟩

theorem arrive_move (s : State) (p : Port) (q : Request) : Move s (s.setPort p ((s.port p).arrive q)) :=
  setPort_move s p _ (fun h => PortState.arrive_fits h q)

theorem present_moves (s : State) (p : Port) (q : Request) {own : Owner} (ho : ∀ s, Acts s (own s).1) :
    Moves s (s.present p q own) := by
  unfold State.present
  split
  · rename_i hq
    refine (arrive_move ..).moves.trans (take_moves _ p own ?_ (ho _))
    rw [State.port_setPort]
    unfold PortState.arrive
    rw [hq]
    simp [Config.queueSlots]
  · rename_i hq
    split
    · refine take_moves s p own ?_ (ho s)
      rw [hq]; simp
    · exact (arrive_move ..).moves
  · exact (arrive_move ..).moves

/-- A command that does nothing while RESET is asserted. -/
theorem act_moves {f : State → State} (hf : ∀ s, Moves s (f s)) {s t : State} (h : act f s = .next t) : Moves s t := by
  unfold act at h
  cases h
  split
  · exact .refl s
  · exact (hf s).trans (settle_move _).moves

theorem request_moves {p : Port} {tag : Byte} {code : RequestCode} {args : List Byte} {own : Owner}
    (ho : ∀ s, Acts s (own s).1) {s t : State} (h : request p tag code args own s = .next t) : Moves s t :=
  act_moves (f := fun s => s.present p ⟨tag, code.code, args⟩ own) (fun s => present_moves s p _ ho) h

theorem sendRefusal_moves (s : State) (p : Port) (r : ArrivalRefusal) (rest : List ArrivalRefusal)
    (h : (s.port p).refusals = r :: rest) : Moves s (s.sendRefusal p r rest) := by
  unfold State.sendRefusal
  refine (setPort_move s p _ ?_).moves
  intro k
  refine ⟨k.queue, ?_, k.discards, k.answered, fun he => by cases he⟩
  have := k.refusals
  rw [h] at this
  exact Nat.le_of_succ_le this

theorem onFill_link (a : Answer) (x : PortState) : x.SameLink (x.onFill a) := by
  cases a with
  | notices => exact ⟨0, x.mask, rfl⟩
  | _ => exact ⟨x.flags, x.mask, rfl⟩

theorem setPort_setPort (s : State) (p : Port) (x y : PortState) : (s.setPort p x).setPort p y = s.setPort p y := by
  cases p <;> rfl

theorem sendAnswer_moves (s : State) (p : Port) (a : Answer) (ha : (s.port p).answer = some a) :
    Moves s (s.sendAnswer p a) := by
  unfold State.sendAnswer
  dsimp only
  rw [State.port_setPort, setPort_setPort]
  refine (setPort_move s p _ (fun k => ?_)).moves
  have k2 := (onFill_link a (s.port p)).fits k
  obtain ⟨f, m, hl⟩ := onFill_link a (s.port p)
  exact PortState.answer_fits k2 _ _ (k2.answered (by rw [hl]; dsimp only; rw [ha]; rfl))

theorem inputChange_moves {level taken : State → State} {s t : State} (hl : s.resetPin = true → Move s (level s))
    (ht : s.resetPin = false → Act s (taken (level s))) (h : inputChange level taken s = .next t) : Moves s t := by
  unfold inputChange at h
  cases h
  cases hr : s.resetPin with
  | true => exact (hl hr).moves
  | false => exact (ht hr).acts.moves.trans (settle_move _).moves

/-- Every command is a run of moves. -/
theorem exec_moves (i : Instr) {s t : State} (h : exec i s = .next t) : Moves s t := by
  cases i with
  | hardReset =>
    unfold exec execHardReset at h; cases h
    exact (Move.hardReset s).moves.trans (settle_move _).moves
  | resetAsserted =>
    unfold exec execResetAsserted at h; cases h
    exact (Move.resetAsserted s).moves.trans (settle_move _).moves
  | stopInAsserted =>
    unfold exec execStopInAsserted at h
    exact inputChange_moves (fun hr => .level s true s.keyMaint hr) (fun _ => .stopInOn s) h
  | stopInDeasserted =>
    unfold exec execStopInDeasserted at h
    exact inputChange_moves (fun hr => .level s false s.keyMaint hr) (fun _ => .stopInOff s) h
  | keyTurnedToMaint =>
    unfold exec execKeyTurnedToMaint at h
    exact inputChange_moves (fun hr => .level s s.stopInPin true hr) (fun _ => .keyOn s) h
  | keyTurnedToRun =>
    unfold exec execKeyTurnedToRun at h
    exact inputChange_moves (fun hr => .level s s.stopInPin false hr) (fun _ => .keyOff s) h
  | requestFrameArrival p bytes =>
    unfold exec execRequestFrameArrival at h
    exact act_moves (fun s => (setPort_move s p _ (fun k => PortState.received_fits bytes k)).moves) h
  | spiDeselect n =>
    unfold exec execSpiDeselect at h
    exact act_moves (fun s => (setPort_move s .supervisor _ (fun k => PortState.deselected_fits k n)).moves) h
  | consoleByteGap =>
    unfold exec execConsoleByteGap at h
    exact act_moves (fun s => (setPort_move s .console _ PortState.cut_fits).moves) h
  | consoleFramingError =>
    unfold exec execConsoleFramingError at h
    exact act_moves (fun s => (setPort_move s .console _ PortState.cut_fits).moves) h
  | answerFrameSend p =>
    unfold exec execAnswerFrameSend at h
    refine act_moves (fun s => ?_) h
    split
    · exact .refl s
    split
    · exact sendRefusal_moves s p _ _ (by assumption)
    split
    · exact sendAnswer_moves s p _ (by assumption)
    · exact .refl s
  | answerComplete p =>
    unfold exec execAnswerComplete at h
    exact act_moves (fun s => (setPort_move s p _ PortState.complete_fits).moves) h
  | unknownRequestCode p tag code args =>
    unfold exec execUnknownRequestCode at h
    refine act_moves (fun s => ?_) h
    split
    · split
      · exact .refl s
      · exact (arrive_move ..).moves
    · exact present_moves s p _ (fun s => .refl s)
  | readStatus p tag =>
    unfold exec execReadStatus at h
    exact request_moves (readIn_acts _ _) h
  | readZone p tag zone =>
    unfold exec execReadZone at h
    exact request_moves (readIn_acts _ _) h
  | readZones p tag first count =>
    unfold exec execReadZones at h
    exact request_moves (readIn_acts _ _) h
  | readTrain p tag train =>
    unfold exec execReadTrain at h
    exact request_moves (readIn_acts _ _) h
  | readTrains p tag =>
    unfold exec execReadTrains at h
    exact request_moves (readIn_acts _ _) h
  | readWaitQueue p tag =>
    unfold exec execReadWaitQueue at h
    exact request_moves (readIn_acts _ _) h
  | readAnomalies p tag =>
    unfold exec execReadAnomalies at h
    exact request_moves (readIn_acts _ _) h
  | readSwitch p tag switch =>
    unfold exec execReadSwitch at h
    exact request_moves (readIn_acts _ _) h
  | readNode p tag node =>
    unfold exec execReadNode at h
    exact request_moves (readIn_acts _ _) h
  | readLayoutRecord p tag kind key =>
    unfold exec execReadLayoutRecord at h
    exact request_moves (own := fun s => s.layoutAnswer kind.toNat key.toNat) (layoutAnswer_acts _ _) h
  | readNotices p tag =>
    unfold exec execReadNotices at h
    exact request_moves (readIn_acts _ _) h
  | enterConfig p tag =>
    unfold exec execEnterConfig at h
    exact request_moves (withAuthority_acts ownEnterConfig_acts) h
  | loadLayoutRecord p tag kind image =>
    unfold exec execLoadLayoutRecord at h
    refine request_moves (fun s => ?_) h
    split
    · exact withAuthority_acts (ownLoadLayoutRecord_acts kind image) s
    · exact .refl s
  | clearLayout p tag =>
    unfold exec execClearLayout at h
    exact request_moves (withAuthority_acts ownClearLayout_acts) h
  | commitLayout p tag =>
    unfold exec execCommitLayout at h
    exact request_moves (withAuthority_acts ownCommitLayout_acts) h
  | storeLayout p tag =>
    unfold exec execStoreLayout at h
    exact request_moves (withAuthority_acts ownStoreLayout_acts) h
  | storeWriteComplete =>
    unfold exec execStoreWriteComplete at h
    refine act_moves (fun s => ?_) h
    split
    · exact ((Act.store s ⟨.valid, s.store.image, true⟩ (fun _ h => h)).acts.trans (raise_act ..).acts).moves
    · exact .refl s
  | eraseStore p tag =>
    unfold exec execEraseStore at h
    exact request_moves (withAuthority_acts ownEraseStore_acts) h
  | remapNode p tag node address =>
    unfold exec execRemapNode at h
    exact request_moves (withAuthority_acts (ownRemapNode_acts _ _)) h
  | placeTrain p tag trainTag zone =>
    unfold exec execPlaceTrain at h
    exact request_moves (withAuthority_acts (ownPlaceTrain_acts _ _)) h
  | withdrawTrain p tag train =>
    unfold exec execWithdrawTrain at h
    exact request_moves (withAuthority_acts (ownWithdrawTrain_acts _)) h
  | relocateTrain p tag train zone =>
    unfold exec execRelocateTrain at h
    exact request_moves (withAuthority_acts (ownRelocateTrain_acts _ _)) h
  | beginOperation p tag =>
    unfold exec execBeginOperation at h
    exact request_moves (withAuthority_acts ownBeginOperation_acts) h
  | dispatch p tag train =>
    unfold exec execDispatch at h
    exact request_moves (withAuthority_acts (ownDispatch_acts _)) h
  | cancelDispatch p tag train =>
    unfold exec execCancelDispatch at h
    exact request_moves (withAuthority_acts (ownCancelDispatch_acts _)) h
  | stepTrain p tag train =>
    unfold exec execStepTrain at h
    exact request_moves (withAuthority_acts (ownStepTrain_acts _)) h
  | relaunch p tag train =>
    unfold exec execRelaunch at h
    exact request_moves (withAuthority_acts (ownRelaunch_acts _)) h
  | setServiceOff p tag zone setting =>
    unfold exec execSetServiceOff at h
    exact request_moves (withAuthority_acts (ownSetService_acts _ _)) h
  | setServiceOn p tag zone =>
    unfold exec execSetServiceOn at h
    exact request_moves (withAuthority_acts (ownSetService_acts _ _)) h
  | clearZone p tag zone =>
    unfold exec execClearZone at h
    exact request_moves (withAuthority_acts (ownClearZone_acts _)) h
  | clearUnheldZones p tag =>
    unfold exec execClearUnheldZones at h
    exact request_moves (withAuthority_acts ownClearUnheldZones_acts) h
  | setSwitch p tag switch position =>
    unfold exec execSetSwitch at h
    exact request_moves (withAuthority_acts (ownSetSwitch_acts _ _)) h
  | halt p tag =>
    unfold exec execHalt at h
    exact request_moves ownHalt_acts h
  | resumeGroup p tag group =>
    unfold exec execResumeGroup at h
    exact request_moves (withAuthority_acts (ownResumeGroup_acts _)) h
  | acknowledgeAnomaly p tag kind subject =>
    unfold exec execAcknowledgeAnomaly at h
    exact request_moves (withAuthority_acts (ownAcknowledgeAnomaly_acts _ _)) h
  | acknowledgeAll p tag =>
    unfold exec execAcknowledgeAll at h
    exact request_moves (withAuthority_acts ownAcknowledgeAll_acts) h
  | takeAuthority p tag =>
    unfold exec execTakeAuthority at h
    exact request_moves (ownTakeAuthority_acts p) h
  | fixSupervisor p tag =>
    unfold exec execFixSupervisor at h
    exact request_moves (ownFixSupervisor_acts p) h
  | handToConsole p tag =>
    unfold exec execHandToConsole at h
    exact request_moves (ownHandToConsole_acts p) h
  | assignIndicator p tag line zone condition sense =>
    unfold exec execAssignIndicator at h
    exact request_moves (withAuthority_acts (ownAssignIndicator_acts _ _ _ _)) h
  | releaseIndicator p tag line =>
    unfold exec execReleaseIndicator at h
    exact request_moves (withAuthority_acts (ownReleaseIndicator_acts _)) h
  | setNoticeMask p tag high low =>
    unfold exec execSetNoticeMask at h
    exact request_moves (ownSetNoticeMask_acts p high low) h
  | pollSend =>
    unfold exec execPollSend at h
    refine act_moves (fun s => ?_) h
    split
    · rename_i hl
      split
      · exact (Act.poll s _ _ (.inl (.inl (by simp only [Bool.and_eq_true] at hl; exact hl.1)))).acts.moves
      · exact .refl s
    · exact .refl s
  | tracksideAnswer bytes =>
    unfold exec execTracksideAnswer at h
    exact act_moves (fun s => (takeAnswer_acts s bytes).moves) h
  | answerTimeout =>
    unfold exec execAnswerTimeout at h
    exact act_moves (fun s => (timeOut_acts s).moves) h
  | runTransitExpiry z =>
    unfold exec execRunTransitExpiry at h
    refine act_moves (fun s => ?_) h
    split
    · exact (takeExpiry_acts s z _ _ (zones_ne_nil_of_expiryDue (by assumption))).moves
    · exact .refl s
  | trailingHoldExpiry z =>
    unfold exec execTrailingHoldExpiry at h
    refine act_moves (fun s => ?_) h
    split
    · exact (takeExpiry_acts s z _ _ (zones_ne_nil_of_expiryDue (by assumption))).moves
    · exact .refl s
  | switchTimerExpiry k =>
    unfold exec execSwitchTimerExpiry at h
    refine act_moves (fun s => ?_) h
    split
    · rename_i hf
      split
      · refine ((Act.switchTo s k _ (fun x p h => by cases h)).acts.trans (anomaly_acts _ _ _ _ ?_)).moves
        exact .inr (.inr (.inl (by rw [State.updSwitch_switches]; exact Table.upd_ne_nil (Table.ne_nil_of_find hf) _ _)))
      · exact (Act.switchTo s k (fun w => { w with timer := .idle }) (fun x p h => h)).acts.moves
    · exact .refl s
  | timebaseTick =>
    unfold exec execTimebaseTick at h
    refine act_moves (fun s => ?_) h
    split
    · exact (Act.tick s (by assumption)).acts.moves
    · exact .refl s

/-- A condition that every move keeps, every command keeps. -/
theorem exec_keeps {P : State → Prop} (hP : ∀ s t, P s → Move s t → P t) (i : Instr) {s t : State} (hs : P s)
    (h : exec i s = .next t) : P t := (exec_moves i h).keeps hP hs

/-- A condition that every move keeps, every step keeps. -/
theorem step_keeps {P : State → Prop} (hP : ∀ s t, P s → Move s t → P t) {s t : State} (hs : P s)
    (h : step s = .next t) : P t := by
  unfold step at h
  split at h
  · cases h; exact hs
  · exact exec_keeps hP _ (hP _ _ hs (.taken s _)) h

end Sys2Proof.Machine
end

