-- ==== Sys2Proof/Laws/Stops.lean ====
section
/-! SUPPORT. What every move keeps of the ports, the Anomaly Table, the stop causes, the inputs and the authority. -/

namespace Sys2Proof.Machine

/-! ## Ports -/

theorem State.PortsFit.act {s t : State} (hs : s.PortsFit) (h : Act s t) : t.PortsFit :=
  ⟨h.sameSide.supervisor.fits hs.1, h.sameSide.console.fits hs.2⟩

theorem PortState.reset_fits : PortState.reset.Fits :=
  ⟨by decide, by decide, by decide, (fun h => by cases h), (fun h => by cases h)⟩

theorem State.PortsFit.move {s t : State} (hs : s.PortsFit) (h : Move s t) : t.PortsFit := by
  cases h with
  | act h => exact hs.act h
  | ports sup con h1 h2 => exact ⟨h1 hs.1, h2 hs.2⟩
  | pins x => exact hs
  | taken l => exact hs
  | level a b _ => exact hs
  | resetAsserted =>
    exact ⟨PortState.SameLink.fits ⟨0, 0, rfl⟩ hs.1, PortState.SameLink.fits ⟨0, 0, rfl⟩ hs.2⟩
  | hardReset =>
    unfold State.hardReset
    split <;> exact ⟨PortState.reset_fits, PortState.reset_fits⟩

/-! ## The Anomaly Table -/

theorem State.AnomaliesFit.congr {s t : State} (hs : s.AnomaliesFit) (h : t.anomalies = s.anomalies) : t.AnomaliesFit :=
  ⟨h ▸ hs.size, h ▸ hs.distinct⟩

theorem State.AnomaliesFit.empty {t : State} (h : t.anomalies = []) : t.AnomaliesFit :=
  ⟨by rw [h]; decide, by rw [h]; exact .nil⟩

/-- Changing the marks of entries, not what they are about. -/
theorem State.AnomaliesFit.marked {s t : State} (hs : s.AnomaliesFit) {f : Anomaly → Anomaly}
    (hf : ∀ a, (f a).kind = a.kind ∧ (f a).subject = a.subject) (h : t.anomalies = s.anomalies.map f) : t.AnomaliesFit := by
  refine ⟨by rw [h, List.length_map]; exact hs.size, ?_⟩
  rw [h, List.pairwise_map]
  refine hs.distinct.imp ?_
  intro a b hab
  rw [(hf a).1, (hf a).2, (hf b).1, (hf b).2]
  exact hab

theorem State.AnomaliesFit.entered {s : State} (hs : s.AnomaliesFit) (k : AnomalyKind) (n : Nat) (b : Bool) :
    (s.enterAnomaly k n b).AnomaliesFit := by
  unfold State.enterAnomaly
  split
  · refine hs.marked (f := fun a => if a.about k n then { a with acked := false, stop := a.stop || b } else a) ?_ rfl
    intro a
    split <;> exact ⟨rfl, rfl⟩
  · rename_i hn
    split
    · rename_i hl
      refine ⟨by simpa using Nat.succ_le_of_lt hl, ?_⟩
      rw [List.pairwise_append]
      refine ⟨hs.distinct, List.pairwise_singleton _ _, ?_⟩
      intro a ha b hb
      simp only [List.mem_singleton] at hb
      subst hb
      intro hab
      refine hn (List.any_eq_true.mpr ⟨a, ha, ?_⟩)
      simp [Anomaly.about, hab.1, hab.2]
    · exact hs.congr rfl

theorem State.AnomaliesFit.act {s t : State} (hs : s.AnomaliesFit) (h : Act s t) : t.AnomaliesFit := by
  cases h with
  | stopInOn =>
    obtain ⟨_, _, _, _, _, e⟩ := arise_frame { s with stopInPin := true } .stopIn
    rw [e]; exact hs.congr rfl
  | keyOn =>
    obtain ⟨_, _, e⟩ := setAuthority_frame (State.arise { s with keyMaint := true } .key) .maintenance
    rw [e]
    obtain ⟨_, _, _, _, _, e⟩ := arise_frame { s with keyMaint := true } .key
    rw [e]; exact hs.congr rfl
  | keyOff =>
    unfold State.keyReleased
    dsimp only
    split
    · obtain ⟨_, _, e⟩ := setAuthority_frame { s with keyMaint := false, causes := { s.causes with key := false } } .console
      rw [e]; exact hs.congr rfl
    · exact hs.congr rfl
  | arise c _ =>
    obtain ⟨_, _, _, _, _, e⟩ := arise_frame s c
    rw [e]; exact hs.congr rfl
  | configEntered => exact .empty rfl
  | built _ => exact .empty rfl
  | resumed g _ _ _ =>
    unfold State.resumed
    dsimp only
    split
    · exact hs.congr rfl
    · exact hs.congr rfl
  | authority a _ _ =>
    obtain ⟨_, _, e⟩ := setAuthority_frame s a
    rw [e]; exact hs.congr rfl
  | enterAnomaly k n b _ => exact hs.entered k n b
  | sweep =>
    refine ⟨Nat.le_trans (List.length_filter_le _ _) hs.size, hs.distinct.filter _⟩
  | acknowledge f full _ =>
    refine hs.marked (f := fun a => if f a then { a with acked := true } else a) ?_ rfl
    intro a
    split <;> exact ⟨rfl, rfl⟩
  | occupy _ z u h _ => obtain ⟨_, _, rfl⟩ := occupy_onTrack h; exact hs.congr rfl
  | trail _ z u h => obtain ⟨_, _, rfl⟩ := trail_onTrack h; exact hs.congr rfl
  | release _ u zs h => obtain ⟨_, _, rfl⟩ := release_onTrack h; exact hs.congr rfl
  | evaluate => obtain ⟨_, _, _, _, _, e⟩ := evaluate_frame s; rw [e]; exact hs.congr rfl
  | mark z a _ => obtain ⟨_, _, e⟩ := markSuspect_onTrack s z a; rw [e]; exact hs.congr rfl
  | lineSuspect n => obtain ⟨_, _, e⟩ := lineSuspect_onTrack s n; rw [e]; exact hs.congr rfl
  | enterClaim _ u b _ h => obtain ⟨_, _, _, rfl⟩ := enterClaim_eq h; exact hs.congr rfl
  | placed u tag z _ _ _ _ _ _ _ =>
    refine ⟨Nat.le_trans (List.length_filter_le _ _) hs.size, hs.distinct.filter _⟩
  | withdrawn u f _ =>
    refine ⟨Nat.le_trans (List.length_filter_le _ _) hs.size, hs.distinct.filter _⟩
  | relocated u z _ _ _ _ _ =>
    refine ⟨Nat.le_trans (List.length_filter_le _ _) hs.size, hs.distinct.filter _⟩
  | _ => exact hs.congr rfl

theorem State.AnomaliesFit.move {s t : State} (hs : s.AnomaliesFit) (h : Move s t) : t.AnomaliesFit := by
  cases h with
  | act h => exact hs.act h
  | hardReset =>
    unfold State.hardReset
    split <;> exact .empty rfl
  | _ => exact hs.congr rfl

/-! ## Stop causes, inputs and authority -/

/-- While a circuit operates no cause arises without leaving OPERATING: what a cause does to the causes and the circuit (R123). -/
theorem arise_causes (s : State) (c : StopCause) :
    (s.arise c).causes.key = (s.causes.key || decide (c = .key)) ∧
    (s.arise c).causes.stopIn = (s.causes.stopIn || decide (c = .stopIn)) := by
  unfold State.arise
  cases s.circuit <;> cases c <;> simp [State.holdAll, State.updZones, Causes.add]

theorem arise_pins (s : State) (c : StopCause) : (s.arise c).stopInPin = s.stopInPin ∧ (s.arise c).keyMaint = s.keyMaint ∧
    (s.arise c).authority = s.authority := by
  obtain ⟨_, _, _, _, _, e⟩ := arise_frame s c
  rw [e]; exact ⟨rfl, rfl, rfl⟩

/-- Which fields R121 and R122 speak of. -/
theorem Act.inputs {s t : State} (h : Act s t) :
    (t.stopInPin = s.stopInPin ∧ t.keyMaint = s.keyMaint ∧ t.causes.stopIn = s.causes.stopIn ∧ t.causes.key = s.causes.key ∧
      (t.authority = s.authority ∨ (s.authority ≠ .maintenance ∧ t.authority ≠ .maintenance))) ∨
    (t.stopInPin = true ∧ t.keyMaint = s.keyMaint ∧ t.causes.stopIn = true ∧ t.causes.key = s.causes.key ∧
      t.authority = s.authority) ∨
    (t.stopInPin = false ∧ t.keyMaint = s.keyMaint ∧ t.causes.stopIn = false ∧ t.causes.key = s.causes.key ∧
      t.authority = s.authority) ∨
    (t.stopInPin = s.stopInPin ∧ t.keyMaint = true ∧ t.causes.stopIn = s.causes.stopIn ∧ t.causes.key = true ∧
      t.authority = .maintenance) ∨
    (t.stopInPin = s.stopInPin ∧ t.keyMaint = false ∧ t.causes.stopIn = s.causes.stopIn ∧ t.causes.key = false ∧
      t.authority ≠ .maintenance) := by
  cases h with
  | stopInOn =>
    right; left
    have h1 := arise_causes { s with stopInPin := true } .stopIn
    have h2 := arise_pins { s with stopInPin := true } .stopIn
    exact ⟨h2.1, h2.2.1, by rw [h1.2]; simp, by rw [h1.1]; simp, h2.2.2⟩
  | stopInOff => right; right; left; exact ⟨rfl, rfl, rfl, rfl, rfl⟩
  | keyOn =>
    right; right; right; left
    have h1 := arise_causes { s with keyMaint := true } .key
    have h2 := arise_pins { s with keyMaint := true } .key
    obtain ⟨_, _, e⟩ := setAuthority_frame (State.arise { s with keyMaint := true } .key) .maintenance
    rw [e]
    exact ⟨h2.1, h2.2.1, by rw [h1.2]; simp, by rw [h1.1]; simp, rfl⟩
  | keyOff =>
    right; right; right; right
    unfold State.keyReleased
    dsimp only
    split
    · obtain ⟨_, _, e⟩ := setAuthority_frame { s with keyMaint := false, causes := { s.causes with key := false } } .console
      rw [e]
      exact ⟨rfl, rfl, rfl, rfl, by simp⟩
    · rename_i h
      exact ⟨rfl, rfl, rfl, rfl, h⟩
  | arise c hc =>
    left
    have h1 := arise_causes s c
    have h2 := arise_pins s c
    refine ⟨h2.1, h2.2.1, ?_, ?_, .inl h2.2.2⟩
    · rw [h1.2]; rcases hc with rfl | rfl <;> simp
    · rw [h1.1]; rcases hc with rfl | rfl <;> simp
  | resumed g _ _ _ =>
    left
    unfold State.resumed
    dsimp only
    split
    · exact ⟨rfl, rfl, rfl, rfl, .inl rfl⟩
    · exact ⟨rfl, rfl, rfl, rfl, .inl rfl⟩
  | authority a h1 h2 =>
    left
    obtain ⟨_, _, e⟩ := setAuthority_frame s a
    rw [e]; exact ⟨rfl, rfl, rfl, rfl, .inr ⟨h1, h2⟩⟩
  | enterAnomaly k n b _ =>
    left
    unfold State.enterAnomaly
    split
    · exact ⟨rfl, rfl, rfl, rfl, .inl rfl⟩
    · split <;> exact ⟨rfl, rfl, rfl, rfl, .inl rfl⟩
  | occupy _ z u h _ => left; obtain ⟨_, _, rfl⟩ := occupy_onTrack h; exact ⟨rfl, rfl, rfl, rfl, .inl rfl⟩
  | trail _ z u h => left; obtain ⟨_, _, rfl⟩ := trail_onTrack h; exact ⟨rfl, rfl, rfl, rfl, .inl rfl⟩
  | release _ u zs h => left; obtain ⟨_, _, rfl⟩ := release_onTrack h; exact ⟨rfl, rfl, rfl, rfl, .inl rfl⟩
  | evaluate => left; obtain ⟨_, _, _, _, _, e⟩ := evaluate_frame s; rw [e]; exact ⟨rfl, rfl, rfl, rfl, .inl rfl⟩
  | mark z a _ => left; obtain ⟨_, _, e⟩ := markSuspect_onTrack s z a; rw [e]; exact ⟨rfl, rfl, rfl, rfl, .inl rfl⟩
  | lineSuspect n => left; obtain ⟨_, _, e⟩ := lineSuspect_onTrack s n; rw [e]; exact ⟨rfl, rfl, rfl, rfl, .inl rfl⟩
  | enterClaim _ u b _ h => left; obtain ⟨_, _, _, rfl⟩ := enterClaim_eq h; exact ⟨rfl, rfl, rfl, rfl, .inl rfl⟩
  | _ => left; exact ⟨rfl, rfl, rfl, rfl, .inl rfl⟩

theorem State.AuthorityFits.act {s t : State} (hs : s.AuthorityFits) (h : Act s t) : t.AuthorityFits := by
  unfold State.AuthorityFits at *
  rcases h.inputs with ⟨_, _, _, h4, h5 | h5⟩ | ⟨_, _, _, h4, h5⟩ | ⟨_, _, _, h4, h5⟩ | ⟨_, _, _, h4, h5⟩ | ⟨_, _, _, h4, h5⟩
  · rw [h4, h5]; exact hs
  · rw [h4]; exact ⟨fun h => absurd h h5.2, fun h => absurd (hs.mpr h) h5.1⟩
  · rw [h4, h5]; exact hs
  · rw [h4, h5]; exact hs
  · rw [h4, h5]; simp
  · rw [h4]; exact ⟨fun h => absurd h h5, fun h => by cases h⟩

theorem State.AuthorityFits.move {s t : State} (hs : s.AuthorityFits) (h : Move s t) : t.AuthorityFits := by
  cases h with
  | act h => exact hs.act h
  | hardReset =>
    unfold State.AuthorityFits State.hardReset
    split <;> (unfold State.bare; cases s.keyMaint <;> simp [State.buildLive, State.discardLive])
  | _ => exact hs

theorem State.InputsFit.act {s t : State} (hs : s.InputsFit) (h : Act s t) : t.InputsFit := by
  unfold State.InputsFit at *
  intro hr
  rw [h.sameSide.resetPin] at hr
  have h0 := hs hr
  rcases h.inputs with ⟨h1, h2, h3, h4, _⟩ | ⟨h1, h2, h3, h4, _⟩ | ⟨h1, h2, h3, h4, _⟩ | ⟨h1, h2, h3, h4, _⟩ | ⟨h1, h2, h3, h4, _⟩ <;>
    rw [h1, h2, h3, h4] <;> simp [h0]

theorem State.InputsFit.move {s t : State} (hs : s.InputsFit) (h : Move s t) : t.InputsFit := by
  cases h with
  | act h => exact hs.act h
  | level a b hr => intro h; exact absurd (hr.symm.trans h) (by simp)
  | resetAsserted => intro h; cases h
  | hardReset =>
    unfold State.InputsFit State.hardReset
    split <;> exact fun _ => ⟨rfl, rfl⟩
  | _ => exact hs

/-! ## Stop holds -/

theorem anyHold_false_iff (s : State) : s.anyHold = false ↔ ∀ e, e ∈ s.zones → e.2.stopHold = false := by
  unfold State.anyHold
  simp [List.any_eq_false]

/-- Changing zone records but not their stop holds. -/
theorem anyHold_map {s t : State} (f : Nat × Zone → Nat × Zone) (hf : ∀ e, (f e).2.stopHold = e.2.stopHold)
    (h : t.zones = s.zones.map f) : t.anyHold = s.anyHold := by
  unfold State.anyHold
  rw [h, List.any_map]
  congr 1
  funext e
  exact hf e

theorem anyHold_updZone (s : State) (z : Nat) (f : Zone → Zone) (hf : ∀ x, (f x).stopHold = x.stopHold) :
    (s.updZone z f).anyHold = s.anyHold :=
  anyHold_map (fun e => if e.1 = z then (e.1, f e.2) else e) (fun e => by
    split
    · exact hf _
    · rfl) rfl

theorem anyHold_updZones (s : State) (zs : List Nat) (f : Zone → Zone) (hf : ∀ x, (f x).stopHold = x.stopHold) :
    (s.updZones zs f).anyHold = s.anyHold :=
  anyHold_map (fun e => if e.1 ∈ zs then (e.1, f e.2) else e) (fun e => by
    split
    · exact hf _
    · rfl) rfl

theorem anyHold_congr {s t : State} (h : t.zones = s.zones) : t.anyHold = s.anyHold := by unfold State.anyHold; rw [h]

theorem released_hold (x : Zone) : x.released.stopHold = x.stopHold := rfl
theorem lineLost_hold (x : Zone) : x.lineLost.stopHold = x.stopHold := by unfold Zone.lineLost; split <;> rfl

theorem keepOrder_hold (s : State) (t : Nat) : (s.keepOrder t).anyHold = s.anyHold ∧
    ((s.keepOrder t).zones = [] ↔ s.zones = []) := by
  unfold State.keepOrder
  split
  · exact ⟨rfl, .rfl⟩
  · exact ⟨anyHold_updZones _ _ _ (fun _ => rfl), by simp [State.updZones, Table.updAll]⟩

/-- The stop holds, and whether there are zones, stand as they were. -/
def SameHolds (s t : State) : Prop := t.anyHold = s.anyHold ∧ (t.zones = [] ↔ s.zones = [])

theorem SameHolds.trans {s t u : State} (h : SameHolds s t) (k : SameHolds t u) : SameHolds s u :=
  ⟨k.1.trans h.1, k.2.trans h.2⟩
theorem SameHolds.of_zones {s t : State} (h : t.zones = s.zones) : SameHolds s t := ⟨anyHold_congr h, by rw [h]⟩
theorem SameHolds.zone (s : State) (z : Nat) (f : Zone → Zone) (hf : ∀ x, (f x).stopHold = x.stopHold) :
    SameHolds s (s.updZone z f) := ⟨anyHold_updZone s z f hf, by simp [State.updZone, Table.upd]⟩
theorem SameHolds.zones (s : State) (zs : List Nat) (f : Zone → Zone) (hf : ∀ x, (f x).stopHold = x.stopHold) :
    SameHolds s (s.updZones zs f) := ⟨anyHold_updZones s zs f hf, by simp [State.updZones, Table.updAll]⟩

theorem markSuspect_holds (s : State) (z : Nat) (a : Option Nat) : SameHolds s (s.markSuspect z a) := by
  unfold State.markSuspect
  split
  · exact (SameHolds.zone s z (Zone.turn .suspect) (fun _ => rfl)).trans (keepOrder_hold _ _)
  · split
    · exact .zone s z (Zone.turn .suspect) (fun _ => rfl)
    · split
      · rename_i u _
        refine (SameHolds.zone s z (Zone.give .suspect u) (fun _ => rfl)).trans (SameHolds.trans ?_ (keepOrder_hold _ _))
        exact .of_zones rfl
      · exact .zone s z (Zone.turn .suspect) (fun _ => rfl)

theorem lineSuspect_holds (s : State) (n : Nat) : SameHolds s (s.lineSuspect n) := by
  unfold State.lineSuspect
  refine (SameHolds.zones s (s.layout.affectedZones n) Zone.lineLost lineLost_hold).trans ?_
  dsimp only
  generalize s.updZones (s.layout.affectedZones n) Zone.lineLost = s1
  generalize s.affectedHolders n = l
  induction l generalizing s1 with
  | nil => exact .of_zones rfl
  | cons t r ih =>
    refine SameHolds.trans ?_ (ih ((s1.untrack t).keepOrder t))
    exact SameHolds.trans (t := s1.untrack t) (.of_zones rfl) (keepOrder_hold _ _)

theorem reserve_holds {s t : State} {u : Nat} {e : List (Nat × Nat)} (h : s.reserve u e = some t) : SameHolds s t := by
  unfold State.reserve at h
  split at h
  · cases h
  · split at h <;> cases h
    refine SameHolds.trans (.zones s (e.map (fun q => q.1)) (Zone.give .reserved u) (fun _ => rfl)) (.of_zones rfl)

theorem tryGrant_holds (s : State) (c : Claim) : SameHolds s (s.tryGrant c) := by
  rcases tryGrant_cases s c with h1 | ⟨r, z, e, s1, _, _, _, _, hr, h1 | h1⟩ <;> rw [h1]
  · exact .of_zones rfl
  · exact (reserve_holds hr).trans (.of_zones rfl)
  · exact (reserve_holds hr).trans (.of_zones rfl)

theorem evaluate_holds (s : State) : SameHolds s s.evaluate :=
  evaluate_keeps (P := fun t => SameHolds s t) (fun t c h => h.trans (tryGrant_holds t c)) (.of_zones rfl)

/-- How stop holds, causes and the circuit state stand to each other, as it was. -/
theorem State.StopFits.congr {s t : State} (hs : s.StopFits) (hc : t.circuit = s.circuit)
    (he : s.circuit = .operating → t.causes.isEmpty = s.causes.isEmpty) (hh : SameHolds s t) : t.StopFits := by
  refine ⟨fun h => ?_, fun h => ?_, fun h hz => ?_⟩
  · rw [hc] at h
    rw [he h, hh.1]
    exact hs.operating h
  · rw [hc] at h
    rw [hh.1]; exact hs.census h
  · rw [hc] at h
    rw [hh.1]
    exact hs.halted h (fun h0 => hz (hh.2.mpr h0))

theorem anyHold_holdAll (s : State) (h : s.zones ≠ []) : s.holdAll.anyHold = true := by
  unfold State.anyHold State.holdAll
  cases hz : s.zones with
  | nil => exact absurd hz h
  | cons e r => simp [hz, State.updZones, Table.updAll, Table.keys]

theorem State.StopFits.arise {s : State} (hs : s.StopFits) (c : StopCause) : (s.arise c).StopFits := by
  have hne : ∀ u : State, u.holdAll.zones ≠ [] → u.zones ≠ [] := by
    intro u h h0
    exact h (by simp [State.holdAll, State.updZones, Table.updAll, h0])
  unfold State.arise
  split
  · exact ⟨(fun h => by cases h), (fun h => by cases h),
      fun _ hz => anyHold_holdAll { s with causes := s.causes.add c, circuit := .halted } (hne _ hz)⟩
  · rename_i hc
    refine ⟨(fun h => ?_), (fun h => ?_), fun _ hz => anyHold_holdAll { s with causes := s.causes.add c } (hne _ hz)⟩
    · exact absurd (hc.symm.trans h) (by simp)
    · exact absurd (hc.symm.trans h) (by simp)
  · rename_i hc
    exact hs.congr rfl (fun h => absurd (hc.symm.trans h) (by simp)) (.of_zones rfl)
  · rename_i hc
    cases c <;> exact hs.congr rfl (fun h => absurd (hc.symm.trans h) (by simp)) (.of_zones rfl)
  · rename_i hc
    cases c <;> exact hs.congr rfl (fun h => absurd (hc.symm.trans h) (by simp)) (.of_zones rfl)

theorem beginRefusal_none {s : State} (h : s.beginRefusal = none) :
    s.circuit = .census ∧ s.causes.first = none ∧ (∀ t r, s.trains.find t = some r → r.motion ≠ .untracked) := by
  unfold State.beginRefusal at h
  split at h
  · cases h
  rename_i hc
  simp only [ne_eq, Decidable.not_not] at hc
  split at h
  · cases h
  split at h
  · cases h
  split at h
  · cases h
  split at h
  · cases h
  rename_i ht
  split at h
  · cases h
  rename_i hf
  refine ⟨hc, hf, fun t r hr hm => ?_⟩
  unfold Table.least at ht
  simp only [Option.map_eq_none_iff, List.find?_eq_none] at ht
  exact ht _ (Table.mem_of_find hr) (by simp [hm])

theorem Causes.first_none {c : Causes} (h : c.first = none) : c.isEmpty = true := by
  obtain ⟨a, b, c, d⟩ := c
  cases a <;> cases b <;> cases c <;> cases d <;> first | rfl | cases h

theorem State.StopFits.act {s t : State} (hs : s.StopFits) (h : Act s t) : t.StopFits := by
  have same : ∀ u : State, u.circuit = s.circuit → u.causes = s.causes → SameHolds s u → u.StopFits :=
    fun u h1 h2 h3 => hs.congr h1 (fun _ => by rw [h2]) h3
  have auth : ∀ (u : State) (a : Authority), u.StopFits → (u.setAuthority a).StopFits := by
    intro u a hu
    obtain ⟨_, _, e⟩ := setAuthority_frame u a
    rw [e]; exact hu.congr rfl (fun _ => rfl) (.of_zones rfl)
  have dropped : ∀ u : State, u.circuit = s.circuit → u.zones = s.zones →
      (s.causes.isEmpty = true → u.causes.isEmpty = true) → u.StopFits := by
    intro u h1 h2 h3
    refine ⟨fun h => ?_, fun h => ?_, fun h hz => ?_⟩
    · rw [h1] at h
      exact ⟨h3 (hs.operating h).1, by rw [anyHold_congr h2]; exact (hs.operating h).2⟩
    · rw [h1] at h; rw [anyHold_congr h2]; exact hs.census h
    · rw [h1] at h; rw [anyHold_congr h2]; rw [h2] at hz; exact hs.halted h hz
  cases h with
  | stopInOn => exact State.StopFits.arise (s := { s with stopInPin := true }) (hs.congr rfl (fun _ => rfl) (.of_zones rfl)) _
  | keyOn =>
    exact auth _ _ (State.StopFits.arise (s := { s with keyMaint := true }) (hs.congr rfl (fun _ => rfl) (.of_zones rfl)) _)
  | stopInOff =>
    refine dropped _ rfl rfl ?_
    unfold Causes.isEmpty; simp; intros; simp [*]
  | keyOff =>
    have h1 : State.StopFits { s with keyMaint := false, causes := { s.causes with key := false } } := by
      refine dropped _ rfl rfl ?_
      unfold Causes.isEmpty; simp; intros; simp [*]
    unfold State.keyReleased
    dsimp only
    split
    · exact auth _ _ h1
    · exact h1
  | arise c _ => exact hs.arise c
  | configEntered => exact ⟨(fun h => by cases h), (fun h => by cases h), (fun h => by cases h)⟩
  | built _ =>
    refine ⟨(fun h => by cases h), fun _ => ?_, (fun h => by cases h)⟩
    rw [anyHold_false_iff]
    intro e he
    simp only [State.raise_zones, State.buildLive, List.mem_map] at he
    obtain ⟨q, _, rfl⟩ := he
    rfl
  | begun h =>
    obtain ⟨hc, hf, _⟩ := beginRefusal_none h
    refine ⟨fun _ => ⟨Causes.first_none hf, hs.census hc⟩, (fun h => by cases h), (fun h => by cases h)⟩
  | resumed g hc h1 h2 =>
    unfold State.resumed
    dsimp only
    split
    · rename_i hh
      have hc' : (s.releaseGroup g).circuit = .halted := hc
      refine ⟨fun h => absurd (hc'.symm.trans h) (by simp), fun h => absurd (hc'.symm.trans h) (by simp), fun _ _ => hh⟩
    · rename_i hh
      refine ⟨fun _ => ⟨?_, (Bool.not_eq_true _).mp hh⟩, (fun h => by cases h), (fun h => by cases h)⟩
      show Causes.isEmpty { s.causes with commanded := false, anomaly := false } = true
      unfold Causes.isEmpty; simp [h1, h2]
  | clearCauses hc =>
    exact hs.congr rfl (fun h => absurd (hc.symm.trans h) (by simp)) (.of_zones rfl)
  | authority a _ _ => exact auth s a hs
  | enterAnomaly k n b _ =>
    unfold State.enterAnomaly
    split
    · exact same _ rfl rfl (.of_zones rfl)
    · split <;> exact same _ rfl rfl (.of_zones rfl)
  | tick _ =>
    refine same _ rfl rfl ⟨anyHold_map (fun e => (e.1, { e.2 with timer := e.2.timer.tick (s.layout.timerLimit e.1) })) (fun _ => rfl) rfl, ?_⟩
    simp [State.tick]
  | zoneTimer z f => exact same _ rfl rfl (.zone s z _ (fun _ => rfl))
  | occupy _ z u h _ =>
    unfold State.occupy at h
    split at h <;> cases h
    exact same _ rfl rfl (.zone s z _ (fun _ => rfl))
  | trail _ z u h =>
    unfold State.trail at h
    split at h <;> cases h
    exact same _ rfl rfl (.zone s z _ (fun _ => rfl))
  | release _ u zs h =>
    unfold State.release at h
    split at h
    · cases h
    split at h <;> cases h
    exact same _ rfl rfl ((SameHolds.zones s (s.heldBy u zs) _ released_hold).trans (.of_zones rfl))
  | evaluate =>
    obtain ⟨_, _, _, _, _, e⟩ := evaluate_frame s
    exact same _ (evaluate_circuit s) (by rw [e]) (evaluate_holds s)
  | mark z a _ =>
    obtain ⟨_, _, e⟩ := markSuspect_onTrack s z a
    exact same _ (by rw [e]) (by rw [e]) (markSuspect_holds s z a)
  | lineSuspect n =>
    obtain ⟨_, _, e⟩ := lineSuspect_onTrack s n
    exact same _ (by rw [e]) (by rw [e]) (lineSuspect_holds s n)
  | enterClaim _ u b _ h => obtain ⟨_, _, _, rfl⟩ := enterClaim_eq h; exact same _ rfl rfl (.of_zones rfl)
  | placed u tag z _ _ _ _ _ _ _ =>
    exact same _ rfl rfl ((SameHolds.zone s z (Zone.give .occupied u) (fun _ => rfl)).trans (.of_zones rfl))
  | withdrawn u f hf =>
    refine same _ rfl rfl ((SameHolds.zones s (s.heldBy u (s.holdOf u)) f ?_).trans (.of_zones rfl))
    rcases hf with rfl | rfl <;> exact fun _ => rfl
  | relocated u z _ _ _ _ _ =>
    exact same _ rfl rfl ((SameHolds.zones s ((s.heldBy u (s.holdOf u)).filter (fun y => decide (y ≠ z))) (Zone.leave .suspect) (fun _ => rfl)).trans
      ((SameHolds.zone _ z (Zone.give .occupied u) (fun _ => rfl)).trans (.of_zones rfl)))
  | unheld zs st _ _ => exact same _ rfl rfl (.zones s zs _ (fun _ => rfl))
  | _ => exact same _ rfl rfl (.of_zones rfl)

theorem State.StopFits.move {s t : State} (hs : s.StopFits) (h : Move s t) : t.StopFits := by
  cases h with
  | act h => exact hs.act h
  | hardReset =>
    unfold State.hardReset
    split
    · refine ⟨(fun h => by cases h), fun _ => ?_, (fun h => by cases h)⟩
      rw [anyHold_false_iff]
      intro e he
      simp only [State.buildLive, List.mem_map] at he
      obtain ⟨q, _, rfl⟩ := he
      rfl
    · exact ⟨(fun h => by cases h), (fun h => by cases h), (fun h => by cases h)⟩
  | _ => exact hs.congr rfl (fun _ => rfl) (.of_zones rfl)

end Sys2Proof.Machine
end

