-- ==== Sys2Proof/Laws/Live.lean ====
section
/-! SUPPORT. What every move keeps of the tables: their canonical form, and that the live records are those of the committed
layout. -/

namespace Sys2Proof.Machine

/-- Zone and train records are those of the same numbers, and no zone has become TRAILING. -/
structure Tame (s t : State) : Prop where
  zones : t.zones.keys = s.zones.keys
  trains : t.trains.keys = s.trains.keys
  trailing : ∀ z, t.zoneState z = some .trailing → s.zoneState z = some .trailing

theorem Tame.of_eq {s t : State} (h1 : t.zones = s.zones) (h2 : t.trains = s.trains) : Tame s t :=
  ⟨by rw [h1], by rw [h2], fun z h => by unfold State.zoneState at *; rw [← h1]; exact h⟩

theorem Tame.trans {s t u : State} (h : Tame s t) (k : Tame t u) : Tame s u :=
  ⟨k.zones.trans h.zones, k.trains.trans h.trains, fun z hz => h.trailing z (k.trailing z hz)⟩

/-- A change of zone records that makes none TRAILING. -/
theorem Tame.onZones (s : State) (zs : List Nat) (f : Zone → Zone) (hf : ∀ x, (f x).state = .trailing → x.state = .trailing) :
    Tame s (s.updZones zs f) := by
  refine ⟨by simp, rfl, fun z h => ?_⟩
  rw [zoneState_updZones] at h
  split at h
  · unfold State.zoneState
    cases hz : s.zones.find z with
    | none => rw [hz] at h; cases h
    | some x =>
      rw [hz] at h
      simp only [Option.map_some, Option.some.injEq] at h ⊢
      exact hf x h
  · exact h

theorem Tame.onZone (s : State) (z : Nat) (f : Zone → Zone) (hf : ∀ x, (f x).state = .trailing → x.state = .trailing) :
    Tame s (s.updZone z f) := by
  rw [State.updZone_eq_updZones]; exact .onZones s [z] f hf

theorem Tame.onTrain (s : State) (t : Nat) (f : Train → Train) : Tame s (s.updTrain t f) :=
  ⟨rfl, by simp, fun _ h => h⟩

theorem Tame.keepOrder (s : State) (t : Nat) : Tame s (s.keepOrder t) := by
  unfold State.keepOrder
  split
  · exact .of_eq rfl rfl
  · exact .onZones _ _ _ (fun _ h => by cases h)

theorem Tame.markSuspect (s : State) (z : Nat) (a : Option Nat) : Tame s (s.markSuspect z a) := by
  have h1 : Tame s (s.updZone z (Zone.turn .suspect)) := .onZone s z _ (fun _ h => by cases h)
  unfold State.markSuspect
  split
  · exact h1.trans (.keepOrder _ _)
  · split
    · exact h1
    · rename_i u
      split
      · exact ((Tame.onZone s z (Zone.give .suspect u) (fun _ h => by cases h)).trans (.onTrain _ _ _)).trans (.keepOrder _ _)
      · exact h1

theorem lineLost_trailing (x : Zone) (h : x.lineLost.state = .trailing) : x.state = .trailing := by
  unfold Zone.lineLost at h
  split at h <;> first | exact h | cases h

theorem Tame.foldl {α : Type} (f : State → α → State) (h : ∀ s a, Tame s (f s a)) (l : List α) (s : State) :
    Tame s (l.foldl f s) := by
  induction l generalizing s with
  | nil => exact .of_eq rfl rfl
  | cons a r ih => exact (h s a).trans (ih _)

theorem Tame.lineSuspect (s : State) (n : Nat) : Tame s (s.lineSuspect n) := by
  unfold State.lineSuspect
  exact (Tame.onZones s (s.layout.affectedZones n) Zone.lineLost lineLost_trailing).trans
    (.foldl _ (fun s t => (Tame.onTrain s t (fun r => { r with motion := .untracked })).trans (.keepOrder _ t)) _ _)

theorem released_trailing (x : Zone) (h : x.released.state = .trailing) : x.state = .trailing := by
  unfold Zone.released at h
  split at h <;> cases h

theorem Tame.occupy {s t : State} {z u : Nat} (h : s.occupy z u = some t) : Tame s t := by
  unfold State.occupy at h
  split at h <;> cases h
  exact .onZone _ _ _ (fun _ h => by cases h)

theorem Tame.release {s t : State} {u : Nat} {zs : List Nat} (h : s.release u zs = some t) : Tame s t := by
  unfold State.release at h
  split at h
  · cases h
  · split at h <;> cases h
    exact (Tame.onZones s (s.heldBy u zs) _ released_trailing).trans (.onTrain _ _ _)

theorem Tame.reserve {s t : State} {u : Nat} {e : List (Nat × Nat)} (h : s.reserve u e = some t) : Tame s t := by
  unfold State.reserve at h
  split at h
  · cases h
  · split at h <;> cases h
    exact (Tame.onZones s (e.map (fun q => q.1)) (Zone.give .reserved u) (fun _ h => by cases h)).trans (.onTrain _ _ _)

theorem Tame.granted (s : State) (u : Nat) : Tame s (s.granted u) := ⟨rfl, by simp [State.granted], fun _ h => h⟩

theorem Tame.tryGrant (s : State) (c : Claim) : Tame s (s.tryGrant c) := by
  rcases tryGrant_cases s c with h1 | ⟨r, z, e, s1, _, _, _, _, hr, h1 | h1⟩ <;> rw [h1]
  · exact .of_eq rfl rfl
  · exact (Tame.reserve hr).trans (.granted ..)
  · exact (Tame.reserve hr).trans ((Tame.granted s1 c.train).trans (.of_eq rfl rfl))

theorem Tame.evaluate (s : State) : Tame s s.evaluate :=
  evaluate_keeps (P := fun t => Tame s t) (fun t c h => h.trans (.tryGrant t c)) (.of_eq rfl rfl)

theorem Tame.arise (s : State) (c : StopCause) : Tame s (s.arise c) := by
  have hold : ∀ u : State, Tame u u.holdAll := fun u => .onZones u _ _ (fun _ h => h)
  unfold State.arise
  split
  · refine Tame.trans (t := State.holdAll { s with causes := s.causes.add c, circuit := .halted }) ?_ (.of_eq rfl rfl)
    exact Tame.trans (t := { s with causes := s.causes.add c, circuit := .halted }) (.of_eq rfl rfl) (hold _)
  · refine Tame.trans (t := State.holdAll { s with causes := s.causes.add c }) ?_ (.of_eq rfl rfl)
    exact Tame.trans (t := { s with causes := s.causes.add c }) (.of_eq rfl rfl) (hold _)
  · exact .of_eq rfl rfl
  · cases c <;> exact .of_eq rfl rfl
  · cases c <;> exact .of_eq rfl rfl

theorem zoneState_congr {s t : State} (h : t.zones = s.zones) (z : Nat) : t.zoneState z = s.zoneState z := by
  unfold State.zoneState; rw [h]

theorem relocated_zones (s : State) (u z : Nat) : (s.relocated u z).zones =
    ((s.updZones ((s.heldBy u (s.holdOf u)).filter (fun y => decide (y ≠ z))) (Zone.leave .suspect)).updZone z
      (Zone.give .occupied u)).zones := rfl

theorem keys_nil {α : Type} {t : Table α} (h : t.keys = []) : t = [] := by
  unfold Table.keys at h
  exact List.map_eq_nil_iff.mp h

theorem wf_of_keys {α β : Type} {t : Table α} {u : Table β} (h : t.keys = u.keys) (k : u.wf) : t.wf := by
  unfold Table.wf; rw [h]; exact k

/-! ## The canonical form -/

theorem State.Canonical.tame {s t : State} (hs : s.Canonical) (h : Tame s t) (h1 : t.layout = s.layout)
    (h2 : t.store = s.store) (h3 : t.switches = s.switches) (h4 : t.nodes = s.nodes) (h5 : t.indicators = s.indicators) :
    t.Canonical :=
  ⟨by rw [h1]; exact hs.layout, by rw [h2]; exact hs.image, wf_of_keys h.zones hs.zones, wf_of_keys h.trains hs.trains,
    by rw [h3]; exact hs.switches, by rw [h4]; exact hs.nodes, by rw [h5]; exact hs.indicators⟩

theorem buildLive_keys (s : State) : s.buildLive.zones.keys = s.layout.zones.keys ∧
    s.buildLive.switches.keys = s.layout.switches.keys ∧ s.buildLive.nodes.keys = List.range Config.nodeKeys := by
  refine ⟨?_, ?_, ?_⟩
  · simp only [State.buildLive, Table.keys, List.map_map]; rfl
  · simp only [State.buildLive, Table.keys, List.map_map]; rfl
  · simp only [State.buildLive, Table.keys, List.map_map]; exact List.map_id' _

theorem range_sorted (n : Nat) : (List.range n).Pairwise (fun a b => a < b) := List.pairwise_lt_range

theorem buildLive_canonical {s : State} (hl : s.layout.Canonical) (hi : s.store.image.Canonical) (hd : s.indicators.wf) :
    s.buildLive.Canonical :=
  ⟨hl, hi, wf_of_keys (buildLive_keys s).1 hl.1, Table.wf_nil, wf_of_keys (buildLive_keys s).2.1 hl.2.2.2,
    by unfold Table.wf; rw [(buildLive_keys s).2.2]; exact range_sorted _, hd⟩

theorem tick_keys (s : State) : s.tick.zones.keys = s.zones.keys ∧ s.tick.switches.keys = s.switches.keys := by
  constructor
  · simp only [State.tick, Table.keys, List.map_map]; rfl
  · simp only [State.tick, Table.keys, List.map_map]; rfl

set_option maxHeartbeats 2000000 in
theorem State.Canonical.act {s t : State} (hs : s.Canonical) (h : Act s t) : t.Canonical := by
  cases h with
  | indicators i hi => exact ⟨hs.layout, hs.image, hs.zones, hs.trains, hs.switches, hs.nodes, hi hs.indicators⟩
  | store x hx => exact ⟨hs.layout, hx hs.layout hs.image, hs.zones, hs.trains, hs.switches, hs.nodes, hs.indicators⟩
  | load l _ hl => exact ⟨hl hs.layout, hs.image, hs.zones, hs.trains, hs.switches, hs.nodes, hs.indicators⟩
  | stopInOn =>
    have := Tame.arise { s with stopInPin := true } .stopIn
    obtain ⟨_, _, _, _, _, e⟩ := arise_frame { s with stopInPin := true } .stopIn
    rw [e] at this ⊢
    exact hs.tame ⟨this.zones, this.trains, this.trailing⟩ rfl rfl rfl rfl rfl
  | keyOn =>
    have := Tame.arise { s with keyMaint := true } .key
    obtain ⟨_, _, e⟩ := setAuthority_frame (State.arise { s with keyMaint := true } .key) .maintenance
    rw [e]
    obtain ⟨_, _, _, _, _, e⟩ := arise_frame { s with keyMaint := true } .key
    rw [e] at this ⊢
    exact hs.tame ⟨this.zones, this.trains, this.trailing⟩ rfl rfl rfl rfl rfl
  | keyOff =>
    unfold State.keyReleased
    dsimp only
    split
    · obtain ⟨_, _, e⟩ := setAuthority_frame { s with keyMaint := false, causes := { s.causes with key := false } } .console
      rw [e]; exact hs.tame (.of_eq rfl rfl) rfl rfl rfl rfl rfl
    · exact hs.tame (.of_eq rfl rfl) rfl rfl rfl rfl rfl
  | arise c _ =>
    have := Tame.arise s c
    obtain ⟨_, _, _, _, _, e⟩ := arise_frame s c
    rw [e] at this ⊢
    exact hs.tame this rfl rfl rfl rfl rfl
  | configEntered =>
    exact ⟨hs.layout, hs.image, Table.wf_nil, Table.wf_nil, Table.wf_nil, Table.wf_nil, Table.wf_nil⟩
  | built _ =>
    have := buildLive_canonical hs.layout hs.image hs.indicators
    exact ⟨this.layout, this.image, this.zones, this.trains, this.switches, this.nodes, this.indicators⟩
  | resumed g _ _ _ =>
    have h1 : Tame s (s.releaseGroup g) := .onZones s _ _ (fun _ h => h)
    unfold State.resumed
    dsimp only
    split
    · exact hs.tame h1 rfl rfl rfl rfl rfl
    · exact hs.tame (h1.trans (.of_eq rfl rfl)) rfl rfl rfl rfl rfl
  | authority a _ _ =>
    obtain ⟨_, _, e⟩ := setAuthority_frame s a
    rw [e]; exact hs.tame (.of_eq rfl rfl) rfl rfl rfl rfl rfl
  | enterAnomaly k n b _ =>
    unfold State.enterAnomaly
    split
    · exact hs.tame (.of_eq rfl rfl) rfl rfl rfl rfl rfl
    · split <;> exact hs.tame (.of_eq rfl rfl) rfl rfl rfl rfl rfl
  | tick _ =>
    exact ⟨hs.layout, hs.image, wf_of_keys (tick_keys s).1 hs.zones, hs.trains, wf_of_keys (tick_keys s).2 hs.switches, hs.nodes,
      hs.indicators⟩
  | zoneTimer z f => exact hs.tame (.onZone s z _ (fun _ h => h)) rfl rfl rfl rfl rfl
  | beginMove k r q _ _ =>
    exact ⟨hs.layout, hs.image, hs.zones, hs.trains, wf_of_keys (by simp [State.beginMove]) hs.switches, hs.nodes, hs.indicators⟩
  | switchTo k f _ =>
    exact ⟨hs.layout, hs.image, hs.zones, hs.trains, wf_of_keys (by simp) hs.switches, hs.nodes, hs.indicators⟩
  | node n f =>
    exact ⟨hs.layout, hs.image, hs.zones, hs.trains, hs.switches, wf_of_keys (by simp) hs.nodes, hs.indicators⟩
  | remapped n a _ =>
    exact ⟨⟨hs.layout.1, hs.layout.2.1, Table.wf_put hs.layout.2.2.1 n a, hs.layout.2.2.2⟩, hs.image, hs.zones, hs.trains,
      hs.switches, wf_of_keys (by simp [State.remapped]) hs.nodes, hs.indicators⟩
  | occupy _ z u h _ =>
    have := Tame.occupy h
    obtain ⟨_, _, rfl⟩ := occupy_onTrack h
    exact hs.tame this rfl rfl rfl rfl rfl
  | trail _ z u h =>
    unfold State.trail at h
    split at h <;> cases h
    exact ⟨hs.layout, hs.image, Table.wf_upd hs.zones _ _, hs.trains, hs.switches, hs.nodes, hs.indicators⟩
  | release _ u zs h =>
    have := Tame.release h
    obtain ⟨_, _, rfl⟩ := release_onTrack h
    exact hs.tame this rfl rfl rfl rfl rfl
  | evaluate =>
    have := Tame.evaluate s
    obtain ⟨_, _, _, _, _, e⟩ := evaluate_frame s
    rw [e] at this ⊢
    exact hs.tame this rfl rfl rfl rfl rfl
  | mark z a _ =>
    have := Tame.markSuspect s z a
    obtain ⟨_, _, e⟩ := markSuspect_onTrack s z a
    rw [e] at this ⊢
    exact hs.tame this rfl rfl rfl rfl rfl
  | lineSuspect n =>
    have := Tame.lineSuspect s n
    obtain ⟨_, _, e⟩ := lineSuspect_onTrack s n
    rw [e] at this ⊢
    exact hs.tame this rfl rfl rfl rfl rfl
  | train u f _ _ => exact hs.tame (.onTrain ..) rfl rfl rfl rfl rfl
  | dropClaim u => exact hs.tame ⟨rfl, by simp, fun _ h => h⟩ rfl rfl rfl rfl rfl
  | enterClaim _ u b _ h =>
    obtain ⟨_, _, _, rfl⟩ := enterClaim_eq h
    exact hs.tame ⟨rfl, by simp, fun _ h => h⟩ rfl rfl rfl rfl rfl
  | placed u tag z _ _ _ _ _ _ _ =>
    exact ⟨hs.layout, hs.image, Table.wf_upd hs.zones _ _, Table.wf_put hs.trains _ _, hs.switches, hs.nodes, hs.indicators⟩
  | withdrawn u f _ =>
    exact ⟨hs.layout, hs.image, Table.wf_updAll hs.zones _ _, Table.wf_del hs.trains _, hs.switches, hs.nodes, hs.indicators⟩
  | relocated u z _ _ _ _ _ =>
    exact ⟨hs.layout, hs.image, Table.wf_upd (Table.wf_updAll hs.zones _ _) _ _,
      wf_of_keys (by simp [State.relocated]) hs.trains, hs.switches, hs.nodes, hs.indicators⟩
  | unheld zs st _ hst =>
    refine hs.tame (.onZones s zs _ (fun _ h => ?_)) rfl rfl rfl rfl rfl
    rcases hst with rfl | rfl <;> cases h
  | _ => exact hs.tame (.of_eq rfl rfl) rfl rfl rfl rfl rfl

theorem Store.interrupted_canonical {x : Store} (h : x.image.Canonical) : x.interrupted.image.Canonical := by
  unfold Store.interrupted
  split
  · exact Layout.empty_canonical
  · exact h
  · exact h

theorem Store.loads_eq {x : Store} {l : Layout} (h : x.loads = some l) :
    l = x.image ∧ l.invalid = none ∧ x.state = .valid := by
  unfold Store.loads at h
  split at h <;> cases h
  rename_i h
  exact ⟨rfl, h.2.2, h.1⟩

theorem State.Canonical.move {s t : State} (hs : s.Canonical) (h : Move s t) : t.Canonical := by
  cases h with
  | act h => exact hs.act h
  | resetAsserted =>
    exact ⟨hs.layout, Store.interrupted_canonical hs.image, hs.zones, hs.trains, hs.switches, hs.nodes, Table.wf_nil⟩
  | hardReset =>
    unfold State.hardReset
    split
    · rename_i l hl
      have he := (Store.loads_eq hl).1
      refine buildLive_canonical ?_ hs.image Table.wf_nil
      show l.Canonical
      rw [he]
      exact Store.interrupted_canonical hs.image
    · exact ⟨Layout.empty_canonical, Layout.empty_canonical, Table.wf_nil, Table.wf_nil, Table.wf_nil, Table.wf_nil, Table.wf_nil⟩
  | _ => exact hs.tame (.of_eq rfl rfl) rfl rfl rfl rfl rfl

/-! ## The live records -/

theorem State.LiveFits.lively {s : State} (hs : s.LiveFits) (h : s.Lively) : s.live = true := by
  cases hl : s.live with
  | true => rfl
  | false =>
    have h0 := hs.absent hl
    rcases h with h | h | h | h | h
    · rw [hl] at h; cases h
    · exact absurd h0.1 h
    · exact absurd h0.2.2.2.1 h
    · exact absurd h0.2.2.2.2.1 h
    · exact absurd h0.2.2.2.2.2.2.2.2.1 h

/-- Records change, but not which records there are. -/
theorem State.LiveFits.tame {s t : State} (hs : s.LiveFits) (h : Tame s t) (hc : t.circuit = s.circuit)
    (hl : t.layout = s.layout) (hw : s.live = false → s.waitQueue = [] → t.waitQueue = [])
    (h1 : t.switches.keys = s.switches.keys) (h2 : t.nodes.keys = s.nodes.keys)
    (h3 : s.live = false → s.anomalies = [] → t.anomalies = []) (h4 : s.live = false → s.tableFull = false → t.tableFull = false)
    (h5 : s.live = false → t.timebase = s.timebase) (h6 : s.live = false → s.poll = none → t.poll = none)
    (h7 : t.causes.commanded = true → s.causes.commanded = true) (h8 : t.causes.anomaly = true → s.causes.anomaly = true) :
    t.LiveFits := by
  have hlive : t.live = s.live := by unfold State.live; rw [hc]
  refine ⟨fun hn => ?_, fun hn => ?_, fun z hz => ?_⟩
  · rw [hlive] at hn
    obtain ⟨a1, a2, a3, a4, a5, a6, a7, a8, a9, a10, a11⟩ := hs.absent hn
    refine ⟨keys_nil (by rw [h.zones, a1]; rfl), keys_nil (by rw [h.trains, a2]; rfl), hw hn a3,
      keys_nil (by rw [h1, a4]; rfl), keys_nil (by rw [h2, a5]; rfl), h3 hn a6, h4 hn a7, by rw [h5 hn]; exact a8, h6 hn a9, ?_, ?_⟩
    · cases hx : t.causes.commanded with
      | false => rfl
      | true => rw [h7 hx] at a10; cases a10
    · cases hx : t.causes.anomaly with
      | false => rfl
      | true => rw [h8 hx] at a11; cases a11
  · rw [hlive] at hn
    obtain ⟨a1, a2, a3⟩ := hs.built hn
    exact ⟨by rw [h.zones, hl]; exact a1, by rw [h1, hl]; exact a2, by rw [h2]; exact a3⟩
  · rw [hl]; exact hs.trailing z (h.trailing z hz)

theorem State.LiveFits.tame' {s t : State} (hs : s.LiveFits) (h : Tame s t) (hc : t.circuit = s.circuit)
    (hl : t.layout = s.layout) (hw : t.waitQueue = s.waitQueue) (h1 : t.switches = s.switches) (h2 : t.nodes = s.nodes)
    (h3 : t.anomalies = s.anomalies) (h4 : t.tableFull = s.tableFull) (h5 : t.timebase = s.timebase) (h6 : t.poll = s.poll)
    (h7 : t.causes = s.causes) : t.LiveFits :=
  hs.tame h hc hl (fun _ h => hw.trans h) (by rw [h1]) (by rw [h2]) (fun _ h => h3.trans h) (fun _ h => h4.trans h)
    (fun _ => h5) (fun _ h => h6.trans h) (by rw [h7]; exact id) (by rw [h7]; exact id)

theorem State.LiveFits.arise {s : State} (hs : s.LiveFits) (c : StopCause) : (s.arise c).LiveFits := by
  have ht := Tame.arise s c
  have hl := arise_live s c
  refine ⟨fun hn => ?_, fun hn => ?_, fun z hz => ?_⟩
  · rw [hl] at hn
    obtain ⟨a1, a2, a3, a4, a5, a6, a7, a8, a9, a10, a11⟩ := hs.absent hn
    have hc : (s.arise c).causes.commanded = s.causes.commanded ∧ (s.arise c).causes.anomaly = s.causes.anomaly := by
      unfold State.live at hn
      unfold State.arise
      cases hcc : s.circuit <;> rw [hcc] at hn <;> cases c <;>
        first | exact absurd hn (by decide) | simp [Causes.add]
    rw [hc.1, hc.2]
    have hz := keys_nil (t := (s.arise c).zones) (by rw [ht.zones, a1]; rfl)
    have htr := keys_nil (t := (s.arise c).trains) (by rw [ht.trains, a2]; rfl)
    obtain ⟨_, _, _, _, _, e⟩ := arise_frame s c
    rw [e] at hz htr ⊢
    exact ⟨hz, htr, a3, a4, a5, a6, a7, a8, a9, a10, a11⟩
  · rw [hl] at hn
    obtain ⟨a1, a2, a3⟩ := hs.built hn
    have hz := ht.zones
    obtain ⟨_, _, _, _, _, e⟩ := arise_frame s c
    rw [e] at hz ⊢
    exact ⟨hz.trans a1, a2, a3⟩
  · have := hs.trailing z (ht.trailing z hz)
    obtain ⟨_, _, _, _, _, e⟩ := arise_frame s c
    rw [e]
    exact this

theorem State.LiveFits.setAuthority {s : State} (hs : s.LiveFits) (a : Authority) : (s.setAuthority a).LiveFits := by
  obtain ⟨_, _, e⟩ := setAuthority_frame s a
  rw [e]; exact hs.tame' (.of_eq rfl rfl) rfl rfl rfl rfl rfl rfl rfl rfl rfl rfl

/-- No zone of a freshly built table is TRAILING. -/
theorem buildLive_zoneState (s : State) (z : Nat) (x : ZoneState) (h : s.buildLive.zoneState z = some x) : x = .suspect := by
  unfold State.zoneState State.buildLive at h
  dsimp only at h
  cases hf : Table.find (s.layout.zones.map (fun e => (e.1, Zone.fresh))) z with
  | none => rw [hf] at h; cases h
  | some y =>
    have := Table.mem_of_find hf
    simp only [List.mem_map, Prod.mk.injEq] at this
    obtain ⟨e, _, _, rfl⟩ := this
    rw [hf] at h
    cases h
    rfl

theorem buildLive_fits {s : State} : s.buildLive.LiveFits := by
  refine ⟨(fun h => by cases h), fun _ => buildLive_keys s, fun z hz => ?_⟩
  cases buildLive_zoneState s z _ hz

theorem State.LiveFits.bare {t : State} (h : t.live = false) (h1 : t.zones = []) (h2 : t.trains = []) (h3 : t.waitQueue = [])
    (h4 : t.switches = []) (h5 : t.nodes = []) (h6 : t.anomalies = []) (h7 : t.tableFull = false) (h8 : t.timebase = 0)
    (h9 : t.poll = none) (h10 : t.causes.commanded = false) (h11 : t.causes.anomaly = false) : t.LiveFits := by
  refine ⟨fun _ => ⟨h1, h2, h3, h4, h5, h6, h7, h8, h9, h10, h11⟩, fun hl => ?_, fun z hz => ?_⟩
  · rw [h] at hl; cases hl
  · unfold State.zoneState at hz; rw [h1] at hz; cases hz

theorem evaluate_empty {s : State} (h : s.waitQueue = []) : s.evaluate = s := by
  unfold State.evaluate; rw [h]; rfl

set_option maxHeartbeats 2000000 in
theorem State.LiveFits.act {s t : State} (hs : s.LiveFits) (h : Act s t) : t.LiveFits := by
  cases h with
  | acknowledge f full hf =>
    refine hs.tame (.of_eq rfl rfl) rfl rfl (fun _ h => h) rfl rfl (fun _ h => by dsimp only; rw [h]; rfl) (fun _ h => ?_)
      (fun _ => rfl) (fun _ h => h) id id
    dsimp only
    cases full
    · rfl
    · rw [hf rfl] at h; cases h
  | load l hc hl =>
    have h0 := hs.absent (by unfold State.live; rw [hc]; rfl)
    refine State.LiveFits.bare (by unfold State.live; rw [hc]; rfl) h0.1 h0.2.1 h0.2.2.1 h0.2.2.2.1 h0.2.2.2.2.1 h0.2.2.2.2.2.1
      h0.2.2.2.2.2.2.1 h0.2.2.2.2.2.2.2.1 h0.2.2.2.2.2.2.2.2.1 h0.2.2.2.2.2.2.2.2.2.1 h0.2.2.2.2.2.2.2.2.2.2
  | stopInOn =>
    exact State.LiveFits.arise (s := { s with stopInPin := true })
      (hs.tame' (.of_eq rfl rfl) rfl rfl rfl rfl rfl rfl rfl rfl rfl rfl) _
  | stopInOff => exact hs.tame (.of_eq rfl rfl) rfl rfl (fun _ h => h) rfl rfl (fun _ h => h) (fun _ h => h) (fun _ => rfl) (fun _ h => h) id id
  | keyOn =>
    refine State.LiveFits.setAuthority (State.LiveFits.arise (s := { s with keyMaint := true })
      (hs.tame' (.of_eq rfl rfl) rfl rfl rfl rfl rfl rfl rfl rfl rfl rfl) _) _
  | keyOff =>
    have h1 : State.LiveFits { s with keyMaint := false, causes := { s.causes with key := false } } :=
      hs.tame (.of_eq rfl rfl) rfl rfl (fun _ h => h) rfl rfl (fun _ h => h) (fun _ h => h) (fun _ => rfl) (fun _ h => h) id id
    unfold State.keyReleased
    dsimp only
    split
    · exact h1.setAuthority _
    · exact h1
  | arise c _ => exact hs.arise c
  | configEntered => exact .bare rfl rfl rfl rfl rfl rfl rfl rfl rfl rfl rfl rfl
  | built _ =>
    have h := buildLive_fits (s := s)
    exact h.tame' (.of_eq rfl rfl) rfl rfl rfl rfl rfl rfl rfl rfl rfl rfl
  | begun h =>
    have hl : s.live = true := by unfold State.live; rw [(beginRefusal_none h).1]; rfl
    exact ⟨(fun h => by cases h), fun _ => hs.built hl, hs.trailing⟩
  | resumed g hc _ _ =>
    have hl : s.live = true := by unfold State.live; rw [hc]; rfl
    have h1 : (s.releaseGroup g).LiveFits :=
      hs.tame' (.onZones s _ _ (fun _ h => h)) rfl rfl rfl rfl rfl rfl rfl rfl rfl rfl
    unfold State.resumed
    dsimp only
    split
    · exact h1
    · exact ⟨(fun h => by cases h), fun _ => h1.built hl, h1.trailing⟩
  | clearCauses hc =>
    exact hs.tame (.of_eq rfl rfl) rfl rfl (fun _ h => h) rfl rfl (fun _ h => h) (fun _ h => h) (fun _ => rfl) (fun _ h => h)
      (fun h => by cases h) (fun h => by cases h)
  | authority a _ _ => exact hs.setAuthority a
  | enterAnomaly k n b hv =>
    have hl := hs.lively hv
    have hno : ∀ {P : Prop}, s.live = false → P := fun h => by rw [hl] at h; cases h
    unfold State.enterAnomaly
    split
    · exact hs.tame (.of_eq rfl rfl) rfl rfl (fun _ h => h) rfl rfl (fun h => hno h) (fun _ h => h) (fun _ => rfl) (fun _ h => h) id id
    · split
      · exact hs.tame (.of_eq rfl rfl) rfl rfl (fun _ h => h) rfl rfl (fun h => hno h) (fun _ h => h) (fun _ => rfl) (fun _ h => h) id id
      · exact hs.tame (.of_eq rfl rfl) rfl rfl (fun _ h => h) rfl rfl (fun _ h => h) (fun h => hno h) (fun _ => rfl) (fun _ h => h) id id
  | sweep =>
    exact hs.tame (.of_eq rfl rfl) rfl rfl (fun _ h => h) rfl rfl (fun _ h => by rw [State.sweep, h]; rfl) (fun _ h => h) (fun _ => rfl) (fun _ h => h) id id
  | tick hl =>
    have hno : ∀ {P : Prop}, s.live = false → P := fun h => by rw [hl] at h; cases h
    refine hs.tame ⟨?_, rfl, fun z hz => ?_⟩ rfl rfl (fun _ h => h) ?_ rfl (fun _ h => h) (fun _ h => h) (fun h => hno h) (fun _ h => h) id id
    · exact (tick_keys s).1
    · have := Table.find_mapVals s.zones (fun k x => { x with timer := x.timer.tick (s.layout.timerLimit k) }) z
      unfold State.zoneState State.tick at hz
      dsimp only at hz
      rw [this] at hz
      unfold State.zoneState
      cases hf : s.zones.find z with
      | none => rw [hf] at hz; cases hz
      | some x => rw [hf] at hz; exact hz
    · exact (tick_keys s).2
  | zoneTimer z f => exact hs.tame' (.onZone s z _ (fun _ h => h)) rfl rfl rfl rfl rfl rfl rfl rfl rfl rfl
  | beginMove k r q _ _ =>
    exact hs.tame (.of_eq rfl rfl) rfl rfl (fun _ h => h) (by simp [State.beginMove]) rfl (fun _ h => h) (fun _ h => h) (fun _ => rfl) (fun _ h => h) id id
  | switchTo k f _ =>
    exact hs.tame (.of_eq rfl rfl) rfl rfl (fun _ h => h) (by simp) rfl (fun _ h => h) (fun _ h => h) (fun _ => rfl) (fun _ h => h) id id
  | node n f =>
    exact hs.tame (.of_eq rfl rfl) rfl rfl (fun _ h => h) rfl (by simp) (fun _ h => h) (fun _ h => h) (fun _ => rfl) (fun _ h => h) id id
  | remapped n a hl =>
    refine ⟨fun h => ?_, fun h => ?_, fun z hz => ?_⟩
    · exact absurd (hl.symm.trans h) (by simp)
    · obtain ⟨a1, a2, a3⟩ := hs.built hl
      exact ⟨a1, a2, by rw [← a3]; simp [State.remapped]⟩
    · exact hs.trailing z hz
  | poll a b hb =>
    refine hs.tame (.of_eq rfl rfl) rfl rfl (fun _ h => h) rfl rfl (fun _ h => h) (fun _ h => h) (fun _ => rfl) (fun hn h => ?_) id id
    rcases hb with hb | hb
    · rw [hs.lively hb] at hn; cases hn
    · exact hb
  | occupy _ z u h _ =>
    have := Tame.occupy h
    obtain ⟨_, _, rfl⟩ := occupy_onTrack h
    exact hs.tame' this rfl rfl rfl rfl rfl rfl rfl rfl rfl rfl
  | trail _ z u h =>
    unfold State.trail at h
    split at h <;> cases h
    rename_i hk
    refine ⟨fun hn => ?_, fun hn => ?_, fun y hy => ?_⟩
    · have hz := (hs.absent hn).1
      have := isSome_of_holder hk.2.1
      rw [hz] at this; cases this
    · obtain ⟨a1, a2, a3⟩ := hs.built hn
      exact ⟨by simpa using a1, a2, a3⟩
    · rw [zoneState_updZone] at hy
      split at hy
      · rename_i e; rw [e]; exact hk.1
      · exact hs.trailing y hy
  | release _ u zs h =>
    have := Tame.release h
    obtain ⟨_, _, rfl⟩ := release_onTrack h
    exact hs.tame' this rfl rfl rfl rfl rfl rfl rfl rfl rfl rfl
  | evaluate =>
    have := Tame.evaluate s
    have hw : s.waitQueue = [] → s.evaluate.waitQueue = [] := fun h => by rw [evaluate_empty h]; exact h
    obtain ⟨_, _, _, _, _, e⟩ := evaluate_frame s
    rw [e] at this hw ⊢
    exact hs.tame this rfl rfl (fun _ h => hw h) rfl rfl (fun _ h => h) (fun _ h => h) (fun _ => rfl) (fun _ h => h) id id
  | mark z a _ =>
    have := Tame.markSuspect s z a
    obtain ⟨_, _, e⟩ := markSuspect_onTrack s z a
    rw [e] at this ⊢
    exact hs.tame' this rfl rfl rfl rfl rfl rfl rfl rfl rfl rfl
  | lineSuspect n =>
    have := Tame.lineSuspect s n
    obtain ⟨_, _, e⟩ := lineSuspect_onTrack s n
    rw [e] at this ⊢
    exact hs.tame' this rfl rfl rfl rfl rfl rfl rfl rfl rfl rfl
  | train u f _ _ => exact hs.tame' (.onTrain ..) rfl rfl rfl rfl rfl rfl rfl rfl rfl rfl
  | dropClaim u =>
    refine hs.tame ⟨rfl, by simp, fun _ h => h⟩ rfl rfl (fun _ h => ?_) rfl rfl (fun _ h => h) (fun _ h => h) (fun _ => rfl) (fun _ h => h) id id
    rw [State.dropClaim_waitQueue, h]; rfl
  | enterClaim _ u b hr h =>
    obtain ⟨_, _, _, rfl⟩ := enterClaim_eq h
    have hl := hr.live
    refine hs.tame ⟨rfl, by simp, fun _ h => h⟩ rfl rfl (fun h => ?_) rfl rfl (fun _ h => h) (fun _ h => h) (fun _ => rfl) (fun _ h => h) id id
    rw [hl] at h; cases h
  | placed u tag z hl _ _ _ _ _ _ =>
    have hz : Tame s (s.updZone z (Zone.give .occupied u)) := .onZone s z _ (fun _ h => by cases h)
    refine ⟨fun h => absurd (hl.symm.trans h) (by simp), fun _ => ?_, fun y hy => hs.trailing y (hz.trailing y hy)⟩
    obtain ⟨a1, a2, a3⟩ := hs.built hl
    exact ⟨hz.zones.trans a1, a2, a3⟩
  | withdrawn u f hf =>
    have hz : Tame s (s.updZones (s.heldBy u (s.holdOf u)) f) := by
      refine .onZones s _ _ ?_
      rcases hf with rfl | rfl
      · exact fun _ h => by cases h
      · exact released_trailing
    refine ⟨fun hn => ?_, fun hn => ?_, fun y hy => hs.trailing y (hz.trailing y hy)⟩
    · obtain ⟨a1, a2, a3, a4, a5, a6, a7, a8, a9, a10, a11⟩ := hs.absent hn
      refine ⟨keys_nil (hz.zones.trans (by rw [a1]; rfl)), ?_, ?_, a4, a5, ?_, a7, a8, a9, a10, a11⟩
      · show Table.del s.trains u = []
        rw [a2]; rfl
      · show s.waitQueue.filter _ = []
        rw [a3]; rfl
      · show s.anomalies.filter _ = []
        rw [a6]; rfl
    · obtain ⟨a1, a2, a3⟩ := hs.built hn
      exact ⟨hz.zones.trans a1, a2, a3⟩
  | relocated u z r hr _ _ _ =>
    have hz : Tame s ((s.updZones ((s.heldBy u (s.holdOf u)).filter (fun y => decide (y ≠ z))) (Zone.leave .suspect)).updZone z
        (Zone.give .occupied u)) :=
      (Tame.onZones s _ _ (fun _ h => by cases h)).trans (.onZone _ _ _ (fun _ h => by cases h))
    have hl : s.live = true := by
      cases hl : s.live with
      | true => rfl
      | false => rw [(hs.absent hl).2.1] at hr; cases hr
    have hc : (s.relocated u z).circuit = s.circuit := rfl
    have hy : (s.relocated u z).live = true := live_of_circuit hc hl
    obtain ⟨a1, a2, a3⟩ := hs.built hl
    refine ⟨fun hn => ?_, fun _ => ⟨?_, a2, a3⟩, fun y h => ?_⟩
    · rw [hy] at hn; cases hn
    · rw [relocated_zones]; exact hz.zones.trans a1
    · have hk : (s.relocated u z).layout = s.layout := rfl
      rw [zoneState_congr (relocated_zones s u z)] at h
      rw [hk]
      exact hs.trailing y (hz.trailing y h)
  | unheld zs st _ hst =>
    refine hs.tame' (.onZones s zs _ (fun _ h => ?_)) rfl rfl rfl rfl rfl rfl rfl rfl rfl rfl
    rcases hst with rfl | rfl <;> cases h
  | _ => exact hs.tame' (.of_eq rfl rfl) rfl rfl rfl rfl rfl rfl rfl rfl rfl rfl

theorem State.LiveFits.move {s t : State} (hs : s.LiveFits) (h : Move s t) : t.LiveFits := by
  cases h with
  | act h => exact hs.act h
  | resetAsserted =>
    exact hs.tame (.of_eq rfl rfl) rfl rfl (fun _ h => h) rfl rfl (fun _ h => h) (fun _ h => h) (fun _ => rfl) (fun _ _ => rfl) id id
  | hardReset =>
    unfold State.hardReset
    split
    · exact buildLive_fits
    · exact .bare rfl rfl rfl rfl rfl rfl rfl rfl rfl rfl rfl rfl
  | _ => exact hs.tame' (.of_eq rfl rfl) rfl rfl rfl rfl rfl rfl rfl rfl rfl rfl

end Sys2Proof.Machine
end

