-- ==== Sys2Proof/Laws/Queue.lean ====
section
/-! SUPPORT. What every move keeps of the Wait Queue and the claim statuses, and of the census. -/

namespace Sys2Proof.Machine

/-- Every train is there as it was, with its claim status. -/
def SameClaims (s t : State) : Prop :=
  ∀ u, (t.trains.find u).map (fun r => r.claim) = (s.trains.find u).map (fun r => r.claim)

theorem SameClaims.of_eq {s t : State} (h : t.trains = s.trains) : SameClaims s t := fun u => by rw [h]
theorem SameClaims.trans {s t u : State} (h : SameClaims s t) (k : SameClaims t u) : SameClaims s u :=
  fun x => (k x).trans (h x)

theorem SameClaims.onTrain (s : State) (t : Nat) (f : Train → Train) (hf : ∀ r, (f r).claim = r.claim) :
    SameClaims s (s.updTrain t f) := by
  intro u
  rw [State.updTrain_trains, Table.find_upd]
  split
  · cases s.trains.find u <;> simp [hf]
  · rfl

theorem SameClaims.keepOrder (s : State) (t : Nat) : SameClaims s (s.keepOrder t) := by
  unfold State.keepOrder
  split <;> exact .of_eq rfl

theorem SameClaims.markSuspect (s : State) (z : Nat) (a : Option Nat) : SameClaims s (s.markSuspect z a) := by
  unfold State.markSuspect
  split
  · exact SameClaims.trans (t := s.updZone z (Zone.turn .suspect)) (.of_eq rfl) (.keepOrder _ _)
  · split
    · exact .of_eq rfl
    · rename_i u
      split
      · refine SameClaims.trans (t := s.updZone z (Zone.give .suspect u)) (.of_eq rfl) (SameClaims.trans ?_ (.keepOrder _ _))
        exact .onTrain _ _ _ (fun _ => rfl)
      · exact .of_eq rfl

theorem SameClaims.lineSuspect (s : State) (n : Nat) : SameClaims s (s.lineSuspect n) := by
  unfold State.lineSuspect
  refine SameClaims.trans (t := s.updZones (s.layout.affectedZones n) Zone.lineLost) (.of_eq rfl) ?_
  dsimp only
  generalize s.updZones (s.layout.affectedZones n) Zone.lineLost = s1
  generalize s.affectedHolders n = l
  induction l generalizing s1 with
  | nil => exact .of_eq rfl
  | cons t r ih =>
    exact ((SameClaims.onTrain s1 t (fun r => { r with motion := .untracked }) (fun _ => rfl)).trans (.keepOrder _ t)).trans (ih _)

theorem SameClaims.release {s t : State} {u : Nat} {zs : List Nat} (h : s.release u zs = some t) : SameClaims s t := by
  unfold State.release at h
  split at h
  · cases h
  · split at h <;> cases h
    exact SameClaims.trans (t := s.updZones (s.heldBy u zs) Zone.released) (.of_eq rfl) (.onTrain _ _ _ (fun _ => rfl))

theorem SameClaims.reserve {s t : State} {u : Nat} {e : List (Nat × Nat)} (h : s.reserve u e = some t) : SameClaims s t := by
  unfold State.reserve at h
  split at h
  · cases h
  · split at h <;> cases h
    exact SameClaims.trans (t := s.updZones (e.map (fun q => q.1)) (Zone.give .reserved u)) (.of_eq rfl)
      (.onTrain _ _ _ (fun _ => rfl))

theorem SameClaims.claimOf {s t : State} (h : SameClaims s t) (u : Nat) : t.claimOf u = s.claimOf u := by
  unfold State.claimOf; rw [h u]

theorem SameClaims.isSome {s t : State} (h : SameClaims s t) (u : Nat) :
    (t.trains.find u).isSome = (s.trains.find u).isSome := by
  have := congrArg Option.isSome (h u)
  simpa using this

theorem State.QueueFits.congr {s t : State} (hs : s.QueueFits) (hw : t.waitQueue = s.waitQueue) (h : SameClaims s t) :
    t.QueueFits := by
  refine ⟨fun u r hr => ?_, fun u => ?_⟩
  · have := h.isSome u
    rw [hr] at this
    cases hf : s.trains.find u with
    | none => rw [hf] at this; cases this
    | some r' => exact hs.slots u r' hf
  · have h1 : t.entriesOf u = s.entriesOf u := by unfold State.entriesOf; rw [hw]
    rw [h1, h.claimOf u]
    exact hs.pending u

theorem State.QueueFits.empty {t : State} (h1 : t.trains = []) (h2 : t.waitQueue = []) : t.QueueFits := by
  refine ⟨fun u r hr => ?_, fun u => ?_⟩
  · rw [h1] at hr; cases hr
  · unfold State.entriesOf State.claimOf
    rw [h1, h2]; rfl

/-- A train's entries go and its claim is no longer pending; the others are as they were. -/
theorem State.QueueFits.leave {s t : State} (hs : s.QueueFits) (u : Nat)
    (hw : t.waitQueue = s.waitQueue.filter (fun d => decide (d.train ≠ u)))
    (hu : t.claimOf u ≠ .pending) (ho : ∀ v, v ≠ u → t.claimOf v = s.claimOf v)
    (hd : ∀ v r, t.trains.find v = some r → 1 ≤ v ∧ v ≤ Config.trainSlots) : t.QueueFits := by
  refine ⟨hd, fun v => ?_⟩
  unfold State.entriesOf
  rw [hw, List.filter_filter]
  by_cases hv : v = u
  · subst hv
    rw [if_neg hu]
    have : (s.waitQueue.filter (fun a => decide (a.train = v) && decide (a.train ≠ v))) = [] := by
      rw [List.filter_eq_nil_iff]
      intro a _
      simp only [Bool.and_eq_true, decide_eq_true_eq, not_and, ne_eq, Decidable.not_not]
      exact id
    rw [this]; rfl
  · rw [ho v hv]
    have : (s.waitQueue.filter (fun a => decide (a.train = v) && decide (a.train ≠ u))) = s.entriesOf v := by
      unfold State.entriesOf
      apply List.filter_congr
      intro a _
      by_cases h : a.train = v
      · have : a.train ≠ u := fun h2 => hv (h.symm.trans h2)
        simp [h, hv]
      · simp [h]
    rw [this]
    exact hs.pending v

theorem slots_keys {s t : State} (hs : s.QueueFits) (h : t.trains.keys = s.trains.keys) (v : Nat) (r : Train)
    (hr : t.trains.find v = some r) : 1 ≤ v ∧ v ≤ Config.trainSlots := by
  have hv : v ∈ t.trains.keys := (Table.mem_keys_iff _ _).mpr (by rw [hr]; rfl)
  rw [h] at hv
  have := (Table.mem_keys_iff _ _).mp hv
  cases hf : s.trains.find v with
  | none => rw [hf] at this; cases this
  | some r' => exact hs.slots v r' hf

theorem claimOf_upd (s t : State) (u : Nat) (f : Train → Train) (h : t.trains = s.trains.upd u f) (v : Nat) :
    t.claimOf v = if v = u then ((s.trains.find u).map (fun r => (f r).claim)).getD .none else s.claimOf v := by
  unfold State.claimOf
  rw [h, Table.find_upd]
  by_cases hv : v = u
  · subst hv; simp [Option.map_map, Function.comp_def]
  · simp [hv]

theorem State.QueueFits.granted {s : State} (hs : s.QueueFits) (u : Nat) : (s.granted u).QueueFits := by
  have h := claimOf_upd s (s.granted u) u (fun r => { r with claim := .granted, motion := r.motion.clear }) rfl
  refine hs.leave u rfl ?_ (fun v hv => by rw [h v, if_neg hv]) (slots_keys hs ?_)
  · rw [h u, if_pos rfl]
    cases s.trains.find u <;> simp
  · simp [State.granted]

theorem State.QueueFits.dropClaim {s : State} (hs : s.QueueFits) (u : Nat) : (s.dropClaim u).QueueFits := by
  have h := claimOf_upd s (s.dropClaim u) u (fun r => { r with claim := .none }) rfl
  refine hs.leave u rfl ?_ (fun v hv => by rw [h v, if_neg hv]) (slots_keys hs ?_)
  · rw [h u, if_pos rfl]
    cases s.trains.find u <;> simp
  · simp

theorem State.QueueFits.tryGrant {s : State} (hs : s.QueueFits) (c : Claim) : (s.tryGrant c).QueueFits := by
  rcases tryGrant_cases s c with h1 | ⟨r, z, e, s1, _, _, _, _, hr, h1 | h1⟩ <;> rw [h1]
  · exact hs
  · exact State.QueueFits.granted (hs.congr (reserve_onTrack hr).waitQueue (.reserve hr)) _
  · exact (State.QueueFits.granted (hs.congr (reserve_onTrack hr).waitQueue (.reserve hr)) c.train).congr rfl (.of_eq rfl)

theorem arise_trains (s : State) (c : StopCause) : (s.arise c).trains = s.trains ∧ (s.arise c).waitQueue = s.waitQueue := by
  obtain ⟨_, _, _, _, _, e⟩ := arise_frame s c
  rw [e]; exact ⟨rfl, rfl⟩

theorem setAuthority_trains (s : State) (a : Authority) :
    (s.setAuthority a).trains = s.trains ∧ (s.setAuthority a).waitQueue = s.waitQueue := by
  obtain ⟨_, _, e⟩ := setAuthority_frame s a
  rw [e]; exact ⟨rfl, rfl⟩

theorem State.QueueFits.act {s t : State} (hs : s.QueueFits) (h : Act s t) : t.QueueFits := by
  cases h with
  | stopInOn => exact hs.congr (arise_trains _ _).2 (.of_eq (arise_trains _ _).1)
  | keyOn =>
    exact hs.congr ((setAuthority_trains _ _).2.trans (arise_trains _ _).2)
      (.of_eq ((setAuthority_trains _ _).1.trans (arise_trains _ _).1))
  | keyOff =>
    unfold State.keyReleased
    dsimp only
    split
    · exact hs.congr (setAuthority_trains _ _).2 (.of_eq (setAuthority_trains _ _).1)
    · exact hs.congr rfl (.of_eq rfl)
  | arise c _ => exact hs.congr (arise_trains _ _).2 (.of_eq (arise_trains _ _).1)
  | configEntered => exact .empty rfl rfl
  | built _ => exact .empty rfl rfl
  | resumed g _ _ _ =>
    unfold State.resumed
    dsimp only
    split <;> exact hs.congr rfl (.of_eq rfl)
  | authority a _ _ => exact hs.congr (setAuthority_trains _ _).2 (.of_eq (setAuthority_trains _ _).1)
  | enterAnomaly k n b _ =>
    unfold State.enterAnomaly
    split
    · exact hs.congr rfl (.of_eq rfl)
    · split <;> exact hs.congr rfl (.of_eq rfl)
  | occupy _ z u h _ =>
    unfold State.occupy at h
    split at h <;> cases h
    exact hs.congr rfl (.of_eq rfl)
  | trail _ z u h =>
    unfold State.trail at h
    split at h <;> cases h
    exact hs.congr rfl (.of_eq rfl)
  | release _ u zs h => exact hs.congr (release_onTrack h).waitQueue (.release h)
  | evaluate => exact evaluate_keeps (P := State.QueueFits) (fun t c h => h.tryGrant c) hs
  | mark z a _ => exact hs.congr (markSuspect_onTrack s z a).waitQueue (.markSuspect s z a)
  | lineSuspect n => exact hs.congr (lineSuspect_onTrack s n).waitQueue (.lineSuspect s n)
  | train u f hf _ => exact hs.congr rfl (.onTrain s u f (fun r => (hf r).2))
  | dropClaim u => exact hs.dropClaim u
  | enterClaim _ u b _ h =>
    obtain ⟨r, hr, hc, rfl⟩ := enterClaim_eq h
    have h0 : s.claimOf u = .none := by unfold State.claimOf; rw [hr, ← hc]; rfl
    have he : s.entriesOf u = [] := by
      have := hs.pending u
      rw [h0] at this
      exact List.length_eq_zero_iff.mp (by simpa using this)
    refine ⟨slots_keys hs (by simp), fun v => ?_⟩
    rw [claimOf_upd s _ u (fun r => { r with claim := .pending }) rfl v]
    unfold State.entriesOf at he ⊢
    dsimp only
    rw [List.filter_append]
    by_cases hv : v = u
    · subst hv
      rw [he, hr]
      simp
    · have hv' : u ≠ v := fun h => hv h.symm
      simp only [hv, if_false, List.length_append]
      have := hs.pending v
      unfold State.entriesOf at this
      rw [this]
      simp [hv']
  | placed u tag z _ hf h1 h2 _ _ _ =>
    have h0 : s.claimOf u = .none := by unfold State.claimOf; rw [hf]; rfl
    have ht : (s.placed u tag z).trains = s.trains.put u (Train.placed tag z) := rfl
    have hc : ∀ v, (s.placed u tag z).claimOf v = s.claimOf v := by
      intro v
      unfold State.claimOf
      rw [ht, Table.find_put]
      by_cases hv : v = u
      · subst hv; rw [hf]; simp [Train.placed]
      · simp [hv]
    refine ⟨fun v r hr => ?_, fun v => ?_⟩
    · rw [ht, Table.find_put] at hr
      split at hr
      · rename_i e; rw [e]; exact ⟨h1, h2⟩
      · exact hs.slots v r hr
    · rw [hc v]; exact hs.pending v
  | withdrawn u f _ =>
    have ht : (s.withdrawn u f).trains = s.trains.del u := rfl
    refine hs.leave u rfl ?_ (fun v hv => ?_) (fun v r hr => ?_)
    · unfold State.claimOf; rw [ht, Table.find_del]; simp
    · unfold State.claimOf; rw [ht, Table.find_del]; simp [hv]
    · rw [ht, Table.find_del] at hr
      split at hr
      · cases hr
      · exact hs.slots v r hr
  | relocated u z r _ _ _ _ =>
    have h1 : State.QueueFits (((s.updZones ((s.heldBy u (s.holdOf u)).filter (fun y => decide (y ≠ z))) (Zone.leave .suspect)).updZone z
        (Zone.give .occupied u)).updTrain u (Train.relocated z)) :=
      (hs.congr (t := (s.updZones ((s.heldBy u (s.holdOf u)).filter (fun y => decide (y ≠ z))) (Zone.leave .suspect)).updZone z
        (Zone.give .occupied u)) rfl (.of_eq rfl)).congr rfl (.onTrain _ _ _ (fun _ => rfl))
    exact (h1.dropClaim u).congr rfl (.of_eq rfl)
  | _ => exact hs.congr rfl (.of_eq rfl)

theorem State.QueueFits.move {s t : State} (hs : s.QueueFits) (h : Move s t) : t.QueueFits := by
  cases h with
  | act h => exact hs.act h
  | hardReset =>
    unfold State.hardReset
    split <;> exact .empty rfl rfl
  | _ => exact hs.congr rfl (.of_eq rfl)

/-! ## The census -/

/-- What R135 says of a train while the census runs. -/
def Train.Counted (r : Train) : Prop :=
  (r.motion = .standing ∨ r.motion = .untracked) ∧ r.claim = .none ∧ r.stepGrant = false ∧ r.hold.length = 1

theorem State.CensusFits.of_not {t : State} (h : t.circuit ≠ .census) : t.CensusFits := fun h2 => absurd h2 h

/-- Trains that are counted stay counted. -/
theorem State.CensusFits.congr {s t : State} (hs : s.CensusFits) (hc : t.circuit = .census → s.circuit = .census)
    (hw : s.waitQueue = [] → t.waitQueue = [])
    (ht : s.circuit = .census → ∀ u r, t.trains.find u = some r → (∀ r', s.trains.find u = some r' → r'.Counted) → r.Counted) :
    t.CensusFits := by
  intro h
  have h1 := hs (hc h)
  exact ⟨hw h1.1, fun u r hr => ht (hc h) u r hr (fun r' hr' => h1.2 u r' hr')⟩

theorem State.CensusFits.same {s t : State} (hs : s.CensusFits) (hc : t.circuit = .census → s.circuit = .census)
    (hw : t.waitQueue = s.waitQueue) (ht : t.trains = s.trains) : t.CensusFits :=
  hs.congr hc (fun h => hw.trans h) (fun _ u r hr h => h r (by rw [← ht]; exact hr))

theorem counted_upd {s : State} {u : Nat} {f : Train → Train} (hf : ∀ r, r.Counted → (f r).Counted) (v : Nat) (r : Train)
    (hr : (s.trains.upd u f).find v = some r) (h : ∀ r', s.trains.find v = some r' → r'.Counted) : r.Counted := by
  rw [Table.find_upd] at hr
  split at hr
  · cases hv : s.trains.find v with
    | none => rw [hv] at hr; cases hr
    | some r' => rw [hv] at hr; cases hr; exact hf r' (h r' hv)
  · exact h r hr

theorem not_running_of_census {s : State} (h : s.circuit = .census) : ¬ s.Running := by
  intro hr
  rcases hr with hr | hr <;> rw [h] at hr <;> cases hr

theorem markSuspect_none_trains (s : State) (z : Nat) : (s.markSuspect z none).trains = s.trains := by
  unfold State.markSuspect
  split
  · unfold State.keepOrder
    split <;> rfl
  · rfl

theorem lineSuspect_counted (s : State) (n : Nat) (u : Nat) (r : Train) (hr : (s.lineSuspect n).trains.find u = some r)
    (h : ∀ r', s.trains.find u = some r' → r'.Counted) : r.Counted := by
  unfold State.lineSuspect at hr
  dsimp only at hr
  have h' : ∀ r', (s.updZones (s.layout.affectedZones n) Zone.lineLost).trains.find u = some r' → r'.Counted := h
  generalize s.updZones (s.layout.affectedZones n) Zone.lineLost = s1 at hr h'
  generalize s.affectedHolders n = l at hr
  induction l generalizing s1 with
  | nil => exact h' r hr
  | cons t rest ih =>
    refine ih _ ?_ hr
    intro r' hr'
    have hk : ((s1.untrack t).keepOrder t).trains = (s1.untrack t).trains := by
      unfold State.keepOrder
      split <;> rfl
    rw [hk] at hr'
    refine counted_upd (f := fun r => { r with motion := .untracked }) ?_ u r' hr' h'
    exact fun r h => ⟨.inr rfl, h.2⟩

theorem arise_census (s : State) (c : StopCause) (h : (s.arise c).circuit = .census) : s.circuit = .census := by
  unfold State.arise at h
  cases hc : s.circuit <;> rw [hc] at h <;> cases c <;> first | rfl | (simp [State.holdAll, State.updZones, hc] at h)

theorem State.CensusFits.act {s t : State} (hs : s.CensusFits) (h : Act s t) : t.CensusFits := by
  cases h with
  | stopInOn =>
    exact hs.same (fun h => arise_census { s with stopInPin := true } .stopIn h) (arise_trains _ _).2 (arise_trains _ _).1
  | keyOn =>
    refine hs.same (fun h => ?_) ((setAuthority_trains _ _).2.trans (arise_trains _ _).2) ((setAuthority_trains _ _).1.trans (arise_trains _ _).1)
    obtain ⟨_, _, e⟩ := setAuthority_frame (State.arise { s with keyMaint := true } .key) .maintenance
    rw [e] at h
    exact arise_census { s with keyMaint := true } .key h
  | keyOff =>
    unfold State.keyReleased
    dsimp only
    split
    · refine hs.same (fun h => ?_) (setAuthority_trains _ _).2 (setAuthority_trains _ _).1
      obtain ⟨_, _, e⟩ := setAuthority_frame { s with keyMaint := false, causes := { s.causes with key := false } } .console
      rw [e] at h
      exact h
    · exact hs.same id rfl rfl
  | arise c _ => exact hs.same (arise_census s c) (arise_trains _ _).2 (arise_trains _ _).1
  | configEntered => exact .of_not (fun h => by cases h)
  | built _ => exact fun _ => ⟨rfl, fun u r hr => by cases hr⟩
  | begun _ => exact .of_not (fun h => by cases h)
  | resumed g hc _ _ =>
    unfold State.resumed
    dsimp only
    split
    · refine .of_not (fun h => ?_)
      have : (s.releaseGroup g).circuit = .halted := hc
      rw [this] at h; cases h
    · exact .of_not (fun h => by cases h)
  | authority a _ _ =>
    refine hs.same (fun h => ?_) (setAuthority_trains _ _).2 (setAuthority_trains _ _).1
    obtain ⟨_, _, e⟩ := setAuthority_frame s a
    rw [e] at h
    exact h
  | enterAnomaly k n b _ =>
    unfold State.enterAnomaly
    split
    · exact hs.same id rfl rfl
    · split <;> exact hs.same id rfl rfl
  | occupy _ z u h _ =>
    unfold State.occupy at h
    split at h <;> cases h
    exact hs.same id rfl rfl
  | trail _ z u h =>
    unfold State.trail at h
    split at h <;> cases h
    exact hs.same id rfl rfl
  | release _ u zs h =>
    unfold State.release at h
    split at h
    · cases h
    rename_i r hr
    split at h <;> cases h
    rename_i hne
    refine hs.congr id id (fun _ v r' hr' hv => ?_)
    have hr2 : (s.trains.upd u (fun r => { r with hold := r.hold.filter (fun z => decide (z ∉ s.heldBy u zs)) })).find v = some r' := hr'
    rw [Table.find_upd] at hr2
    split at hr2
    · rename_i e
      subst e
      rw [hr] at hr2
      cases hr2
      obtain ⟨h1, h2, h3, h4⟩ := hv r hr
      refine ⟨h1, h2, h3, ?_⟩
      dsimp only
      have hle := List.length_filter_le (fun z => decide (z ∉ s.heldBy v zs)) r.hold
      have hpos : (r.hold.filter (fun z => decide (z ∉ s.heldBy v zs))) ≠ [] := fun h => hne (.inr h)
      have := List.length_pos_iff.mpr hpos
      omega
    · exact hv r' hr2
  | evaluate =>
    intro hc
    rw [evaluate_circuit] at hc
    have h1 := hs hc
    rw [evaluate_empty h1.1]
    exact h1
  | mark z a ha =>
    have hc := (markSuspect_onTrack s z a).circuit
    rcases ha with ha | ha
    · subst ha
      exact hs.same (fun h => hc.symm.trans h) (markSuspect_onTrack s z none).waitQueue (markSuspect_none_trains s z)
    · refine .of_not (fun h => ?_)
      exact not_running_of_census (hc.symm.trans h) ha
  | lineSuspect n =>
    exact hs.congr (fun h => (lineSuspect_onTrack s n).circuit.symm.trans h) (fun h => (lineSuspect_onTrack s n).waitQueue.trans h)
      (fun _ u r hr h => lineSuspect_counted s n u r hr h)
  | train u f hf hr =>
    refine hs.congr id id (fun hc v r' hr' hv => ?_)
    rcases hr with hr | hr
    · exact absurd hr (not_running_of_census hc)
    · refine counted_upd (f := f) ?_ v r' hr' hv
      intro r h
      have := hr r ⟨h.1, h.2.2.1⟩
      exact ⟨this.1, by rw [(hf r).2]; exact h.2.1, this.2, by rw [(hf r).1]; exact h.2.2.2⟩
  | dropClaim u =>
    refine hs.congr id (fun h => ?_) (fun _ v r' hr' hv => ?_)
    · rw [State.dropClaim_waitQueue, h]; rfl
    · exact counted_upd (f := fun r => { r with claim := .none }) (fun r h => ⟨h.1, rfl, h.2.2⟩) v r' hr' hv
  | enterClaim _ u b hr h =>
    obtain ⟨_, _, _, rfl⟩ := enterClaim_eq h
    exact .of_not (fun h => not_running_of_census h hr)
  | placed u tag z _ _ _ _ _ _ _ =>
    refine hs.congr id id (fun _ v r' hr' hv => ?_)
    have ht : (s.placed u tag z).trains = s.trains.put u (Train.placed tag z) := rfl
    rw [ht, Table.find_put] at hr'
    split at hr'
    · cases hr'; exact ⟨.inl rfl, rfl, rfl, rfl⟩
    · exact hv r' hr'
  | withdrawn u f _ =>
    refine hs.congr id (fun h => ?_) (fun _ v r' hr' hv => ?_)
    · show s.waitQueue.filter _ = []
      rw [h]; rfl
    · have ht : (s.withdrawn u f).trains = s.trains.del u := rfl
      rw [ht, Table.find_del] at hr'
      split at hr'
      · cases hr'
      · exact hv r' hr'
  | relocated u z r _ _ _ _ =>
    have ht : (s.relocated u z).trains = (s.trains.upd u (Train.relocated z)).upd u (fun r => { r with claim := .none }) := rfl
    refine hs.congr id (fun h => ?_) (fun _ v r' hr' hv => ?_)
    · show s.waitQueue.filter _ = []
      rw [h]; rfl
    · rw [ht, Table.find_upd, Table.find_upd] at hr'
      split at hr'
      · cases hf : s.trains.find v with
        | none => rw [hf] at hr'; cases hr'
        | some r2 => rw [hf] at hr'; cases hr'; exact ⟨.inl rfl, rfl, rfl, rfl⟩
      · exact hv r' hr'
  | _ => exact hs.same id rfl rfl

theorem State.CensusFits.move {s t : State} (hs : s.CensusFits) (h : Move s t) : t.CensusFits := by
  cases h with
  | act h => exact hs.act h
  | hardReset =>
    unfold State.hardReset
    split
    · exact fun _ => ⟨rfl, fun u r hr => by cases hr⟩
    · exact .of_not (fun h => by cases h)
  | _ => exact hs.same id rfl rfl

end Sys2Proof.Machine
end

