-- ==== Sys2Proof/Laws/Interlock.lean ====
section
/-! SUPPORT. Every act keeps the interlock: zone states and holders fit, and a zone is held exactly by the train whose hold list
has it (R21, R22). -/

namespace Sys2Proof.Machine

theorem holder_updZones (s : State) (zs : List Nat) (f : Zone → Zone) (z : Nat) :
    (s.updZones zs f).holder z = if z ∈ zs then (s.zones.find z).bind (fun x => (f x).holder) else s.holder z := by
  unfold State.holder
  rw [State.updZones_zones, Table.find_updAll]
  split
  · cases s.zones.find z <;> rfl
  · rfl

theorem holder_updZone (s : State) (z : Nat) (f : Zone → Zone) (z' : Nat) :
    (s.updZone z f).holder z' = if z' = z then (s.zones.find z).bind (fun x => (f x).holder) else s.holder z' := by
  rw [State.updZone_eq_updZones, holder_updZones]
  by_cases h : z' = z
  · subst h; simp
  · simp [h]

theorem holdOf_updTrain (s : State) (t : Nat) (f : Train → Train) (u : Nat) :
    (s.updTrain t f).holdOf u = if u = t then ((s.trains.find t).map (fun r => (f r).hold)).getD [] else s.holdOf u := by
  unfold State.holdOf
  rw [State.updTrain_trains, Table.find_upd]
  by_cases h : u = t
  · subst h; simp [Option.map_map, Function.comp_def]
  · simp [h]

theorem holdOf_of_find {s : State} {t : Nat} {r : Train} (h : s.trains.find t = some r) : s.holdOf t = r.hold := by
  unfold State.holdOf; rw [h]; rfl

theorem holder_of_find {s : State} {z : Nat} {x : Zone} (h : s.zones.find z = some x) : s.holder z = x.holder := by
  unfold State.holder; rw [h]; rfl

theorem zoneState_of_find {s : State} {z : Nat} {x : Zone} (h : s.zones.find z = some x) : s.zoneState z = some x.state := by
  unfold State.zoneState; rw [h]; rfl

theorem holder_congr {s t : State} (h : t.zones = s.zones) (z : Nat) : t.holder z = s.holder z := by
  unfold State.holder; rw [h]

theorem holdOf_congr {s t : State} (h : t.trains = s.trains) (u : Nat) : t.holdOf u = s.holdOf u := by
  unfold State.holdOf; rw [h]

/-- A zone is held by at most one train. -/
theorem State.Interlock.unique {s : State} (hs : s.Interlock) {z t u : Nat} (h : z ∈ s.holdOf t) (k : z ∈ s.holdOf u) : t = u := by
  have h1 := (hs.agree z t).mpr h
  have h2 := (hs.agree z u).mpr k
  rw [h1] at h2; cases h2; rfl

/-- A zone that is FREE or OUT_OF_SERVICE has no holder. -/
theorem State.Interlock.unheld {s : State} (hs : s.Interlock) {z : Nat}
    (h : s.zoneState z = some .free ∨ s.zoneState z = some .outOfService) : s.holder z = none := by
  cases hf : s.zones.find z with
  | none => unfold State.holder; rw [hf]; rfl
  | some x =>
    rw [holder_of_find hf]
    rw [zoneState_of_find hf] at h
    have := hs.fits z x hf
    unfold Zone.Fits at this
    rcases h with h | h <;> (cases h' : x.state <;> rw [h'] at h this <;> first | exact this | cases h)

theorem State.Interlock.congr {s t : State} (hs : s.Interlock) (hz : t.zones = s.zones) (ht : t.trains = s.trains) :
    t.Interlock :=
  ⟨fun z x h => hs.fits z x (by rw [← hz]; exact h), fun z u => by rw [holder_congr hz, holdOf_congr ht]; exact hs.agree z u⟩

/-- Zone records change, but not who holds them. -/
theorem State.Interlock.onZones {s : State} (hs : s.Interlock) (zs : List Nat) (f : Zone → Zone)
    (hf : ∀ z x, z ∈ zs → s.zones.find z = some x → x.Fits → (f x).Fits ∧ (f x).holder = x.holder) :
    (s.updZones zs f).Interlock := by
  refine ⟨fun z x h => ?_, fun z u => ?_⟩
  · rw [State.updZones_zones, Table.find_updAll] at h
    split at h
    · rename_i hz
      cases hx : s.zones.find z with
      | none => rw [hx] at h; cases h
      | some y => rw [hx] at h; cases h; exact (hf z y hz hx (hs.fits z y hx)).1
    · exact hs.fits z x h
  · have : (s.updZones zs f).holder z = s.holder z := by
      rw [holder_updZones]
      split
      · rename_i hz
        cases hx : s.zones.find z with
        | none => unfold State.holder; rw [hx]; rfl
        | some y =>
          rw [holder_of_find hx]
          exact (hf z y hz hx (hs.fits z y hx)).2
      · rfl
    rw [this]
    exact hs.agree z u

theorem State.Interlock.onZone {s : State} (hs : s.Interlock) (z : Nat) (f : Zone → Zone)
    (hf : ∀ x, s.zones.find z = some x → x.Fits → (f x).Fits ∧ (f x).holder = x.holder) : (s.updZone z f).Interlock := by
  rw [State.updZone_eq_updZones]
  refine hs.onZones [z] f (fun y x hy h hx => ?_)
  simp only [List.mem_singleton] at hy
  subst hy
  exact hf x h hx

theorem State.Interlock.suspected {s : State} (hs : s.Interlock) (zs : List Nat) :
    (s.updZones zs (Zone.turn .suspect)).Interlock := hs.onZones zs _ (fun _ _ _ _ _ => ⟨trivial, rfl⟩)

/-- A train record changes, but not its hold list. -/
theorem State.Interlock.onTrain {s : State} (hs : s.Interlock) (t : Nat) (f : Train → Train) (hf : ∀ r, (f r).hold = r.hold) :
    (s.updTrain t f).Interlock := by
  refine ⟨hs.fits, fun z u => ?_⟩
  have : (s.updTrain t f).holdOf u = s.holdOf u := by
    rw [holdOf_updTrain]
    split
    · rename_i h; subst h
      unfold State.holdOf
      cases s.trains.find u <;> simp [hf]
    · rfl
  rw [this]
  exact hs.agree z u

theorem State.Interlock.keepOrder {s : State} (hs : s.Interlock) (t : Nat) : (s.keepOrder t).Interlock := by
  unfold State.keepOrder
  split
  · exact hs
  · exact hs.suspected _

/-- Unheld zones are given to a train, at the end of its hold list. -/
theorem State.Interlock.give {s : State} (hs : s.Interlock) {t : Nat} {r : Train} (hr : s.trains.find t = some r) (zs : List Nat)
    (st : ZoneState) (hst : st ≠ .free ∧ st ≠ .outOfService)
    (hz : ∀ z, z ∈ zs → s.holder z = none ∧ (s.zones.find z).isSome = true) :
    ((s.updZones zs (Zone.give st t)).updTrain t (fun r => { r with hold := r.hold ++ zs })).Interlock := by
  refine ⟨fun z x h => ?_, fun z u => ?_⟩
  · rw [State.updTrain_zones, State.updZones_zones, Table.find_updAll] at h
    split at h
    · cases hx : s.zones.find z with
      | none => rw [hx] at h; cases h
      | some y =>
        rw [hx] at h; cases h
        unfold Zone.Fits Zone.give Zone.turn
        cases st <;> simp_all
    · exact hs.fits z x h
  · rw [show ((s.updZones zs (Zone.give st t)).updTrain t (fun r => { r with hold := r.hold ++ zs })).holder z =
      (s.updZones zs (Zone.give st t)).holder z from rfl, holder_updZones, holdOf_updTrain]
    rw [State.updZones_trains, hr]
    simp only [Option.map_some, Option.getD_some]
    have hold : (s.updZones zs (Zone.give st t)).holdOf u = s.holdOf u := rfl
    rw [hold]
    by_cases hm : z ∈ zs
    · obtain ⟨hn, hsome⟩ := hz z hm
      obtain ⟨x, hx⟩ := Option.isSome_iff_exists.mp hsome
      simp only [hm, if_true, hx, Option.bind_some]
      have hg : (Zone.give st t x).holder = some t := rfl
      rw [hg]
      by_cases hu : u = t
      · subst hu; simp [hm]
      · simp only [hu, if_false]
        constructor
        · intro h; cases h; exact absurd rfl hu
        · intro h
          have := (hs.agree z u).mpr h
          rw [hn] at this; cases this
    · simp only [hm, if_false]
      by_cases hu : u = t
      · subst hu
        rw [hs.agree z u, holdOf_of_find hr]
        simp [hm]
      · simp only [hu, if_false]
        exact hs.agree z u

/-- Of the zones named, those the train holds are left; its hold list loses them. -/
theorem State.Interlock.left {s t : State} (hs : s.Interlock) (u : Nat) (zs : List Nat) (f : Zone → Zone)
    (hf : ∀ x, (f x).Fits ∧ (f x).holder = none) (hzs : ∀ z, z ∈ zs → s.holder z = some u)
    (hz : t.zones = (s.updZones zs f).zones) (hu : ∀ z, z ∈ t.holdOf u ↔ z ∈ s.holdOf u ∧ z ∉ zs)
    (ho : ∀ v, v ≠ u → t.holdOf v = s.holdOf v) : t.Interlock := by
  refine ⟨fun z x h => ?_, fun z v => ?_⟩
  · rw [hz, State.updZones_zones, Table.find_updAll] at h
    split at h
    · cases hx : s.zones.find z with
      | none => rw [hx] at h; cases h
      | some y => rw [hx] at h; cases h; exact (hf y).1
    · exact hs.fits z x h
  · rw [holder_congr hz, holder_updZones]
    by_cases hm : z ∈ zs
    · have hn : (s.zones.find z).bind (fun x => (f x).holder) = none := by
        cases s.zones.find z with
        | none => rfl
        | some x => exact (hf x).2
      simp only [hm, if_true, hn, reduceCtorEq, false_iff]
      intro h
      by_cases hv : v = u
      · subst hv; exact ((hu z).mp h).2 hm
      · rw [ho v hv] at h
        have := (hs.agree z v).mpr h
        rw [hzs z hm] at this
        cases this; exact hv rfl
    · simp only [hm, if_false]
      by_cases hv : v = u
      · subst hv
        rw [hs.agree z v, hu z]
        simp [hm]
      · rw [ho v hv]; exact hs.agree z v

theorem released_fits (x : Zone) : x.released.Fits ∧ x.released.holder = none := by
  refine ⟨?_, rfl⟩
  unfold Zone.released Zone.leave Zone.turn Zone.Fits
  cases x.state <;> simp

theorem State.Interlock.release {s t : State} (hs : s.Interlock) {u : Nat} {zs : List Nat} (h : s.release u zs = some t) :
    t.Interlock := by
  unfold State.release at h
  split at h
  · cases h
  rename_i r hr
  split at h <;> cases h
  refine hs.left u (s.heldBy u zs) Zone.released released_fits ?_ rfl ?_ ?_
  · intro z hz
    unfold State.heldBy at hz
    simp only [List.mem_filter, decide_eq_true_eq] at hz
    exact hz.2
  · intro z
    rw [holdOf_updTrain, State.updZones_trains, hr, holdOf_of_find hr]
    simp
  · intro v hv
    rw [holdOf_updTrain, if_neg hv]
    rfl

theorem State.Interlock.reserve {s t : State} (hs : s.Interlock) {u : Nat} {e : List (Nat × Nat)} (h : s.reserve u e = some t) :
    t.Interlock := by
  unfold State.reserve at h
  split at h
  · cases h
  rename_i r hr
  split at h <;> cases h
  rename_i hg
  refine hs.give hr (e.map (fun q => q.1)) .reserved (by simp) ?_
  intro z hz
  simp only [List.mem_map] at hz
  obtain ⟨q, hq, rfl⟩ := hz
  have := List.all_eq_true.mp hg.1 q hq
  simp only [Bool.and_eq_true, decide_eq_true_eq] at this
  exact ⟨hs.unheld (.inl this.1), isSome_of_zoneState this.1⟩

theorem State.Interlock.tryGrant {s : State} (hs : s.Interlock) (c : Claim) : (s.tryGrant c).Interlock := by
  have hg : ∀ s1 : State, s1.Interlock → (s1.granted c.train).Interlock := fun s1 h =>
    State.Interlock.onTrain (s := { s1 with waitQueue := s1.waitQueue.filter (fun d => decide (d.train ≠ c.train)) })
      (h.congr rfl rfl) c.train _ (fun _ => rfl)
  rcases tryGrant_cases s c with h1 | ⟨r, z, e, s1, _, _, _, _, hr, h1 | h1⟩ <;> rw [h1]
  · exact hs
  · exact hg _ (hs.reserve hr)
  · exact (hg _ (hs.reserve hr)).congr rfl rfl

theorem State.Interlock.evaluate {s : State} (hs : s.Interlock) : s.evaluate.Interlock :=
  evaluate_keeps (P := State.Interlock) (fun _ c h => h.tryGrant c) hs

theorem State.Interlock.markSuspect {s : State} (hs : s.Interlock) (z : Nat) (a : Option Nat) : (s.markSuspect z a).Interlock := by
  have h1 : (s.updZone z (Zone.turn .suspect)).Interlock := by
    rw [State.updZone_eq_updZones]; exact hs.suspected [z]
  unfold State.markSuspect
  split
  · exact h1.keepOrder _
  rename_i hh
  split
  · exact h1
  rename_i t
  split
  · rename_i hc
    simp only [Bool.and_eq_true] at hc
    have hm := hc.2
    unfold State.mayAdopt at hm
    simp only [Bool.and_eq_true] at hm
    cases hr : s.trains.find t with
    | none => rw [hr] at hm; simp at hm
    | some r =>
      rw [State.updZone_eq_updZones]
      exact State.Interlock.keepOrder (hs.give hr [z] .suspect (by simp)
        (fun y hy => by simp only [List.mem_singleton] at hy; subst hy; exact ⟨hh, hc.1⟩)) t
  · exact h1

theorem lineLost_fits (x : Zone) (h : x.Fits) : x.lineLost.Fits ∧ x.lineLost.holder = x.holder := by
  unfold Zone.lineLost
  cases hx : x.state <;> first | exact ⟨trivial, rfl⟩ | exact ⟨h, rfl⟩

theorem State.Interlock.lineSuspect {s : State} (hs : s.Interlock) (n : Nat) : (s.lineSuspect n).Interlock := by
  unfold State.lineSuspect
  have h1 := hs.onZones (s.layout.affectedZones n) Zone.lineLost (fun _ x _ _ h => lineLost_fits x h)
  dsimp only
  generalize s.updZones (s.layout.affectedZones n) Zone.lineLost = s1 at h1
  generalize s.affectedHolders n = l
  induction l generalizing s1 with
  | nil => exact h1
  | cons t r ih =>
    exact ih _ (State.Interlock.keepOrder (h1.onTrain t (fun r => { r with motion := .untracked }) (fun _ => rfl)) t)

theorem State.Interlock.arise {s : State} (hs : s.Interlock) (c : StopCause) : (s.arise c).Interlock := by
  have hold : ∀ u : State, u.Interlock → u.holdAll.Interlock := fun u h => h.onZones _ _ (fun _ _ _ _ hx => ⟨hx, rfl⟩)
  unfold State.arise
  split
  · exact (hold { s with causes := s.causes.add c, circuit := .halted } (hs.congr rfl rfl)).congr rfl rfl
  · exact (hold { s with causes := s.causes.add c } (hs.congr rfl rfl)).congr rfl rfl
  · exact hs.congr rfl rfl
  · cases c <;> exact hs.congr rfl rfl
  · cases c <;> exact hs.congr rfl rfl

theorem setAuthority_records (s : State) (a : Authority) :
    (s.setAuthority a).zones = s.zones ∧ (s.setAuthority a).trains = s.trains := by
  obtain ⟨_, _, e⟩ := setAuthority_frame s a
  rw [e]; exact ⟨rfl, rfl⟩

theorem State.Interlock.setAuthority {s : State} (hs : s.Interlock) (a : Authority) : (s.setAuthority a).Interlock :=
  hs.congr (setAuthority_records s a).1 (setAuthority_records s a).2

theorem State.Interlock.empty {t : State} (hz : t.zones = []) (ht : t.trains = []) : t.Interlock := by
  refine ⟨fun z x h => ?_, fun z u => ?_⟩
  · rw [hz] at h; cases h
  · unfold State.holder State.holdOf
    rw [hz, ht]; simp

theorem buildLive_find {s : State} {z : Nat} {x : Zone} (h : s.buildLive.zones.find z = some x) : x = Zone.fresh := by
  have := Table.mem_of_find h
  unfold State.buildLive at this
  simp only [List.mem_map, Prod.mk.injEq] at this
  obtain ⟨_, _, _, rfl⟩ := this
  rfl

theorem buildLive_interlock (s : State) : s.buildLive.Interlock := by
  refine ⟨fun z x h => ?_, fun z u => ?_⟩
  · rw [buildLive_find h]; trivial
  · have h1 : s.buildLive.holder z = none := by
      cases hf : s.buildLive.zones.find z with
      | none => unfold State.holder; rw [hf]; rfl
      | some x => rw [holder_of_find hf, buildLive_find hf]; rfl
    have h2 : s.buildLive.holdOf u = [] := rfl
    rw [h1, h2]; simp

/-- The zone a train is placed in or relocated to is held by it alone. -/
theorem State.Interlock.seated {s t : State} (hs : s.Interlock) (u z : Nat) (hz : t.zones = (s.updZone z (Zone.give .occupied u)).zones)
    (hh : s.holder z = none) (hf : (s.zones.find z).isSome = true) (hu : t.holdOf u = [z]) (h0 : s.holdOf u = [])
    (ho : ∀ v, v ≠ u → t.holdOf v = s.holdOf v) : t.Interlock := by
  refine ⟨fun y x h => ?_, fun y v => ?_⟩
  · rw [hz, State.updZone_zones, Table.find_upd] at h
    split at h
    · cases hx : s.zones.find y with
      | none => rw [hx] at h; cases h
      | some x' => rw [hx] at h; cases h; rfl
    · exact hs.fits y x h
  · rw [holder_congr hz, holder_updZone]
    obtain ⟨x, hx⟩ := Option.isSome_iff_exists.mp hf
    by_cases hy : y = z
    · subst hy
      simp only [if_true, hx, Option.bind_some]
      have hg : (Zone.give .occupied u x).holder = some u := rfl
      rw [hg]
      by_cases hv : v = u
      · subst hv; rw [hu]; simp
      · rw [ho v hv]
        constructor
        · intro h; cases h; exact absurd rfl hv
        · intro h
          have := (hs.agree y v).mpr h
          rw [hh] at this; cases this
    · simp only [hy, if_false]
      by_cases hv : v = u
      · subst hv
        rw [hs.agree y v, h0, hu]
        simp [hy]
      · rw [ho v hv]; exact hs.agree y v

theorem State.Interlock.placed {s : State} (hs : s.Interlock) {u z : Nat} (tag : Byte) (hf : s.trains.find u = none)
    (hh : s.holder z = none) (hz : (s.zones.find z).isSome = true) : (s.placed u tag z).Interlock := by
  have ht : (s.placed u tag z).trains = s.trains.put u (Train.placed tag z) := rfl
  refine hs.seated u z rfl hh hz ?_ ?_ (fun v hv => ?_)
  · unfold State.holdOf; rw [ht, Table.find_put]; simp [Train.placed]
  · unfold State.holdOf; rw [hf]; rfl
  · unfold State.holdOf; rw [ht, Table.find_put]; simp [hv]

theorem mem_heldBy {s : State} {u z : Nat} {zs : List Nat} : z ∈ s.heldBy u zs ↔ z ∈ zs ∧ s.holder z = some u := by
  unfold State.heldBy; simp

theorem State.Interlock.withdrawn {s : State} (hs : s.Interlock) (u : Nat) {f : Zone → Zone}
    (hf : f = Zone.leave .suspect ∨ f = Zone.released) : (s.withdrawn u f).Interlock := by
  have ht : (s.withdrawn u f).trains = s.trains.del u := rfl
  refine hs.left u (s.heldBy u (s.holdOf u)) f ?_ (fun z hz => (mem_heldBy.mp hz).2) rfl (fun z => ?_) (fun v hv => ?_)
  · rcases hf with rfl | rfl
    · exact fun _ => ⟨trivial, rfl⟩
    · exact released_fits
  · have : (s.withdrawn u f).holdOf u = [] := by unfold State.holdOf; rw [ht, Table.find_del]; simp
    rw [this, mem_heldBy]
    constructor
    · intro h; cases h
    · intro h; exact absurd ⟨h.1, (hs.agree z u).mpr h.1⟩ h.2
  · unfold State.holdOf; rw [ht, Table.find_del]; simp [hv]

theorem State.Interlock.relocated {s : State} (hs : s.Interlock) {u z : Nat} {r : Train} (hr : s.trains.find u = some r)
    (hh : s.holder z = none ∨ s.holder z = some u) (hz : (s.zones.find z).isSome = true) : (s.relocated u z).Interlock := by
  have ht : (s.relocated u z).trains = (s.trains.upd u (Train.relocated z)).upd u (fun r => { r with claim := .none }) := rfl
  have hw : (s.relocated u z).holdOf u = [z] := by
    unfold State.holdOf
    rw [ht, Table.find_upd, Table.find_upd, hr]; simp [Train.relocated]
  have ho : ∀ v, v ≠ u → (s.relocated u z).holdOf v = s.holdOf v := by
    intro v hv
    unfold State.holdOf
    rw [ht, Table.find_upd, Table.find_upd]; simp [hv]
  have hf : ∀ y x, (s.relocated u z).zones.find y = some x → x.Fits := by
    intro y x h
    rw [relocated_zones, State.updZone_zones, State.updZones_zones, Table.find_upd, Table.find_updAll] at h
    split at h
    · split at h
      · cases hx : s.zones.find y with
        | none => rw [hx] at h; cases h
        | some x' => rw [hx] at h; cases h; rfl
      · cases hx : s.zones.find y with
        | none => rw [hx] at h; cases h
        | some x' => rw [hx] at h; cases h; rfl
    · split at h
      · cases hx : s.zones.find y with
        | none => rw [hx] at h; cases h
        | some x' => rw [hx] at h; cases h; trivial
      · exact hs.fits y x h
  refine ⟨hf, fun y v => ?_⟩
  rw [holder_congr (relocated_zones s u z), holder_updZone]
  obtain ⟨x, hx⟩ := Option.isSome_iff_exists.mp hz
  by_cases hy : y = z
  · subst hy
    have hfind : ∃ x', (s.updZones ((s.heldBy u (s.holdOf u)).filter (fun w => decide (w ≠ y))) (Zone.leave .suspect)).zones.find y = some x' := by
      rw [State.updZones_zones, Table.find_updAll, hx]
      split
      · exact ⟨_, rfl⟩
      · exact ⟨_, rfl⟩
    obtain ⟨x', hx'⟩ := hfind
    simp only [if_true, hx', Option.bind_some]
    have hg : (Zone.give .occupied u x').holder = some u := rfl
    rw [hg]
    by_cases hv : v = u
    · subst hv; rw [hw]; simp
    · rw [ho v hv]
      constructor
      · intro h; cases h; exact absurd rfl hv
      · intro h
        have := (hs.agree y v).mpr h
        rcases hh with hh | hh <;> rw [hh] at this <;> cases this
        exact absurd rfl hv
  · simp only [hy, if_false]
    rw [holder_updZones]
    by_cases hm : y ∈ (s.heldBy u (s.holdOf u)).filter (fun w => decide (w ≠ z))
    · have hn : (s.zones.find y).bind (fun x => (Zone.leave .suspect x).holder) = none := by
        cases s.zones.find y <;> rfl
      simp only [hm, if_true, hn, reduceCtorEq, false_iff]
      intro h
      by_cases hv : v = u
      · subst hv; rw [hw] at h; simp only [List.mem_singleton] at h; exact hy h
      · rw [ho v hv] at h
        have h1 := (hs.agree y v).mpr h
        have h2 := (mem_heldBy.mp (List.mem_filter.mp hm).1).2
        rw [h1] at h2; cases h2; exact hv rfl
    · simp only [hm, if_false]
      by_cases hv : v = u
      · subst hv
        rw [hw, hs.agree y v]
        constructor
        · intro h
          exact absurd (List.mem_filter.mpr ⟨mem_heldBy.mpr ⟨h, (hs.agree y v).mpr h⟩, by simp [hy]⟩) hm
        · intro h; simp only [List.mem_singleton] at h; exact absurd h hy
      · rw [ho v hv]; exact hs.agree y v

theorem tick_find (s : State) (z : Nat) : s.tick.zones.find z =
    (s.zones.find z).map (fun x => { x with timer := x.timer.tick (s.layout.timerLimit z) }) := by
  have h := Table.find_mapVals s.zones
    (fun (k : Nat) (x : Zone) => ({ x with timer := x.timer.tick (s.layout.timerLimit k) } : Zone)) z
  exact h

theorem State.Interlock.act {s t : State} (hs : s.Interlock) (h : Act s t) : t.Interlock := by
  cases h with
  | stopInOn => exact State.Interlock.arise (s := { s with stopInPin := true }) (hs.congr rfl rfl) _
  | keyOn => exact State.Interlock.setAuthority (State.Interlock.arise (s := { s with keyMaint := true }) (hs.congr rfl rfl) _) _
  | keyOff =>
    unfold State.keyReleased
    dsimp only
    split
    · refine State.Interlock.setAuthority ?_ _
      exact hs.congr rfl rfl
    · exact hs.congr rfl rfl
  | arise c _ => exact hs.arise c
  | configEntered => exact .empty rfl rfl
  | built _ => exact (buildLive_interlock s).congr rfl rfl
  | resumed g _ _ _ =>
    have h1 : (s.releaseGroup g).Interlock := hs.onZones _ _ (fun _ _ _ _ hx => ⟨hx, rfl⟩)
    unfold State.resumed
    dsimp only
    split
    · exact h1
    · exact h1.congr rfl rfl
  | authority a _ _ => exact hs.setAuthority a
  | enterAnomaly k n b _ =>
    unfold State.enterAnomaly
    split
    · exact hs.congr rfl rfl
    · split <;> exact hs.congr rfl rfl
  | tick _ =>
    have hfind := tick_find s
    refine ⟨fun z x h => ?_, fun z u => ?_⟩
    · rw [hfind] at h
      cases hx : s.zones.find z with
      | none => rw [hx] at h; cases h
      | some y => rw [hx] at h; cases h; exact hs.fits z y hx
    · have : s.tick.holder z = s.holder z := by
        unfold State.holder
        rw [hfind]
        cases s.zones.find z <;> rfl
      rw [this]
      exact hs.agree z u
  | zoneTimer z f => exact hs.onZone z _ (fun _ _ hx => ⟨hx, rfl⟩)
  | occupy _ z u h _ =>
    unfold State.occupy at h
    split at h <;> cases h
    rename_i hc _
    refine hs.onZone z _ (fun x hx _ => ⟨?_, rfl⟩)
    rw [holder_of_find hx] at hc
    show x.holder.isSome = true
    rw [hc.1]; rfl
  | trail _ z u h =>
    unfold State.trail at h
    split at h <;> cases h
    rename_i hc
    refine hs.onZone z _ (fun x hx _ => ⟨?_, rfl⟩)
    rw [holder_of_find hx] at hc
    show x.holder.isSome = true
    rw [hc.2.1]; rfl
  | release _ u zs h => exact hs.release h
  | evaluate => exact hs.evaluate
  | mark z a _ => exact hs.markSuspect z a
  | lineSuspect n => exact hs.lineSuspect n
  | train u f hf _ => exact hs.onTrain u f (fun r => (hf r).1)
  | dropClaim u =>
    exact State.Interlock.onTrain (s := { s with waitQueue := s.waitQueue.filter (fun d => decide (d.train ≠ u)) })
      (hs.congr rfl rfl) u _ (fun _ => rfl)
  | enterClaim _ u b _ h =>
    obtain ⟨r, _, _, rfl⟩ := enterClaim_eq h
    exact (hs.onTrain u (fun r => { r with claim := .pending }) (fun _ => rfl)).congr rfl rfl
  | placed u tag z _ hf _ _ hh hz _ => exact hs.placed tag hf hh hz
  | withdrawn u f hf => exact hs.withdrawn u hf
  | relocated u z r hr hh hz _ => exact hs.relocated hr hh hz
  | unheld zs st hzs hst =>
    refine hs.onZones zs _ (fun z x hz hx _ => ⟨?_, rfl⟩)
    have hn : x.holder = none := by
      rw [← holder_of_find hx]
      rcases hzs z hz with h | h
      · exact h
      · exact hs.unheld (.inr h)
    unfold Zone.Fits Zone.turn
    rcases hst with rfl | rfl <;> exact hn
  | _ => exact hs.congr rfl rfl

theorem State.Interlock.move {s t : State} (hs : s.Interlock) (h : Move s t) : t.Interlock := by
  cases h with
  | act h => exact hs.act h
  | hardReset =>
    unfold State.hardReset
    split
    · exact buildLive_interlock _
    · exact .empty rfl rfl
  | _ => exact hs.congr rfl rfl

end Sys2Proof.Machine
end

