-- ==== Sys2Proof/Laws/HoldLists.lean ====
section
/-! SUPPORT. Every act keeps hold lists as R54 has them, given the interlock; and a TRANSFER zone whose switch moves without a
holder (R118). -/

namespace Sys2Proof.Machine

/-! ## Exit extensions have no repeats (R9) -/

/-- Two walks from a gate that both end are one walk. -/
theorem walk_unique (l : Layout) (m n g : Nat) (e e' : List (Nat × Nat)) (h : l.walk m g = some e) (k : l.walk n g = some e') :
    e = e' := by
  induction m generalizing n g e e' with
  | zero => cases h
  | succ m ih =>
    cases n with
    | zero => cases k
    | succ n =>
      unfold Layout.walk at h k
      cases hr : l.gates.find g with
      | none => rw [hr] at h; cases h
      | some r =>
        rw [hr] at h k
        dsimp only at h k
        cases hk : l.kindOf r.dst with
        | none => rw [hk] at h; cases h
        | some kd =>
          rw [hk] at h k
          dsimp only at h k
          split at h
          · rename_i hs
            rw [if_pos hs] at k
            cases h; cases k; rfl
          · rename_i hs
            rw [if_neg hs] at k
            cases hx : (l.exitGates r.dst).head? with
            | none => rw [hx] at h; cases h
            | some g' =>
              rw [hx] at h k
              dsimp only at h k
              cases h1 : l.walk m g' with
              | none => rw [h1] at h; cases h
              | some a =>
                cases h2 : l.walk n g' with
                | none => rw [h2] at k; cases k
                | some b =>
                  rw [h1] at h; rw [h2] at k
                  cases h; cases k
                  rw [ih n g' a b h1 h2]

/-- What follows a zone of a walk: the walk from its exit gate; nothing follows a stoppable zone. -/
theorem walk_after (l : Layout) (n g : Nat) (e pre post : List (Nat × Nat)) (z g2 : Nat) (h : l.walk n g = some e)
    (he : e = pre ++ (z, g2) :: post) :
    (post = [] ∧ l.stoppable z = true) ∨
      (l.stoppable z = false ∧ ∃ m g', (l.exitGates z).head? = some g' ∧ l.walk m g' = some post) := by
  induction n generalizing g e pre with
  | zero => cases h
  | succ n ih =>
    unfold Layout.walk at h
    cases hr : l.gates.find g with
    | none => rw [hr] at h; cases h
    | some r =>
      rw [hr] at h
      dsimp only at h
      cases hk : l.kindOf r.dst with
      | none => rw [hk] at h; cases h
      | some kd =>
        rw [hk] at h
        dsimp only at h
        have hst : l.stoppable r.dst = kd.stoppable := by unfold Layout.stoppable; rw [hk]; rfl
        split at h
        · rename_i hs
          cases h
          cases pre with
          | nil => simp only [List.nil_append, List.cons.injEq, Prod.mk.injEq] at he; obtain ⟨⟨rfl, _⟩, rfl⟩ := he; exact .inl ⟨rfl, hst.trans hs⟩
          | cons p pre => simp at he
        · rename_i hs
          cases hx : (l.exitGates r.dst).head? with
          | none => rw [hx] at h; cases h
          | some g' =>
            rw [hx] at h
            dsimp only at h
            cases h1 : l.walk n g' with
            | none => rw [h1] at h; cases h
            | some a =>
              rw [h1] at h
              cases h
              cases pre with
              | nil =>
                simp only [List.nil_append, List.cons.injEq, Prod.mk.injEq] at he
                obtain ⟨⟨rfl, _⟩, rfl⟩ := he
                exact .inr ⟨by rw [hst]; simpa using hs, n, g', hx, h1⟩
              | cons p pre =>
                simp only [List.cons_append, List.cons.injEq] at he
                exact ih g' a pre h1 he.2

theorem walk_nodup (l : Layout) (n g : Nat) (e : List (Nat × Nat)) (h : l.walk n g = some e) :
    (e.map (fun q => q.1)).Nodup := by
  induction n generalizing g e with
  | zero => cases h
  | succ n ih =>
    unfold Layout.walk at h
    cases hr : l.gates.find g with
    | none => rw [hr] at h; cases h
    | some r =>
      rw [hr] at h
      dsimp only at h
      cases hk : l.kindOf r.dst with
      | none => rw [hk] at h; cases h
      | some kd =>
        rw [hk] at h
        dsimp only at h
        split at h
        · cases h; simp
        · rename_i hs
          cases hx : (l.exitGates r.dst).head? with
          | none => rw [hx] at h; cases h
          | some g' =>
            rw [hx] at h
            dsimp only at h
            cases h1 : l.walk n g' with
            | none => rw [h1] at h; cases h
            | some a =>
              rw [h1] at h
              cases h
              rw [List.map_cons, List.nodup_cons]
              refine ⟨fun hm => ?_, ih g' a h1⟩
              simp only [List.mem_map] at hm
              obtain ⟨⟨z, g2⟩, hq, hz⟩ := hm
              dsimp only at hz
              obtain ⟨pre, post, hp⟩ := List.append_of_mem hq
              rcases walk_after l n g' a pre post z g2 h1 hp with ⟨_, h2⟩ | ⟨_, m, g3, h3, h4⟩
              · unfold Layout.stoppable at h2
                rw [hz, hk] at h2
                exact hs h2
              · rw [hz, hx] at h3
                cases h3
                have := walk_unique l n m g' a post h1 h4
                have hl := congrArg List.length (this.symm.trans hp)
                simp only [List.length_append, List.length_cons] at hl
                omega

theorem extension_nodup {s : State} {z : Nat} {e : List (Nat × Nat)} (h : s.extension z = some e) :
    (e.map (fun q => q.1)).Nodup := by
  unfold State.extension Layout.extension at h
  split at h
  · cases hg : s.layout.currentExitGate s.switches z with
    | none => rw [hg] at h; cases h
    | some g => rw [hg] at h; exact walk_nodup _ _ _ _ h
  · cases h

/-! ## Hold lists -/

/-- Hold lists as R54 has them, but for the order in those of the trains listed. -/
def State.HoldListsBut (s : State) (l : List Nat) : Prop :=
  ∀ t r, s.trains.find t = some r →
    r.hold ≠ [] ∧ r.hold.length ≤ Config.holdMax ∧ r.hold.Nodup ∧ (t ∉ l → s.stale r.hold = [])

theorem holdListsBut_nil {s : State} : s.HoldListsBut [] ↔ s.HoldLists := by
  unfold State.HoldListsBut State.HoldLists
  constructor
  · intro h t r hr
    obtain ⟨a, b, c, d⟩ := h t r hr
    exact ⟨a, b, c, d (by simp)⟩
  · intro h t r hr
    obtain ⟨a, b, c, d⟩ := h t r hr
    exact ⟨a, b, c, fun _ => d⟩

theorem stale_congr_on {s t : State} {l : List Nat} (h : ∀ z, z ∈ l → t.isReserved z = s.isReserved z) :
    t.stale l = s.stale l := by
  induction l with
  | nil => rfl
  | cons z r ih =>
    have hr : (r.any fun y => !t.isReserved y) = (r.any fun y => !s.isReserved y) := by
      rw [Bool.eq_iff_iff, List.any_eq_true, List.any_eq_true]
      constructor
      · rintro ⟨y, hy, h'⟩; exact ⟨y, hy, by rw [← h y (List.mem_cons_of_mem _ hy)]; exact h'⟩
      · rintro ⟨y, hy, h'⟩; exact ⟨y, hy, by rw [h y (List.mem_cons_of_mem _ hy)]; exact h'⟩
    rw [State.stale, State.stale, h z (by simp), hr, ih (fun y hy => h y (List.mem_cons_of_mem _ hy))]

theorem stale_subset (s : State) (l : List Nat) : ∀ z, z ∈ s.stale l → z ∈ l := by
  induction l with
  | nil => intro z h; cases h
  | cons y r ih =>
    intro z h
    rw [State.stale] at h
    split at h
    · rcases List.mem_cons.mp h with h | h
      · simp [h]
      · exact List.mem_cons_of_mem _ (ih z h)
    · exact List.mem_cons_of_mem _ (ih z h)

theorem isReserved_congr {s t : State} {z : Nat} (h : t.zoneState z = s.zoneState z) : t.isReserved z = s.isReserved z := by
  unfold State.isReserved; rw [h]

theorem isReserved_turned (s : State) (zs : List Nat) (f : Zone → Zone) (hf : ∀ x, (f x).state ≠ .reserved) (z : Nat) :
    (s.updZones zs f).isReserved z = (s.isReserved z && decide (z ∉ zs)) := by
  unfold State.isReserved
  rw [zoneState_updZones]
  by_cases h : z ∈ zs
  · cases s.zones.find z with
    | none => simp [h]
    | some x => simp [h, hf x]
  · simp [h]

theorem stale_zones {s t : State} (h : t.zones = s.zones) (l : List Nat) : t.stale l = s.stale l :=
  stale_congr (fun z => isReserved_congr (zoneState_congr h z)) l

theorem stale_updTrain (s : State) (t : Nat) (f : Train → Train) (l : List Nat) : (s.updTrain t f).stale l = s.stale l :=
  stale_zones (State.updTrain_zones s t f) l

/-- Marking what is stale leaves nothing stale. -/
theorem stale_after (s : State) (l : List Nat) (hn : l.Nodup) :
    (s.updZones (s.stale l) (Zone.turn .suspect)).stale l = [] := by
  rw [stale_eq_nil_iff]
  have key : ∀ (m : List Nat) (S : List Nat), m.Nodup → (∀ x, x ∈ m → (x ∈ S ↔ x ∈ s.stale m)) →
      m.Pairwise (fun x y => (s.isReserved x && decide (x ∉ S)) = true → (s.isReserved y && decide (y ∉ S)) = true) := by
    intro m
    induction m with
    | nil => intro S _ _; exact .nil
    | cons z r ih =>
      intro S hnd hS
      have hz := List.nodup_cons.mp hnd
      have hr : ∀ x, x ∈ r → (x ∈ S ↔ x ∈ s.stale r) := by
        intro x hx
        rw [hS x (List.mem_cons_of_mem _ hx), State.stale]
        split
        · have : x ≠ z := fun h => hz.1 (h ▸ hx)
          simp [this]
        · exact .rfl
      rw [List.pairwise_cons]
      refine ⟨fun y hy h => ?_, ih S hz.2 hr⟩
      simp only [Bool.and_eq_true, decide_eq_true_eq] at h ⊢
      have hzS := hS z (by simp)
      rw [State.stale] at hzS
      by_cases hany : (r.any fun y => !s.isReserved y) = true
      · rw [h.1, hany] at hzS
        simp only [Bool.and_self, if_true] at hzS
        exact absurd (hzS.mpr (by simp)) h.2
      · have hall : ∀ w, w ∈ r → s.isReserved w = true := by
          intro w hw
          cases hwr : s.isReserved w with
          | true => rfl
          | false => exact absurd (List.any_eq_true.mpr ⟨w, hw, by simp [hwr]⟩) hany
        refine ⟨hall y hy, fun hyS => ?_⟩
        have hst : s.stale r = [] := by
          rw [stale_eq_nil_iff]
          refine List.Pairwise.imp_of_mem (R := fun _ _ => True) ?_ (List.pairwise_of_forall (fun _ _ => trivial))
          intro a b _ hb _ _
          exact hall b hb
        have := (hr y hy).mp hyS
        rw [hst] at this; cases this
  have := key l (s.stale l) hn (fun x _ => .rfl)
  refine this.imp ?_
  intro x y hxy
  rw [isReserved_turned s _ _ (fun _ => by simp [Zone.turn]), isReserved_turned s _ _ (fun _ => by simp [Zone.turn])]
  exact hxy

theorem keepOrder_trains (s : State) (t : Nat) : (s.keepOrder t).trains = s.trains := by
  unfold State.keepOrder
  split <;> rfl

/-- R56 puts one train's hold list in order and leaves the others as they are. -/
theorem State.HoldListsBut.keepOrder {s : State} (hi : s.Interlock) {l : List Nat} {u : Nat} (hs : s.HoldListsBut (u :: l)) :
    (s.keepOrder u).HoldListsBut l := by
  intro t r hr
  rw [keepOrder_trains] at hr
  obtain ⟨a, b, c, d⟩ := hs t r hr
  refine ⟨a, b, c, fun ht => ?_⟩
  by_cases hu : t = u
  · subst hu
    unfold State.keepOrder
    rw [hr]
    exact stale_after s r.hold c
  · rw [← d (by simp [hu, ht])]
    apply stale_congr_on
    intro z hz
    unfold State.keepOrder
    cases hf : s.trains.find u with
    | none => rfl
    | some ru =>
      dsimp only
      rw [isReserved_turned s _ _ (fun _ => by simp [Zone.turn])]
      have : z ∉ s.stale ru.hold := by
        intro h
        have h1 : z ∈ s.holdOf u := by rw [holdOf_of_find hf]; exact stale_subset _ _ z h
        have h2 : z ∈ s.holdOf t := by rw [holdOf_of_find hr]; exact hz
        exact hu (hi.unique h2 h1)
      simp [this]

/-- Zone states change: the hold lists stay in order where no RESERVED zone of them changes. -/
theorem State.HoldLists.states {s t : State} (hs : s.HoldLists) {l : List Nat} (ht : t.trains = s.trains)
    (h : ∀ u z, u ∉ l → z ∈ s.holdOf u → t.isReserved z = s.isReserved z) : t.HoldListsBut l := by
  intro u r hr
  rw [ht] at hr
  obtain ⟨a, b, c, d⟩ := hs u r hr
  refine ⟨a, b, c, fun hu => ?_⟩
  rw [← d]
  exact stale_congr_on (fun z hz => h u z hu (by rw [holdOf_of_find hr]; exact hz))

theorem State.HoldLists.congr {s t : State} (hs : s.HoldLists) (hz : t.zones = s.zones) (ht : t.trains = s.trains) :
    t.HoldLists :=
  holdListsBut_nil.mp (hs.states ht (fun _ z _ _ => isReserved_congr (zoneState_congr hz z)))

/-- A train record changes, but not its hold list. -/
theorem State.HoldListsBut.onTrain {s : State} {l : List Nat} (hs : s.HoldListsBut l) (t : Nat) (f : Train → Train)
    (hf : ∀ r, (f r).hold = r.hold) : (s.updTrain t f).HoldListsBut l := by
  intro u r hr
  rw [State.updTrain_trains, Table.find_upd] at hr
  split at hr
  · cases hx : s.trains.find u with
    | none => rw [hx] at hr; cases hr
    | some r' =>
      rw [hx] at hr; cases hr
      rw [hf r', stale_updTrain]
      exact hs u r' hx
  · rw [stale_updTrain]
    exact hs u r hr

theorem isReserved_updZone (s : State) (z : Nat) (f : Zone → Zone) (hf : ∀ x, (f x).state ≠ .reserved) (y : Nat) :
    (s.updZone z f).isReserved y = (s.isReserved y && decide (y ≠ z)) := by
  rw [State.updZone_eq_updZones, isReserved_turned s [z] f hf y]
  simp

theorem State.HoldLists.markSuspect {s : State} (hs : s.HoldLists) (hi : s.Interlock) (z : Nat) (a : Option Nat) :
    (s.markSuspect z a).HoldLists := by
  have hres : ∀ y, (s.updZone z (Zone.turn .suspect)).isReserved y = (s.isReserved y && decide (y ≠ z)) :=
    isReserved_updZone s z _ (fun _ => by simp [Zone.turn])
  have hsus : (s.updZone z (Zone.turn .suspect)).Interlock := by
    rw [State.updZone_eq_updZones]; exact hi.suspected [z]
  unfold State.markSuspect
  split
  · rename_i u hu
    refine holdListsBut_nil.mp (State.HoldListsBut.keepOrder hsus (hs.states rfl ?_))
    intro v y hv hy
    rw [hres y]
    have : y ≠ z := by
      intro h
      subst h
      have := (hi.agree y v).mpr hy
      rw [hu] at this; cases this
      exact hv (by simp)
    simp [this]
  · rename_i hn
    have free : ∀ v, z ∉ s.holdOf v := by
      intro v hv
      have := (hi.agree z v).mpr hv
      rw [hn] at this; cases this
    have plain : (s.updZone z (Zone.turn .suspect)).HoldLists := by
      refine holdListsBut_nil.mp (hs.states rfl ?_)
      intro v y _ hy
      rw [hres y]
      have : y ≠ z := fun h => free v (h ▸ hy)
      simp [this]
    split
    · exact plain
    rename_i t
    split
    · rename_i hc
      simp only [Bool.and_eq_true] at hc
      have hm := hc.2
      unfold State.mayAdopt at hm
      simp only [Bool.and_eq_true] at hm
      cases hr : s.trains.find t with
      | none => rw [hr] at hm; simp at hm
      | some r0 =>
        rw [hr] at hm
        simp only [Option.any_some, decide_eq_true_eq] at hm
        have hi2 : ((s.updZone z (Zone.give .suspect t)).updTrain t (fun r => { r with hold := r.hold ++ [z] })).Interlock := by
          rw [State.updZone_eq_updZones]
          exact hi.give hr [z] .suspect (by simp)
            (fun y hy => by simp only [List.mem_singleton] at hy; subst hy; exact ⟨hn, hc.1⟩)
        refine holdListsBut_nil.mp (State.HoldListsBut.keepOrder hi2 ?_)
        intro v r hv
        rw [State.updTrain_trains, Table.find_upd] at hv
        by_cases hvt : v = t
        · subst hvt
          rw [if_pos rfl] at hv
          rw [show (s.updZone z (Zone.give .suspect v)).trains = s.trains from rfl, hr] at hv
          cases hv
          obtain ⟨a, b, c, d⟩ := hs v r0 hr
          refine ⟨by simp, ?_, ?_, fun h => absurd (by simp) h⟩
          · simp only [List.length_append, List.length_cons, List.length_nil]; omega
          · rw [List.nodup_append]
            refine ⟨c, by simp, ?_⟩
            intro x hx y hy hxy
            simp only [List.mem_singleton] at hy
            subst hy
            subst hxy
            exact free v (by rw [holdOf_of_find hr]; exact hx)
        · rw [if_neg hvt] at hv
          have hv' : s.trains.find v = some r := hv
          obtain ⟨a, b, c, d⟩ := hs v r hv'
          refine ⟨a, b, c, fun _ => ?_⟩
          rw [← d]
          apply stale_congr_on
          intro y hy
          have hyz : y ≠ z := by
            intro h
            subst h
            exact free v (by rw [holdOf_of_find hv']; exact hy)
          have := isReserved_updZone s z (Zone.give .suspect t) (fun _ => by simp [Zone.give, Zone.turn]) y
          show (s.updZone z (Zone.give .suspect t)).isReserved y = _
          rw [this]
          simp [hyz]
    · exact plain

theorem State.HoldLists.lineSuspect {s : State} (hs : s.HoldLists) (hi : s.Interlock) (n : Nat) :
    (s.lineSuspect n).HoldLists := by
  unfold State.lineSuspect
  have h1 := hi.onZones (s.layout.affectedZones n) Zone.lineLost (fun _ x _ _ h => lineLost_fits x h)
  have h2 : (s.updZones (s.layout.affectedZones n) Zone.lineLost).HoldListsBut (s.affectedHolders n) := by
    refine hs.states rfl ?_
    intro u z hu hz
    apply isReserved_congr
    rw [zoneState_updZones, if_neg]
    intro hm
    refine hu ?_
    unfold State.affectedHolders
    rw [List.mem_filterMap]
    exact ⟨z, hm, (hi.agree z u).mpr hz⟩
  dsimp only
  generalize s.updZones (s.layout.affectedZones n) Zone.lineLost = s1 at h1 h2
  generalize s.affectedHolders n = l at h2
  induction l generalizing s1 with
  | nil => exact holdListsBut_nil.mp h2
  | cons t r ih =>
    have h3 := h1.onTrain t (fun r => { r with motion := .untracked }) (fun _ => rfl)
    have h4 := h2.onTrain t (fun r => { r with motion := .untracked }) (fun _ => rfl)
    exact ih _ (State.Interlock.keepOrder h3 t) (State.HoldListsBut.keepOrder h3 h4)

theorem State.HoldLists.release {s t : State} (hs : s.HoldLists) (hi : s.Interlock) {u : Nat} {zs : List Nat}
    (h : s.release u zs = some t) : t.HoldLists := by
  unfold State.release at h
  split at h
  · cases h
  rename_i r0 hr
  split at h <;> cases h
  rename_i hne
  have hres : ∀ y, (s.updZones (s.heldBy u zs) Zone.released).isReserved y = (s.isReserved y && decide (y ∉ s.heldBy u zs)) :=
    isReserved_turned s _ _ (fun x => by unfold Zone.released Zone.leave Zone.turn; split <;> simp)
  intro v r hv
  rw [State.updTrain_trains, Table.find_upd] at hv
  have same : ∀ y, y ∉ s.heldBy u zs → (s.updZones (s.heldBy u zs) Zone.released).isReserved y = s.isReserved y := by
    intro y hy; rw [hres y]; simp [hy]
  by_cases hvu : v = u
  · subst hvu
    rw [if_pos rfl, show (s.updZones (s.heldBy v zs) Zone.released).trains = s.trains from rfl, hr] at hv
    cases hv
    obtain ⟨a, b, c, d⟩ := hs v r0 hr
    refine ⟨fun h => hne (.inr h), Nat.le_trans (List.length_filter_le _ _) b, c.filter _, ?_⟩
    rw [stale_updTrain]
    rw [stale_congr_on (s := s)]
    · rw [stale_eq_nil_iff] at d ⊢
      exact d.filter _
    · intro y hy
      refine same y ?_
      have := (List.mem_filter.mp hy).2
      simpa using this
  · rw [if_neg hvu] at hv
    have hv' : s.trains.find v = some r := hv
    obtain ⟨a, b, c, d⟩ := hs v r hv'
    refine ⟨a, b, c, ?_⟩
    rw [stale_updTrain]
    rw [← d]
    apply stale_congr_on
    intro y hy
    refine same y (fun hm => ?_)
    have h1 := (mem_heldBy.mp hm).2
    have h2 := (hi.agree y v).mpr (by rw [holdOf_of_find hv']; exact hy)
    rw [h1] at h2; cases h2; exact hvu rfl

theorem State.HoldLists.reserve {s t : State} (hs : s.HoldLists) (hi : s.Interlock) {u : Nat} {e : List (Nat × Nat)}
    (hn : (e.map (fun q => q.1)).Nodup) (h : s.reserve u e = some t) : t.HoldLists := by
  unfold State.reserve at h
  split at h
  · cases h
  rename_i r0 hr
  split at h <;> cases h
  rename_i hg
  have hfree : ∀ z, z ∈ e.map (fun q => q.1) → s.zoneState z = some .free := by
    intro z hz
    simp only [List.mem_map] at hz
    obtain ⟨q, hq, rfl⟩ := hz
    have := List.all_eq_true.mp hg.1 q hq
    simp only [Bool.and_eq_true, decide_eq_true_eq] at this
    exact this.1
  have hout : ∀ z v, z ∈ e.map (fun q => q.1) → z ∉ s.holdOf v := by
    intro z v hz hv
    have h1 := hi.unheld (.inl (hfree z hz))
    rw [(hi.agree z v).mpr hv] at h1; cases h1
  have hin : ∀ z, z ∈ e.map (fun q => q.1) → (s.updZones (e.map (fun q => q.1)) (Zone.give .reserved u)).isReserved z = true := by
    intro z hz
    unfold State.isReserved
    rw [zoneState_updZones, if_pos hz]
    obtain ⟨x, hx⟩ := Option.isSome_iff_exists.mp (isSome_of_zoneState (hfree z hz))
    rw [hx]
    simp [Zone.give, Zone.turn]
  have hsame : ∀ z, z ∉ e.map (fun q => q.1) →
      (s.updZones (e.map (fun q => q.1)) (Zone.give .reserved u)).isReserved z = s.isReserved z := by
    intro z hz
    apply isReserved_congr
    rw [zoneState_updZones, if_neg hz]
  intro v r hv
  rw [State.updTrain_trains, Table.find_upd] at hv
  by_cases hvu : v = u
  · subst hvu
    rw [if_pos rfl, show (s.updZones (e.map (fun q => q.1)) (Zone.give .reserved v)).trains = s.trains from rfl, hr] at hv
    cases hv
    obtain ⟨a, b, c, d⟩ := hs v r0 hr
    have hh := holdOf_of_find hr
    refine ⟨by simp [a], ?_, ?_, ?_⟩
    · simp only [List.length_append, List.length_map]; exact hg.2
    · rw [List.nodup_append]
      refine ⟨c, hn, ?_⟩
      intro x hx y hy hxy
      subst hxy
      exact hout x v hy (by rw [hh]; exact hx)
    · rw [stale_updTrain]
      rw [stale_eq_nil_iff] at d ⊢
      rw [List.pairwise_append]
      refine ⟨?_, ?_, ?_⟩
      · refine List.Pairwise.imp_of_mem ?_ d
        intro x y hx hy hxy
        rw [hsame x (fun h => hout x v h (by rw [hh]; exact hx)), hsame y (fun h => hout y v h (by rw [hh]; exact hy))]
        exact hxy
      · refine List.Pairwise.imp_of_mem (R := fun _ _ => True) ?_ (List.pairwise_of_forall (fun _ _ => trivial))
        intro x y _ hy _ _
        exact hin y hy
      · intro x _ y hy _
        exact hin y hy
  · rw [if_neg hvu] at hv
    have hv' : s.trains.find v = some r := hv
    obtain ⟨a, b, c, d⟩ := hs v r hv'
    refine ⟨a, b, c, ?_⟩
    rw [stale_updTrain]
    rw [← d]
    apply stale_congr_on
    intro y hy
    exact hsame y (fun h => hout y v h (by rw [holdOf_of_find hv']; exact hy))

theorem State.HoldLists.onTrain {s : State} (hs : s.HoldLists) (t : Nat) (f : Train → Train) (hf : ∀ r, (f r).hold = r.hold) :
    (s.updTrain t f).HoldLists := holdListsBut_nil.mp ((holdListsBut_nil.mpr hs).onTrain t f hf)

theorem State.HoldLists.tryGrant {s : State} (hs : s.HoldLists) (hi : s.Interlock) (c : Claim) : (s.tryGrant c).HoldLists := by
  have hg : ∀ s1 : State, s1.HoldLists → (s1.granted c.train).HoldLists := fun s1 h =>
    State.HoldLists.onTrain (s := { s1 with waitQueue := s1.waitQueue.filter (fun d => decide (d.train ≠ c.train)) })
      (h.congr rfl rfl) c.train _ (fun _ => rfl)
  rcases tryGrant_cases s c with h1 | ⟨r, z, e, s1, _, _, _, he, hr, h1 | h1⟩ <;> rw [h1]
  · exact hs
  · exact hg _ (hs.reserve hi (extension_nodup he) hr)
  · exact (hg _ (hs.reserve hi (extension_nodup he) hr)).congr rfl rfl

theorem State.HoldLists.arise {s : State} (hs : s.HoldLists) (c : StopCause) : (s.arise c).HoldLists := by
  refine holdListsBut_nil.mp (hs.states (arise_trains s c).1 (fun _ z _ _ => isReserved_congr ?_))
  have hold : ∀ u : State, u.holdAll.zoneState z = u.zoneState z := by
    intro u
    unfold State.holdAll
    rw [zoneState_updZones]
    split
    · unfold State.zoneState
      cases u.zones.find z <;> rfl
    · rfl
  unfold State.arise
  split
  · exact hold { s with causes := s.causes.add c, circuit := .halted }
  · exact hold { s with causes := s.causes.add c }
  · rfl
  · cases c <;> rfl
  · cases c <;> rfl

theorem State.HoldLists.empty {t : State} (h : t.trains = []) : t.HoldLists := by
  intro u r hr; rw [h] at hr; cases hr

theorem State.HoldLists.act {s t : State} (hs : s.HoldLists) (hi : s.Interlock) (h : Act s t) : t.HoldLists := by
  cases h with
  | stopInOn => exact State.HoldLists.arise (s := { s with stopInPin := true }) (hs.congr rfl rfl) _
  | keyOn =>
    exact (State.HoldLists.arise (s := { s with keyMaint := true }) (hs.congr rfl rfl) .key).congr
      (setAuthority_records _ _).1 (setAuthority_records _ _).2
  | keyOff =>
    unfold State.keyReleased
    dsimp only
    split
    · exact hs.congr (setAuthority_records _ _).1 (setAuthority_records _ _).2
    · exact hs.congr rfl rfl
  | arise c _ => exact hs.arise c
  | configEntered => exact .empty rfl
  | built _ => exact .empty rfl
  | resumed g _ _ _ =>
    have h1 : (s.releaseGroup g).HoldLists := by
      refine holdListsBut_nil.mp (hs.states rfl (fun _ z _ _ => isReserved_congr ?_))
      unfold State.releaseGroup
      rw [zoneState_updZones]
      split
      · unfold State.zoneState
        cases s.zones.find z <;> rfl
      · rfl
    unfold State.resumed
    dsimp only
    split
    · exact h1
    · exact h1.congr rfl rfl
  | authority a _ _ => exact hs.congr (setAuthority_records _ _).1 (setAuthority_records _ _).2
  | enterAnomaly k n b _ =>
    unfold State.enterAnomaly
    split
    · exact hs.congr rfl rfl
    · split <;> exact hs.congr rfl rfl
  | tick _ =>
    refine holdListsBut_nil.mp (hs.states rfl (fun _ z _ _ => isReserved_congr ?_))
    unfold State.zoneState
    rw [tick_find]
    cases s.zones.find z <;> rfl
  | zoneTimer z f =>
    refine holdListsBut_nil.mp (hs.states rfl (fun _ y _ _ => isReserved_congr ?_))
    rw [zoneState_updZone]
    split
    · rename_i e; subst e
      unfold State.zoneState
      cases s.zones.find y <;> rfl
    · rfl
  | occupy _ z u h hst =>
    unfold State.occupy at h
    split at h <;> cases h
    rename_i hocc
    intro v r hv
    have hv' : s.trains.find v = some r := hv
    obtain ⟨a, b, c, d⟩ := hs v r hv'
    refine ⟨a, b, c, ?_⟩
    by_cases hvu : v = u
    · subst hvu; exact hst r hv' c d
    · rw [← d]
      apply stale_congr_on
      intro y hy
      rw [isReserved_occupied]
      have : y ≠ z := by
        intro e; subst e
        have h2 := (hi.agree y v).mpr (by rw [holdOf_of_find hv']; exact hy)
        have h3 := hocc.1
        rw [h3] at h2; cases h2; exact hvu rfl
      simp [this]
  | trail _ z u h =>
    unfold State.trail at h
    split at h <;> cases h
    rename_i hc
    refine holdListsBut_nil.mp (hs.states rfl (fun _ y _ _ => ?_))
    rw [isReserved_updZone s z _ (fun _ => by simp [Zone.turn])]
    by_cases e : y = z
    · subst e; unfold State.isReserved; rw [hc.2.2]; simp
    · simp [e]
  | release _ u zs h => exact hs.release hi h
  | evaluate =>
    have := evaluate_keeps (P := fun t => t.Interlock ∧ t.HoldLists)
      (fun _ c h => ⟨h.1.tryGrant c, h.2.tryGrant h.1 c⟩) (s := s) ⟨hi, hs⟩
    exact this.2
  | mark z a _ => exact hs.markSuspect hi z a
  | lineSuspect n => exact hs.lineSuspect hi n
  | train u f hf _ => exact hs.onTrain u f (fun r => (hf r).1)
  | dropClaim u =>
    exact State.HoldLists.onTrain (s := { s with waitQueue := s.waitQueue.filter (fun d => decide (d.train ≠ u)) })
      (hs.congr rfl rfl) u _ (fun _ => rfl)
  | enterClaim _ u b _ h =>
    obtain ⟨r, _, _, rfl⟩ := enterClaim_eq h
    exact (hs.onTrain u (fun r => { r with claim := .pending }) (fun _ => rfl)).congr rfl rfl
  | placed u tag z _ hf _ _ hh _ _ =>
    have ht : (s.placed u tag z).trains = s.trains.put u (Train.placed tag z) := rfl
    have hz : (s.placed u tag z).zones = (s.updZone z (Zone.give .occupied u)).zones := rfl
    intro v r hv
    rw [ht, Table.find_put] at hv
    split at hv
    · cases hv
      refine ⟨by simp [Train.placed], by simp [Train.placed, Config.holdMax], by simp [Train.placed], ?_⟩
      rw [stale_eq_nil_iff]
      exact List.pairwise_singleton _ _
    · obtain ⟨a, b, c, d⟩ := hs v r hv
      refine ⟨a, b, c, ?_⟩
      rw [← d]
      apply stale_congr_on
      intro y hy
      have e := isReserved_updZone s z (Zone.give .occupied u) (fun _ => by simp [Zone.give, Zone.turn]) y
      rw [isReserved_congr (zoneState_congr hz y), e]
      have : y ≠ z := by
        intro e; subst e
        have h2 := (hi.agree y v).mpr (by rw [holdOf_of_find hv]; exact hy)
        rw [hh] at h2; cases h2
      simp [this]
  | withdrawn u f hf =>
    have ht : (s.withdrawn u f).trains = s.trains.del u := rfl
    have hz : (s.withdrawn u f).zones = (s.updZones (s.heldBy u (s.holdOf u)) f).zones := rfl
    intro v r hv
    rw [ht, Table.find_del] at hv
    split at hv
    · cases hv
    · rename_i hvu
      obtain ⟨a, b, c, d⟩ := hs v r hv
      refine ⟨a, b, c, ?_⟩
      rw [← d]
      apply stale_congr_on
      intro y hy
      rw [isReserved_congr (zoneState_congr hz y)]
      apply isReserved_congr
      rw [zoneState_updZones, if_neg]
      intro hm
      have h1 := (mem_heldBy.mp hm).2
      have h2 := (hi.agree y v).mpr (by rw [holdOf_of_find hv]; exact hy)
      rw [h1] at h2; cases h2; exact hvu rfl
  | relocated u z r0 hr hh _ _ =>
    have ht : (s.relocated u z).trains = (s.trains.upd u (Train.relocated z)).upd u (fun r => { r with claim := .none }) := rfl
    intro v r hv
    rw [ht, Table.find_upd, Table.find_upd] at hv
    split at hv
    · rename_i e; subst e
      rw [hr] at hv; cases hv
      refine ⟨by simp [Train.relocated], by simp [Train.relocated, Config.holdMax], by simp [Train.relocated], ?_⟩
      rw [stale_eq_nil_iff]
      exact List.pairwise_singleton _ _
    · rename_i hvu
      obtain ⟨a, b, c, d⟩ := hs v r hv
      refine ⟨a, b, c, ?_⟩
      rw [← d]
      apply stale_congr_on
      intro y hy
      have h2 := (hi.agree y v).mpr (by rw [holdOf_of_find hv]; exact hy)
      rw [isReserved_congr (zoneState_congr (relocated_zones s u z) y),
        isReserved_updZone _ z (Zone.give .occupied u) (fun _ => by simp [Zone.give, Zone.turn]) y,
        isReserved_turned s _ (Zone.leave .suspect) (fun _ => by simp [Zone.leave, Zone.turn]) y]
      have h3 : y ≠ z := by
        intro e; subst e
        rcases hh with hh | hh <;> rw [hh] at h2 <;> cases h2
        exact hvu rfl
      have h4 : y ∉ (s.heldBy u (s.holdOf u)).filter (fun w => decide (w ≠ z)) := by
        intro hm
        have h1 := (mem_heldBy.mp (List.mem_filter.mp hm).1).2
        rw [h1] at h2; cases h2; exact hvu rfl
      simp only [h4, not_false_eq_true, decide_true, Bool.and_true, h3, ne_eq]
  | unheld zs st hzs hst =>
    refine holdListsBut_nil.mp (hs.states rfl (fun v y _ hy => ?_))
    rw [isReserved_turned s zs (Zone.turn st) (fun _ => by rcases hst with rfl | rfl <;> simp [Zone.turn])]
    by_cases hm : y ∈ zs
    · have h2 := (hi.agree y v).mpr hy
      rcases hzs y hm with h | h
      · rw [h] at h2; cases h2
      · unfold State.isReserved; rw [h]; simp
    · simp [hm]
  | _ => exact hs.congr rfl rfl

theorem State.HoldLists.move {s t : State} (hs : s.HoldLists) (hi : s.Interlock) (h : Move s t) : t.HoldLists := by
  cases h with
  | act h => exact hs.act hi h
  | hardReset =>
    unfold State.hardReset
    split <;> exact .empty rfl
  | _ => exact hs.congr rfl rfl

end Sys2Proof.Machine
end

