-- ==== Sys2Proof/Laws/Relations.lean ====
section
/-! SUPPORT. The zone relations of a layout in canonical form (R7, R8), and its exit extensions (R9), as conditions over the records. -/

namespace Sys2Proof.Machine

/-! ## Gates and switches -/

/-- The numbers of the records that meet a condition, in canonical form. -/
theorem Table.mem_filterKeys {α : Type} {t : Table α} (h : t.wf) (q : Nat × α → Bool) (k : Nat) :
    k ∈ (t.filter q).map (fun e => e.1) ↔ ∃ v, t.find k = some v ∧ q (k, v) = true := by
  simp only [List.mem_map, List.mem_filter]
  constructor
  · rintro ⟨⟨j, v⟩, ⟨hm, hq⟩, rfl⟩
    exact ⟨v, Table.find_of_mem h hm, hq⟩
  · rintro ⟨v, hv, hq⟩
    exact ⟨(k, v), ⟨Table.mem_of_find hv, hq⟩, rfl⟩

theorem Table.filterKeys_sorted {α : Type} {t : Table α} (h : t.wf) (q : Nat × α → Bool) :
    ((t.filter q).map (fun e => e.1)).Pairwise (fun a b => a < b) :=
  List.Pairwise.sublist ((List.filter_sublist).map _) h

/-- The first of rising numbers is the least. -/
theorem head_sorted {l : List Nat} (h : l.Pairwise (fun a b => a < b)) (g : Nat) :
    l.head? = some g ↔ g ∈ l ∧ ∀ k, k ∈ l → g ≤ k := by
  cases l with
  | nil => simp
  | cons a r =>
    rw [List.pairwise_cons] at h
    simp only [List.head?_cons, Option.some.injEq]
    constructor
    · rintro rfl
      refine ⟨.head _, fun k hk => ?_⟩
      rcases List.mem_cons.mp hk with rfl | hk
      · exact Nat.le_refl _
      · exact Nat.le_of_lt (h.1 k hk)
    · rintro ⟨hg, hl⟩
      rcases List.mem_cons.mp hg with rfl | hg
      · rfl
      · have := h.1 g hg
        have := hl a (.head _)
        omega

theorem mem_exitGates {l : Layout} (h : l.Canonical) (z g : Nat) : g ∈ l.exitGates z ↔ l.IsExit z g := by
  unfold Layout.exitGates
  rw [Table.mem_filterKeys h.2.1]
  simp only [Layout.IsExit, decide_eq_true_eq]

theorem mem_entryGates {l : Layout} (h : l.Canonical) (z g : Nat) : g ∈ l.entryGates z ↔ l.IsEntry z g := by
  unfold Layout.entryGates
  rw [Table.mem_filterKeys h.2.1]
  simp only [Layout.IsEntry, decide_eq_true_eq]

theorem head_exitGates {l : Layout} (h : l.Canonical) (z g : Nat) : (l.exitGates z).head? = some g ↔ l.ExitGate z g := by
  have hs : (l.exitGates z).Pairwise (fun a b => a < b) := Table.filterKeys_sorted h.2.1 _
  rw [head_sorted hs]
  simp only [Layout.ExitGate, mem_exitGates h]

theorem isKind_iff (l : Layout) (z : Nat) (k : ZoneKind) : l.isKind z k = true ↔ l.kindOf z = some k := decide_eq_true_iff

theorem kindOf_of_find {l : Layout} {z : Nat} {q : ZoneRec} (h : l.zones.find z = some q) : l.kindOf z = some q.spec.kind := by
  unfold Layout.kindOf; rw [h]; rfl

theorem ZoneKind.stoppable_iff (k : ZoneKind) : k.stoppable = true ↔ k ≠ .run := by cases k <;> simp [ZoneKind.stoppable]

theorem stoppable_iff (l : Layout) (z : Nat) : l.stoppable z = true ↔ ∃ k, l.kindOf z = some k ∧ k ≠ .run := by
  unfold Layout.stoppable
  cases l.kindOf z <;> simp [ZoneKind.stoppable_iff]

theorem yard_iff (l : Layout) (z : Nat) : l.yard z = true ↔ l.kindOf z = some .station ∨ l.kindOf z = some .storage := by
  unfold Layout.yard
  cases l.kindOf z with
  | none => simp
  | some k => cases k <;> simp [ZoneKind.yard]

theorem mapped_iff (l : Layout) (n : Nat) : l.mapped n = true ↔ ∃ a, l.nodes.find n = some a ∧ 1 ≤ a := by
  unfold Layout.mapped
  cases l.nodes.find n <;> simp

/-- The first record that meets a condition, in canonical form. -/
theorem Table.find?_iff {α : Type} {t : Table α} (h : t.wf) (q : Nat × α → Bool) (k : Nat) (v : α) :
    t.find? q = some (k, v) ↔ t.find k = some v ∧ q (k, v) = true ∧ ∀ j w, t.find j = some w → q (j, w) = true → k ≤ j := by
  have hl := Table.least_some h (q := fun j w => q (j, w)) (n := k)
  unfold Table.least at hl
  constructor
  · intro hf
    have h1 : (k, v) ∈ t := List.mem_of_find?_eq_some hf
    have h2 := List.find?_some hf
    rw [hf] at hl
    exact ⟨Table.find_of_mem h h1, h2, (hl.mp rfl).2⟩
  · rintro ⟨h1, h2, h3⟩
    have := hl.mpr ⟨⟨v, h1, h2⟩, h3⟩
    cases hf : t.find? q with
    | none => rw [hf] at this; cases this
    | some e =>
      rw [hf] at this
      obtain ⟨j, w⟩ := e
      cases this
      have := Table.find_of_mem h (List.mem_of_find?_eq_some hf)
      rw [h1] at this
      cases this
      rfl

theorem Table.find?_none {α : Type} {t : Table α} (h : t.wf) (q : Nat × α → Bool) :
    t.find? q = none ↔ ∀ j w, t.find j = some w → q (j, w) = false := by
  rw [List.find?_eq_none]
  constructor
  · intro hh j w hw
    have := hh _ (Table.mem_of_find hw)
    simpa using this
  · intro hh e he
    have := hh e.1 e.2 (Table.find_of_mem h he)
    simp [this]

theorem switchOf_iff {l : Layout} (h : l.Canonical) (z k : Nat) (r : SwitchRec) : l.switchOf z = some (k, r) ↔ l.Switched z k r := by
  unfold Layout.switchOf Layout.Switched
  by_cases hz : l.kindOf z = some .transfer
  · rw [if_pos ((isKind_iff ..).mpr hz), Table.find?_iff h.2.2.2]
    simp only [decide_eq_true_eq, hz, true_and]
  · rw [if_neg (fun hk => hz ((isKind_iff ..).mp hk))]
    simp [hz]

theorem switchOf_none {l : Layout} (h : l.Canonical) {z : Nat} (hn : l.switchOf z = none) (k : Nat) (r : SwitchRec) :
    ¬l.Switched z k r := fun hs => by
  rw [(switchOf_iff h z k r).mpr hs] at hn
  cases hn

theorem Switched.unique {l : Layout} {z k j : Nat} {r q : SwitchRec} (h : l.Switched z k r) (h' : l.Switched z j q) : k = j ∧ r = q := by
  have h1 := h.2.2.2 j q h'.2.1 h'.2.2.1
  have h2 := h'.2.2.2 k r h.2.1 h.2.2.1
  have e : k = j := by omega
  subst e
  have := h.2.1.symm.trans h'.2.1
  cases this
  exact ⟨rfl, rfl⟩

/-- The position a switch is SET at. -/
theorem switchPosition_iff (w : Table Switch) (k : Nat) (q : Position) :
    switchPosition w k = some q ↔ ∃ x, w.find k = some x ∧
      ((x.state = .setMain ∧ q = .main) ∨ (x.state = .setBranch ∧ q = .branch)) := by
  unfold switchPosition
  cases w.find k with
  | none => simp
  | some x =>
    simp only [Option.bind_some, Option.some.injEq, exists_eq_left']
    cases x.state <;> cases q <;> simp [SwitchState.position]

/-- R8. -/
theorem currentExitGate_iff {l : Layout} (h : l.Canonical) (w : Table Switch) (z g : Nat) :
    l.currentExitGate w z = some g ↔ l.LeftBy w z g := by
  unfold Layout.currentExitGate Layout.LeftBy
  cases hs : l.switchOf z with
  | none =>
    dsimp only
    rw [head_exitGates h]
    constructor
    · exact fun hg => .inr ⟨fun k r hk => absurd hk (switchOf_none h hs k r), hg⟩
    · rintro (⟨k, r, x, hk, _⟩ | ⟨_, hg⟩)
      · exact absurd hk (switchOf_none h hs k r)
      · exact hg
  | some e =>
    obtain ⟨k, r⟩ := e
    have hk := (switchOf_iff h z k r).mp hs
    dsimp only
    cases hf : r.fork with
    | entry =>
      dsimp only
      rw [head_exitGates h]
      constructor
      · intro hg
        refine .inr ⟨fun j q hj => ?_, hg⟩
        obtain ⟨_, rfl⟩ := Switched.unique hk hj
        exact hf
      · rintro (⟨j, q, x, hj, he, _⟩ | ⟨_, hg⟩)
        · obtain ⟨_, rfl⟩ := Switched.unique hk hj
          rw [hf] at he; cases he
        · exact hg
    | exit =>
      dsimp only
      rw [Option.map_eq_some_iff]
      constructor
      · rintro ⟨q, hq, rfl⟩
        obtain ⟨x, hx, hc⟩ := (switchPosition_iff w k q).mp hq
        refine .inl ⟨k, r, x, hk, hf, hx, ?_⟩
        rcases hc with ⟨hc, rfl⟩ | ⟨hc, rfl⟩
        · exact .inl ⟨hc, rfl⟩
        · exact .inr ⟨hc, rfl⟩
      · rintro (⟨j, q, x, hj, _, hx, hc⟩ | ⟨he, _⟩)
        · obtain ⟨rfl, rfl⟩ := Switched.unique hk hj
          rcases hc with ⟨hc, rfl⟩ | ⟨hc, rfl⟩
          · exact ⟨.main, (switchPosition_iff ..).mpr ⟨x, hx, .inl ⟨hc, rfl⟩⟩, rfl⟩
          · exact ⟨.branch, (switchPosition_iff ..).mpr ⟨x, hx, .inr ⟨hc, rfl⟩⟩, rfl⟩
        · have := he k r hk
          rw [hf] at this; cases this

/-! ## Routes (R9) -/

/-- A route, its length not bounded. -/
structure Layout.Chain (l : Layout) (g : Nat) (e : List (Nat × Nat)) : Prop where
  first : ∃ y, e.head? = some (y, g)
  leads : ∀ y h, (y, h) ∈ e → ∃ r, l.gates.find h = some r ∧ r.dst = y
  joined : ∀ i x f y h, e[i]? = some (x, f) → e[i + 1]? = some (y, h) → l.kindOf x = some .run ∧ l.ExitGate x h
  last : ∀ y h, e.getLast? = some (y, h) → ∃ k, l.kindOf y = some k ∧ k ≠ .run

theorem Layout.Route_iff (l : Layout) (g : Nat) (e : List (Nat × Nat)) : l.Route g e ↔ l.Chain g e ∧ e.length ≤ 4 := by
  constructor
  · exact fun h => ⟨⟨h.first, h.leads, h.joined, h.last⟩, h.size.2⟩
  · rintro ⟨h, k⟩
    refine ⟨⟨?_, k⟩, h.first, h.leads, h.joined, h.last⟩
    obtain ⟨y, hy⟩ := h.first
    cases e with
    | nil => cases hy
    | cons a r => simp

theorem Layout.Chain.single {l : Layout} {g y h : Nat} :
    l.Chain g [(y, h)] ↔ h = g ∧ (∃ r, l.gates.find g = some r ∧ r.dst = y) ∧ ∃ k, l.kindOf y = some k ∧ k ≠ .run := by
  constructor
  · intro hc
    obtain ⟨x, hx⟩ := hc.first
    cases hx
    exact ⟨rfl, hc.leads _ _ (.head _), hc.last _ _ rfl⟩
  · rintro ⟨rfl, h1, h2⟩
    refine ⟨⟨y, rfl⟩, fun x f hm => ?_, fun i x f z m h3 h4 => ?_, fun x f hl => ?_⟩
    · cases List.mem_singleton.mp hm; exact h1
    · cases h4
    · cases hl; exact h2

theorem Layout.Chain.cons {l : Layout} {g y h : Nat} {b : Nat × Nat} {e : List (Nat × Nat)} :
    l.Chain g ((y, h) :: b :: e) ↔ h = g ∧ (∃ r, l.gates.find g = some r ∧ r.dst = y) ∧ l.kindOf y = some .run ∧
      ∃ g', l.ExitGate y g' ∧ l.Chain g' (b :: e) := by
  obtain ⟨by_, bh⟩ := b
  constructor
  · intro hc
    obtain ⟨x, hx⟩ := hc.first
    cases hx
    obtain ⟨j1, j2⟩ := hc.joined 0 y _ by_ bh rfl rfl
    refine ⟨rfl, hc.leads y _ (.head _), j1, bh, j2, ⟨by_, rfl⟩, fun z f hm => hc.leads z f (.tail _ hm), fun i x f z m h3 h4 => ?_,
      fun z f hl => hc.last z f (by rw [List.getLast?_cons_cons]; exact hl)⟩
    exact hc.joined (i + 1) x f z m h3 h4
  · rintro ⟨hg, h1, h2, g', h3, h4⟩
    subst hg
    refine ⟨⟨y, rfl⟩, fun z f hm => ?_, fun i x f z m h5 h6 => ?_,
      fun z f hl => h4.last z f (by rw [List.getLast?_cons_cons] at hl; exact hl)⟩
    · rcases List.mem_cons.mp hm with he | hm
      · cases he; exact h1
      · exact h4.leads z f hm
    · cases i with
      | zero =>
        cases h5
        cases h6
        obtain ⟨x, hx⟩ := h4.first
        cases hx
        exact ⟨h2, h3⟩
      | succ i => exact h4.joined i x f z m h5 h6

/-- R9, as far as a bound. -/
theorem walk_iff {l : Layout} (hl : l.Canonical) (n g : Nat) (e : List (Nat × Nat)) :
    l.walk n g = some e ↔ l.Chain g e ∧ e.length ≤ n := by
  induction n generalizing g e with
  | zero =>
    constructor
    · intro h; cases h
    · rintro ⟨h, k⟩
      obtain ⟨y, hy⟩ := h.first
      cases e with
      | nil => cases hy
      | cons a r => simp at k
  | succ n ih =>
    unfold Layout.walk
    cases hg : l.gates.find g with
    | none =>
      constructor
      · intro h; cases h
      · rintro ⟨h, _⟩
        obtain ⟨y, hy⟩ := h.first
        obtain ⟨r, hr, _⟩ := h.leads y g (List.mem_of_head? hy)
        rw [hg] at hr; cases hr
    | some r =>
      dsimp only
      have hdst : ∀ y h q, (y, h) :: q = e → l.Chain g e → h = g ∧ y = r.dst := fun y h q he hc => by
        subst he
        obtain ⟨x, hx⟩ := hc.first
        cases hx
        obtain ⟨r', hr, hd⟩ := hc.leads y g (.head _)
        rw [hg] at hr; cases hr
        exact ⟨rfl, hd.symm⟩
      cases hk : l.kindOf r.dst with
      | none =>
        dsimp only
        constructor
        · intro h; cases h
        · rintro ⟨h, _⟩
          exfalso
          match e with
          | [] => obtain ⟨y, hy⟩ := h.first; cases hy
          | [(y, f)] =>
            obtain ⟨_, rfl⟩ := hdst y f [] rfl h
            obtain ⟨k, hk', _⟩ := h.last _ _ rfl
            rw [hk] at hk'; cases hk'
          | (y, f) :: b :: q =>
            obtain ⟨_, rfl⟩ := hdst y f (b :: q) rfl h
            have := (Layout.Chain.cons.mp h).2.2.1
            rw [hk] at this; cases this
      | some k =>
        dsimp only
        by_cases hs : k.stoppable = true
        · rw [if_pos hs]
          simp only [Option.some.injEq]
          constructor
          · rintro rfl
            exact ⟨Layout.Chain.single.mpr ⟨rfl, ⟨r, hg, rfl⟩, k, hk, (ZoneKind.stoppable_iff k).mp hs⟩, by simp⟩
          · rintro ⟨h, _⟩
            match e with
            | [] => obtain ⟨y, hy⟩ := h.first; cases hy
            | [(y, f)] =>
              obtain ⟨rfl, rfl⟩ := hdst y f [] rfl h
              rfl
            | (y, f) :: b :: q =>
              obtain ⟨_, rfl⟩ := hdst y f (b :: q) rfl h
              have := (Layout.Chain.cons.mp h).2.2.1
              rw [hk] at this; cases this
              exact absurd rfl ((ZoneKind.stoppable_iff _).mp hs)
        · rw [if_neg hs]
          have hrun : k = .run := Classical.byContradiction fun hn => hs ((ZoneKind.stoppable_iff k).mpr hn)
          subst hrun
          cases hx : (l.exitGates r.dst).head? with
          | none =>
            dsimp only
            constructor
            · intro h; cases h
            · rintro ⟨h, _⟩
              exfalso
              match e with
              | [] => obtain ⟨y, hy⟩ := h.first; cases hy
              | [(y, f)] =>
                obtain ⟨_, rfl⟩ := hdst y f [] rfl h
                obtain ⟨k, hk', hn⟩ := h.last _ _ rfl
                rw [hk] at hk'; cases hk'; exact hn rfl
              | (y, f) :: b :: q =>
                obtain ⟨_, rfl⟩ := hdst y f (b :: q) rfl h
                obtain ⟨g', hg', _⟩ := (Layout.Chain.cons.mp h).2.2.2
                rw [(head_exitGates hl _ _).mpr hg'] at hx; cases hx
          | some g' =>
            have hg' := (head_exitGates hl _ _).mp hx
            dsimp only
            rw [Option.map_eq_some_iff]
            constructor
            · rintro ⟨q, hq, rfl⟩
              obtain ⟨h1, h2⟩ := (ih g' q).mp hq
              refine ⟨?_, by simp; omega⟩
              cases q with
              | nil => obtain ⟨y, hy⟩ := h1.first; cases hy
              | cons b q => exact Layout.Chain.cons.mpr ⟨rfl, ⟨r, hg, rfl⟩, hk, g', hg', h1⟩
            · rintro ⟨h, hlen⟩
              match e with
              | [] => obtain ⟨y, hy⟩ := h.first; cases hy
              | [(y, f)] =>
                obtain ⟨_, rfl⟩ := hdst y f [] rfl h
                obtain ⟨k, hk', hn⟩ := h.last _ _ rfl
                rw [hk] at hk'; cases hk'; exact absurd rfl hn
              | (y, f) :: b :: q =>
                obtain ⟨rfl, rfl⟩ := hdst y f (b :: q) rfl h
                obtain ⟨m, hm, hc⟩ := (Layout.Chain.cons.mp h).2.2.2
                have : m = g' := by
                  have := (head_exitGates hl _ _).mpr hm
                  rw [hx] at this; cases this; rfl
                subst this
                exact ⟨b :: q, (ih m (b :: q)).mpr ⟨hc, by simp at hlen ⊢; omega⟩, rfl⟩

theorem walk_route {l : Layout} (hl : l.Canonical) (g : Nat) (e : List (Nat × Nat)) :
    l.walk Config.extensionMax g = some e ↔ l.Route g e := by
  rw [walk_iff hl, Layout.Route_iff]; rfl

/-- R9. -/
theorem extension_iff {l : Layout} (hl : l.Canonical) (w : Table Switch) (z : Nat) (e : List (Nat × Nat)) :
    l.extension w z = some e ↔ (∃ k, l.kindOf z = some k ∧ k ≠ .run) ∧ ∃ g, l.LeftBy w z g ∧ l.Route g e := by
  unfold Layout.extension
  rw [← stoppable_iff]
  by_cases hs : l.stoppable z = true
  · rw [if_pos hs, Option.bind_eq_some_iff]
    simp only [hs, true_and, currentExitGate_iff hl, walk_route hl]
  · rw [if_neg hs]
    simp [hs]

/-- R8. -/
theorem connects_iff {l : Layout} (hl : l.Canonical) (w : Table Switch) (g z : Nat) :
    l.connects w g z = true ↔ l.JoinsInto w g z := by
  unfold Layout.connects Layout.JoinsInto
  cases hs : l.switchOf z with
  | none =>
    dsimp only
    constructor
    · intro h; cases h
    · rintro ⟨k, r, x, hk, _⟩
      exact absurd hk (switchOf_none hl hs k r)
  | some e =>
    obtain ⟨k, r⟩ := e
    have hk := (switchOf_iff hl z k r).mp hs
    dsimp only
    cases hp : switchPosition w k with
    | none =>
      dsimp only
      constructor
      · intro h; cases h
      · rintro ⟨j, q, x, hj, hx, hc⟩
        obtain ⟨rfl, rfl⟩ := Switched.unique hk hj
        exfalso
        have hm : x.state ≠ .setMain := fun he => by
          rw [(switchPosition_iff w k .main).mpr ⟨x, hx, .inl ⟨he, rfl⟩⟩] at hp; cases hp
        have hb : x.state ≠ .setBranch := fun he => by
          rw [(switchPosition_iff w k .branch).mpr ⟨x, hx, .inr ⟨he, rfl⟩⟩] at hp; cases hp
        rcases hc with ⟨_, hc | hc, _⟩ | ⟨_, ⟨hc, _⟩ | ⟨hc, _⟩⟩
        · exact hm hc
        · exact hb hc
        · exact hm hc
        · exact hb hc
    | some q =>
      obtain ⟨x, hx, hc⟩ := (switchPosition_iff w k q).mp hp
      dsimp only
      have he : (∃ j p y, l.Switched z j p ∧ w.find j = some y ∧
          ((p.fork = .exit ∧ (y.state = .setMain ∨ y.state = .setBranch) ∧ l.IsEntry z g) ∨
           (p.fork = .entry ∧ ((y.state = .setMain ∧ g = p.main) ∨ (y.state = .setBranch ∧ g = p.branch))))) ↔
          ((r.fork = .exit ∧ (x.state = .setMain ∨ x.state = .setBranch) ∧ l.IsEntry z g) ∨
           (r.fork = .entry ∧ ((x.state = .setMain ∧ g = r.main) ∨ (x.state = .setBranch ∧ g = r.branch)))) := by
        constructor
        · rintro ⟨j, p, y, hj, hy, hh⟩
          obtain ⟨rfl, rfl⟩ := Switched.unique hk hj
          rw [hx] at hy; cases hy
          exact hh
        · exact fun hh => ⟨k, r, x, hk, hx, hh⟩
      rw [he]
      rcases hc with ⟨hc, rfl⟩ | ⟨hc, rfl⟩ <;> cases hf : r.fork <;>
        simp [hc, mem_entryGates hl, SwitchRec.gate] <;> exact decide_eq_true_iff

/-- The nodes that serve a zone (R7). -/
theorem mem_servingNodes {l : Layout} (hl : l.Canonical) (z n : Nat) : n ∈ l.servingNodes z ↔
    (∃ g r, l.gates.find g = some r ∧ (r.src = z ∨ r.dst = z) ∧ r.node = n) ∨
    (∃ q c, l.zones.find z = some q ∧ q.permit = some (n, c)) := by
  unfold Layout.servingNodes
  rw [List.mem_append]
  refine or_congr ?_ ?_
  · simp only [List.mem_map, List.mem_filter, Bool.or_eq_true, decide_eq_true_eq]
    constructor
    · rintro ⟨⟨g, r⟩, ⟨hm, hc⟩, rfl⟩
      exact ⟨g, r, Table.find_of_mem hl.2.1 hm, hc, rfl⟩
    · rintro ⟨g, r, hm, hc, rfl⟩
      exact ⟨(g, r), ⟨Table.mem_of_find hm, hc⟩, rfl⟩
  · cases hf : l.zones.find z with
    | none => simp
    | some q =>
      cases hp : q.permit with
      | none => simp [hp]
      | some p => simp [hp, Prod.ext_iff, eq_comm]

end Sys2Proof.Machine
end

