-- ==== Sys2Proof/Laws/LayoutChecks.lean ====
section
/-! SUPPORT. What each validation check of a layout names (R15): the first record, in the order it examines them, that does not pass. -/

namespace Sys2Proof.Machine

/-- A check names nothing where every record passes, and otherwise the first that does not: a lower kind before a higher
one, then by key. -/
def Named (n : Nat) (P : RecordKind → Nat → Prop) (o : Option CheckFailure) : Prop :=
  match o with
  | none => ∀ k j, P k j
  | some f => f.check = n ∧ ¬P f.kind f.key ∧ ∀ k j, k.code < f.kind.code ∨ (k = f.kind ∧ j < f.key) → P k j

/-- A condition on the records of one kind. -/
def At (kind : RecordKind) (q : Nat → Prop) : RecordKind → Nat → Prop := fun k j => k = kind → q j

theorem Named.congr {n : Nat} {P Q : RecordKind → Nat → Prop} {o : Option CheckFailure} (h : Named n P o)
    (e : ∀ k j, P k j ↔ Q k j) :
    Named n Q o := by
  have : P = Q := funext fun k => funext fun j => propext (e k j)
  rw [← this]
  exact h

/-- The first of rising keys that fails. -/
theorem firstFailing_named (n : Nat) (kind : RecordKind) (q : Nat → Prop) {keys : List Nat} (hs : keys.Pairwise (fun a b => a < b))
    (ok : Nat → Bool) (h : ∀ j, q j ↔ (j ∈ keys → ok j = true)) : Named n (At kind q) (firstFailing n kind keys ok) := by
  unfold firstFailing
  cases hf : keys.find? (fun k => !ok k) with
  | none =>
    rw [List.find?_eq_none] at hf
    rintro k j rfl
    exact (h j).mpr fun hj => by simpa using hf j hj
  | some k =>
    obtain ⟨hk, i, hi, rfl, hb⟩ := List.find?_eq_some_iff_getElem.mp hf
    refine ⟨rfl, fun hq => ?_, fun k' j hkj => ?_⟩
    · rw [(h _).mp (hq rfl) (List.getElem_mem hi)] at hk
      cases hk
    · rintro rfl
      rcases hkj with hkj | ⟨_, hj⟩
      · exact absurd hkj (Nat.lt_irrefl _)
      · refine (h j).mpr fun hm => ?_
        obtain ⟨i', hi', rfl⟩ := List.getElem_of_mem hm
        have hlt : i' < i := by
          rcases Nat.lt_trichotomy i' i with hl | rfl | hl
          · exact hl
          · exact absurd hj (Nat.lt_irrefl _)
          · exact absurd hj (Nat.lt_asymm (List.pairwise_iff_getElem.mp hs i i' hi hi' hl))
        simpa using hb i' hlt

/-- The first record of a table that meets a condition of failure. -/
theorem find_named {α : Type} {t : Table α} (ht : t.wf) (n : Nat) (kind : RecordKind) (q : Nat → Prop) (bad : Nat × α → Bool)
    (h : ∀ j, q j ↔ ∀ v, t.find j = some v → bad (j, v) = false) :
    Named n (At kind q) ((t.find? bad).map (fun e => ⟨n, kind, e.1⟩)) := by
  cases hf : t.find? bad with
  | none =>
    rintro k j rfl
    exact (h j).mpr fun v hv => (Table.find?_none ht bad).mp hf j v hv
  | some e =>
    obtain ⟨j, v⟩ := e
    obtain ⟨h1, h2, h3⟩ := (Table.find?_iff ht bad j v).mp hf
    refine ⟨rfl, fun hq => ?_, fun k' i hkj => ?_⟩
    · rw [(h j).mp (hq rfl) v h1] at h2
      cases h2
    · rintro rfl
      rcases hkj with hkj | ⟨_, hj⟩
      · exact absurd hkj (Nat.lt_irrefl _)
      · refine (h i).mpr fun w hw => ?_
        cases hb : bad (i, w) with
        | false => rfl
        | true => exact absurd (h3 i w hw hb) (Nat.not_le.mpr hj)

/-- A whole condition on the one circuit record. -/
theorem whole_named (n : Nat) (kind : RecordKind) (q : Nat → Prop) (c : Prop) [Decidable c] (h : ∀ j, q j ↔ (j = 0 → c)) :
    Named n (At kind q) (if c then none else some ⟨n, kind, 0⟩) := by
  by_cases hc : c
  · rw [if_pos hc]
    rintro k j rfl
    exact (h j).mpr fun _ => hc
  · rw [if_neg hc]
    refine ⟨rfl, fun hq => hc ((h 0).mp (hq rfl) rfl), fun k' j hkj => ?_⟩
    rintro rfl
    rcases hkj with hkj | ⟨_, hj⟩
    · exact absurd hkj (Nat.lt_irrefl _)
    · exact absurd hj (Nat.not_lt_zero _)

/-- Two passes, over a lower kind and a higher one. -/
theorem Named.or {n : Nat} {a b : RecordKind} {p q : Nat → Prop} {o₁ o₂ : Option CheckFailure} (h₁ : Named n (At a p) o₁)
    (h₂ : Named n (At b q) o₂) (hab : a.code < b.code) : Named n (fun k j => At a p k j ∧ At b q k j) (o₁.or o₂) := by
  cases o₁ with
  | none =>
    cases o₂ with
    | none => exact fun k j => ⟨h₁ k j, h₂ k j⟩
    | some f =>
      obtain ⟨h3, h4, h5⟩ := h₂
      exact ⟨h3, fun h => h4 h.2, fun k j hk => ⟨h₁ k j, h5 k j hk⟩⟩
  | some f =>
    obtain ⟨h3, h4, h5⟩ := h₁
    have hf : f.kind = a := Classical.byContradiction fun hn => h4 fun he => absurd he hn
    refine ⟨h3, fun h => h4 h.1, fun k j hk => ⟨h5 k j hk, fun he => ?_⟩⟩
    subst he
    rw [hf] at hk
    rcases hk with hk | ⟨rfl, _⟩
    · exact absurd hk (Nat.lt_asymm hab)
    · exact absurd hab (Nat.lt_irrefl _)

/-! ## Counting gates -/

/-- One of distinct numbers. -/
theorem length_one {l : List Nat} (h : l.Pairwise (fun a b => a < b)) : l.length = 1 ↔ ∃ g, ∀ k, k ∈ l ↔ k = g := by
  match l, h with
  | [], _ => simp
  | [a], _ => exact iff_of_true rfl ⟨a, fun k => List.mem_singleton⟩
  | a :: b :: r, h =>
    simp only [List.length_cons]
    constructor
    · intro h; omega
    · rintro ⟨g, hg⟩
      have h1 := (hg a).mp (.head _)
      have h2 := (hg b).mp (.tail _ (.head _))
      have := (List.pairwise_cons.mp h).1 b (.head _)
      omega

/-- One or two of distinct numbers. -/
theorem length_one_two {l : List Nat} (h : l.Pairwise (fun a b => a < b)) :
    l.length = 1 ∨ l.length = 2 ↔ ∃ g k, g ∈ l ∧ k ∈ l ∧ ∀ i, i ∈ l → i = g ∨ i = k := by
  match l, h with
  | [], _ => simp
  | [a], _ => simp
  | [a, b], _ =>
    exact iff_of_true (.inr rfl) ⟨a, b, by simp, by simp, by simp⟩
  | a :: b :: c :: r, h =>
    simp only [List.length_cons]
    constructor
    · intro h; omega
    · rintro ⟨g, k, _, _, hi⟩
      have ha := hi a (by simp)
      have hb := hi b (by simp)
      have hc := hi c (by simp)
      rw [List.pairwise_cons, List.pairwise_cons] at h
      have := h.1 b (by simp)
      have := h.1 c (by simp)
      have := h.2.1 c (by simp)
      omega

theorem exactlyGates_iff (gates : List Nat) (r : SwitchRec) :
    exactlyGates gates r = true ↔ ∀ g, g ∈ gates ↔ g = r.main ∨ g = r.branch := by
  unfold exactlyGates
  simp only [Bool.and_eq_true, decide_eq_true_eq, List.all_eq_true, Bool.or_eq_true]
  constructor
  · rintro ⟨⟨h1, h2⟩, h3⟩ g
    exact ⟨h3 g, fun h => by rcases h with rfl | rfl <;> assumption⟩
  · exact fun h => ⟨⟨(h _).mpr (.inl rfl), (h _).mpr (.inr rfl)⟩, fun g hg => (h g).mp hg⟩

theorem exitGates_sorted {l : Layout} (h : l.Canonical) (z : Nat) : (l.exitGates z).Pairwise (fun a b => a < b) :=
  Table.filterKeys_sorted h.2.1 _

theorem entryGates_sorted {l : Layout} (h : l.Canonical) (z : Nat) : (l.entryGates z).Pairwise (fun a b => a < b) :=
  Table.filterKeys_sorted h.2.1 _

/-- The records of a table, each with what is found under its number. -/
theorem Table.all_iff {α : Type} {t : Table α} (h : t.wf) (q : Nat × α → Bool) :
    t.all q = true ↔ ∀ j v, t.find j = some v → q (j, v) = true := by
  rw [List.all_eq_true]
  exact ⟨fun hh j v hv => hh _ (Table.mem_of_find hv), fun hh e he => hh e.1 e.2 (Table.find_of_mem h he)⟩

/-! ## The ten checks -/

variable {l : Layout}

theorem check1_named : Named 1 (l.Passes 1) l.check1 := by
  unfold Layout.check1
  cases hc : l.circuit with
  | none =>
    refine ⟨rfl, fun h => absurd hc (h rfl), fun k j hk => ?_⟩
    rcases hk with hk | ⟨_, hk⟩ <;> exact absurd hk (Nat.not_lt_zero _)
  | some c =>
    refine Named.congr (firstFailing_named 1 .zone (fun z => z < 32 → (z < c.zoneCount ↔ l.zones.find z ≠ none))
      List.pairwise_lt_range _ (fun j => ?_)) (fun k j => ?_)
    · rw [List.mem_range]
      change (j < 32 → _) ↔ (j < 32 → _)
      refine imp_congr_right fun _ => ?_
      rw [beq_iff_eq, Bool.eq_iff_iff, decide_eq_true_iff, Option.isSome_iff_ne_none]
    · cases k <;> simp [At, Layout.Passes, hc]

theorem check2_named (h : l.Canonical) : Named 2 (l.Passes 2) l.check2 := by
  refine Named.congr (find_named h.2.1 2 .gate (fun g => l.Passes 2 .gate g) _ (fun j => ?_)) (fun k j => ?_)
  · refine forall_congr' fun r => imp_congr_right fun _ => ?_
    unfold Layout.zoneCount
    cases l.circuit <;> simp [and_assoc]
  · cases k <;> simp [At, Layout.Passes]

theorem check3_named (h : l.Canonical) : Named 3 (l.Passes 3) l.check3 := by
  refine Named.congr (Named.or
    (find_named h.2.1 3 .gate (fun g => l.Passes 3 .gate g) _ (fun j => ?_))
    (find_named h.2.2.1 3 .node (fun g => l.Passes 3 .node g) _ (fun j => ?_)) (by decide)) (fun k j => ?_)
  · refine forall_congr' fun r => imp_congr_right fun _ => ?_
    dsimp only
    rw [Bool.not_eq_false', Bool.and_eq_true, mapped_iff, Table.all_iff h.2.1]
    refine and_congr_right fun _ => forall_congr' fun i => forall_congr' fun q => imp_congr_right fun _ => ?_
    simp only [Bool.or_eq_true, decide_eq_true_eq]
    constructor
    · intro hh
      by_cases hi : i < j
      · by_cases hn : q.node = r.node
        · exact .inr fun hc => hh hi ⟨hn, hc⟩
        · exact .inl (.inr hn)
      · exact .inl (.inl (Nat.le_of_not_lt hi))
    · rintro ((hh | hh) | hh) hi ⟨h1, h2⟩
      · omega
      · exact hh h1
      · exact hh h2
  · refine forall_congr' fun a => imp_congr_right fun _ => ?_
    dsimp only
    rw [← Bool.not_eq_true, Bool.and_eq_true, decide_eq_true_iff, not_and]
    refine imp_congr_right fun _ => ?_
    rw [List.any_eq_true]
    constructor
    · rintro hh ⟨⟨m, b⟩, hm, hb⟩
      simp only [Bool.and_eq_true, decide_eq_true_eq] at hb
      exact hh m b (Table.find_of_mem h.2.2.1 hm) hb.1 hb.2
    · intro hh m b hm hl he
      exact hh ⟨(m, b), Table.mem_of_find hm, by simp [hl, he]⟩
  · cases k <;> simp [At]
    all_goals simp [Layout.Passes]

theorem mem_zoneKeys (z : Nat) : z ∈ l.zones.keys ↔ l.zones.find z ≠ none := by
  rw [Table.mem_keys_iff, Option.isSome_iff_ne_none]

theorem check4_named (h : l.Canonical) : Named 4 (l.Passes 4) l.check4 := by
  refine Named.congr (firstFailing_named 4 .zone (fun z => l.Passes 4 .zone z) h.1 _ (fun j => ?_)) (fun k j => ?_)
  · rw [mem_zoneKeys]
    refine imp_congr_right fun _ => ?_
    rw [Bool.or_eq_true, decide_eq_true_iff, decide_eq_true_iff, length_one_two (entryGates_sorted h j)]
    simp only [mem_entryGates h]
  · cases k <;> simp [At, Layout.Passes]

/-- The switches that name a zone are one. -/
theorem one_switch (h : l.Canonical) (z k : Nat) (r : SwitchRec) :
    l.switches.filter (fun e => decide (e.2.zone = z)) = [(k, r)] ↔
      l.switches.find k = some r ∧ r.zone = z ∧ ∀ j p, l.switches.find j = some p → p.zone = z → j = k := by
  have hm : ∀ j p, (j, p) ∈ l.switches.filter (fun e => decide (e.2.zone = z)) ↔ l.switches.find j = some p ∧ p.zone = z :=
      fun j p => by
    rw [List.mem_filter, decide_eq_true_iff]
    exact and_congr_left fun _ => ⟨fun hj => Table.find_of_mem h.2.2.2 hj, Table.mem_of_find⟩
  have hs := Table.filterKeys_sorted h.2.2.2 (fun e => decide (e.2.zone = z))
  constructor
  · intro he
    rw [he] at hm
    obtain ⟨h1, h2⟩ := (hm k r).mp (.head _)
    refine ⟨h1, h2, fun j p hj hp => ?_⟩
    cases List.mem_singleton.mp ((hm j p).mpr ⟨hj, hp⟩)
    rfl
  · rintro ⟨h1, h2, h3⟩
    have hk := (hm k r).mpr ⟨h1, h2⟩
    match hf : l.switches.filter (fun e => decide (e.2.zone = z)) with
    | [] => rw [hf] at hk; cases hk
    | [e] =>
      rw [hf] at hk
      rw [List.mem_singleton.mp hk]
      exact hf
    | (a, p) :: (b, q) :: rest =>
      rw [hf] at hm hs
      obtain ⟨ha, ha'⟩ := (hm a p).mp (.head _)
      obtain ⟨hb, hb'⟩ := (hm b q).mp (.tail _ (.head _))
      have : a < b := (List.pairwise_cons.mp hs).1 b (.head _)
      have := h3 a p ha ha'
      have := h3 b q hb hb'
      omega

theorem forkSound_iff (h : l.Canonical) (z : Nat) :
    (l.zones.find z ≠ none → l.forkSound z = true) ↔ l.Passes 5 .zone z := by
  have one := fun {g : List Nat} (hg : g.Pairwise (fun a b => a < b)) => length_one hg
  cases hz : l.zones.find z with
  | none => exact iff_of_true (fun hn => absurd rfl hn) (fun q hq => by rw [hz] at hq; cases hq)
  | some q =>
    have hp : l.Passes 5 .zone z ↔ _ := ⟨fun hh => hh q hz, fun hh p hp => by rw [hz] at hp; cases hp; exact hh⟩
    rw [hp]
    simp only [ne_eq, reduceCtorEq, not_false_eq_true, true_imp_iff]
    unfold Layout.forkSound
    by_cases hk : q.spec.kind = .transfer
    · rw [if_pos hk, if_pos ((isKind_iff ..).mpr (by rw [kindOf_of_find hz, hk]))]
      have sound : ∀ r : SwitchRec, (match r.fork with
          | .exit => exactlyGates (l.exitGates z) r && decide ((l.entryGates z).length = 1)
          | .entry => exactlyGates (l.entryGates z) r && decide ((l.exitGates z).length = 1)) = true ↔
          (r.fork = .exit → (∀ g, l.IsExit z g ↔ g = r.main ∨ g = r.branch) ∧ ∃ g, ∀ h, l.IsEntry z h ↔ h = g) ∧
          (r.fork = .entry → (∀ g, l.IsEntry z g ↔ g = r.main ∨ g = r.branch) ∧ ∃ g, ∀ h, l.IsExit z h ↔ h = g) :=
        fun r => by
        cases hf : r.fork <;>
          simp [exactlyGates_iff, one (exitGates_sorted h z), one (entryGates_sorted h z), mem_exitGates h, mem_entryGates h]
      split
      · rename_i k r he
        obtain ⟨h1, h2, h3⟩ := (one_switch h z k r).mp he
        refine Iff.trans (sound r) ?_
        constructor
        · exact fun hh => ⟨k, r, h1, h2, h3, hh⟩
        · rintro ⟨j, p, hj, hpz, hu, hh⟩
          have := h3 j p hj hpz
          subst this
          rw [h1] at hj; cases hj
          exact hh
      · rename_i hn
        constructor
        · intro hh; cases hh
        · rintro ⟨j, p, hj, hpz, hu, _⟩
          exact absurd ((one_switch h z j p).mpr ⟨hj, hpz, hu⟩) (hn j p)
    · rw [if_neg hk, if_neg (fun hc => hk (by
        have := (isKind_iff ..).mp hc
        rw [kindOf_of_find hz] at this; exact Option.some.inj this)), decide_eq_true_iff, one (exitGates_sorted h z)]
      simp only [mem_exitGates h]

theorem switchSound_iff (h : l.Canonical) (k : Nat) (r : SwitchRec) : l.switchSound k r = true ↔
    l.kindOf r.zone = some .transfer ∧
    (∃ m b, l.gates.find r.main = some m ∧ l.gates.find r.branch = some b ∧ r.main ≠ r.branch ∧
      (r.fork = .exit → m.dst ≠ b.dst) ∧ (r.fork = .entry → m.src ≠ b.src)) ∧
    (∃ a, l.nodes.find r.node = some a ∧ 1 ≤ a) ∧
    ∀ j p, l.switches.find j = some p → j < k → p.node ≠ r.node := by
  unfold Layout.switchSound
  rw [Bool.and_eq_true, Bool.and_eq_true, Bool.and_eq_true, isKind_iff, mapped_iff, Table.all_iff h.2.2.2, and_assoc, and_assoc]
  refine and_congr_right fun _ => and_congr ?_ (and_congr_right fun _ => ?_)
  · cases hm : l.gates.find r.main with
    | none => simp
    | some m =>
      cases hb : l.gates.find r.branch with
      | none => simp
      | some b => cases hf : r.fork <;> simp
  · refine forall_congr' fun j => forall_congr' fun p => imp_congr_right fun _ => ?_
    simp only [Bool.or_eq_true, decide_eq_true_eq]
    constructor
    · rintro (hh | hh) hl
      · omega
      · exact hh
    · intro hh
      by_cases hl : j < k
      · exact .inr (hh hl)
      · exact .inl (Nat.le_of_not_lt hl)

theorem check5_named (h : l.Canonical) : Named 5 (l.Passes 5) l.check5 := by
  refine Named.congr (Named.or
    (firstFailing_named 5 .zone (fun z => l.Passes 5 .zone z) h.1 _ (fun j => ?_))
    (find_named h.2.2.2 5 .switch (fun g => l.Passes 5 .switch g) _ (fun j => ?_)) (by decide)) (fun k j => ?_)
  · rw [mem_zoneKeys, forkSound_iff h]
  · refine forall_congr' fun r => imp_congr_right fun _ => ?_
    rw [Bool.not_eq_false', switchSound_iff h]
  · cases k <;> simp [At]
    all_goals simp [Layout.Passes]

theorem check6_named (h : l.Canonical) : Named 6 (l.Passes 6) l.check6 := by
  refine Named.congr (find_named h.1 6 .zone (fun z => l.Passes 6 .zone z) _ (fun j => ?_)) (fun k j => ?_)
  · refine forall_congr' fun q => imp_congr_right fun _ => ?_
    dsimp only
    rw [Bool.not_eq_false']
    by_cases hk : q.spec.kind = .run
    · rw [if_pos hk, if_neg (fun hs => (ZoneKind.stoppable_iff _).mp hs hk), Option.isNone_iff_eq_none]
    · rw [if_neg hk, if_pos ((ZoneKind.stoppable_iff _).mpr hk)]
      cases hp : q.permit with
      | none => simp
      | some p =>
        obtain ⟨n, c⟩ := p
        dsimp only
        rw [Bool.and_eq_true, mapped_iff, Table.all_iff h.1]
        have hall : (∀ y (p : ZoneRec), l.zones.find y = some p → (decide (j ≤ y) || decide (p.permit ≠ some (n, c))) = true) ↔
            ∀ y (p : ZoneRec), l.zones.find y = some p → y < j → p.permit ≠ some (n, c) := by
          refine forall_congr' fun y => forall_congr' fun p => imp_congr_right fun _ => ?_
          simp only [Bool.or_eq_true, decide_eq_true_eq]
          constructor
          · rintro (hh | hh) hl
            · omega
            · exact hh
          · intro hh
            by_cases hl : y < j
            · exact .inr (hh hl)
            · exact .inl (Nat.le_of_not_lt hl)
        rw [hall]
        exact ⟨fun ⟨_, _, e, h1, h2⟩ => by cases e; exact ⟨h1, h2⟩, fun ⟨h1, h2⟩ => ⟨n, c, rfl, h1, h2⟩⟩
  · cases k <;> simp [At, Layout.Passes]

/-- The zones of a class that are examined. -/
theorem keys_filter_sorted (h : l.Canonical) (q : Nat → Bool) : (l.zones.keys.filter q).Pairwise (fun a b => a < b) :=
  List.Pairwise.sublist List.filter_sublist h.1

/-- Every gate by which a zone may be left, with some setting of its switch. -/
theorem mem_leavingGates (h : l.Canonical) (z g : Nat) : g ∈ l.leavingGates z ↔ ∃ w, l.LeftBy w z g := by
  have hx : ∀ g, g ∈ (l.exitGates z).head?.toList ↔ l.ExitGate z g := fun g => by
    rw [← head_exitGates h, Option.mem_toList]
  unfold Layout.leavingGates
  cases hs : l.switchOf z with
  | none =>
    dsimp only
    rw [hx]
    constructor
    · exact fun hg => ⟨[], .inr ⟨fun k r hk => absurd hk (switchOf_none h hs k r), hg⟩⟩
    · rintro ⟨w, ⟨k, r, x, hk, _⟩ | ⟨_, hg⟩⟩
      · exact absurd hk (switchOf_none h hs k r)
      · exact hg
  | some e =>
    obtain ⟨k, r⟩ := e
    have hk := (switchOf_iff h z k r).mp hs
    dsimp only
    cases hf : r.fork with
    | entry =>
      dsimp only
      rw [hx]
      constructor
      · exact fun hg => ⟨[], .inr ⟨fun j q hj => by obtain ⟨_, rfl⟩ := Switched.unique hk hj; exact hf, hg⟩⟩
      · rintro ⟨w, ⟨j, q, x, hj, he, _⟩ | ⟨_, hg⟩⟩
        · obtain ⟨_, rfl⟩ := Switched.unique hk hj
          rw [hf] at he; cases he
        · exact hg
    | exit =>
      have one : ∀ x : Switch, Table.find [(k, x)] k = some x := fun x => by simp [Table.find_cons]
      simp only [List.mem_cons, List.not_mem_nil, or_false]
      constructor
      · rintro (rfl | rfl)
        · exact ⟨[(k, ⟨.setMain, .idle⟩)], .inl ⟨k, r, _, hk, hf, one _, .inl ⟨rfl, rfl⟩⟩⟩
        · exact ⟨[(k, ⟨.setBranch, .idle⟩)], .inl ⟨k, r, _, hk, hf, one _, .inr ⟨rfl, rfl⟩⟩⟩
      · rintro ⟨w, ⟨j, q, x, hj, _, _, hc⟩ | ⟨he, _⟩⟩
        · obtain ⟨_, rfl⟩ := Switched.unique hk hj
          exact hc.imp (fun h => h.2) (fun h => h.2)
        · rw [he k r hk] at hf; cases hf

theorem check7_named (h : l.Canonical) : Named 7 (l.Passes 7) l.check7 := by
  refine Named.congr (firstFailing_named 7 .zone (fun z => l.Passes 7 .zone z) (keys_filter_sorted h _) _ (fun j => ?_)) (fun k j => ?_)
  · rw [List.mem_filter, mem_zoneKeys, stoppable_iff, List.all_eq_true]
    have hg : ∀ g, (match l.walk Config.extensionMax g with
        | some e => decide (j ∉ e.map (fun q => q.1))
        | none => false) = true ↔ ∃ e, l.Route g e ∧ ∀ i, (j, i) ∉ e := fun g => by
      cases hw : l.walk Config.extensionMax g with
      | none =>
        constructor
        · intro hh; cases hh
        · rintro ⟨e, he, _⟩
          rw [(walk_route h g e).mpr he] at hw; cases hw
      | some e =>
        dsimp only
        rw [decide_eq_true_iff]
        have hr := (walk_route h g e).mp hw
        constructor
        · exact fun hh => ⟨e, hr, fun i hi => hh (List.mem_map.mpr ⟨(j, i), hi, rfl⟩)⟩
        · rintro ⟨e', he', hn⟩ hm
          rw [(walk_route h g e').mpr he'] at hw; cases hw
          obtain ⟨⟨y, i⟩, hi, rfl⟩ := List.mem_map.mp hm
          exact hn i hi
    simp only [mem_leavingGates h]
    constructor
    · rintro hh ⟨_, k, hk, hn⟩ g ⟨w, hw⟩
      unfold Layout.kindOf at hk
      obtain ⟨q, hq, rfl⟩ := Option.map_eq_some_iff.mp hk
      exact (hg g).mpr (hh q hq hn w g hw)
    · intro hh q hq hn w g hw
      refine (hg g).mp (hh ⟨by rw [hq]; simp, _, kindOf_of_find hq, hn⟩ g ⟨w, hw⟩)
  · cases k <;> simp [At, Layout.Passes]

theorem check8_named (h : l.Canonical) : Named 8 (l.Passes 8) l.check8 := by
  refine Named.congr (firstFailing_named 8 .zone (fun z => l.Passes 8 .zone z) (keys_filter_sorted h _) _ (fun j => ?_)) (fun k j => ?_)
  · rw [List.mem_filter, mem_zoneKeys, isKind_iff]
    have key : ∀ q hold limit crest, l.zones.find j = some q → q.spec = .launch hold limit crest →
        ((match l.launchOf j, (l.exitGates j).head?.bind (fun g => l.walk Config.extensionMax g) with
          | some (_, _, crest), some ((x, _) :: _ :: _) => (l.gates.find crest).isSome && decide ((l.exitGates x).head? = some crest)
          | _, _ => false) = true ↔
         ∃ g e x i, l.ExitGate j g ∧ l.Route g e ∧ 2 ≤ e.length ∧ e.head? = some (x, i) ∧ l.ExitGate x crest) :=
        fun q hold limit crest hq hs => by
      have hl : l.launchOf j = some (hold, limit, crest) := by unfold Layout.launchOf; rw [hq]; simp [hs]
      rw [hl]
      have hb : ∀ e, (l.exitGates j).head?.bind (fun g => l.walk Config.extensionMax g) = some e ↔
          ∃ g, l.ExitGate j g ∧ l.Route g e := fun e => by
        rw [Option.bind_eq_some_iff]
        simp only [head_exitGates h, walk_route h]
      split
      · rename_i a b c x i y rest h1 h2
        cases h1
        rw [Bool.and_eq_true, decide_eq_true_iff, head_exitGates h]
        obtain ⟨g, hg, hr⟩ := (hb _).mp h2
        constructor
        · exact fun hh => ⟨g, _, x, i, hg, hr, by simp, rfl, hh.2⟩
        · rintro ⟨g', e', x', i', hg', hr', _, hx', hc⟩
          have := (hb e').mpr ⟨g', hg', hr'⟩
          rw [h2] at this; cases this
          cases hx'
          obtain ⟨r, hr, _⟩ := hc.1
          exact ⟨by rw [hr]; rfl, hc⟩
      · rename_i hn
        constructor
        · intro hh; cases hh
        · rintro ⟨g, e, x, i, hg, hr, h2, hx, _⟩
          have he := (hb e).mpr ⟨g, hg, hr⟩
          match e with
          | [] => cases hx
          | [_] => simp at h2
          | (a, b) :: c :: rest => exact absurd he (fun he => hn _ _ _ _ _ _ _ rfl he)
    constructor
    · rintro hh ⟨_, hk⟩
      unfold Layout.kindOf at hk
      obtain ⟨q, hq, hk⟩ := Option.map_eq_some_iff.mp hk
      cases hs : q.spec <;> rw [hs] at hk <;> try cases hk
      exact (key q _ _ _ hq hs).mpr (hh q _ _ _ hq hs)
    · intro hh q hold limit crest hq hs
      refine (key q hold limit crest hq hs).mp (hh ⟨by rw [hq]; simp, ?_⟩)
      rw [kindOf_of_find hq, hs]; rfl
  · cases k <;> simp [At, Layout.Passes]

/-- Two distinct numbers among rising ones. -/
theorem two_le_length {k : List Nat} (h : k.Pairwise (fun a b => a < b)) : 2 ≤ k.length ↔ ∃ y z, y ≠ z ∧ y ∈ k ∧ z ∈ k := by
  match k, h with
  | [], _ => simp
  | [a], _ =>
    simp only [List.length_cons, List.length_nil, List.mem_singleton]
    constructor
    · intro h; omega
    · rintro ⟨y, z, hn, rfl, rfl⟩; exact absurd rfl hn
  | a :: b :: r, h =>
    have := (List.pairwise_cons.mp h).1 b (.head _)
    exact iff_of_true (by simp) ⟨a, b, by omega, .head _, .tail _ (.head _)⟩

theorem check9_named (h : l.Canonical) : Named 9 (l.Passes 9) l.check9 := by
  refine Named.congr (whole_named 9 .circuit (fun k => l.Passes 9 .circuit k) (2 ≤ l.stoppableCount) (fun j => ?_)) (fun k j => ?_)
  · refine imp_congr_right fun _ => ?_
    unfold Layout.stoppableCount
    rw [two_le_length (keys_filter_sorted h _)]
    have hz : ∀ z, z ∈ l.zones.keys.filter (fun z => l.stoppable z) ↔
        ∃ q, l.zones.find z = some q ∧ q.spec.kind ≠ .run := fun z => by
      rw [List.mem_filter, mem_zoneKeys, stoppable_iff]
      constructor
      · rintro ⟨_, k, hk, hn⟩
        unfold Layout.kindOf at hk
        obtain ⟨q, hq, rfl⟩ := Option.map_eq_some_iff.mp hk
        exact ⟨q, hq, hn⟩
      · rintro ⟨q, hq, hn⟩
        exact ⟨by rw [hq]; simp, _, kindOf_of_find hq, hn⟩
    simp only [hz]
    constructor
    · rintro ⟨y, z, p, q, hn, h1, h2, h3, h4⟩
      exact ⟨y, z, hn, ⟨p, h1, h2⟩, q, h3, h4⟩
    · rintro ⟨y, z, hn, ⟨p, h1, h2⟩, q, h3, h4⟩
      exact ⟨y, z, p, q, hn, h1, h2, h3, h4⟩
  · cases k <;> simp [At, Layout.Passes]

theorem check10_named (h : l.Canonical) : Named 10 (l.Passes 10) l.check10 := by
  refine Named.congr (firstFailing_named 10 .zone (fun z => l.Passes 10 .zone z) (keys_filter_sorted h _) _ (fun j => ?_)) (fun k j => ?_)
  · rw [List.mem_filter, mem_zoneKeys, isKind_iff]
    constructor
    · rintro hh ⟨_, hk⟩
      unfold Layout.kindOf at hk
      obtain ⟨q, hq, hk⟩ := Option.map_eq_some_iff.mp hk
      cases hs : q.spec <;> rw [hs] at hk <;> try cases hk
      rename_i a b
      have : l.runOf j = some (a, b) := by unfold Layout.runOf; rw [hq]; simp [hs]
      rw [this]
      exact decide_eq_true (hh q a b hq hs)
    · intro hh q a b hq hs
      have hr : l.runOf j = some (a, b) := by unfold Layout.runOf; rw [hq]; simp [hs]
      have := hh ⟨by rw [hq]; simp, by rw [kindOf_of_find hq, hs]; rfl⟩
      rw [hr] at this
      exact of_decide_eq_true this
  · cases k <;> simp [At, Layout.Passes]

end Sys2Proof.Machine
end

