-- ==== Sys2Proof/Laws/Marks.lean ====
section
/-! SUPPORT. What marking zones SUSPECT leaves, said once: the repair of R56, the marks of an event that does not fit (R84, R96 to R99),
and the line suspect claim with its untrack claims (R31, R147). -/

namespace Sys2Proof.Machine

/-- A zone made SUSPECT: its holder and stop hold kept, its timer idle (R30, R106). -/
def Zone.suspected (x : Zone) : Zone := { x with state := .suspect, timer := .idle }

theorem Zone.turn_suspect (x : Zone) : x.turn .suspect = x.suspected := by
  obtain ⟨_, _, _, m⟩ := x
  cases m with
  | idle => rfl
  | running u e x => cases u <;> rfl

theorem Zone.turn_suspect_fun : Zone.turn .suspect = Zone.suspected := funext Zone.turn_suspect

@[simp] theorem Zone.suspected_holder (x : Zone) : x.suspected.holder = x.holder := rfl
@[simp] theorem Zone.suspected_state (x : Zone) : x.suspected.state = .suspect := rfl
@[simp] theorem Zone.suspected_suspected (x : Zone) : x.suspected.suspected = x.suspected := rfl

theorem isReserved_iff (s : State) (z : Nat) : s.isReserved z = true ↔ s.zoneState z = some .reserved := by
  unfold State.isReserved; simp

/-- What R56 marks is RESERVED. -/
theorem stale_reserved (s : State) (l : List Nat) : ∀ z, z ∈ s.stale l → s.isReserved z = true := by
  induction l with
  | nil => intro z h; cases h
  | cons a r ih =>
    intro z h
    unfold State.stale at h
    split at h
    · rename_i hc
      rw [Bool.and_eq_true] at hc
      rcases List.mem_cons.mp h with rfl | h
      · exact hc.1
      · exact ih z h
    · exact ih z h

/-! ## The repair of R56 -/

/-- From `s` to `u` no zone has changed but RESERVED zones in the hold lists of the trains named, which are SUSPECT; the hold lists are as
they were. -/
structure Repaired (s u : State) (ts : List Nat) : Prop where
  lists : ∀ v, u.holdOf v = s.holdOf v
  zones : ∀ y, u.zones.find y = s.zones.find y ∨
    ((∃ t, t ∈ ts ∧ y ∈ s.holdOf t) ∧ s.zoneState y = some .reserved ∧ u.zones.find y = (s.zones.find y).map Zone.suspected)

theorem Repaired.refl (s : State) (ts : List Nat) : Repaired s s ts := ⟨fun _ => rfl, fun _ => .inl rfl⟩

theorem zoneState_suspected {s u : State} {y : Nat} (h : u.zones.find y = (s.zones.find y).map Zone.suspected) :
    u.zoneState y ≠ some .reserved := by
  unfold State.zoneState
  rw [h]
  cases s.zones.find y <;> simp

theorem Repaired.trans {s u v : State} {ts : List Nat} (h : Repaired s u ts) (k : Repaired u v ts) : Repaired s v ts := by
  refine ⟨fun w => (k.lists w).trans (h.lists w), fun y => ?_⟩
  rcases h.zones y with h1 | h1 <;> rcases k.zones y with k1 | k1
  · exact .inl (k1.trans h1)
  · refine .inr ⟨?_, ?_, ?_⟩
    · obtain ⟨t, ht, hy⟩ := k1.1
      exact ⟨t, ht, by rw [← h.lists]; exact hy⟩
    · unfold State.zoneState; rw [← h1]; exact k1.2.1
    · rw [k1.2.2, h1]
  · exact .inr ⟨h1.1, h1.2.1, k1.trans h1.2.2⟩
  · exact absurd k1.2.1 (zoneState_suspected h1.2.2)

theorem Repaired.more {s u : State} {ts ts' : List Nat} (h : Repaired s u ts) (k : ∀ t, t ∈ ts → t ∈ ts') : Repaired s u ts' := by
  refine ⟨h.lists, fun y => (h.zones y).imp id ?_⟩
  rintro ⟨⟨t, ht, hy⟩, h2, h3⟩
  exact ⟨⟨t, k t ht, hy⟩, h2, h3⟩

theorem keepOrder_repaired (s : State) (t : Nat) : Repaired s (s.keepOrder t) [t] := by
  refine ⟨fun v => holdOf_congr (keepOrder_trains s t) v, fun y => ?_⟩
  unfold State.keepOrder
  cases hr : s.trains.find t with
  | none => exact .inl rfl
  | some r =>
    dsimp only
    rw [State.updZones_zones, Table.find_updAll]
    by_cases hy : y ∈ s.stale r.hold
    · rw [if_pos hy]
      refine .inr ⟨⟨t, .head _, ?_⟩, (isReserved_iff s y).mp (stale_reserved s _ y hy), by rw [Zone.turn_suspect_fun]⟩
      rw [holdOf_of_find hr]
      exact stale_subset s _ y hy
    · rw [if_neg hy]
      exact .inl rfl

theorem untrack_repaired (s : State) (t : Nat) (ts : List Nat) : Repaired s (s.untrack t) ts := by
  refine ⟨fun v => ?_, fun _ => .inl rfl⟩
  unfold State.untrack State.move
  rw [holdOf_updTrain]
  split
  · rename_i h; subst h; rfl
  · rfl

/-- The trains of a state after the trains named are UNTRACKED. -/
theorem find_untrack (s : State) (t v : Nat) :
    (s.untrack t).trains.find v = (s.trains.find v).map (fun r => if v = t then { r with motion := .untracked } else r) := by
  unfold State.untrack State.move
  rw [State.updTrain_trains, Table.find_upd]
  by_cases h : v = t
  · simp [h]
  · simp [h]

/-! ## The line suspect claim -/

/-- The untrack claims of a loss, each with what R56 marks. -/
theorem untrackAll_repaired (l : List Nat) (s : State) :
    Repaired s (l.foldl (fun u t => (u.untrack t).keepOrder t) s) l ∧
    ∀ v, (l.foldl (fun u t => (u.untrack t).keepOrder t) s).trains.find v =
      (s.trains.find v).map (fun r => if v ∈ l then { r with motion := .untracked } else r) := by
  induction l generalizing s with
  | nil => exact ⟨.refl s [], fun v => by simp⟩
  | cons t l ih =>
    rw [List.foldl_cons]
    obtain ⟨h1, h2⟩ := ih ((s.untrack t).keepOrder t)
    refine ⟨?_, fun v => ?_⟩
    · refine Repaired.trans ?_ (h1.more (fun _ h => .tail _ h))
      exact (untrack_repaired s t _).trans ((keepOrder_repaired (s.untrack t) t).more (fun u hu => by
        rw [List.mem_singleton.mp hu]; exact .head _))
    · rw [h2, keepOrder_trains, find_untrack, Option.map_map]
      congr 1
      funext r
      by_cases hv : v = t
      · simp [hv]
      · simp [hv]

/-- What line suspect makes of a zone (R31). -/
theorem Zone.lineLost_eq (x : Zone) : x.lineLost = if x.state = .suspect ∨ x.state = .outOfService then x else x.suspected := by
  unfold Zone.lineLost
  split <;> rename_i h <;> simp [h, Zone.turn_suspect]

theorem mem_affectedHolders {s : State} {n t : Nat} :
    t ∈ s.affectedHolders n ↔ ∃ z, z ∈ s.layout.affectedZones n ∧ s.holder z = some t := by
  unfold State.affectedHolders; simp

/-- A loss marks the zones its node serves (R147, steps 1 and 2). -/
theorem lineSuspect_marked (s : State) (n : Nat) :
    s.Marked (s.layout.affectedZones n) Zone.lineLost (s.lineSuspect n).zones (s.lineSuspect n).trains := by
  obtain ⟨h1, h2⟩ := untrackAll_repaired (s.affectedHolders n) (s.updZones (s.layout.affectedZones n) Zone.lineLost)
  have hz : ∀ y, (s.updZones (s.layout.affectedZones n) Zone.lineLost).zones.find y =
      if y ∈ s.layout.affectedZones n then (s.zones.find y).map Zone.lineLost else s.zones.find y := fun y => by
    rw [State.updZones_zones, Table.find_updAll]
  unfold State.lineSuspect
  dsimp only
  refine ⟨fun z hm => ?_, fun z hm => ?_, fun t => ?_⟩
  · rcases h1.zones z with h | h
    · rw [h, hz, if_pos hm]
    · have := h.2.1
      unfold State.zoneState at this
      rw [hz, if_pos hm] at this
      cases hf : s.zones.find z with
      | none => rw [hf] at this; cases this
      | some x =>
        rw [hf] at this
        simp only [Option.map_some, Option.some.injEq] at this
        rw [Zone.lineLost_eq] at this
        split at this
        · rename_i hx; rw [this] at hx; simp at hx
        · simp at this
  · rcases h1.zones z with h | h
    · left; rw [h, hz, if_neg hm]
    · right
      obtain ⟨⟨t, ht, hy⟩, h3, h4⟩ := h
      obtain ⟨y, hy1, hy2⟩ := mem_affectedHolders.mp ht
      refine ⟨⟨y, t, hy1, hy2, hy⟩, ?_, ?_⟩
      · unfold State.zoneState at h3
        rw [hz, if_neg hm] at h3
        exact h3
      · rw [h4, hz, if_neg hm]; rfl
  · rw [h2]
    show (s.trains.find t).map _ = _
    congr 1
    funext r
    simp only [mem_affectedHolders]

/-- A loss (R147): the zones its node serves marked, then the report, of stop class yes exactly where one of them was held. -/
theorem loss_eq (s : State) (n : Nat) (k : AnomalyKind) :
    s.loss n k = ((s.lineSuspect n).sweep).anomaly k n (decide (∃ z, z ∈ s.layout.affectedZones n ∧ s.holder z ≠ none)) := by
  unfold State.loss
  congr 1
  cases hl : s.affectedHolders n with
  | nil =>
    symm
    rw [List.isEmpty_nil, Bool.not_true, decide_eq_false_iff_not]
    rintro ⟨z, hz, hh⟩
    obtain ⟨t, ht⟩ := Option.ne_none_iff_exists'.mp hh
    have := (mem_affectedHolders (n := n)).mpr ⟨z, hz, ht⟩
    rw [hl] at this
    cases this
  | cons t r =>
    symm
    rw [List.isEmpty_cons, Bool.not_false, decide_eq_true_iff]
    obtain ⟨z, hz, ht⟩ := (mem_affectedHolders (s := s) (n := n) (t := t)).mp (by rw [hl]; exact .head _)
    exact ⟨z, hz, by rw [ht]; simp⟩

/-! ## The marks of an event -/

/-- One zone marked SUSPECT without adoption: it, what R56 marks for its holder, and the holder UNTRACKED (R30, R50, R56). -/
theorem disturb_find (s : State) (z : Nat) :
    (s.disturb z).zones.find z = (s.zones.find z).map Zone.suspected ∧
    (∀ y, y ≠ z → (s.disturb z).zones.find y = s.zones.find y ∨
      ((∃ t, s.holder z = some t ∧ y ∈ s.holdOf t) ∧ s.zoneState y = some .reserved ∧
        (s.disturb z).zones.find y = (s.zones.find y).map Zone.suspected)) ∧
    (∀ v, (s.disturb z).trains.find v =
      (s.trains.find v).map (fun r => if s.holder z = some v then { r with motion := .untracked } else r)) := by
  have hz : ∀ y, (s.updZone z (Zone.turn .suspect)).zones.find y =
      if y = z then (s.zones.find y).map Zone.suspected else s.zones.find y := fun y => by
    rw [State.updZone_zones, Table.find_upd, Zone.turn_suspect_fun]
  cases hh : s.holder z with
  | none =>
    have e : s.disturb z = s.updZone z (Zone.turn .suspect) := by
      unfold State.disturb State.markSuspect
      simp only [hh]
    rw [e]
    refine ⟨by rw [hz, if_pos rfl], fun y hy => .inl (by rw [hz, if_neg hy]), fun v => ?_⟩
    simp
  | some t =>
    have e : s.disturb z = ((s.updZone z (Zone.turn .suspect)).keepOrder t).untrack t := by
      unfold State.disturb State.markSuspect
      simp only [hh]
    rw [e]
    have h1 := keepOrder_repaired (s.updZone z (Zone.turn .suspect)) t
    have hstate : ∀ y, y ≠ z → (s.updZone z (Zone.turn .suspect)).zoneState y = s.zoneState y := fun y hy => by
      unfold State.zoneState; rw [hz, if_neg hy]
    have hu : ∀ y, (((s.updZone z (Zone.turn .suspect)).keepOrder t).untrack t).zones.find y =
      ((s.updZone z (Zone.turn .suspect)).keepOrder t).zones.find y := fun _ => rfl
    refine ⟨?_, fun y hy => ?_, fun v => ?_⟩
    · rw [hu]
      rcases h1.zones z with h | h
      · rw [h, hz, if_pos rfl]
      · exact absurd h.2.1 (zoneState_suspected (s := s) (by rw [hz, if_pos rfl]))
    · rw [hu]
      rcases h1.zones y with h | h
      · left; rw [h, hz, if_neg hy]
      · right
        obtain ⟨⟨t', ht, hm⟩, h3, h4⟩ := h
        rw [List.mem_singleton.mp ht] at hm
        exact ⟨⟨t, rfl, hm⟩, (hstate y hy) ▸ h3, by rw [h4, hz, if_neg hy]⟩
    · rw [find_untrack, keepOrder_trains]
      show (s.trains.find v).map _ = _
      congr 1
      funext r
      simp only [Option.some.injEq, eq_comm]

theorem State.Marked.holder {s : State} {l : List Nat} {f : Zone → Zone} {zs : Table Zone} {ts : Table Train}
    (h : s.Marked l f zs ts) (hf : ∀ x, (f x).holder = x.holder) {u : State} (hu : u.zones = zs) (z : Nat) : u.holder z = s.holder z := by
  unfold State.holder
  rw [hu]
  by_cases hz : z ∈ l
  · rw [h.named z hz]
    cases s.zones.find z with
    | none => rfl
    | some x => exact hf x
  · rcases h.others z hz with e | ⟨_, _, e⟩ <;> rw [e]
    cases s.zones.find z <;> rfl

theorem State.Marked.holdOf {s : State} {l : List Nat} {f : Zone → Zone} {zs : Table Zone} {ts : Table Train}
    (h : s.Marked l f zs ts) {u : State} (hu : u.trains = ts) (t : Nat) : u.holdOf t = s.holdOf t := by
  unfold State.holdOf
  rw [hu, h.trains]
  cases s.trains.find t with
  | none => rfl
  | some r => simp only [Option.map_some]; split <;> rfl

theorem State.Marked.nil (s : State) (f : Zone → Zone) : s.Marked [] f s.zones s.trains :=
  ⟨fun _ h => (by cases h), fun _ _ => .inl rfl, fun t => by simp⟩

/-- One more zone is marked. -/
theorem State.Marked.disturb {s u : State} {l : List Nat} (h : s.Marked l Zone.suspected u.zones u.trains) (z : Nat) :
    s.Marked (l ++ [z]) Zone.suspected (u.disturb z).zones (u.disturb z).trains := by
  obtain ⟨h1, h2, h3⟩ := disturb_find u z
  have hh : ∀ y, u.holder y = s.holder y := h.holder (fun _ => rfl) rfl
  have hl : ∀ t, u.holdOf t = s.holdOf t := h.holdOf rfl
  refine ⟨fun y hy => ?_, fun y hy => ?_, fun v => ?_⟩
  · by_cases hyz : y = z
    · subst hyz
      rw [h1]
      by_cases hm : y ∈ l
      · rw [h.named y hm]; cases s.zones.find y <;> rfl
      · rcases h.others y hm with e | ⟨_, _, e⟩ <;> rw [e]
        cases s.zones.find y <;> rfl
    · have hm : y ∈ l := by
        rcases List.mem_append.mp hy with hm | hm
        · exact hm
        · exact absurd (List.mem_singleton.mp hm) hyz
      rcases h2 y hyz with e | ⟨_, e, _⟩
      · rw [e, h.named y hm]
      · exact absurd e (zoneState_suspected (s := s) (h.named y hm))
  · have hm : y ∉ l := fun hm => hy (List.mem_append.mpr (.inl hm))
    have hyz : y ≠ z := fun e => hy (List.mem_append.mpr (.inr (List.mem_singleton.mpr e)))
    rcases h.others y hm with e | ⟨⟨x, t, hx, ht, hyt⟩, hr, e⟩
    · rcases h2 y hyz with e2 | ⟨⟨t, ht, hyt⟩, hr, e2⟩
      · left; rw [e2, e]
      · right
        refine ⟨⟨z, t, by simp, (hh z) ▸ ht, (hl t) ▸ hyt⟩, ?_, by rw [e2, e]; rfl⟩
        unfold State.zoneState at hr ⊢
        rw [← e]; exact hr
    · right
      refine ⟨⟨x, t, List.mem_append.mpr (.inl hx), ht, hyt⟩, hr, ?_⟩
      rcases h2 y hyz with e2 | ⟨_, e2, _⟩
      · rw [e2, e]
      · exact absurd e2 (zoneState_suspected (s := s) e)
  · rw [h3, h.trains, Option.map_map]
    congr 1
    funext r
    have e : (∃ x, x ∈ l ++ [z] ∧ s.holder x = some v) ↔ (∃ x, x ∈ l ∧ s.holder x = some v) ∨ s.holder z = some v := by
      constructor
      · rintro ⟨x, hx, hv⟩
        rcases List.mem_append.mp hx with hx | hx
        · exact .inl ⟨x, hx, hv⟩
        · exact .inr (List.mem_singleton.mp hx ▸ hv)
      · rintro (⟨x, hx, hv⟩ | hv)
        · exact ⟨x, List.mem_append.mpr (.inl hx), hv⟩
        · exact ⟨z, by simp, hv⟩
    simp only [Function.comp_apply, hh, e]
    by_cases a : ∃ x, x ∈ l ∧ s.holder x = some v <;> by_cases c : s.holder z = some v <;> simp [a, c]

theorem disturbAll_marked_from (l k : List Nat) (s u : State) (h : s.Marked k Zone.suspected u.zones u.trains) :
    s.Marked (k ++ l) Zone.suspected (l.foldl State.disturb u).zones (l.foldl State.disturb u).trains := by
  induction l generalizing u k with
  | nil => rw [List.append_nil]; exact h
  | cons z l ih =>
    have := ih (k ++ [z]) (u.disturb z) (h.disturb z)
    rw [List.append_assoc] at this
    exact this

/-- Zones marked SUSPECT one after another, without adoption. -/
theorem disturbAll_marked (l : List Nat) (s : State) :
    s.Marked l Zone.suspected (l.foldl State.disturb s).zones (l.foldl State.disturb s).trains :=
  disturbAll_marked_from l [] s s (State.Marked.nil s _)

theorem disturbAll_eq (l : List Nat) (s : State) :
    l.foldl State.disturb s = { s with zones := (l.foldl State.disturb s).zones, trains := (l.foldl State.disturb s).trains } := by
  obtain ⟨zs, ts, h⟩ := foldl_onTrack State.disturb (fun s z => disturb_onTrack s z) l s
  rw [h]

/-! ## A sequence fault and an unexpected entry -/

theorem State.Marked.congr {s : State} {l k : List Nat} {f : Zone → Zone} {zs : Table Zone} {ts : Table Train}
    (h : s.Marked l f zs ts) (e : ∀ z, z ∈ l ↔ z ∈ k) : s.Marked k f zs ts :=
  ⟨fun z hz => h.named z ((e z).mpr hz),
   fun z hz => by have := h.others z (fun hl => hz ((e z).mp hl)); simp only [e] at this; exact this,
   fun t => by have := h.trains t; simp only [e] at this; exact this⟩

theorem untrack_untrack (s : State) (t u : Nat) : (s.untrack t).untrack u = (s.untrack u).untrack t := by
  by_cases h : t = u
  · subst h; rfl
  unfold State.untrack State.move State.updTrain Table.upd
  simp only [List.map_map]
  congr 1
  apply List.map_congr_left
  intro e _
  simp only [Function.comp]
  by_cases h1 : e.1 = t <;> by_cases h2 : e.1 = u
  · exact absurd (h1.symm.trans h2) h
  · simp [h1, h]
  · simp [h2, Ne.symm h]
  · simp [h1, h2]

theorem untrack_twice (s : State) (t : Nat) : (s.untrack t).untrack t = s.untrack t := by
  unfold State.untrack State.move State.updTrain
  rw [Table.upd_upd]

theorem untrack_keepOrder (s : State) (t u : Nat) : (s.untrack t).keepOrder u = (s.keepOrder u).untrack t := by
  unfold State.keepOrder
  rw [find_untrack]
  cases s.trains.find u with
  | none => rfl
  | some r =>
    simp only [Option.map_some]
    have e : (if u = t then { r with motion := .untracked } else r).hold = r.hold := by split <;> rfl
    rw [e, stale_zones (s := s) (t := s.untrack t) rfl]; rfl

theorem untrack_markSuspect (s : State) (t z : Nat) : (s.untrack t).markSuspect z none = (s.markSuspect z none).untrack t := by
  unfold State.markSuspect
  have e : (s.untrack t).holder z = s.holder z := rfl
  rw [e]
  cases s.holder z with
  | none => rfl
  | some u => exact untrack_keepOrder (s.updZone z (Zone.turn .suspect)) t u

theorem untrack_disturb (s : State) (t z : Nat) : (s.untrack t).disturb z = (s.disturb z).untrack t := by
  unfold State.disturb
  have e : (s.untrack t).holder z = s.holder z := rfl
  rw [e]
  cases s.holder z with
  | none => exact untrack_markSuspect s t z
  | some u => dsimp only; rw [untrack_markSuspect, untrack_untrack]

theorem untrack_disturbAll (l : List Nat) (s : State) (t : Nat) : l.foldl State.disturb (s.untrack t) = (l.foldl State.disturb s).untrack t := by
  induction l generalizing s with
  | nil => rfl
  | cons z l ih => rw [List.foldl_cons, List.foldl_cons, untrack_disturb, ih]

theorem holder_disturb (s : State) (z y : Nat) : (s.disturb z).holder y = s.holder y :=
  ((State.Marked.nil s Zone.suspected).disturb z).holder (fun _ => rfl) rfl y

/-- The holder of a zone marked is UNTRACKED already. -/
theorem disturbAll_untracks {l : List Nat} {s : State} {t z : Nat} (hz : z ∈ l) (h : s.holder z = some t) :
    (l.foldl State.disturb s).untrack t = l.foldl State.disturb s := by
  induction l generalizing s with
  | nil => cases hz
  | cons y l ih =>
    rw [List.foldl_cons]
    rcases List.mem_cons.mp hz with rfl | hz
    · have e : s.disturb z = (s.markSuspect z none).untrack t := by unfold State.disturb; rw [h]
      rw [e, untrack_disturbAll, untrack_twice]
    · exact ih hz ((holder_disturb s y z).trans h)

/-- Zones that one train holds, marked one after another, then that train untracked. -/
theorem markAll_untrack (l : List Nat) (s : State) (t : Nat) (h : ∀ z, z ∈ l → s.holder z = some t) :
    (l.foldl (fun u z => u.markSuspect z none) s).untrack t = (l.foldl State.disturb s).untrack t := by
  induction l generalizing s with
  | nil => rfl
  | cons z l ih =>
    rw [List.foldl_cons, List.foldl_cons]
    have e : s.disturb z = (s.markSuspect z none).untrack t := by
      unfold State.disturb; rw [h z (.head _)]
    have hh : ∀ y, (s.markSuspect z none).holder y = s.holder y := fun y => by
      have := holder_disturb s z y
      rw [e] at this
      exact this
    rw [e, untrack_disturbAll, untrack_twice, ih _ (fun y hy => (hh y).trans (h y (.tail _ hy)))]

/-- A sequence fault (R98): its train's zones and both zones of the event, marked with all their holders. -/
theorem faultMarks_marked {s : State} (hi : s.Interlock) {a b t : Nat} (ht : s.holder a = some t ∨ s.holder b = some t) :
    s.Marked (s.holdOf t ++ [a, b]) Zone.suspected (s.faultMarks a b t).zones (s.faultMarks a b t).trains := by
  have hl : ∀ z, z ∈ s.holdOf t → s.holder z = some t := fun z hz => (hi.agree z t).mpr hz
  have e : s.faultMarks a b t =
      (s.holdOf t ++ [a, b].filter (fun z => decide (z ∉ s.holdOf t))).foldl State.disturb s := by
    unfold State.faultMarks
    dsimp only
    rw [← untrack_disturbAll, markAll_untrack _ _ _ hl, untrack_disturbAll, ← List.foldl_append]
    obtain ⟨z, hz⟩ : ∃ z, s.holder z = some t := ht.elim (⟨a, ·⟩) (⟨b, ·⟩)
    exact disturbAll_untracks (List.mem_append.mpr (.inl ((hi.agree z t).mp hz))) hz
  rw [e]
  refine (disturbAll_marked _ s).congr (fun z => ?_)
  simp only [List.mem_append, List.mem_filter, decide_eq_true_eq]
  by_cases h : z ∈ s.holdOf t <;> simp [h]

/-- An unexpected entry of a train (R96): the zone entered SUSPECT, adopted where it has no holder and may be, and the trains UNTRACKED. -/
theorem enterUnexpected_entered {s : State} {b t : Nat} {r : Train} (hr : s.trains.find t = some r) :
    s.Entered b t (s.enterUnexpected b t).zones (s.enterUnexpected b t).trains := by
  have hlist := holdOf_of_find hr
  cases hh : s.holder b with
  | some u =>
    have e : s.enterUnexpected b t = (s.disturb b).untrack t := by
      unfold State.enterUnexpected State.disturb State.markSuspect
      simp only [hh]
    obtain ⟨h1, h2, h3⟩ := disturb_find s b
    rw [e]
    refine ⟨?_, fun z hz => ?_, fun v => ?_⟩
    · show (s.disturb b).zones.find b = _
      rw [h1]; simp [hh]; rfl
    · show (s.disturb b).zones.find z = _ ∨ _
      rcases h2 z hz with h | ⟨⟨v, hv, hm⟩, h⟩
      · exact .inl h
      · exact .inr ⟨⟨v, .inl hv, hm⟩, h⟩
    · rw [find_untrack, h3, Option.map_map]
      congr 1
      funext x
      simp only [hh, Option.some.injEq, Function.comp_apply, reduceCtorEq, false_and, and_false, if_false]
      by_cases c1 : v = t
      · subst c1
        by_cases c2 : u = v <;> simp [c2]
      · by_cases c2 : u = v <;> simp [c1, c2]
  | none =>
    by_cases hm : (s.zones.find b).isSome = true ∧ s.mayAdopt t b = true
    · have e : s.enterUnexpected b t = (((s.updZone b (Zone.give .suspect t)).updTrain t
          (fun r => { r with hold := r.hold ++ [b] })).keepOrder t).untrack t := by
        unfold State.enterUnexpected State.markSuspect
        simp only [hh, hm.1, hm.2, Bool.and_self, if_true]
      have hsix : r.hold.length < 6 ∧ s.switchMoving b = false := by
        have := hm.2
        unfold State.mayAdopt at this
        rw [hr, Option.any_some, Bool.and_eq_true, decide_eq_true_iff, Bool.not_eq_true'] at this
        exact this
      have hz : ∀ y, (s.updZone b (Zone.give .suspect t)).zones.find y =
          if y = b then (s.zones.find y).map (Zone.give .suspect t) else s.zones.find y := fun y => by
        rw [State.updZone_zones, Table.find_upd]
      have h1 := keepOrder_repaired ((s.updZone b (Zone.give .suspect t)).updTrain t (fun r => { r with hold := r.hold ++ [b] })) t
      rw [e]
      refine ⟨?_, fun z hzb => ?_, fun v => ?_⟩
      · simp only [hlist, hh, hsix, and_self, if_true]
        show (State.keepOrder _ t).zones.find b = _
        rcases h1.zones b with h | ⟨_, h, _⟩
        · rw [h, State.updTrain_zones, hz, if_pos rfl]
          congr 1
          funext x
          unfold Zone.give
          rw [Zone.turn_suspect]; rfl
        · unfold State.zoneState at h
          rw [State.updTrain_zones, hz, if_pos rfl] at h
          cases hf : s.zones.find b <;> rw [hf] at h <;> cases h
      · show (State.keepOrder _ t).zones.find z = _ ∨ _
        rcases h1.zones z with h | ⟨⟨v, hv, hmem⟩, h, h'⟩
        · left; rw [h, State.updTrain_zones, hz, if_neg hzb]
        · right
          rw [List.mem_singleton.mp hv, holdOf_updTrain, if_pos rfl] at hmem
          unfold State.zoneState at h
          rw [State.updTrain_zones, hz, if_neg hzb] at h h'
          refine ⟨⟨t, .inr ⟨hh, rfl⟩, ?_⟩, h, h'⟩
          rw [State.updZone_trains, hr] at hmem
          rw [hlist]
          exact (List.mem_append.mp hmem).resolve_right (fun hb => hzb (List.mem_singleton.mp hb))
      · rw [find_untrack, keepOrder_trains, State.updTrain_trains, Table.find_upd]
        show Option.map _ (if v = t then (s.trains.find v).map _ else s.trains.find v) = _
        by_cases c1 : v = t
        · subst c1
          rw [if_pos rfl, hr]
          simp [hh, hm.1, hsix]
        · rw [if_neg c1]
          congr 1
          funext x
          simp [c1, hh]
    · have e : s.enterUnexpected b t = (s.updZone b (Zone.turn .suspect)).untrack t := by
        unfold State.enterUnexpected State.markSuspect
        simp only [hh]
        rw [if_neg (by simpa using hm)]
      rw [e]
      have hsix : (s.zones.find b).isSome = true → ¬(r.hold.length < 6 ∧ s.switchMoving b = false) := fun hs hx =>
        hm ⟨hs, by unfold State.mayAdopt; rw [hr, Option.any_some, decide_eq_true (by exact hx.1), hx.2]; rfl⟩
      have hz : ∀ y, ((s.updZone b (Zone.turn .suspect)).untrack t).zones.find y =
          if y = b then (s.zones.find y).map Zone.suspected else s.zones.find y := fun y => by
        rw [← Zone.turn_suspect_fun]
        exact Table.find_upd ..
      refine ⟨?_, fun z hzb => .inl (by rw [hz, if_neg hzb]), fun v => ?_⟩
      · rw [hz, if_pos rfl, hlist]
        cases hf : s.zones.find b with
        | none => rfl
        | some x =>
          have := hsix (by rw [hf]; rfl)
          simp only [this, and_false, if_false]
          rfl
      · rw [find_untrack]
        show (s.trains.find v).map _ = _
        by_cases c1 : v = t
        · subst c1
          rw [hr]
          simp only [Option.map_some, if_true, true_or, true_and]
          rw [if_neg (fun hx => hsix hx.2.1 hx.2.2)]
        · congr 1
          funext x
          simp [c1, hh]

end Sys2Proof.Machine
end

