-- ==== Sys2Proof/Laws/Passage.lean ====
section
/-! SUPPORT. What being an expected event says of the records (R83), once for each of the four kinds, and what an event that does not
fit says of them. -/

namespace Sys2Proof.Machine

theorem mem_entryAfter {l : List Nat} {a b : Nat} (h : entryAfter l a = some b) : b ∈ l := by
  induction l with
  | nil => cases h
  | cons c r ih =>
    cases r with
    | nil => cases h
    | cons d r' =>
      unfold entryAfter at h
      by_cases hc : c = a
      · simp only [hc, if_true, Option.some.injEq] at h
        subst h
        exact .tail _ (.head _)
      · simp only [hc, if_false] at h
        exact List.mem_cons_of_mem _ (ih h)

theorem Motion.underWay_iff (m : Motion) : m.underWay = true ↔ m = .moving ∨ m = .stranded .overdue ∨ m = .stranded .stuck := by
  cases m with
  | stranded c => cases c <;> simp [Motion.underWay]
  | standing => simp [Motion.underWay]
  | cleared => simp [Motion.underWay]
  | moving => simp [Motion.underWay]
  | recovering => simp [Motion.underWay]
  | untracked => simp [Motion.underWay]

/-- An expected FWD_HEAD (R83). -/
theorem classify_advance {s : State} {a b t : Nat} (h : s.classify .fwdHead a b = .advance t) :
    ∃ r, s.trains.find t = some r ∧ s.headOf r.hold = some a ∧ entryAfter r.hold a = some b ∧ s.isReserved b = true ∧
      (r.motion = .cleared ∨ r.motion.underWay = true) := by
  unfold State.classify at h
  split at h
  · cases h
  rename_i u hu
  split at h
  · cases h
  rename_i r hr
  split at h
  · cases h
  unfold State.classifyFor at h
  dsimp only at h
  split at h
  · rename_i h1
    split at h
    · rename_i h2
      split at h
      · rename_i h3
        split at h
        · rename_i h4
          cases h
          rw [h3] at h2
          exact ⟨r, hr, h1, h3, h2, h4⟩
        · cases h
      · cases h
    · cases h
  · cases h

/-- An expected FWD_TAIL (R83). -/
theorem classify_leave {s : State} {a b t : Nat} (h : s.classify .fwdTail a b = .leave t) :
    ∃ r, s.trains.find t = some r ∧ r.hold.head? = some a ∧ s.zoneState a = some .occupied ∧ entryAfter r.hold a = some b ∧
      s.zoneState b = some .occupied ∧ (r.motion.underWay = true ∨ (r.motion = .recovering ∧ s.layout.isKind a .launch = true)) := by
  unfold State.classify at h
  split at h
  · cases h
  split at h
  · cases h
  rename_i r hr
  split at h
  · cases h
  unfold State.classifyFor at h
  dsimp only at h
  split at h
  · rename_i h1
    cases h
    exact ⟨r, hr, of_decide_eq_true h1.1, h1.2.1, h1.2.2.1, h1.2.2.2.1, h1.2.2.2.2⟩
  · cases h

/-- An expected REV_HEAD (R83). -/
theorem classify_reverse {s : State} {a b t : Nat} (h : s.classify .revHead a b = .reverse t) :
    ∃ r, s.trains.find t = some r ∧ s.layout.isKind a .launch = true ∧ r.hold.head? = some a ∧ s.zoneState a = some .trailing ∧
      entryAfter r.hold a = some b ∧ s.headOf r.hold = some b ∧ r.motion.underWay = true := by
  unfold State.classify at h
  split at h
  · cases h
  split at h
  · cases h
  rename_i r hr
  split at h
  · cases h
  unfold State.classifyFor at h
  dsimp only at h
  split at h
  · rename_i h1
    cases h
    exact ⟨r, hr, h1.1, of_decide_eq_true h1.2.1, h1.2.2.1, h1.2.2.2.1, h1.2.2.2.2.1, h1.2.2.2.2.2⟩
  · cases h

/-- An expected REV_TAIL (R83). -/
theorem classify_rollback {s : State} {a b t : Nat} (h : s.classify .revTail a b = .rollback t) :
    ∃ r, s.trains.find t = some r ∧ s.layout.isKind a .launch = true ∧ r.hold.head? = some a ∧ s.zoneState a = some .occupied ∧
      entryAfter r.hold a = some b ∧ s.headOf r.hold = some b ∧ (r.motion.underWay = true ∨ r.motion = .recovering) := by
  unfold State.classify at h
  split at h
  · cases h
  split at h
  · cases h
  rename_i r hr
  split at h
  · cases h
  unfold State.classifyFor at h
  dsimp only at h
  split at h
  · rename_i h1
    cases h
    exact ⟨r, hr, h1.1, of_decide_eq_true h1.2.1, h1.2.2.1, h1.2.2.2.1, h1.2.2.2.2.1, h1.2.2.2.2.2⟩
  · cases h

/-- A LAUNCH zone has its parameters, and is no RUN zone. -/
theorem launchOf_of_kind {l : Layout} {z : Nat} (h : l.kindOf z = some .launch) :
    (∃ q, l.launchOf z = some q) ∧ l.runOf z = none := by
  unfold Layout.kindOf at h
  unfold Layout.launchOf Layout.runOf
  cases hf : l.zones.find z with
  | none => rw [hf] at h; cases h
  | some r =>
    rw [hf] at h
    obtain ⟨spec, _, _⟩ := r
    cases spec <;> first | exact ⟨⟨_, rfl⟩, rfl⟩ | cases h

theorem kind_of_launchOf {l : Layout} {z : Nat} {q : Nat × Nat × Nat} (h : l.launchOf z = some q) : l.kindOf z = some .launch := by
  unfold Layout.launchOf at h
  unfold Layout.kindOf
  cases hf : l.zones.find z with
  | none => rw [hf] at h; cases h
  | some r =>
    rw [hf] at h
    obtain ⟨spec, _, _⟩ := r
    cases spec <;> first | rfl | cases h

/-- A timer is idle once its zone is FREE or SUSPECT (R106). -/
theorem ZoneTimer.kept_free (m : ZoneTimer) : m.kept .free = .idle := by
  cases m with
  | idle => rfl
  | running u e x => cases u <;> rfl

theorem ZoneTimer.kept_suspect (m : ZoneTimer) : m.kept .suspect = .idle := by
  cases m with
  | idle => rfl
  | running u e x => cases u <;> rfl

/-- A release frees a zone, but for one that is SUSPECT (R27). -/
theorem Zone.released_eq (x : Zone) :
    x.released = { x with state := if x.state = .suspect then .suspect else .free, holder := none, timer := .idle } := by
  unfold Zone.released Zone.leave Zone.turn
  by_cases h : x.state = .suspect
  · simp only [h, if_true, ZoneTimer.kept_suspect]
  · simp only [h, if_false, ZoneTimer.kept_free]

theorem head_entryAfter {l : List Nat} {a b : Nat} (h : l.head? = some a) (he : entryAfter l a = some b) :
    ∃ rest, l = a :: b :: rest := by
  match l with
  | [] => cases h
  | [c] => cases he
  | c :: d :: r =>
    cases h
    simp [entryAfter] at he
    subst he
    exact ⟨r, rfl⟩

/-- The release of zones that a train holds, others staying in its hold list (R27, R55). -/
theorem release_eq {s : State} {t : Nat} {r : Train} (hr : s.trains.find t = some r) {zs : List Nat} (hh : ∀ z, z ∈ zs → s.holder z = some t)
    (hne : zs ≠ []) (hleft : r.hold.filter (fun z => decide (z ∉ zs)) ≠ []) :
    s.release t zs = some ((s.updZones zs Zone.released).updTrain t
      (fun r => { r with hold := r.hold.filter (fun z => decide (z ∉ zs)) })) := by
  have e : s.heldBy t zs = zs := by
    unfold State.heldBy
    rw [List.filter_eq_self]
    intro z hz
    simp [hh z hz]
  unfold State.release
  rw [hr]
  dsimp only
  rw [e, if_neg]
  rintro (h | h)
  · exact hne h
  · exact hleft h

/-! ## Events that do not fit -/

/-- An event of a running circuit is taken by the act its class calls for (R82, R83). -/
theorem takeEvent_eq {s : State} {g : Nat} {r : GateRec} {k : EventKind} (hc : s.circuit = .operating ∨ s.circuit = .halted)
    {h : Handover} (hk : s.actAs (s.classify k r.src r.dst) k g r.src r.dst = some h) : s.takeEvent g r k = h.finish r.src r.dst := by
  unfold State.takeEvent
  rcases hc with hc | hc <;> rw [hc] <;> dsimp only <;> unfold State.actEvent <;> rw [hk]

/-- The train of a sequence fault is the subject train, which holds one of the event's zones (R83). -/
theorem classify_fault {s : State} {k : EventKind} {a b t : Nat} (h : s.classify k a b = .fault t) :
    s.holder a = some t ∨ s.holder b = some t := by
  unfold State.classify at h
  split at h
  · cases h
  rename_i u hu
  split at h
  · cases h
  split at h
  · cases h
  have e : u = t := by
    unfold State.classifyFor at h
    dsimp only at h
    repeat' split at h
    all_goals cases h
    all_goals rfl
  subst e
  unfold State.subject at hu
  cases k <;> dsimp only at hu
  · exact .inl hu
  · exact .inl hu
  · cases hb : s.holder b <;> rw [hb] at hu <;> simp_all
  · cases hb : s.holder b <;> rw [hb] at hu <;> simp_all

/-- The train of an unexpected entry has a record (R83). -/
theorem classify_unexpected {s : State} {k : EventKind} {a b t : Nat} (h : s.classify k a b = .unexpected t) :
    ∃ r, s.trains.find t = some r := by
  unfold State.classify at h
  split at h
  · cases h
  rename_i u hu
  split at h
  · cases h
  rename_i r hr
  split at h
  · cases h
  have e : u = t := by
    unfold State.classifyFor at h
    dsimp only at h
    repeat' split at h
    all_goals cases h
    all_goals rfl
  subst e
  exact ⟨r, hr⟩

/-- A wrong-fork entry (R83, R95): the zone the event leaves is the train's head zone, and a RESERVED zone follows it. -/
theorem classify_wrongFork {s : State} {k : EventKind} {a b t : Nat} (h : s.classify k a b = .wrongFork t) :
    ∃ r y, s.trains.find t = some r ∧ s.headOf r.hold = some a ∧ entryAfter r.hold a = some y ∧ s.isReserved y = true := by
  unfold State.classify at h
  split at h
  · cases h
  rename_i u hu
  split at h
  · cases h
  rename_i r hr
  split at h
  · cases h
  unfold State.classifyFor at h
  dsimp only at h
  split at h
  · split at h
    · rename_i h1
      split at h
      · rename_i h2
        split at h
        · split at h <;> cases h
        · cases h
          cases hy : entryAfter r.hold a with
          | none => rw [hy] at h2; simp at h2
          | some y => rw [hy] at h2; exact ⟨r, y, hr, h1, hy, by simpa using h2⟩
      · cases h
    · cases h
  all_goals split at h <;> cases h

end Sys2Proof.Machine
end

