-- ==== Sys2Proof/Laws/Requests.lean ====
section
/-! SUPPORT. What taking a request comes to, once for every request: in its turn, the owner's effect on the state in which the
request stands in its port's slot. -/

namespace Sys2Proof.Machine

/-! ## The state in which a request is taken -/

theorem State.arrived_eq (p : Port) (q : Request) (s : State) :
    s.arrived p q = s ∨ s.arrived p q = s.setPort p { s.port p with queue := [q] } := by
  unfold State.arrived
  split
  · exact .inr rfl
  · exact .inl rfl

@[simp] theorem State.arrived_pending (p : Port) (q : Request) (s : State) : (s.arrived p q).pending = s.pending := by
  unfold State.arrived; split <;> cases p <;> rfl
@[simp] theorem State.arrived_resetPin (p : Port) (q : Request) (s : State) : (s.arrived p q).resetPin = s.resetPin := by
  unfold State.arrived; split <;> cases p <;> rfl
@[simp] theorem State.arrived_circuit (p : Port) (q : Request) (s : State) : (s.arrived p q).circuit = s.circuit := by
  unfold State.arrived; split <;> cases p <;> rfl
@[simp] theorem State.arrived_causes (p : Port) (q : Request) (s : State) : (s.arrived p q).causes = s.causes := by
  unfold State.arrived; split <;> cases p <;> rfl
@[simp] theorem State.arrived_authority (p : Port) (q : Request) (s : State) : (s.arrived p q).authority = s.authority := by
  unfold State.arrived; split <;> cases p <;> rfl
@[simp] theorem State.arrived_layout (p : Port) (q : Request) (s : State) : (s.arrived p q).layout = s.layout := by
  unfold State.arrived; split <;> cases p <;> rfl
@[simp] theorem State.arrived_store (p : Port) (q : Request) (s : State) : (s.arrived p q).store = s.store := by
  unfold State.arrived; split <;> cases p <;> rfl
@[simp] theorem State.arrived_zones (p : Port) (q : Request) (s : State) : (s.arrived p q).zones = s.zones := by
  unfold State.arrived; split <;> cases p <;> rfl
@[simp] theorem State.arrived_trains (p : Port) (q : Request) (s : State) : (s.arrived p q).trains = s.trains := by
  unfold State.arrived; split <;> cases p <;> rfl
@[simp] theorem State.arrived_waitQueue (p : Port) (q : Request) (s : State) : (s.arrived p q).waitQueue = s.waitQueue := by
  unfold State.arrived; split <;> cases p <;> rfl
@[simp] theorem State.arrived_switches (p : Port) (q : Request) (s : State) : (s.arrived p q).switches = s.switches := by
  unfold State.arrived; split <;> cases p <;> rfl
@[simp] theorem State.arrived_nodes (p : Port) (q : Request) (s : State) : (s.arrived p q).nodes = s.nodes := by
  unfold State.arrived; split <;> cases p <;> rfl
@[simp] theorem State.arrived_anomalies (p : Port) (q : Request) (s : State) : (s.arrived p q).anomalies = s.anomalies := by
  unfold State.arrived; split <;> cases p <;> rfl
@[simp] theorem State.arrived_indicators (p : Port) (q : Request) (s : State) : (s.arrived p q).indicators = s.indicators := by
  unfold State.arrived; split <;> cases p <;> rfl

/-! ## Taking a request -/

/-- A request presented in its turn is taken. -/
theorem State.present_taken {p : Port} {q : Request} {own : Owner} {s : State} (h : Turn p q s) :
    s.present p q own = State.answering p (own (s.arrived p q)).2 (own (s.arrived p q)).1 := by
  obtain ⟨_, ha, hq⟩ := h
  unfold State.present
  rw [ha]
  cases hs : (s.port p).queue with
  | nil =>
    have e : (s.port p).arrive q = { s.port p with queue := [q] } := by
      unfold PortState.arrive
      rw [hs]
      rfl
    have e2 : s.arrived p q = s.setPort p { s.port p with queue := [q] } := by
      unfold State.arrived
      rw [if_pos hs]
    show State.take _ p own = _
    rw [e, e2]
    rfl
  | cons r rest =>
    have e2 : s.arrived p q = s := by
      unfold State.arrived
      rw [hs]
      exact if_neg (by simp)
    have e3 : r = q := by
      rcases hq with hq | hq
      · rw [hs] at hq
        exact absurd hq (by simp)
      · rw [hs] at hq
        exact Option.some.inj hq
    show (if r = q then State.take s p own else _) = _
    rw [if_pos e3, e2]
    rfl

/-- A command's effect while RESET is not asserted. -/
theorem act_running {f : State → State} {s : State} (h : s.resetPin = false) : act f s = .next (f s).settle := by
  unfold act
  rw [if_neg (by rw [h]; exact Bool.noConfusion)]

/-- A request in its turn is taken: the owner's effect, its answer waiting at the port, and the outputs driven. -/
theorem request_taken {p : Port} {tag : Byte} {code : RequestCode} {args : List Byte} {own : Owner} {s : State}
    (h : Turn p ⟨tag, code.code, args⟩ s) :
    request p tag code args own s =
      .next (State.settle (State.answering p (own (s.arrived p ⟨tag, code.code, args⟩)).2
        (own (s.arrived p ⟨tag, code.code, args⟩)).1)) := by
  unfold request
  rw [act_running h.1, State.present_taken h]

/-- A request that any port may send: what its owner answers is the reply. -/
theorem Asked.replies {i : Instr} {p : Port} {tag : Byte} {code : RequestCode} {args : List Byte} {own : Owner} {s : State}
    {f : Effect} (ha : Asked i s) (hr : requestOf i = some (p, ⟨tag, code.code, args⟩))
    (he : exec i s = request p tag code args own s)
    (hf : ∀ u, u = s.arrived p ⟨tag, code.code, args⟩ → own u = ((f u).1, .reply (f u).2.1 (f u).2.2)) : Replies i s f := by
  obtain ⟨p', q', h1, h2⟩ := ha
  rw [hr] at h1
  injection h1 with h1
  injection h1 with hp hq
  subst hp
  subst hq
  exact ⟨p, _, hr, by rw [he, request_taken h2, hf _ rfl]⟩

/-- A change request whose port holds authority. -/
theorem Allowed.replies {i : Instr} {p : Port} {tag : Byte} {code : RequestCode} {args : List Byte} {own : Owner} {s : State}
    {f : Effect} (ha : Allowed i s) (hr : requestOf i = some (p, ⟨tag, code.code, args⟩))
    (he : exec i s = request p tag code args (withAuthority p own) s)
    (hf : ∀ u, u = s.arrived p ⟨tag, code.code, args⟩ → own u = ((f u).1, .reply (f u).2.1 (f u).2.2)) : Replies i s f := by
  obtain ⟨p', q', h1, h2, h3⟩ := ha
  have h4 := h1
  rw [hr] at h4
  injection h4 with h4
  injection h4 with hp hq
  subst hp
  refine Asked.replies (own := withAuthority p own) ⟨p, q', h1, h2⟩ hr he ?_
  intro u hu
  unfold withAuthority
  rw [hu, State.arrived_authority, h3]
  exact hf _ rfl

/-- A read in range: its answer is to be filled, and nothing else changes. -/
theorem Asked.reads {i : Instr} {p : Port} {tag : Byte} {code : RequestCode} {args : List Byte} {own : Owner} {s : State}
    {a : Answer} (ha : Asked i s) (hr : requestOf i = some (p, ⟨tag, code.code, args⟩))
    (he : exec i s = request p tag code args own s) (hf : ∀ u, u.layout = s.layout → own u = (u, a)) : Reads i s a := by
  obtain ⟨p', q', h1, h2⟩ := ha
  rw [hr] at h1
  injection h1 with h1
  injection h1 with hp hq
  subst hp
  subst hq
  exact ⟨p, _, hr, by rw [he, request_taken h2, hf _ (State.arrived_layout ..)]; rfl⟩

end Sys2Proof.Machine
end

