-- ==== Sys2Proof/Laws/SwitchHold.lean ====
section
/-! SUPPORT. Every act keeps a TRANSFER zone whose switch moves without a holder (R118). -/

namespace Sys2Proof.Machine

theorem switchMoving_congr {s t : State} (hl : t.layout = s.layout) (hw : t.switches = s.switches) (z : Nat) :
    t.switchMoving z = s.switchMoving z := by
  unfold State.switchMoving; rw [hl, hw]

/-- No zone has become held, and no switch moves that did not. -/
theorem State.SwitchesFit.less {s t : State} (hs : s.SwitchesFit) (hl : t.layout = s.layout)
    (hw : t.switches = s.switches) (hh : ∀ z, t.holder z = s.holder z ∨ t.holder z = none ∨ s.switchMoving z = false) :
    t.SwitchesFit := by
  intro z hm
  rw [switchMoving_congr hl hw] at hm
  rcases hh z with h | h | h
  · rw [h]; exact hs z hm
  · exact h
  · rw [hm] at h; cases h

theorem State.SwitchesFit.congr {s t : State} (hs : s.SwitchesFit) (hl : t.layout = s.layout)
    (hw : t.switches = s.switches) (hz : t.zones = s.zones) : t.SwitchesFit :=
  hs.less hl hw (fun z => .inl (holder_congr hz z))

theorem holder_kept (s : State) (zs : List Nat) (f : Zone → Zone) (hf : ∀ x, (f x).holder = x.holder) (z : Nat) :
    (s.updZones zs f).holder z = s.holder z := by
  rw [holder_updZones]
  split
  · unfold State.holder
    cases s.zones.find z with
    | none => rfl
    | some x => exact hf x
  · rfl

theorem holder_kept_zone (s : State) (z : Nat) (f : Zone → Zone) (hf : ∀ x, (f x).holder = x.holder) (y : Nat) :
    (s.updZone z f).holder y = s.holder y := by
  rw [State.updZone_eq_updZones]; exact holder_kept s [z] f hf y

theorem keepOrder_holder (s : State) (t z : Nat) : (s.keepOrder t).holder z = s.holder z := by
  unfold State.keepOrder
  split
  · rfl
  · exact holder_kept _ _ _ (by exact fun _ => rfl) z

theorem lineSuspect_holder (s : State) (n z : Nat) : (s.lineSuspect n).holder z = s.holder z := by
  unfold State.lineSuspect
  have h1 : (s.updZones (s.layout.affectedZones n) Zone.lineLost).holder z = s.holder z :=
    holder_kept _ _ _ (fun x => by unfold Zone.lineLost; cases x.state <;> rfl) z
  dsimp only
  generalize s.updZones (s.layout.affectedZones n) Zone.lineLost = s1 at h1
  generalize s.affectedHolders n = l
  induction l generalizing s1 with
  | nil => exact h1
  | cons t r ih => exact ih _ ((keepOrder_holder (s1.untrack t) t z).trans h1)

theorem holder_left (s : State) (zs : List Nat) (f : Zone → Zone) (hf : ∀ x, (f x).holder = none) (z : Nat) :
    (s.updZones zs f).holder z = s.holder z ∨ (s.updZones zs f).holder z = none := by
  rw [holder_updZones]
  split
  · right
    cases s.zones.find z with
    | none => rfl
    | some x => exact hf x
  · exact .inl rfl

/-- A zone whose switch connects the entering gate, or that is not TRANSFER, has no moving switch. -/
theorem switchMoving_of_grantable {s : State} {z g : Nat}
    (h : (!s.layout.isKind z .transfer || s.layout.connects s.switches g z) = true) : s.switchMoving z = false := by
  unfold State.switchMoving
  cases hs : s.layout.switchOf z with
  | none => rfl
  | some e =>
    obtain ⟨k, r⟩ := e
    have hk : s.layout.isKind z .transfer = true := by
      unfold Layout.switchOf at hs
      split at hs
      · assumption
      · cases hs
    rw [hk] at h
    simp only [Bool.not_true, Bool.false_or] at h
    unfold Layout.connects at h
    rw [hs] at h
    dsimp only at h
    cases hp : switchPosition s.switches k with
    | none => rw [hp] at h; cases h
    | some q =>
      unfold switchPosition at hp
      simp only [Option.any_some]
      cases hw : s.switches.find k with
      | none => rfl
      | some w =>
        rw [hw] at hp
        simp only [Option.bind_some] at hp
        simp only [Option.any_some]
        cases hst : w.state <;> simp_all [SwitchState.position]

theorem reserve_holder {s t : State} {u : Nat} {e : List (Nat × Nat)} (h : s.reserve u e = some t) (z : Nat) :
    t.holder z = s.holder z ∨ t.holder z = none ∨ s.switchMoving z = false := by
  unfold State.reserve at h
  split at h
  · cases h
  split at h <;> cases h
  rename_i hg
  show (s.updZones (e.map (fun q => q.1)) (Zone.give .reserved u)).holder z = _ ∨
    (s.updZones (e.map (fun q => q.1)) (Zone.give .reserved u)).holder z = none ∨ _
  rw [holder_updZones]
  split
  · rename_i hm
    right; right
    simp only [List.mem_map] at hm
    obtain ⟨q, hq, rfl⟩ := hm
    have := List.all_eq_true.mp hg.1 q hq
    rw [Bool.and_eq_true] at this
    exact switchMoving_of_grantable this.2
  · exact .inl rfl

theorem State.SwitchesFit.tryGrant {s : State} (hs : s.SwitchesFit) (c : Claim) : (s.tryGrant c).SwitchesFit := by
  rcases tryGrant_cases s c with h1 | ⟨r, z, e, s1, _, _, _, _, hr, h1 | h1⟩ <;> rw [h1]
  · exact hs
  · have h2 := hs.less (t := s1) (reserve_onTrack hr).layout (by obtain ⟨_, _, rfl⟩ := reserve_onTrack hr; rfl) (reserve_holder hr)
    exact h2.congr rfl rfl rfl
  · have h2 := hs.less (t := s1) (reserve_onTrack hr).layout (by obtain ⟨_, _, rfl⟩ := reserve_onTrack hr; rfl) (reserve_holder hr)
    exact h2.congr rfl rfl rfl

theorem State.SwitchesFit.markSuspect {s : State} (hs : s.SwitchesFit) (z : Nat) (a : Option Nat) :
    (s.markSuspect z a).SwitchesFit := by
  obtain ⟨_, _, e⟩ := markSuspect_onTrack s z a
  refine hs.less (by rw [e]) (by rw [e]) (fun y => ?_)
  have hk := holder_kept_zone s z (Zone.turn .suspect) (by exact fun _ => rfl)
  unfold State.markSuspect
  split
  · exact .inl ((keepOrder_holder ..).trans (hk y))
  · split
    · exact .inl (hk y)
    · rename_i t
      split
      · rename_i hc
        simp only [Bool.and_eq_true] at hc
        have hm := hc.2
        unfold State.mayAdopt at hm
        simp only [Bool.and_eq_true, Bool.not_eq_true'] at hm
        rw [keepOrder_holder]
        show (s.updZone z (Zone.give .suspect t)).holder y = _ ∨ (s.updZone z (Zone.give .suspect t)).holder y = none ∨ _
        rw [holder_updZone]
        split
        · rename_i e2; subst e2; exact .inr (.inr hm.2)
        · exact .inl rfl
      · exact .inl (hk y)

theorem arise_layout (s : State) (c : StopCause) : (s.arise c).layout = s.layout ∧ (s.arise c).switches = s.switches := by
  obtain ⟨_, _, _, _, _, e⟩ := arise_frame s c
  rw [e]; exact ⟨rfl, rfl⟩

theorem arise_holder (s : State) (c : StopCause) (z : Nat) : (s.arise c).holder z = s.holder z := by
  have hold : ∀ u : State, u.holdAll.holder z = u.holder z := fun u => holder_kept _ _ _ (by exact fun _ => rfl) z
  unfold State.arise
  split
  · exact hold { s with causes := s.causes.add c, circuit := .halted }
  · exact hold { s with causes := s.causes.add c }
  · rfl
  · cases c <;> rfl
  · cases c <;> rfl

theorem State.SwitchesFit.arise {s : State} (hs : s.SwitchesFit) (c : StopCause) : (s.arise c).SwitchesFit :=
  hs.less (arise_layout s c).1 (arise_layout s c).2 (fun z => .inl (arise_holder s c z))

theorem State.SwitchesFit.setAuthority {s : State} (hs : s.SwitchesFit) (a : Authority) : (s.setAuthority a).SwitchesFit := by
  obtain ⟨_, _, e⟩ := setAuthority_frame s a
  rw [e]; exact hs.congr rfl rfl rfl

theorem State.SwitchesFit.empty {t : State} (h : t.zones = []) : t.SwitchesFit := by
  intro z _
  unfold State.holder; rw [h]; rfl

theorem buildLive_holder (s : State) (z : Nat) : s.buildLive.holder z = none := by
  cases hf : s.buildLive.zones.find z with
  | none => unfold State.holder; rw [hf]; rfl
  | some x => rw [holder_of_find hf, buildLive_find hf]; rfl

/-- In a table in canonical form a record is found under its number. -/
theorem Table.find_of_mem {α : Type} {t : Table α} (h : t.wf) {k : Nat} {v : α} (hm : (k, v) ∈ t) : Table.find t k = some v := by
  induction t with
  | nil => cases hm
  | cons e r ih =>
    obtain ⟨a, b⟩ := e
    unfold Table.wf Table.keys at h
    rw [List.map_cons, List.pairwise_cons] at h
    rw [Table.find_cons]
    rcases List.mem_cons.mp hm with hm | hm
    · cases hm; simp
    · have : a < k := h.1 k (List.mem_map.mpr ⟨(k, v), hm, rfl⟩)
      have hne : a ≠ k := by omega
      simp only [hne, if_false]
      exact ih h.2 hm

theorem switchOf_mem {l : Layout} {z k : Nat} {r : SwitchRec} (h : l.switchOf z = some (k, r)) : (k, r) ∈ l.switches ∧ r.zone = z := by
  unfold Layout.switchOf at h
  split at h
  · exact ⟨List.mem_of_find?_eq_some h, by simpa using List.find?_some h⟩
  · cases h

theorem State.SwitchesFit.act {s t : State} (hs : s.SwitchesFit) (hl : s.LiveFits) (hc : s.layout.Canonical) (h : Act s t) :
    t.SwitchesFit := by
  cases h with
  | load l hcfg _ =>
    have := (hl.absent (by unfold State.live; rw [hcfg]; rfl)).1
    exact .empty this
  | stopInOn => exact State.SwitchesFit.arise (s := { s with stopInPin := true }) (hs.congr rfl rfl rfl) _
  | keyOn =>
    exact State.SwitchesFit.setAuthority
      (State.SwitchesFit.arise (s := { s with keyMaint := true }) (hs.congr rfl rfl rfl) _) _
  | keyOff =>
    unfold State.keyReleased
    dsimp only
    split
    · refine State.SwitchesFit.setAuthority ?_ _
      exact hs.congr rfl rfl rfl
    · exact hs.congr rfl rfl rfl
  | arise c _ => exact hs.arise c
  | configEntered => exact .empty rfl
  | built _ =>
    intro z _
    exact buildLive_holder s z
  | resumed g _ _ _ =>
    have h1 : (s.releaseGroup g).SwitchesFit :=
      hs.less rfl rfl (fun z => .inl (holder_kept _ _ _ (by exact fun _ => rfl) z))
    unfold State.resumed
    dsimp only
    split
    · exact h1
    · exact h1.congr rfl rfl rfl
  | authority a _ _ => exact hs.setAuthority a
  | enterAnomaly k n b _ =>
    unfold State.enterAnomaly
    split
    · exact hs.congr rfl rfl rfl
    · split <;> exact hs.congr rfl rfl rfl
  | tick _ =>
    intro z hm
    have h1 : s.tick.holder z = s.holder z := by
      unfold State.holder
      rw [tick_find]
      cases s.zones.find z <;> rfl
    rw [h1]
    refine hs z ?_
    unfold State.switchMoving at hm ⊢
    have hlay : s.tick.layout = s.layout := rfl
    rw [hlay] at hm
    cases hso : s.layout.switchOf z with
    | none => rw [hso] at hm; exact hm
    | some e =>
      rw [hso] at hm
      simp only [Option.any_some] at hm ⊢
      have hfind : s.tick.switches.find e.1 = (s.switches.find e.1).map (fun x =>
          { x with timer := x.timer.tick ((s.layout.switches.find e.1).map (fun r => r.moveTimeout)) }) := by
        have h := Table.find_mapVals s.switches
          (fun (k : Nat) (x : Switch) => ({ x with timer := x.timer.tick ((s.layout.switches.find k).map (fun r => r.moveTimeout)) } : Switch)) e.1
        exact h
      rw [hfind] at hm
      cases hf : s.switches.find e.1 with
      | none => rw [hf] at hm; cases hm
      | some w => rw [hf] at hm; exact hm
  | zoneTimer z f => exact hs.less rfl rfl (fun y => .inl (holder_kept_zone s z _ (by exact fun _ => rfl) y))
  | beginMove k r q hk hn =>
    intro z hm
    have hh : (s.beginMove k q).holder z = s.holder z := rfl
    rw [hh]
    unfold State.switchMoving at hm
    have hlay : (s.beginMove k q).layout = s.layout := rfl
    rw [hlay] at hm
    cases hso : s.layout.switchOf z with
    | none => rw [hso] at hm; cases hm
    | some e =>
      obtain ⟨k', r'⟩ := e
      rw [hso] at hm
      simp only [Option.any_some] at hm
      by_cases hkk : k' = k
      · subst hkk
        obtain ⟨h1, h2⟩ := switchOf_mem hso
        have h3 := Table.find_of_mem hc.2.2.2 h1
        rw [hk] at h3
        cases h3
        rw [← h2]; exact hn
      · refine hs z ?_
        unfold State.switchMoving
        rw [hso]
        simp only [Option.any_some]
        have h4 : (s.beginMove k q).switches.find k' = s.switches.find k' := by
          unfold State.beginMove
          rw [State.updSwitch_switches, Table.find_upd, if_neg hkk]
        rw [h4] at hm
        exact hm
  | switchTo k f hf =>
    intro z hm
    have hh : (s.updSwitch k f).holder z = s.holder z := rfl
    rw [hh]
    refine hs z ?_
    unfold State.switchMoving at hm ⊢
    have hlay : (s.updSwitch k f).layout = s.layout := rfl
    rw [hlay] at hm
    cases hso : s.layout.switchOf z with
    | none => rw [hso] at hm; cases hm
    | some e =>
      rw [hso] at hm
      simp only [Option.any_some] at hm ⊢
      rw [State.updSwitch_switches, Table.find_upd] at hm
      split at hm
      · cases hf2 : s.switches.find e.1 with
        | none => rw [hf2] at hm; cases hm
        | some w =>
          rw [hf2] at hm
          simp only [Option.map_some, Option.any_some] at hm ⊢
          cases hst : (f w).state with
          | moving q => rw [hf w q hst]
          | _ => rw [hst] at hm; cases hm
      · exact hm
  | remapped n a _ =>
    intro z hm
    exact hs z hm
  | occupy _ z u h _ =>
    unfold State.occupy at h
    split at h <;> cases h
    exact hs.less rfl rfl (fun y => .inl (holder_kept_zone s z _ (by exact fun _ => rfl) y))
  | trail _ z u h =>
    unfold State.trail at h
    split at h <;> cases h
    exact hs.less rfl rfl (fun y => .inl (holder_kept_zone s z _ (by exact fun _ => rfl) y))
  | release _ u zs h =>
    unfold State.release at h
    split at h
    · cases h
    split at h <;> cases h
    refine hs.less rfl rfl (fun y => ?_)
    rcases holder_left s (s.heldBy u zs) Zone.released (fun _ => rfl) y with h | h
    · exact .inl h
    · exact .inr (.inl h)
  | evaluate => exact evaluate_keeps (P := State.SwitchesFit) (fun _ c h => h.tryGrant c) hs
  | mark z a _ => exact hs.markSuspect z a
  | lineSuspect n =>
    obtain ⟨_, _, e⟩ := lineSuspect_onTrack s n
    exact hs.less (by rw [e]) (by rw [e]) (fun y => .inl (lineSuspect_holder s n y))
  | enterClaim _ u b _ h =>
    obtain ⟨r, _, _, rfl⟩ := enterClaim_eq h
    exact hs.congr rfl rfl rfl
  | placed u tag z _ _ _ _ _ _ hm =>
    refine hs.less rfl rfl (fun y => ?_)
    have hz : (s.placed u tag z).zones = (s.updZone z (Zone.give .occupied u)).zones := rfl
    rw [holder_congr hz, holder_updZone]
    split
    · rename_i e; rw [e]; exact .inr (.inr hm)
    · exact .inl rfl
  | withdrawn u f hf =>
    refine hs.less rfl rfl (fun y => ?_)
    have hz : (s.withdrawn u f).zones = (s.updZones (s.heldBy u (s.holdOf u)) f).zones := rfl
    rw [holder_congr hz]
    rcases holder_left s (s.heldBy u (s.holdOf u)) f (by rcases hf with rfl | rfl <;> exact fun _ => rfl) y with h | h
    · exact .inl h
    · exact .inr (.inl h)
  | relocated u z r _ _ _ hm =>
    refine hs.less rfl rfl (fun y => ?_)
    rw [holder_congr (relocated_zones s u z), holder_updZone]
    split
    · rename_i e; rw [e]; exact .inr (.inr hm)
    · rcases holder_left s ((s.heldBy u (s.holdOf u)).filter (fun w => decide (w ≠ z))) (Zone.leave .suspect) (fun _ => rfl) y with h | h
      · exact .inl h
      · exact .inr (.inl h)
  | unheld zs st _ _ => exact hs.less rfl rfl (fun y => .inl (holder_kept s zs _ (by exact fun _ => rfl) y))
  | _ => exact hs.congr rfl rfl rfl

theorem State.SwitchesFit.move {s t : State} (hs : s.SwitchesFit) (hl : s.LiveFits) (hc : s.layout.Canonical) (h : Move s t) :
    t.SwitchesFit := by
  cases h with
  | act h => exact hs.act hl hc h
  | hardReset =>
    unfold State.hardReset
    split
    · intro z _
      exact buildLive_holder _ z
    · exact .empty rfl
  | _ => exact hs.congr rfl rfl rfl

end Sys2Proof.Machine
end

