-- ==== Sys2Proof/WellFormed.lean ====
section
/-! DEFINITION. Which commands are well formed: what a frame, a selection, an answer or a timer can carry at all. A byte of a
request that is out of range is not ill formed: it is answered (R152). -/

namespace Sys2Proof

/-- The check. A command that is not named below is well formed whatever its operands. -/
def WellFormed (i : Instr) : Bool :=
  match i with
  | .requestFrameArrival _ bytes => decide (0 < bytes.length)
  -- an answer frame is at most 7 + 32 bytes long (section 13.2)
  | .spiDeselect shifted => decide (shifted ≤ 39)
  -- at most 16 argument bytes, the record kind among them (section 13.2)
  | .loadLayoutRecord _ _ _ image => decide (image.length < Config.argumentMax)
  -- setting 1 is SET_SERVICE_ON's row
  | .setServiceOff _ _ _ setting => decide (setting ≠ 1)
  | .tracksideAnswer bytes => decide (0 < bytes.length)
  | .runTransitExpiry zone => decide (zone < Config.zoneKeys)
  | .trailingHoldExpiry zone => decide (zone < Config.zoneKeys)
  | .switchTimerExpiry switch => decide (switch < Config.switchKeys)
  | .unknownRequestCode _ _ _ args => decide (args.length ≤ Config.argumentMax)
  | .hardReset => true
  | .resetAsserted => true
  | .stopInAsserted => true
  | .stopInDeasserted => true
  | .keyTurnedToMaint => true
  | .keyTurnedToRun => true
  | .consoleByteGap => true
  | .answerFrameSend _ => true
  | .answerComplete _ => true
  | .readStatus _ _ => true
  | .readZone _ _ _ => true
  | .readZones _ _ _ _ => true
  | .readTrain _ _ _ => true
  | .readTrains _ _ => true
  | .readWaitQueue _ _ => true
  | .readAnomalies _ _ => true
  | .readSwitch _ _ _ => true
  | .readNode _ _ _ => true
  | .readLayoutRecord _ _ _ _ => true
  | .readNotices _ _ => true
  | .enterConfig _ _ => true
  | .clearLayout _ _ => true
  | .commitLayout _ _ => true
  | .storeLayout _ _ => true
  | .storeWriteComplete => true
  | .eraseStore _ _ => true
  | .remapNode _ _ _ _ => true
  | .placeTrain _ _ _ _ => true
  | .withdrawTrain _ _ _ => true
  | .relocateTrain _ _ _ _ => true
  | .beginOperation _ _ => true
  | .dispatch _ _ _ => true
  | .cancelDispatch _ _ _ => true
  | .stepTrain _ _ _ => true
  | .relaunch _ _ _ => true
  | .setServiceOn _ _ _ => true
  | .clearZone _ _ _ => true
  | .clearUnheldZones _ _ => true
  | .setSwitch _ _ _ _ => true
  | .halt _ _ => true
  | .resumeGroup _ _ _ => true
  | .acknowledgeAnomaly _ _ _ _ => true
  | .acknowledgeAll _ _ => true
  | .takeAuthority _ _ => true
  | .fixSupervisor _ _ => true
  | .handToConsole _ _ => true
  | .assignIndicator _ _ _ _ _ _ => true
  | .releaseIndicator _ _ _ => true
  | .setNoticeMask _ _ _ _ => true
  | .pollSend => true
  | .answerTimeout => true
  | .timebaseTick => true
  | .consoleFramingError => true

end Sys2Proof
end

