-- ==== Sys2Proof/Tests/Slice0.lean ====
section
/-! SUPPORT. Small checks of the model's own text: ill-formed commands, the spec's worked values, one or two steps of each command on
small states, and for each statement with premises a state that meets them. -/

namespace Sys2Proof.Tests

open Sys2Proof.Machine

/-! ## The well-formedness check refuses -/

theorem test_wf_frame_without_bytes : WellFormed (.requestFrameArrival .console []) = false := by decide
theorem test_wf_selection_too_long : WellFormed (.spiDeselect 40) = false := by decide
theorem test_wf_image_too_long : WellFormed (.loadLayoutRecord .console 1 1 (List.replicate 16 0)) = false := by decide
theorem test_wf_setting_of_the_other_row : WellFormed (.setServiceOff .console 1 2 1) = false := by decide
theorem test_wf_answer_without_bytes : WellFormed (.tracksideAnswer []) = false := by decide
theorem test_wf_run_zone : WellFormed (.runTransitExpiry 32) = false := by decide
theorem test_wf_launch_zone : WellFormed (.trailingHoldExpiry 32) = false := by decide
theorem test_wf_switch : WellFormed (.switchTimerExpiry 4) = false := by decide
theorem test_wf_arguments_too_long : WellFormed (.unknownRequestCode .console 1 0x7F (List.replicate 17 0)) = false := by decide
theorem test_wf_accepts : WellFormed (.setServiceOff .console 1 2 0) = true := by decide

/-! ## Small states -/

/-- The state a command leads to. -/
def after (i : Instr) (s : State) : State :=
  match exec i s with
  | .next t => t
  | _ => s

/-- A circuit of six zones: station 0, launch 1, run 2, brake 3, transfer 4, storage 5. -/
def track : Layout :=
  { circuit := some ⟨6, 4, 3, 2⟩
    zones := [(0, ⟨.station, 0, some (0, 0)⟩), (1, ⟨.launch 100 1 2, 0, some (0, 1)⟩), (2, ⟨.run 10 50, 0, none⟩),
      (3, ⟨.brake, 0, some (1, 0)⟩), (4, ⟨.transfer, 0, some (1, 1)⟩), (5, ⟨.storage, 1, some (2, 0)⟩)]
    gates := [(0, ⟨0, 1, 0, 0⟩), (1, ⟨1, 2, 0, 1⟩), (2, ⟨2, 3, 0, 2⟩), (3, ⟨3, 4, 0, 3⟩), (4, ⟨4, 0, 1, 0⟩), (5, ⟨4, 5, 1, 1⟩),
      (6, ⟨5, 0, 1, 2⟩)]
    nodes := [(0, 1), (1, 2), (2, 3)]
    switches := [(0, ⟨4, .exit, 4, 5, 2, 500⟩)] }

theorem test_track_is_sound : track.invalid = none := by decide

/-- A zone as it is between trains. -/
def open_ : Zone := ⟨.free, none, false, .idle⟩

/-- The circuit in OPERATING: train 1 stands in the station; everything else is free, linked and set. -/
def ready : State :=
  { State.reset with
    circuit := .operating
    layout := track
    zones := [(0, ⟨.occupied, some 1, false, .idle⟩), (1, open_), (2, open_), (3, open_), (4, open_), (5, open_)]
    trains := [(1, ⟨7, .standing, .none, [0], 0, false⟩)]
    switches := [(0, ⟨.setMain, .idle⟩)]
    nodes := (List.range 24).map (fun n => (n, ⟨if n < 3 then .linked else .unmapped, 0, 0, none⟩)) }

/-- The same in maintenance, halted by KEY, with its stop holds. -/
def serviced : State :=
  { ready with
    circuit := .halted
    authority := .maintenance
    keyMaint := true
    causes := ⟨false, true, false, false⟩
    zones := ready.zones.map (fun e => (e.1, { e.2 with stopHold := true })) }

/-- The circuit in CENSUS, still unproven. -/
def counted : State := { ready.buildLive with nodes := ready.nodes, switches := ready.switches }

/-- The circuit in CONFIG with the layout loaded. -/
def loaded : State := { State.reset with circuit := .config, layout := track }

/-- A change of train 1's record. -/
def withTrain (f : Train → Train) (s : State) : State := s.updTrain 1 f

/-- Train 1 on the launch, its head in the run zone above. -/
def launching : State :=
  { ready with
    zones := [(0, open_), (1, ⟨.occupied, some 1, false, .idle⟩), (2, ⟨.occupied, some 1, false, .running .runTransit 20 .notDue⟩),
      (3, ⟨.reserved, some 1, false, .idle⟩), (4, open_), (5, open_)]
    trains := [(1, ⟨7, .moving, .granted, [1, 2, 3], 0, false⟩)] }

/-- Train 1 with a claim waiting for the launch, which is out of service. -/
def waiting : State :=
  { ready with
    zones := ready.zones.upd 1 (fun x => { x with state := .outOfService })
    trains := [(1, ⟨7, .standing, .pending, [0], 0, false⟩)]
    waitQueue := [⟨1, .yard, 0, false, 0⟩]
    entryCounter := 1
    nextSerial := 1 }

/-- An anomaly at a zone. -/
def alarm : Anomaly := ⟨.overspeed, 2, true, false, 0, 0⟩

/-- The body and result of the answer a request got. -/
def said (p : Port) (s : State) : Option Answer := (s.port p).answer

/-! ## Small states meet the conditions the steps keep -/

/-- The canonical form, as a check. -/
def canonical (s : State) : Bool :=
  let ok := fun (l : Layout) => decide (l.zones.wf ∧ l.gates.wf ∧ l.nodes.wf ∧ l.switches.wf)
  ok s.layout && ok s.store.image && decide (s.zones.wf ∧ s.trains.wf ∧ s.switches.wf ∧ s.nodes.wf ∧ s.indicators.wf)

/-- A zone's state fits its holder, as a check. -/
def fits (x : Zone) : Bool :=
  match x.state with
  | .free => x.holder.isNone
  | .outOfService => x.holder.isNone
  | .suspect => true
  | _ => x.holder.isSome

/-- The interlock and the order of the hold lists, as a check. -/
def interlocked (s : State) : Bool :=
  s.zones.all (fun e => fits e.2 && (s.holder e.1).all (fun t => decide (e.1 ∈ s.holdOf t))) &&
  s.trains.all (fun e => (s.holdOf e.1).all (fun z => decide (s.holder z = some e.1)) &&
    decide (e.2.hold ≠ [] ∧ e.2.hold.length ≤ 6 ∧ e.2.hold.Nodup ∧ s.stale e.2.hold = []))

theorem canonical_of_check {s : State} (h : canonical s = true) : s.Canonical := by
  simp only [canonical, Bool.and_eq_true, decide_eq_true_eq] at h
  obtain ⟨⟨h1, h2⟩, h3, h4, h5, h6, h7⟩ := h
  exact ⟨h1, h2, h3, h4, h5, h6, h7⟩

theorem interlock_of_check {s : State} (h : interlocked s = true) : s.Interlock := by
  simp only [interlocked, Bool.and_eq_true, List.all_eq_true] at h
  refine ⟨fun z x hx => ?_, fun z t => ⟨fun hz => ?_, fun hz => ?_⟩⟩
  · have := (h.1 _ (Table.mem_of_find hx)).1
    unfold fits at this
    unfold Zone.Fits
    cases hs : x.state <;> simp_all
  · cases hf : s.zones.find z with
    | none => unfold State.holder at hz; rw [hf] at hz; cases hz
    | some x =>
      have := (h.1 _ (Table.mem_of_find hf)).2
      rw [hz] at this
      exact of_decide_eq_true this
  · cases hf : s.trains.find t with
    | none => unfold State.holdOf at hz; rw [hf] at hz; cases hz
    | some r => exact of_decide_eq_true ((h.2 _ (Table.mem_of_find hf)).1 z hz)

theorem holdLists_of_check {s : State} (h : interlocked s = true) : s.HoldLists := fun t r hr => by
  simp only [interlocked, Bool.and_eq_true, List.all_eq_true] at h
  exact of_decide_eq_true (h.2 _ (Table.mem_of_find hr)).2

/-- Train 1 climbing above the launch: the launch TRAILING, the head in the run zone. -/
def climbing : State :=
  { launching with zones := launching.zones.upd 1 (fun x => { x with state := .trailing, timer := .running .trailingHold 5 .notDue }) }

/-- Train 1 cleared on the launch, with everything ahead RESERVED. -/
def cleared : State :=
  { launching with
    zones := launching.zones.upd 2 (fun x => { x with state := .reserved, timer := .idle })
    trains := [(1, ⟨7, .cleared, .granted, [1, 2, 3], 0, false⟩)] }

/-- A long train 1, its head in the brake and its tail still on the launch. -/
def long : State :=
  { launching with
    zones := launching.zones.upd 3 (fun x => { x with state := .occupied })
    trains := [(1, ⟨7, .moving, .none, [1, 2, 3], 1, false⟩)] }

/-- Train 1 with its head in the station and its tail in the transfer zone. -/
def homing : State :=
  { ready with
    zones := [(0, ⟨.occupied, some 1, false, .idle⟩), (1, open_), (2, open_), (3, open_), (4, ⟨.occupied, some 1, false, .idle⟩), (5, open_)]
    trains := [(1, ⟨7, .moving, .none, [4, 0], 0, false⟩)] }

/-- A table of 16 anomalies. -/
def crowded : State := { ready with anomalies := (List.range 16).map (fun n => ⟨.nodeLost, n, false, true, 0, n⟩) }

/-! ## Hard reset and inputs -/

theorem test_reset_finds_a_layout :
    (after .hardReset { ready with store := ⟨.valid, track, true⟩ }).circuit = .census := by decide
theorem test_reset_assertion_lowers_run : (after .resetAsserted ready.settle).pins.runEn = false := by decide
theorem test_stop_in_halts : (after .stopInAsserted ready).circuit = .halted := by decide
theorem test_stop_in_leaves_the_set : (after .stopInDeasserted (after .stopInAsserted ready)).causes.isEmpty = true := by decide
theorem test_key_takes_authority : (after .keyTurnedToMaint ready).authority = .maintenance := by decide
theorem test_key_gives_it_back : (after .keyTurnedToRun serviced).authority = .console := by decide

/-! ## Ports -/

set_option maxRecDepth 100000 in
theorem test_crc : crc8 [1, 0, 0, 0] = 0x16 := by decide
set_option maxRecDepth 100000 in
theorem test_frame_arrives :
    ((after (.requestFrameArrival .console (requestFrame ⟨9, 0x02, [3]⟩)) ready).console.queue) = [⟨9, 0x02, [3]⟩] := by decide
set_option maxRecDepth 100000 in
theorem test_bad_check_is_refused :
    (after (.requestFrameArrival .console [0xC3, 0, 9, 1, 0]) ready).console.refusals = [⟨9, .badFrame⟩] := by decide
theorem test_deselect_refuses :
    (after (.spiDeselect 0) (after (.requestFrameArrival .supervisor [0xC3, 1]) ready)).supervisor.refusals = [⟨0, .badFrame⟩] := by
  decide
theorem test_gap_refuses :
    (after .consoleByteGap (after (.requestFrameArrival .console [0xC3, 1, 5]) ready)).console.refusals = [⟨5, .badFrame⟩] := by
  decide
theorem test_framing_error_refuses :
    (after .consoleFramingError (after (.requestFrameArrival .console [0xC3, 1, 5]) ready)).console.refusals = [⟨5, .badFrame⟩] := by
  decide
theorem test_answer_frame :
    ((after (.answerFrameSend .console) (after (.setNoticeMask .console 9 0 0) ready)).console.sending.map (fun w => w.frame.take 6)) =
      some [0xC3, 0, 9, 0, 7, 3] := by decide
theorem test_slot_empties :
    (after (.answerComplete .console) (after (.answerFrameSend .console) (after (.halt .console 9) ready))).console.queue = [] := by
  decide
theorem test_unknown_code : said .console (after (.unknownRequestCode .console 9 0x0C []) ready) = some (.reply .refusedRange []) := by
  decide

/-! ## Reads -/

theorem test_read_status : said .console (after (.readStatus .console 1) ready) = some .status := by decide
theorem test_status_image : (ready.statusImage .console).take 10 = [3, 0, 0, 2, 0, 0, 0, 0, 6, 1] := by decide
theorem test_read_zone : said .console (after (.readZone .console 1 32) ready) = some (.reply .refusedRange []) := by decide
theorem test_zone_image :
    (launching.zones.find 2).map (launching.zoneImage 2) = some [2, 6, 0, 2, 1, 0, 0xFF, 1, 0, 20] := by decide
theorem test_read_zones : said .console (after (.readZones .console 1 0 32) ready) = some (.zones 0 31) := by decide
theorem test_read_train : said .console (after (.readTrain .console 1 12) ready) = some (.train 12) := by decide
theorem test_train_image :
    (launching.trains.find 1).map (launching.trainImage 1) =
      some [1, 7, 2, 0, 2, 0, 0, 2, 1, 3, 1, 2, 2, 2, 3, 1] := by decide
theorem test_read_trains : said .console (after (.readTrains .console 1) ready) = some (.trains 0) := by decide
theorem test_read_wait_queue : said .console (after (.readWaitQueue .console 1) ready) = some (.waitQueue none) := by decide
theorem test_claim_image : waiting.claimImage ⟨1, .yard, 0, false, 0⟩ = [1, 1, 0, 0, 3, 1, 1, 1] := by decide
theorem test_read_anomalies : said .console (after (.readAnomalies .console 1) ready) = some (.anomalies none) := by decide
theorem test_read_switch : said .console (after (.readSwitch .console 1 4) ready) = some (.reply .refusedRange []) := by decide
theorem test_read_node : said .console (after (.readNode .console 1 23) ready) = some (.node 23) := by decide
theorem test_read_layout_record :
    said .console (after (.readLayoutRecord .console 1 3 1) ready) = some (.layoutRecord .node 1 (some [3, 1, 2])) ∧
      (ready.nextFrame .console (.layoutRecord .node 1 (some [3, 1, 2]))).body = [3, 1, 2] := by decide
theorem test_read_notices : said .console (after (.readNotices .console 1) ready) = some .notices := by decide

/-! ## The layout and the store -/

theorem test_enter_config : (after (.enterConfig .console 1) State.reset).circuit = .config := by decide
theorem test_load_node :
    (after (.loadLayoutRecord .console 1 3 [4, 9]) loaded).layout.nodes.find 4 = some 9 := by decide
theorem test_load_default :
    recordOfImage 0 [2, 0, 0, 0] = some (.circuit ⟨2, 4, 3, 2⟩) := by decide
theorem test_clear_layout : (after (.clearLayout .console 1) loaded).layout = .empty := by decide
theorem test_commit : (after (.commitLayout .console 1) loaded).circuit = .census := by decide
theorem test_commit_names_the_check :
    said .console (after (.commitLayout .console 1) { loaded with layout := { track with gates := track.gates.del 6 } }) =
      some (.reply .invalid [5, 1, 5]) := by decide
theorem test_store : (after .storeWriteComplete (after (.storeLayout .console 1) ready)).store = ⟨.valid, track, true⟩ := by decide
theorem test_erase : (after (.eraseStore .console 1) { serviced with store := ⟨.valid, track, true⟩ }).store.state = .invalid := by
  decide
theorem test_remap :
    (after (.remapNode .console 1 2 7) { serviced with
      zones := serviced.zones.upd 4 (fun x => { x with state := .suspect }) |>.upd 5 (fun x => { x with state := .suspect })
      nodes := serviced.nodes.upd 2 (fun x => { x with state := .lost }) }).layout.nodes.find 2 = some 7 := by decide

/-! ## Trains and claims -/

theorem test_place : (after (.placeTrain .console 1 8 5) serviced).trains.find 2 = some ⟨8, .standing, .none, [5], 0, false⟩ := by decide
theorem test_withdraw :
    (after (.withdrawTrain .console 1 2) (after (.answerComplete .console) (after (.answerFrameSend .console)
      (after (.placeTrain .console 1 8 5) serviced)))).trains.find 2 = none := by decide
theorem test_relocate :
    (after (.relocateTrain .console 1 1 3) (withTrain (fun r => { r with motion := .untracked }) serviced)).holdOf 1 = [3] := by decide
theorem test_begin_operation :
    (after (.beginOperation .console 1) { ready with circuit := .census }).circuit = .operating := by decide
theorem test_begin_names_the_zone :
    said .console (after (.beginOperation .console 1) counted) = some (.reply .refusedState [2, 0, 0xFF]) := by decide
theorem test_dispatch_is_granted : (after (.dispatch .console 1 1) ready).holdOf 1 = [0, 1] := by decide
theorem test_dispatch_waits :
    said .console (after (.dispatch .console 1 1) { ready with zones := waiting.zones }) = some (.reply .queued []) := by decide
theorem test_cancel : (after (.cancelDispatch .console 1 1) waiting).waitQueue = [] := by decide
theorem test_step_train : (after (.stepTrain .console 1 1) serviced).permit 0 = some true := by decide
theorem test_relaunch :
    (after (.relaunch .console 1 1) (withTrain (fun r => { r with motion := .stranded .launchLimit, relaunches := 2 }) ready)).motion 1 =
      some .cleared := by decide

/-! ## Zones, switches, stops -/

theorem test_service_off : (after (.setServiceOff .console 1 3 0) ready).zoneState 3 = some .outOfService := by decide
theorem test_service_on : (after (.setServiceOn .console 1 1) waiting).holdOf 1 = [0, 1] := by decide
theorem test_clear_zone :
    (after (.clearZone .console 1 3) { ready with zones := ready.zones.upd 3 (fun x => { x with state := .suspect }) }).zoneState 3 =
      some .free := by decide
theorem test_clear_unheld : said .console (after (.clearUnheldZones .console 1) counted) = some (.reply .done [6]) := by decide
theorem test_set_switch : (after (.setSwitch .console 1 0 1) ready).switches = [(0, ⟨.moving .branch, .running 0⟩)] := by decide
theorem test_set_switch_held :
    said .console (after (.setSwitch .console 1 0 1) { ready with
      zones := ready.zones.upd 4 (fun x => { x with state := .occupied, holder := some 1 }) }) = some (.reply .refusedHeld []) := by decide
theorem test_halt : (after (.halt .supervisor 1) ready).anyHold = true := by decide
theorem test_resume :
    (after (.resumeGroup .console 1 0) { after (.halt .supervisor 1) ready with
      zones := ready.zones.upd 0 (fun x => { x with stopHold := true }) }).circuit = .operating := by decide
theorem test_acknowledge :
    said .console (after (.acknowledgeAnomaly .console 1 3 2) { ready with anomalies := [alarm] }) = some (.reply .done [1]) := by decide
theorem test_acknowledge_all :
    said .console (after (.acknowledgeAll .console 1) { ready with anomalies := [alarm, ⟨.nodeLost, 5, true, false, 0, 1⟩] }) =
      some (.reply .done [1, 1]) := by decide

/-! ## Authority, indicators, notices -/

theorem test_take : (after (.takeAuthority .supervisor 1) ready).authority = .supervisor := by decide
theorem test_fix : said .console (after (.fixSupervisor .console 1) ready) = some (.reply .refusedState []) := by decide
theorem test_hand : (after (.handToConsole .supervisor 1) { ready with authority := .supervisorFixed }).authority = .console := by decide
theorem test_assign : (after (.assignIndicator .console 1 0 0 5 0) ready).pins.ind.head? = some true := by decide
theorem test_release :
    (after (.releaseIndicator .console 1 0) { ready with indicators := [(0, ⟨none, .circuitOperating, .activeHigh⟩)] }).indicators =
      [] := by decide
theorem test_mask : (after (.setNoticeMask .console 1 0 0xFF) ready).console.mask = 0xFF := by decide

/-! ## The line and the timers -/

set_option maxRecDepth 100000 in
theorem test_poll_frame : { ready with circuit := .halted }.pollFrame 0 1 = [0x96, 0x01, 0x00, 0x00, 0x00, 0x16] := by decide
theorem test_poll_send : (after .pollSend ready).polled = some 0 := by decide

/-- An answer of a node: no switch report, one event. -/
def answerOf (address seq channel kind : Nat) : List Byte :=
  let content := [byte address, 3, 1, byte (16 * channel + seq), byte kind]
  [Config.lineSync] ++ content ++ [crc8 content]

set_option maxRecDepth 100000 in
theorem test_answer_moves_the_train :
    let s := after (.tracksideAnswer (answerOf 1 0 2 1)) (after .pollSend launching)
    (s.zoneState 3, s.zoneState 2, s.motion 1) = (some .occupied, some .occupied, some .moving) := by decide
set_option maxRecDepth 100000 in
theorem test_phantom_halts :
    (after (.tracksideAnswer (answerOf 2 0 0 1)) (after .pollSend { ready with polled := some 0 })).circuit = .halted := by decide
theorem test_timeout_counts :
    (after .answerTimeout (after .pollSend ready)).nodes.find 0 = some ⟨.linked, 0, 1, none⟩ := by decide
/-- The run zone's timer one tick before its limit. -/
def late : State :=
  { launching with zones := launching.zones.upd 2 (fun x => { x with timer := .running .runTransit 49 .notDue }) }

theorem test_tick_makes_the_expiry_due : (after .timebaseTick late).expiryDue 2 .runTransit = true := by decide
theorem test_overdue : (after (.runTransitExpiry 2) (after .timebaseTick late)).motion 1 = some (.stranded .overdue) := by decide
theorem test_stuck :
    (after (.trailingHoldExpiry 1) { launching with
      zones := launching.zones.upd 1 (fun x => { x with state := .trailing, timer := .running .trailingHold 100 .due }) }).motion 1 =
      some (.stranded .stuck) := by decide
theorem test_switch_fault :
    (after (.switchTimerExpiry 0) { ready with switches := [(0, ⟨.moving .branch, .expired⟩)] }).switches = [(0, ⟨.faulted, .idle⟩)] := by
  decide

theorem test_anomaly_repeats_and_overflows :
    ((ready.anomaly .nodeLost 3 false).anomaly .nodeLost 3 true).anomalies.map (fun a => (a.stop, a.acked)) = [(true, false)] ∧
      (crowded.anomaly .overspeed 2 true).tableFull = true ∧ (crowded.anomaly .overspeed 2 true).circuit = .halted ∧
      (crowded.anomaly .nodeLost 15 false).tableFull = false := by decide
theorem test_loss_stops_only_over_a_held_zone :
    (ready.loss 0 .nodeLost).circuit = .halted ∧ (ready.loss 0 .nodeLost).motion 1 = some .untracked ∧
      (launching.loss 2 .nodeLost).circuit = .operating ∧ (launching.loss 2 .nodeLost).zoneState 5 = some .suspect := by decide
theorem test_crest_and_course_claim :
    let s := climbing.takeEvent 2 ⟨2, 3, 0, 2⟩ .fwdHead
    (s.zoneState 1, s.holdOf 1, s.motion 1, s.claimOf 1) = (some .free, [2, 3, 4], some .moving, .granted) := by decide
theorem test_rollback_within_and_past_the_limit :
    (launching.takeEvent 1 ⟨1, 2, 0, 1⟩ .revTail).motion 1 = some .cleared ∧
    ((withTrain (fun r => { r with relaunches := 1 }) launching).takeEvent 1 ⟨1, 2, 0, 1⟩ .revTail).motion 1 =
      some (.stranded .launchLimit) := by decide

/-! ## The words that spell a command -/

theorem test_no_row_has_bits : decodeTableWord 8 0 = none := rfl

/-! ## States that meet the premises of the statements -/

theorem witness_StepTakesTheFrontCommand : ({ ready with pending := [.pollSend] } : State).pending = .pollSend :: [] ∧ ready.pending = [] :=
  ⟨rfl, rfl⟩
theorem witness_NothingIsTakenWhileResetIsAsserted : ({ ready with resetPin := true } : State).resetPin = true := rfl
theorem witness_InputsMoveCausesAndAuthority : ready.resetPin = false ∧ serviced.resetPin = false := ⟨rfl, rfl⟩
theorem witness_AStopCauseHoldsEveryZone :
    ready.circuit = .operating ∧ serviced.circuit = .halted ∧ counted.circuit = .census ∧ State.reset.circuit = .unconfigured ∧
      loaded.circuit = .config := ⟨rfl, rfl, rfl, rfl, rfl⟩
set_option maxRecDepth 100000 in
theorem witness_FramesArriveAtTheirPort :
    ready.resetPin = false ∧ (ready.port .console).rx = [] ∧ (⟨1, 1, List.replicate 16 0⟩ : Request).args.length ≤ 16 ∧
      (1 : Byte) ≠ crc8 ([byte 0, 0, 0] ++ []) ∧ 16 < (17 : Byte).toNat := by decide
theorem witness_AFrameCutShortIsRefused : (after (.requestFrameArrival .console [0xC3, 1, 5]) ready).resetPin = false := by decide
theorem witness_AnswerFramesGoOutInOrder : (after (.readStatus .console 1) ready).resetPin = false := by decide
theorem witness_NoticesAreMaskedAndReadByPort :
    Asked (.setNoticeMask .console 1 0 0xFF) ready ∧
    (let s := after (.readNotices .console 1) ready
     s.resetPin = false ∧ (s.port .console).answer = some .notices ∧ (s.port .console).refusals = [] ∧
       (s.port .console).sending = none) := ⟨⟨_, _, rfl, rfl, rfl, .inl rfl⟩, by decide⟩
set_option maxRecDepth 100000 in
theorem witness_RequestsAreTakenInTheirTurn :
    requestOf (.halt .console 1) = some (.console, ⟨1, 0x38, []⟩) ∧
    ((after (.readStatus .console 1) ready).port .console).answer.isSome = true ∧
    (let s := after (.requestFrameArrival .console (requestFrame ⟨9, 0x02, [3]⟩)) ready
     s.resetPin = false ∧ (s.port .console).queue ≠ [] ∧ (s.port .console).queue.head? ≠ some ⟨1, 0x38, []⟩) ∧
    portPasses 0x0C [] = false ∧ Asked (.unknownRequestCode .console 1 0x0C []) ready := by
  exact ⟨rfl, by decide, by decide, by decide, ⟨_, _, rfl, rfl, rfl, .inl rfl⟩⟩
theorem witness_ChangesNeedAuthority :
    requestOf (.dispatch .supervisor 1 1) = some (.supervisor, ⟨1, 0x28, [1]⟩) ∧ portPasses 0x28 [1] = true ∧
      (0x28 : Byte) ∉ openCodes ∧ Turn .supervisor ⟨1, 0x28, [1]⟩ ready ∧ ready.authority.heldBy .supervisor = false :=
  ⟨rfl, by decide, by decide, ⟨rfl, rfl, .inl rfl⟩, rfl⟩

/-- The codes and lengths at the ends of their ranges: a read without arguments, the mask, and the images of the five record kinds. -/
theorem witness_RequestsAreTakenInTheirTurn_lengths :
    portPasses 0x01 [] = true ∧ portPasses 0x01 [0] = false ∧ portPasses 0x4A [0, 1] = true ∧ portPasses 0x4A [0] = false ∧
    portPasses 0x11 [] = false ∧ portPasses 0x11 (0 :: List.replicate 4 0) = true ∧ portPasses 0x11 (1 :: List.replicate 13 0) = true ∧
    portPasses 0x11 (4 :: List.replicate 8 0) = true ∧ portPasses 0x11 (4 :: List.replicate 7 0) = false ∧
    portPasses 0x11 (5 :: List.replicate 8 0) = false := by decide

set_option maxRecDepth 100000 in
/-- The check value of section 13.1 over the digits 1 to 9, as that polynomial gives it. -/
theorem test_crc_digits : crc8 [0x31, 0x32, 0x33, 0x34, 0x35, 0x36, 0x37, 0x38, 0x39] = 0xF4 := by decide

/-- Every read is in its turn in the state with nothing queued. -/
theorem witness_ReadsAreTakenInEveryState :
    Asked (.readStatus .console 1) ready ∧ Asked (.readTrains .console 1) ready ∧ Asked (.readWaitQueue .console 1) ready ∧
    Asked (.readAnomalies .console 1) ready ∧ Asked (.readNotices .console 1) ready ∧ Asked (.readZone .console 1 31) ready ∧
    Asked (.readZones .console 1 0 32) ready ∧ Asked (.readTrain .console 1 12) ready ∧ Asked (.readSwitch .console 1 3) ready ∧
    Asked (.readNode .console 1 23) ready ∧ Asked (.readLayoutRecord .console 1 1 31) ready :=
  ⟨⟨_, _, rfl, rfl, rfl, .inl rfl⟩, ⟨_, _, rfl, rfl, rfl, .inl rfl⟩, ⟨_, _, rfl, rfl, rfl, .inl rfl⟩, ⟨_, _, rfl, rfl, rfl, .inl rfl⟩,
   ⟨_, _, rfl, rfl, rfl, .inl rfl⟩, ⟨_, _, rfl, rfl, rfl, .inl rfl⟩, ⟨_, _, rfl, rfl, rfl, .inl rfl⟩, ⟨_, _, rfl, rfl, rfl, .inl rfl⟩,
   ⟨_, _, rfl, rfl, rfl, .inl rfl⟩, ⟨_, _, rfl, rfl, rfl, .inl rfl⟩, ⟨_, _, rfl, rfl, rfl, .inl rfl⟩⟩

/-- The records and streams that a frame may meet: a zone with a record and one without, in a live circuit and in CONFIG; a motion that is
not STRANDED. -/
theorem witness_ReadsAreTakenInEveryState_frames :
    ready.live = true ∧ loaded.live = false ∧ (ready.zones.find 0).isSome = true ∧ (ready.layout.zones.find 0).isSome = true ∧
    (ready.zones.find 5).isSome = true ∧ (ready.layout.zones.find 5).isSome = true ∧ ready.zones.find 6 = none ∧
    ready.zones.find 31 = none ∧ Motion.standing.code ≠ 4 := by decide

/-- The last key of a kind and the one above it, and the last kind and the one above it. -/
theorem witness_ReadsAreTakenInEveryState_layout :
    Asked (.readLayoutRecord .console 1 0 0) ready ∧ Asked (.readLayoutRecord .console 1 0 1) ready ∧
    Asked (.readLayoutRecord .console 1 2 47) ready ∧ Asked (.readLayoutRecord .console 1 2 48) ready ∧
    Asked (.readLayoutRecord .console 1 4 3) ready ∧ Asked (.readLayoutRecord .console 1 5 0) ready ∧
    said .console (after (.readLayoutRecord .console 1 2 47) ready) = some (.layoutRecord .gate 47 none) ∧
    said .console (after (.readLayoutRecord .console 1 2 48) ready) = some (.reply .refusedRange []) ∧
    said .console (after (.readLayoutRecord .console 1 5 0) ready) = some (.reply .refusedRange []) ∧
    (ready.nextFrame .console (.layoutRecord .gate 47 none)).result = .void :=
  ⟨⟨_, _, rfl, rfl, rfl, .inl rfl⟩, ⟨_, _, rfl, rfl, rfl, .inl rfl⟩, ⟨_, _, rfl, rfl, rfl, .inl rfl⟩, ⟨_, _, rfl, rfl, rfl, .inl rfl⟩,
   ⟨_, _, rfl, rfl, rfl, .inl rfl⟩, ⟨_, _, rfl, rfl, rfl, .inl rfl⟩, by decide, by decide, by decide, by decide⟩
/-- A record of each kind as it is held, and a frame that shows one. -/
theorem test_layout_record_frames :
    track.body .circuit 0 = some [0, 6, 4, 3, 2] ∧
    track.body .zone 1 = some [1, 1, 3, 0, 0, 1, 0xFF, 0xFF, 0xFF, 0xFF, 0, 100, 1, 2] ∧
    track.body .zone 2 = some [1, 2, 6, 0, 0xFF, 0xFF, 0, 10, 0, 50, 0xFF, 0xFF, 0xFF, 0xFF] ∧
    track.body .gate 6 = some [2, 6, 5, 0, 1, 2] ∧ track.body .switch 0 = some [4, 0, 4, 1, 4, 5, 2, 1, 244] ∧
    (ready.nextFrame .console (.layoutRecord .switch 0 (some [4, 0, 4, 1, 4, 5, 2, 1, 244]))).body = [4, 0, 4, 1, 4, 5, 2, 1, 244] := by
  decide
/-- A node remapped between the taking and the sending: the frame shows the address held at the taking (R13). -/
theorem test_layout_record_as_taken :
    let taken := after (.readLayoutRecord .console 1 3 1) ready
    let remapped : State := { taken with layout := { track with nodes := track.nodes.put 1 9 } }
    remapped.layout.body .node 1 = some [3, 1, 9] ∧
      (said .console remapped).map (fun a => (remapped.nextFrame .console a).body) = some [3, 1, 2] := by decide

theorem witness_EnterConfigDiscardsTheLiveTables : Allowed (.enterConfig .console 1) State.reset := ⟨_, _, rfl, ⟨rfl, rfl, .inl rfl⟩, rfl⟩
theorem witness_LayoutRecordsLoadInConfig : Allowed (.loadLayoutRecord .console 1 3 [4, 9]) loaded := ⟨_, _, rfl, ⟨rfl, rfl, .inl rfl⟩, rfl⟩
/-- Images at the ends of the ranges, and one past them. -/
theorem witness_LayoutRecordsLoadInConfig_images :
    recordOfImage 0 [2, 0, 0, 0] = some (.circuit ⟨2, 4, 3, 2⟩) ∧ recordOfImage 0 [32, 15, 7, 7] = some (.circuit ⟨32, 15, 7, 7⟩) ∧
    recordOfImage 0 [33, 0, 0, 0] = none ∧
    recordOfImage 1 [31, 3, 3, 23, 1, 9, 9, 9, 9, 0, 100, 3, 47] = some (.zone 31 ⟨.launch 100 3 47, 3, some (23, 1)⟩) ∧
    recordOfImage 1 [31, 3, 3, 23, 1, 9, 9, 9, 9, 0, 99, 3, 47] = none ∧
    recordOfImage 1 [0, 6, 0, 0xFF, 0xFF, 1, 2, 3, 4, 0, 0, 9, 99] = some (.zone 0 ⟨.run 258 772, 0, none⟩) ∧
    recordOfImage 1 [0, 6, 0, 0, 0xFF, 1, 2, 3, 4, 0, 0, 9, 99] = none ∧ recordOfImage 1 [0, 7, 0, 0, 0, 1, 2, 3, 4, 0, 0, 9, 99] = none ∧
    recordOfImage 2 [47, 31, 31, 23, 3] = some (.gate 47 ⟨31, 31, 23, 3⟩) ∧ recordOfImage 2 [48, 31, 31, 23, 3] = none ∧
    recordOfImage 3 [23, 31] = some (.node 23 31) ∧ recordOfImage 3 [23, 32] = none ∧ recordOfImage 3 [23] = none ∧
    recordOfImage 4 [3, 31, 1, 47, 47, 23, 1, 244] = some (.switch 3 ⟨31, .exit, 47, 47, 23, 500⟩) ∧
    recordOfImage 4 [3, 31, 1, 47, 47, 23, 1, 243] = none ∧ recordOfImage 5 [] = none := by decide

theorem witness_CommitLayoutBuildsTheLiveTables : Allowed (.commitLayout .console 1) loaded := ⟨_, _, rfl, ⟨rfl, rfl, .inl rfl⟩, rfl⟩
theorem track_canonical : track.Canonical := (canonical_of_check (s := ready) (by decide)).layout

/-- A layout in canonical form that fails each check. -/
theorem witness_CommitLayoutBuildsTheLiveTables_checks :
    ({ track with circuit := none } : Layout).invalid = some ⟨1, .circuit, 0⟩ ∧
    ({ track with zones := track.zones.del 5 } : Layout).invalid = some ⟨1, .zone, 5⟩ ∧
    ({ track with gates := track.gates.put 47 ⟨5, 6, 1, 3⟩ } : Layout).invalid = some ⟨2, .gate, 47⟩ ∧
    ({ track with gates := track.gates.upd 6 (fun r => { r with channel := 1 }) } : Layout).invalid = some ⟨3, .gate, 6⟩ ∧
    ({ track with nodes := track.nodes.put 9 3 } : Layout).invalid = some ⟨3, .node, 9⟩ ∧
    ({ track with gates := track.gates.put 7 ⟨1, 0, 1, 3⟩ } : Layout).invalid = some ⟨4, .zone, 0⟩ ∧
    ({ track with switches := [] } : Layout).invalid = some ⟨5, .zone, 4⟩ ∧
    ({ track with switches := track.switches.put 1 ⟨3, .exit, 4, 5, 1, 500⟩ } : Layout).invalid = some ⟨5, .switch, 1⟩ ∧
    ({ track with zones := track.zones.upd 5 (fun r => { r with permit := none }) } : Layout).invalid = some ⟨6, .zone, 5⟩ ∧
    ({ track with zones := track.zones.upd 1 (fun r => { r with spec := .launch 100 1 1 }) } : Layout).invalid = some ⟨8, .zone, 1⟩ ∧
    ({ track with zones := track.zones.upd 2 (fun r => { r with spec := .run 50 50 }) } : Layout).invalid = some ⟨10, .zone, 2⟩ := by decide
/-- Two zones in a ring: a station whose extension returns to it, and no stoppable zone at all. -/
theorem witness_CommitLayoutBuildsTheLiveTables_rings :
    let ring : Layout := ⟨some ⟨2, 4, 3, 2⟩, [(0, ⟨.station, 0, some (0, 0)⟩), (1, ⟨.run 1 2, 0, none⟩)],
      [(0, ⟨0, 1, 0, 0⟩), (1, ⟨1, 0, 0, 1⟩)], [(0, 1)], []⟩
    ring.invalid = some ⟨7, .zone, 0⟩ ∧
      ({ ring with zones := [(0, ⟨.run 1 2, 0, none⟩), (1, ⟨.run 1 2, 0, none⟩)] } : Layout).invalid = some ⟨9, .circuit, 0⟩ := by decide

theorem witness_RemapNodeNeedsItsZonesOutOfUse : Allowed (.remapNode .console 1 2 7) serviced := ⟨_, _, rfl, ⟨rfl, rfl, .inl rfl⟩, rfl⟩
/-- A node with an address, one with address 0 and one without a record; the zones a node serves, through a gate or a permit. -/
theorem witness_RemapNodeNeedsItsZonesOutOfUse_zones :
    track.Canonical ∧ track.mapped 0 = true ∧ ({ track with nodes := [(0, 0)] } : Layout).mapped 0 = false ∧ track.mapped 3 = false ∧
      track.affectedZones 1 = [0, 3, 4, 5] ∧ track.affectedZones 2 = [5] ∧ track.affectedZones 3 = [] :=
  ⟨track_canonical, by decide⟩
theorem witness_WithdrawTrainRemovesAStandingTrain : Allowed (.withdrawTrain .console 1 1) serviced := ⟨_, _, rfl, ⟨rfl, rfl, .inl rfl⟩, rfl⟩
theorem witness_RelocateTrainSeatsItWhereDeclared : Allowed (.relocateTrain .console 1 1 3) serviced := ⟨_, _, rfl, ⟨rfl, rfl, .inl rfl⟩, rfl⟩
theorem witness_DispatchEntersAClaim : Allowed (.dispatch .console 1 1) ready := ⟨_, _, rfl, ⟨rfl, rfl, .inl rfl⟩, rfl⟩
theorem witness_CancelDispatchTakesBackAPendingClaim : Allowed (.cancelDispatch .console 1 1) waiting := ⟨_, _, rfl, ⟨rfl, rfl, .inl rfl⟩, rfl⟩
theorem witness_StepTrainGivesAStepGrant : Allowed (.stepTrain .console 1 1) serviced := ⟨_, _, rfl, ⟨rfl, rfl, .inl rfl⟩, rfl⟩
theorem witness_RelaunchRestoresAStrandedTrain : Allowed (.relaunch .console 1 1) ready := ⟨_, _, rfl, ⟨rfl, rfl, .inl rfl⟩, rfl⟩
theorem witness_SetSwitchNeedsAnUnheldZone : Allowed (.setSwitch .console 1 0 1) ready := ⟨_, _, rfl, ⟨rfl, rfl, .inl rfl⟩, rfl⟩
theorem witness_ResumeGroupReleasesItsHolds : Allowed (.resumeGroup .console 1 3) serviced := ⟨_, _, rfl, ⟨rfl, rfl, .inl rfl⟩, rfl⟩
theorem witness_AssignIndicatorDrivesTheLine : Allowed (.assignIndicator .console 1 7 0 5 0) ready := ⟨_, _, rfl, ⟨rfl, rfl, .inl rfl⟩, rfl⟩
theorem witness_ClearLayoutEmptiesTheTable :
    Allowed (.clearLayout .console 1) loaded ∧ Layout.empty.circuit = none ∧
    (∃ c z, ({ track with zones := track.zones.del 5 } : Layout).circuit = some c ∧ z < c.zoneCount ∧ z < 32 ∧
      ({ track with zones := track.zones.del 5 } : Layout).zones.find z = none) ∧
    Allowed (.commitLayout .console 1) { loaded with layout := .empty } :=
  ⟨⟨_, _, rfl, ⟨rfl, rfl, .inl rfl⟩, rfl⟩, rfl, ⟨_, 5, rfl, by decide⟩, ⟨_, _, rfl, ⟨rfl, rfl, .inl rfl⟩, rfl⟩⟩
theorem witness_TheStoreTakesTheCommittedLayout :
    Allowed (.storeLayout .console 1) ready ∧ (after (.storeLayout .console 1) ready).resetPin = false := ⟨⟨_, _, rfl, ⟨rfl, rfl, .inl rfl⟩, rfl⟩, by decide⟩
theorem witness_EraseStoreMakesTheStoreInvalid :
    Allowed (.eraseStore .console 1) serviced ∧ ready.store.state = .invalid ∧ ready.live = true ∧
      Allowed (.storeLayout .console 1) ready := ⟨⟨_, _, rfl, ⟨rfl, rfl, .inl rfl⟩, rfl⟩, rfl, rfl, ⟨_, _, rfl, ⟨rfl, rfl, .inl rfl⟩, rfl⟩⟩
theorem witness_PlaceTrainSeatsANewTrain :
    State.reset.emptySlot = some 1 ∧
    ({ ready with trains := (List.range 11).map (fun i => (i + 1, ⟨0, .standing, .none, [0], 0, false⟩)) } : State).emptySlot = some 12 ∧
    Allowed (.placeTrain .console 1 8 5) serviced := ⟨by decide, by decide, ⟨_, _, rfl, ⟨rfl, rfl, .inl rfl⟩, rfl⟩⟩

/-- Twelve records and no slot empty; a SET switch, one that is not, and a zone without one. -/
theorem witness_PlaceTrainSeatsANewTrain_slots :
    ({ ready with trains := (List.range 12).map (fun i => (i + 1, ⟨0, .standing, .none, [0], 0, false⟩)) } : State).emptySlot = none ∧
    ready.layout.Canonical ∧ track.stoppableCount = 5 ∧ ready.switchSet 4 = true ∧ ready.switchSet 3 = true ∧
    ({ ready with switches := [(0, ⟨.unproven, .idle⟩)] } : State).switchSet 4 = false :=
  ⟨by decide, track_canonical, by decide⟩

/-- A census with every condition of BEGIN OPERATION met. -/
def begun : State := { ready with circuit := .census }

/-! What each condition says, so that it can be decided. -/

theorem condition_1 {s : State} : s.beginCondition 1 ↔ s.circuit = .census := Iff.rfl
theorem condition_2 {s : State} : s.beginCondition 2 ↔ ∀ e, e ∈ s.zones → e.2.state ≠ .suspect := Iff.rfl
theorem condition_3 {s : State} :
    s.beginCondition 3 ↔ ∀ e, e ∈ s.nodes → s.layout.mapped e.1 = true → s.linked e.1 = true := Iff.rfl
theorem condition_4 {s : State} :
    s.beginCondition 4 ↔ ∀ e, e ∈ s.switches → (switchPosition s.switches e.1).isSome = true := Iff.rfl
theorem condition_5 {s : State} : s.beginCondition 5 ↔ ∀ e, e ∈ s.trains → e.2.motion ≠ .untracked := Iff.rfl
theorem condition_6 {s : State} : s.beginCondition 6 ↔ s.causes = ⟨false, false, false, false⟩ := Iff.rfl
theorem condition_7 {s : State} : s.beginCondition 7 ↔ ∀ a, a ∈ s.anomalies → a.acked = true := Iff.rfl

theorem conditions_below {s : State} (k : Nat) (h1 : 1 < k → s.beginCondition 1) (h2 : 2 < k → s.beginCondition 2)
    (h3 : 3 < k → s.beginCondition 3) (h4 : 4 < k → s.beginCondition 4) (h5 : 5 < k → s.beginCondition 5)
    (h6 : 6 < k → s.beginCondition 6) (h7 : 7 < k → s.beginCondition 7) : ∀ d, 1 ≤ d → d < k → s.beginCondition d
  | 1, _, h => h1 h
  | 2, _, h => h2 h
  | 3, _, h => h3 h
  | 4, _, h => h4 h
  | 5, _, h => h5 h
  | 6, _, h => h6 h
  | 7, _, h => h7 h
  | _ + 8, _, _ => trivial

theorem witness_BeginOperationNeedsSevenConditions :
    Allowed (.beginOperation .console 1) begun ∧ (∀ c, 1 ≤ c → c < 8 → begun.beginCondition c) :=
  ⟨⟨_, _, rfl, ⟨rfl, rfl, .inl rfl⟩, rfl⟩, conditions_below 8 (fun _ => condition_1.2 (by decide)) (fun _ => condition_2.2 (by decide)) (fun _ => condition_3.2 (by decide)) (fun _ => condition_4.2 (by decide)) (fun _ => condition_5.2 (by decide)) (fun _ => condition_6.2 (by decide)) (fun _ => condition_7.2 (by decide))⟩
theorem witness_BeginOperation_condition_1 : let s : State := ready
    Allowed (.beginOperation .console 1) s ∧ ¬ s.beginCondition 1 ∧ ∀ d, 1 ≤ d → d < 1 → s.beginCondition d :=
  ⟨⟨_, _, rfl, ⟨rfl, rfl, .inl rfl⟩, rfl⟩, fun h => absurd (condition_1.1 h) (by decide),
   conditions_below 1 (fun h => absurd h (by decide)) (fun h => absurd h (by decide)) (fun h => absurd h (by decide)) (fun h => absurd h (by decide)) (fun h => absurd h (by decide)) (fun h => absurd h (by decide)) (fun h => absurd h (by decide))⟩
theorem witness_BeginOperation_condition_2 : let s : State := { counted with trains := ready.trains }
    Allowed (.beginOperation .console 1) s ∧ ¬ s.beginCondition 2 ∧ ∀ d, 1 ≤ d → d < 2 → s.beginCondition d :=
  ⟨⟨_, _, rfl, ⟨rfl, rfl, .inl rfl⟩, rfl⟩, fun h => absurd (condition_2.1 h) (by decide),
   conditions_below 2 (fun _ => condition_1.2 (by decide)) (fun h => absurd h (by decide)) (fun h => absurd h (by decide)) (fun h => absurd h (by decide)) (fun h => absurd h (by decide)) (fun h => absurd h (by decide)) (fun h => absurd h (by decide))⟩
theorem witness_BeginOperation_condition_3 : let s : State := { begun with nodes := begun.nodes.upd 2 (fun x => { x with state := .down }) }
    Allowed (.beginOperation .console 1) s ∧ ¬ s.beginCondition 3 ∧ ∀ d, 1 ≤ d → d < 3 → s.beginCondition d :=
  ⟨⟨_, _, rfl, ⟨rfl, rfl, .inl rfl⟩, rfl⟩, fun h => absurd (condition_3.1 h) (by decide),
   conditions_below 3 (fun _ => condition_1.2 (by decide)) (fun _ => condition_2.2 (by decide)) (fun h => absurd h (by decide)) (fun h => absurd h (by decide)) (fun h => absurd h (by decide)) (fun h => absurd h (by decide)) (fun h => absurd h (by decide))⟩
theorem witness_BeginOperation_condition_4 : let s : State := { begun with switches := [(0, ⟨.unproven, .idle⟩)] }
    Allowed (.beginOperation .console 1) s ∧ ¬ s.beginCondition 4 ∧ ∀ d, 1 ≤ d → d < 4 → s.beginCondition d :=
  ⟨⟨_, _, rfl, ⟨rfl, rfl, .inl rfl⟩, rfl⟩, fun h => absurd (condition_4.1 h) (by decide),
   conditions_below 4 (fun _ => condition_1.2 (by decide)) (fun _ => condition_2.2 (by decide)) (fun _ => condition_3.2 (by decide)) (fun h => absurd h (by decide)) (fun h => absurd h (by decide)) (fun h => absurd h (by decide)) (fun h => absurd h (by decide))⟩
theorem witness_BeginOperation_condition_5 : let s : State := withTrain (fun r => { r with motion := .untracked }) begun
    Allowed (.beginOperation .console 1) s ∧ ¬ s.beginCondition 5 ∧ ∀ d, 1 ≤ d → d < 5 → s.beginCondition d :=
  ⟨⟨_, _, rfl, ⟨rfl, rfl, .inl rfl⟩, rfl⟩, fun h => absurd (condition_5.1 h) (by decide),
   conditions_below 5 (fun _ => condition_1.2 (by decide)) (fun _ => condition_2.2 (by decide)) (fun _ => condition_3.2 (by decide)) (fun _ => condition_4.2 (by decide)) (fun h => absurd h (by decide)) (fun h => absurd h (by decide)) (fun h => absurd h (by decide))⟩
theorem witness_BeginOperation_condition_6 : let s : State := { begun with causes := ⟨false, false, true, false⟩ }
    Allowed (.beginOperation .console 1) s ∧ ¬ s.beginCondition 6 ∧ ∀ d, 1 ≤ d → d < 6 → s.beginCondition d :=
  ⟨⟨_, _, rfl, ⟨rfl, rfl, .inl rfl⟩, rfl⟩, fun h => absurd (condition_6.1 h) (by decide),
   conditions_below 6 (fun _ => condition_1.2 (by decide)) (fun _ => condition_2.2 (by decide)) (fun _ => condition_3.2 (by decide)) (fun _ => condition_4.2 (by decide)) (fun _ => condition_5.2 (by decide)) (fun h => absurd h (by decide)) (fun h => absurd h (by decide))⟩
theorem witness_BeginOperation_condition_7 : let s : State := { begun with anomalies := [alarm] }
    Allowed (.beginOperation .console 1) s ∧ ¬ s.beginCondition 7 ∧ ∀ d, 1 ≤ d → d < 7 → s.beginCondition d :=
  ⟨⟨_, _, rfl, ⟨rfl, rfl, .inl rfl⟩, rfl⟩, fun h => absurd (condition_7.1 h) (by decide),
   conditions_below 7 (fun _ => condition_1.2 (by decide)) (fun _ => condition_2.2 (by decide)) (fun _ => condition_3.2 (by decide)) (fun _ => condition_4.2 (by decide)) (fun _ => condition_5.2 (by decide)) (fun _ => condition_6.2 (by decide)) (fun h => absurd h (by decide))⟩

theorem witness_BeginOperation_items :
    ({ counted with trains := ready.trains } : State).Canonical ∧
    ({ begun with nodes := begun.nodes.upd 2 (fun x => { x with state := .down }) } : State).Canonical ∧
    ({ begun with switches := [(0, ⟨.unproven, .idle⟩)] } : State).Canonical ∧
    (withTrain (fun r => { r with motion := .untracked }) begun).Canonical :=
  ⟨canonical_of_check (by decide), canonical_of_check (by decide), canonical_of_check (by decide), canonical_of_check (by decide)⟩

/-- A transfer zone with fork side ENTRY, where two zones join. -/
def joined : Layout :=
  { track with
    gates := [(0, ⟨0, 4, 0, 0⟩), (1, ⟨5, 4, 0, 1⟩), (2, ⟨4, 0, 0, 2⟩)]
    switches := [(0, ⟨4, .entry, 0, 1, 2, 500⟩)] }

theorem joined_canonical : joined.Canonical :=
  (canonical_of_check (s := { ready with layout := joined }) (by decide)).layout

/-- Extensions of one zone and of two, over the MAIN and the BRANCH gate, and none: from a RUN zone, and from a zone whose switch is not
SET. -/
theorem witness_AGrantReservesTheWholeExtension :
    ready.layout.Canonical ∧ ready.extension 0 = some [(1, 0)] ∧ ready.extension 1 = some [(2, 1), (3, 2)] ∧ ready.extension 2 = none ∧
    ready.extension 4 = some [(0, 4)] ∧ ({ ready with switches := [(0, ⟨.setBranch, .idle⟩)] } : State).extension 4 = some [(5, 5)] ∧
    ({ ready with switches := [(0, ⟨.faulted, .idle⟩)] } : State).extension 4 = none ∧ (track.LeftBy ready.switches 0 0) ∧
    track.Route 1 [(2, 1), (3, 2)] :=
  ⟨track_canonical, by decide, by decide, by decide, by decide, by decide, by decide,
   (currentExitGate_iff track_canonical _ _ _).mp (by decide), (walk_route track_canonical _ _).mp (by decide)⟩
/-- Both fork sides, SET at either position and not SET. -/
theorem witness_AGrantReservesTheWholeExtension_connects :
    track.Switched 4 0 ⟨4, .exit, 4, 5, 2, 500⟩ ∧ joined.Switched 4 0 ⟨4, .entry, 0, 1, 2, 500⟩ ∧ joined.Canonical ∧
    track.connects [(0, ⟨.setMain, .idle⟩)] 3 4 = true ∧ track.connects [(0, ⟨.setBranch, .idle⟩)] 3 4 = true ∧
    track.connects [(0, ⟨.unproven, .idle⟩)] 3 4 = false ∧ track.connects [(0, ⟨.moving .main, .idle⟩)] 3 4 = false ∧
    track.connects [(0, ⟨.faulted, .idle⟩)] 3 4 = false ∧
    joined.connects [(0, ⟨.setMain, .idle⟩)] 0 4 = true ∧ joined.connects [(0, ⟨.setMain, .idle⟩)] 1 4 = false ∧
    joined.connects [(0, ⟨.setBranch, .idle⟩)] 1 4 = true :=
  ⟨(switchOf_iff track_canonical ..).mp (by decide), (switchOf_iff joined_canonical ..).mp (by decide), joined_canonical, by decide⟩
/-- The serving nodes of a zone, and a zone whose permit node is not LINKED. -/
theorem witness_SetServiceTakesOnlyUnheldZones_nodes :
    ready.layout.Canonical ∧ track.servingNodes 5 = [1, 1, 2] ∧ ready.nodesLinked 5 = true ∧
      ({ ready with nodes := ready.nodes.upd 2 (fun x => { x with state := .down }) } : State).nodesLinked 5 = false :=
  ⟨track_canonical, by decide⟩
theorem witness_SetServiceTakesOnlyUnheldZones :
    Allowed (.setServiceOff .console 1 3 0) ready ∧ (0 : Byte) ≠ 1 ∧ Allowed (.setServiceOn .console 1 1) waiting := ⟨⟨_, _, rfl, ⟨rfl, rfl, .inl rfl⟩, rfl⟩, by decide, ⟨_, _, rfl, ⟨rfl, rfl, .inl rfl⟩, rfl⟩⟩
theorem witness_ClearingFreesUnheldSuspectZones :
    Allowed (.clearZone .console 1 3) ready ∧ Allowed (.clearUnheldZones .console 1) counted := ⟨⟨_, _, rfl, ⟨rfl, rfl, .inl rfl⟩, rfl⟩, ⟨_, _, rfl, ⟨rfl, rfl, .inl rfl⟩, rfl⟩⟩
theorem witness_PositionReportsProveMoveOrDrift : ready.switches.find 0 = some ⟨.setMain, .idle⟩ := rfl
/-- Drift under a held zone, from either position. -/
theorem witness_PositionReportsProveMoveOrDrift_held :
    homing.switches.find 0 = some ⟨.setMain, .idle⟩ ∧ homing.holder 4 ≠ none ∧ Report.unknown ≠ .main ∧
    (homing.takeReport 0 ⟨4, .exit, 4, 5, 2, 500⟩ .unknown).zoneState 4 = some .suspect ∧
    (let s := { homing with switches := [(0, ⟨.setBranch, .idle⟩)] }
     s.switches.find 0 = some ⟨.setBranch, .idle⟩ ∧ s.holder 4 ≠ none ∧
       (s.takeReport 0 ⟨4, .exit, 4, 5, 2, 500⟩ .main).motion 1 = some .untracked) := by decide
theorem witness_AnExpiredMoveFaultsTheSwitch : ready.resetPin = false := rfl
theorem witness_HaltStopsALiveCircuit : Asked (.halt .supervisor 1) ready := ⟨_, _, rfl, rfl, rfl, .inl rfl⟩
theorem witness_AcknowledgedEntriesGoWhenResolved :
    Allowed (.acknowledgeAnomaly .console 1 3 2) ready ∧ Allowed (.acknowledgeAll .console 1) ready := ⟨⟨_, _, rfl, ⟨rfl, rfl, .inl rfl⟩, rfl⟩, ⟨_, _, rfl, ⟨rfl, rfl, .inl rfl⟩, rfl⟩⟩
/-- An acknowledged entry whose condition holds goes; one whose condition does not hold, and one not acknowledged, stay. -/
theorem test_sweep :
    ({ ready with anomalies := [{ alarm with acked := true }, ⟨.switchFault, 0, true, true, 0, 1⟩, ⟨.sequenceFault, 1, true, false, 0, 2⟩,
        ⟨.nodeLost, 5, true, true, 0, 3⟩] } : State).sweep.anomalies.map (fun a => a.serial) = [2, 3] := by decide
theorem witness_AuthorityChangesByTheTable :
    Asked (.takeAuthority .console 1) ready ∧ Asked (.fixSupervisor .supervisor 1) ready ∧ Asked (.handToConsole .supervisor 1) ready :=
  ⟨⟨_, _, rfl, rfl, rfl, .inl rfl⟩, ⟨_, _, rfl, rfl, rfl, .inl rfl⟩, ⟨_, _, rfl, rfl, rfl, .inl rfl⟩⟩
theorem witness_ReleaseIndicatorUnassignsTheLine :
    Asked (.releaseIndicator .console 1 7) ready ∧ ready.authority.heldBy .console = true ∧ (7 : Byte).toNat < 8 :=
  ⟨⟨_, _, rfl, rfl, rfl, .inl rfl⟩, rfl, by decide⟩
theorem witness_PollsCarryPermitsAndSwitchCommand :
    ready.resetPin = false ∧ ready.nextPolled = some 0 ∧ ({ ready with polled := some 0 } : State).nextPolled = some 1 ∧
      ({ ready with polled := some 2 } : State).nextPolled = some 0 ∧ ready.Canonical :=
  ⟨rfl, by decide, by decide, by decide, canonical_of_check (by decide)⟩
theorem witness_AnswersAreCountedAndTaken :
    (after .pollSend ready).resetPin = false ∧ (after .pollSend ready).poll.isSome = true ∧
      ready.nodes.find 0 = some ⟨.linked, 0, 0, none⟩ := by decide
set_option maxRecDepth 100000 in
/-- Answers with a count of 5; of 4, not at its end; of 0, with a wrong check and with the right one; and with two events, the second of
channel 3. -/
theorem witness_AnswersAreCountedAndTaken_bytes :
    (0x96 : Byte) ∉ [1, 2] ∧ ([1, 2] : List Byte).length < 3 ∧
    4 < (5 : Byte).toNat ∧ ([0, 1, 0, 1, 0, 1, 0, 1] : List Byte).length < 2 * (4 : Byte).toNat + 1 ∧
    lineAnswer 1 ([1, 2] ++ 0x96 :: [1, 3, 5]) = .miss ∧
    lineAnswer 1 ([1, 2] ++ 0x96 :: [1, 3, 4, 0, 1, 0, 1, 0, 1, 0, 1]) = .incomplete ∧
    lineAnswer 1 (0x96 :: [1, 3, 0, 0]) = .miss ∧
    lineAnswer 1 (0x96 :: [1, 3, 0] ++ [crc8 [1, 3, 0]]) = .good .unknown [] ∧
    lineAnswer 31 (0x96 :: [31, 0, 2, 0x0F, 1, 0x30, 4] ++ [crc8 [31, 0, 2, 0x0F, 1, 0x30, 4]]) =
      .good .main [⟨15, 0, .fwdHead⟩, ⟨0, 3, .revTail⟩] := by decide
theorem witness_AGapInSequenceDiscardsTheRest : ready.nodes.find 0 = some ⟨.linked, 0, 0, none⟩ := rfl
/-- Train 1 with its head in the brake and its tail still in the run zone. -/
def arriving : State :=
  { launching with
    zones := [(0, open_), (1, open_), (2, ⟨.occupied, some 1, false, .idle⟩), (3, ⟨.occupied, some 1, false, .idle⟩), (4, open_), (5, open_)]
    trains := [(1, ⟨7, .moving, .none, [2, 3], 0, false⟩)] }

theorem witness_EventsAreReadAgainstTheirTrain :
    2 ∉ [1] ∧ entryAfter ([1] ++ 2 :: 3 :: []) 2 = some 3 ∧ entryAfter ([1] ++ [2]) 2 = none ∧ entryAfter [1] 2 = none := by decide

theorem witness_ExpectedEventsAdvanceTheTrain :
    launching.circuit = .operating ∧ launching.classify .fwdHead 2 3 = .advance 1 ∧ launching.holder 3 = some 1 ∧
    launching.classify .fwdTail 1 2 = .leave 1 ∧ launching.layout.kindOf 1 = some .launch ∧
    launching.head 1 = launching.layout.zoneAbove 1 ∧
    arriving.classify .fwdTail 2 3 = .leave 1 ∧ arriving.layout.kindOf 2 ≠ some .launch := by decide

/-- The conditions that the four handovers ask of a state. -/
def Sound (s : State) : Prop := s.Canonical ∧ s.Interlock ∧ s.HoldLists

theorem sound_of_check {s : State} (h : canonical s = true) (k : interlocked s = true) : Sound s :=
  ⟨canonical_of_check h, interlock_of_check k, holdLists_of_check k⟩

/-- Into a RUN zone; into a stoppable course zone over the crest; into a yard zone. -/
theorem witness_ExpectedEvents_fwdHead :
    (Sound cleared ∧ cleared.classify .fwdHead 1 2 = .advance 1 ∧ cleared.layout.stoppable 2 = false) ∧
    (Sound climbing ∧ climbing.classify .fwdHead 2 3 = .advance 1 ∧ climbing.crestOf 2 1 = some 1 ∧
      climbing.layout.stoppableCourse 3 = true ∧ climbing.trains.find 1 = some ⟨7, .moving, .granted, [1, 2, 3], 0, false⟩) ∧
    (let s := { homing with
       zones := homing.zones.upd 0 (fun x => { x with state := .reserved })
       trains := [(1, ⟨7, .moving, .granted, [4, 0], 0, false⟩)] }
     Sound s ∧ s.classify .fwdHead 4 0 = .advance 1 ∧ s.layout.yard 0 = true) :=
  ⟨⟨sound_of_check (by decide) (by decide), by decide, by decide⟩,
   ⟨sound_of_check (by decide) (by decide), by decide, by decide, by decide, by decide⟩,
   ⟨sound_of_check (by decide) (by decide), by decide, by decide⟩⟩

/-- Out of the launch before the crest, rocking too, and after it; out of a zone into a brake with a claim waiting, and into the station. -/
theorem witness_ExpectedEvents_fwdTail :
    (Sound launching ∧ launching.classify .fwdTail 1 2 = .leave 1 ∧ launching.head 1 = launching.layout.zoneAbove 1) ∧
    (let s := withTrain (fun r => { r with motion := .recovering }) launching
     Sound s ∧ s.classify .fwdTail 1 2 = .leave 1 ∧ s.motion 1 = some .recovering) ∧
    (Sound long ∧ long.classify .fwdTail 1 2 = .leave 1 ∧ long.head 1 ≠ long.layout.zoneAbove 1) ∧
    (let s := withTrain (fun r => { r with claim := .pending }) arriving
     Sound s ∧ s.classify .fwdTail 2 3 = .leave 1 ∧ [3].filter (fun z => !s.isReserved z) = [3]) ∧
    (Sound homing ∧ homing.classify .fwdTail 4 0 = .leave 1 ∧ homing.layout.yard 0 = true) :=
  ⟨⟨sound_of_check (by decide) (by decide), by decide, by decide⟩,
   ⟨sound_of_check (by decide) (by decide), by decide, by decide⟩,
   ⟨sound_of_check (by decide) (by decide), by decide, by decide⟩,
   ⟨sound_of_check (by decide) (by decide), by decide, by decide⟩,
   ⟨sound_of_check (by decide) (by decide), by decide, by decide⟩⟩

/-- Back into the launch; and a rollback within the limit and at it. -/
theorem witness_ExpectedEvents_reverse :
    (Sound climbing ∧ climbing.classify .revHead 1 2 = .reverse 1) ∧
    (Sound launching ∧ launching.classify .revTail 1 2 = .rollback 1 ∧ launching.layout.launchOf 1 = some (100, 1, 2)) ∧
    (let s := withTrain (fun r => { r with relaunches := 1 }) launching
     Sound s ∧ s.classify .revTail 1 2 = .rollback 1) :=
  ⟨⟨sound_of_check (by decide) (by decide), by decide⟩, ⟨sound_of_check (by decide) (by decide), by decide, by decide⟩,
   ⟨sound_of_check (by decide) (by decide), by decide⟩⟩
theorem witness_EventsThatDoNotFitStopTheCircuit :
    ready.circuit = .operating ∧ ready.classify .fwdHead 3 4 = .phantom ∧ ready.classify .fwdHead 0 1 = .unexpected 1 ∧
      launching.classify .fwdHead 2 4 = .wrongFork 1 ∧ launching.classify .fwdHead 1 2 = .fault 1 ∧
      (withTrain (fun r => { r with motion := .untracked }) ready).classify .fwdHead 0 1 = .untrackedSubject 1 ∧
      counted.circuit = .census := by decide
/-- The four kinds of event that do not fit, in states where the interlock holds. -/
theorem witness_EventsThatDoNotFit_interlocked :
    (ready.Interlock ∧ ready.classify .fwdHead 3 4 = .phantom ∧ ready.classify .revHead 1 2 = .phantom ∧
      ready.classify .fwdHead 0 1 = .unexpected 1) ∧
    (launching.Interlock ∧ launching.classify .fwdHead 2 4 = .wrongFork 1 ∧ launching.classify .fwdHead 1 2 = .fault 1) ∧
    (withTrain (fun r => { r with motion := .untracked }) ready).Interlock :=
  ⟨⟨interlock_of_check (by decide), by decide, by decide, by decide⟩, ⟨interlock_of_check (by decide), by decide, by decide⟩,
   interlock_of_check (by decide)⟩
theorem witness_ExpiriesStrandTheHolder : (after .timebaseTick late).resetPin = false := by decide
theorem witness_EachMillisecondAdvancesTheTimers : late.resetPin = false ∧ late.live = true := ⟨rfl, rfl⟩
theorem witness_ZoneClaimsActOnlyOnTheirTrainsZones :
    launching.trains.find 1 = some ⟨7, .moving, .granted, [1, 2, 3], 0, false⟩ ∧ launching.holder 1 = some 1 ∧
      [1, 2, 3].filter (fun y => decide (y ≠ 1)) ≠ [] ∧ launching.holder 0 ≠ some 1 ∧
      ready.trains.find 1 = some ⟨7, .standing, .none, [0], 0, false⟩ ∧ [0].filter (fun y => decide (y ≠ 0)) = [] := by decide
/-- A hold list in the order of R54, and one that is not; a switch that moves, and one that does not. -/
theorem witness_HoldListsStayInOrder_order :
    launching.stale [1, 2, 3] = [] ∧ launching.stale [3, 1] = [3] ∧ launching.zoneState 3 = some .reserved := by decide
theorem witness_AMovingSwitchHasNoTrainOnIt_moving :
    ready.layout.Canonical ∧ ready.switchMoving 4 = false ∧
      ({ ready with switches := [(0, ⟨.moving .branch, .running 0⟩)] } : State).switchMoving 4 = true := ⟨track_canonical, by decide⟩
theorem witness_ThePermitIsGoOnlyOverReservedTrack :
    (after (.dispatch .console 1 1) ready).permit 0 = some true ∧ ready.permit 0 = some false ∧ ready.permit 2 = none ∧
      (ready.zones.find 0).isSome = true ∧ (ready.zones.find 2).isSome = true := by decide

/-! A state with a train and a command waiting that meets every condition the steps keep. -/

/-- The circuit in OPERATING with DISPATCH waiting for train 1. -/
def running : State := State.settle { ready with pending := [.dispatch .console 1 1] }

theorem running_step : ∃ t, step running = .next t := ⟨_, rfl⟩

theorem running_zone {z : Nat} {x : Zone} (h : running.zones.find z = some x) : z < 6 ∧ (z = 0 ∧ x = ⟨.occupied, some 1, false, .idle⟩ ∨ x = open_) := by
  match z with
  | 0 => cases h; exact ⟨by decide, .inl ⟨rfl, rfl⟩⟩
  | 1 => cases h; exact ⟨by decide, .inr rfl⟩
  | 2 => cases h; exact ⟨by decide, .inr rfl⟩
  | 3 => cases h; exact ⟨by decide, .inr rfl⟩
  | 4 => cases h; exact ⟨by decide, .inr rfl⟩
  | 5 => cases h; exact ⟨by decide, .inr rfl⟩
  | n + 6 => cases h

theorem running_train {t : Nat} {r : Train} (h : running.trains.find t = some r) : t = 1 ∧ r = ⟨7, .standing, .none, [0], 0, false⟩ := by
  match t with
  | 0 => cases h
  | 1 => cases h; exact ⟨rfl, rfl⟩
  | n + 2 => cases h

theorem running_holder {z t : Nat} : running.holder z = some t ↔ z = 0 ∧ t = 1 := by
  match z with
  | 0 => exact ⟨fun h => ⟨rfl, (Option.some.inj h).symm⟩, fun h => by rw [h.2]; rfl⟩
  | 1 => exact ⟨fun h => (by cases h), fun h => (by cases h.1)⟩
  | 2 => exact ⟨fun h => (by cases h), fun h => (by cases h.1)⟩
  | 3 => exact ⟨fun h => (by cases h), fun h => (by cases h.1)⟩
  | 4 => exact ⟨fun h => (by cases h), fun h => (by cases h.1)⟩
  | 5 => exact ⟨fun h => (by cases h), fun h => (by cases h.1)⟩
  | n + 6 => exact ⟨fun h => (by cases h), fun h => (by cases h.1)⟩

/-- RESET asserted, a tick waiting. -/
def held : State := State.settle { ready with resetPin := true, pending := [.timebaseTick] }

/-- Line 0 of the indicators assigned, with a sense, and DISPATCH waiting. -/
def shown (n : Sense) : State :=
  State.settle { ready with
    pending := [.dispatch .console 1 1]
    indicators := [(0, ⟨some 0, .permitGo, n⟩), (7, ⟨none, .circuitOperating, n⟩)] }

theorem witness_PinsFollowTheRecords :
    running.PinsDriven ∧
    (held.PinsDriven ∧ ∃ t, step held = .next t ∧ t.resetPin = true) ∧
    ((shown .activeHigh).PinsDriven ∧ ∃ t, step (shown .activeHigh) = .next t ∧ t.resetPin = false ∧
      t.indicators.find 1 = none ∧ t.pins.ind = [true, false, false, false, false, false, false, true]) ∧
    ((shown .activeLow).PinsDriven ∧ ∃ t, step (shown .activeLow) = .next t ∧ t.resetPin = false ∧
      t.pins.ind = [false, false, false, false, false, false, false, false]) :=
  ⟨rfl, ⟨rfl, _, rfl, rfl⟩, ⟨rfl, _, rfl, by decide, by decide, by decide⟩, ⟨rfl, _, rfl, by decide, by decide⟩⟩

theorem running_canonical : running.Canonical :=
  { layout := by unfold Layout.Canonical; decide
    image := by unfold Layout.Canonical; decide
    zones := by decide
    trains := by decide
    switches := by decide
    nodes := by decide
    indicators := by decide }

theorem running_live : running.LiveFits :=
  { absent := fun h => (by cases h)
    built := fun _ => (by decide)
    trailing := fun z h => by
      unfold State.zoneState at h
      cases hf : running.zones.find z with
      | none => rw [hf] at h; cases h
      | some x =>
        rw [hf] at h
        rcases (running_zone hf).2 with hx | hx
        · rw [hx.2] at h; cases h
        · rw [hx] at h; cases h }

theorem witness_LiveTablesAreThoseOfTheLayout : running.Canonical ∧ running.LiveFits := ⟨running_canonical, running_live⟩

theorem witness_NoZoneIsHeldByTwoTrains : running.Interlock :=
  { fits := fun z x h => by
      rcases (running_zone h).2 with hx | hx
      · rw [hx.2]; rfl
      · rw [hx]; rfl
    agree := fun z t => by
      rw [running_holder]
      match t with
      | 0 => exact ⟨fun h => (by cases h.2), fun h => (by cases h)⟩
      | 1 => exact ⟨fun h => by rw [h.1]; exact .head _, fun h => ⟨List.mem_singleton.1 h, rfl⟩⟩
      | n + 2 => exact ⟨fun h => (by cases h.2), fun h => (by cases h)⟩ }

theorem witness_HoldListsStayInOrder : running.HoldLists := fun t r h => by
  rw [(running_train h).2]
  decide

theorem witness_AMovingSwitchHasNoTrainOnIt : running.SwitchesFit := fun z h => by
  match z with
  | 0 => cases h
  | 1 => rfl
  | 2 => rfl
  | 3 => rfl
  | 4 => rfl
  | 5 => rfl
  | n + 6 => rfl

theorem witness_TheWaitQueueFitsTheClaims : running.QueueFits ∧ running.CensusFits :=
  ⟨{ slots := fun t r h => by rw [(running_train h).1]; decide
     pending := fun t => by
       match t with
       | 0 => rfl
       | 1 => rfl
       | n + 2 => rfl },
   fun h => by cases h⟩

theorem witness_StopHoldsCausesAndAuthorityFit : running.StopFits ∧ running.AuthorityFits ∧ running.InputsFit :=
  ⟨{ operating := fun _ => by decide
     census := fun h => by cases h
     halted := fun h => by cases h },
   ⟨fun h => (by cases h), fun h => (by cases h)⟩, fun _ => by decide⟩

theorem witness_TablesAndPortsStayBounded : running.AnomaliesFit ∧ running.PortsFit :=
  ⟨⟨by decide, List.Pairwise.nil⟩, ⟨by decide, by decide, by decide, by decide, by decide⟩,
   ⟨by decide, by decide, by decide, by decide, by decide⟩⟩

end Sys2Proof.Tests
end

namespace Sys2Proof.Machine

/-! # The circuit layout (spec 01): what the layout requests leave, and the statements of R12 and R18 -/

/-! ## The owners of the layout requests, an equation for each case -/

section Owners
variable {s : State}

theorem ownClearLayout_in_config (h : s.circuit = .config) : s.ownClearLayout = State.done { s with layout := .empty } :=
  if_pos h

theorem ownClearLayout_elsewhere (h : s.circuit ≠ .config) : s.ownClearLayout = s.answered .refusedState :=
  if_neg h

/-- R14: a check that fails is named, and the circuit stays CONFIG. -/
theorem ownCommitLayout_of_invalid {f : CheckFailure} (hc : s.circuit = .config) (hf : s.layout.invalid = some f) :
    s.ownCommitLayout = (s, .reply .invalid [byte f.check, byte f.kind.code, byte f.key]) := by
  unfold State.ownCommitLayout
  rw [if_pos hc, hf]

/-- R17: in a live circuit the committed layout is captured, unless a write is in flight. -/
theorem ownStoreLayout_captures (hw : s.store.state ≠ .writing) (hl : s.live = true) :
    s.ownStoreLayout = State.done { s with store := ⟨.writing, s.layout, true⟩ } := by
  unfold State.ownStoreLayout
  rw [if_neg hw, if_pos hl]

theorem ownEraseStore_while_writing (h : s.store.state = .writing) : s.ownEraseStore = s.answered .busy :=
  if_pos h

theorem ownEraseStore_without_maintenance (hw : s.store.state ≠ .writing) (ha : s.authority ≠ .maintenance) :
    s.ownEraseStore = s.answered .refusedState := by
  unfold State.ownEraseStore
  rw [if_neg hw, if_pos ha]

/-- R18: the circuit state is not asked for. -/
theorem ownEraseStore_erases (hw : s.store.state ≠ .writing) (ha : s.authority = .maintenance) :
    s.ownEraseStore = State.done { s with store := .erased } := by
  unfold State.ownEraseStore
  rw [if_neg hw, if_neg (not_not_intro ha)]

end Owners

/-! ## A layout that lacks a record fails check 1 -/

/-- The circuit record is missing, or a zone record that the zone count asks for. -/
def Layout.LacksARecord (l : Layout) : Prop :=
  l.circuit = none ∨ ∃ c z, l.circuit = some c ∧ z < c.zoneCount ∧ z < 32 ∧ l.zones.find z = none

/-- Some record that check 1 examines does not pass it. -/
theorem Layout.LacksARecord.not_passes {l : Layout} (h : l.LacksARecord) : ∃ kind key, ¬l.Passes 1 kind key := by
  rcases h with hn | ⟨c, z, hc, hz, h32, hn⟩
  · exact ⟨.circuit, 0, fun hp => hp rfl hn⟩
  · exact ⟨.zone, z, fun hp => (hp c hc h32).mp hz hn⟩

theorem Layout.LacksARecord.check1_fails {l : Layout} (h : l.LacksARecord) : ∃ f, l.check1 = some f ∧ f.check = 1 := by
  obtain ⟨kind, key, hp⟩ := h.not_passes
  have named : Named 1 (l.Passes 1) l.check1 := check1_named
  cases hf : l.check1 with
  | none =>
    rw [hf] at named
    exact absurd (named kind key) hp
  | some f =>
    rw [hf] at named
    exact ⟨f, rfl, named.1⟩

/-- Check 1 comes first, so that no other check is named where it fails. -/
theorem invalid_of_check1 {l : Layout} {f : CheckFailure} (h : l.check1 = some f) : l.invalid = some f := by
  unfold Layout.invalid
  rw [h, Option.some_or]

theorem Layout.LacksARecord.invalid {l : Layout} (h : l.LacksARecord) : ∃ f, l.invalid = some f ∧ f.check = 1 := by
  obtain ⟨f, hf, h1⟩ := h.check1_fails
  exact ⟨f, invalid_of_check1 hf, h1⟩

/-! ## CLEAR LAYOUT (R12) -/

theorem clearLayout_replies {p : Port} {tag : Byte} {s : State} (h : Allowed (.clearLayout p tag) s) :
    Replies (.clearLayout p tag) s (fun u =>
      if u.circuit = .config then ({ u with layout := .empty }, .done, []) else (u, .refusedState, [])) := by
  refine h.replies (own := State.ownClearLayout) rfl rfl fun u _ => ?_
  split
  next hc => exact ownClearLayout_in_config hc
  next hc => exact ownClearLayout_elsewhere hc

/-- The answer names check 1, and the layout stays as it was loaded. -/
theorem commitLayout_replies_check_one {p : Port} {tag : Byte} {s : State} (hc : s.circuit = .config)
    (hl : s.layout.LacksARecord) (h : Allowed (.commitLayout p tag) s) :
    ∃ kind key, Replies (.commitLayout p tag) s (fun u => (u, .invalid, [1, kind, key])) := by
  obtain ⟨f, hf, h1⟩ := hl.invalid
  refine ⟨byte f.kind.code, byte f.key, h.replies (own := State.ownCommitLayout) rfl rfl fun u hu => ?_⟩
  have hcu : u.circuit = .config := by rw [hu, State.arrived_circuit, hc]
  have hfu : u.layout.invalid = some f := by rw [hu, State.arrived_layout, hf]
  rw [ownCommitLayout_of_invalid hcu hfu, h1]
  rfl

/-- Settles O16: what each owner answers in its case, and that check 1 is the first to fail where a record is missing. -/
theorem clearLayoutEmptiesTheTable : Obligations.ClearLayoutEmptiesTheTable :=
  ⟨fun _ _ _ h => clearLayout_replies h,
   fun _ hl => Layout.LacksARecord.invalid hl,
   fun _ _ _ hc hl h => commitLayout_replies_check_one hc hl h⟩

/-! ## ERASE STORE (R18), and what an INVALID store leads to (R17, R19) -/

theorem eraseStore_replies {p : Port} {tag : Byte} {s : State} (h : Allowed (.eraseStore p tag) s) :
    Replies (.eraseStore p tag) s (fun u =>
      if u.store.state = .writing then (u, .busy, [])
      else if u.authority ≠ .maintenance then (u, .refusedState, [])
      else ({ u with store := .erased }, .done, [])) := by
  refine h.replies (own := State.ownEraseStore) rfl rfl fun u _ => ?_
  split
  next hw => exact ownEraseStore_while_writing hw
  next hw =>
    split
    next ha => exact ownEraseStore_without_maintenance hw ha
    next ha => exact ownEraseStore_erases hw (Decidable.not_not.mp ha)

theorem storeLayout_replies_of_invalid_store {p : Port} {tag : Byte} {s : State} (hi : s.store.state = .invalid)
    (hl : s.live = true) (h : Allowed (.storeLayout p tag) s) :
    Replies (.storeLayout p tag) s (fun u => ({ u with store := ⟨.writing, u.layout, true⟩ }, .done, [])) := by
  refine h.replies (own := State.ownStoreLayout) rfl rfl fun u hu => ?_
  have hw : u.store.state ≠ .writing := by rw [hu, State.arrived_store, hi]; exact nofun
  have hlu : u.live = true := by rw [hu, State.live, State.arrived_circuit]; exact hl
  exact ownStoreLayout_captures hw hlu

/-- An INVALID store holds nothing to load at hard reset (R19). -/
theorem Store.loads_of_invalid {x : Store} (h : x.state = .invalid) : x.interrupted.loads = none := by
  have hx : x.interrupted = x := by unfold Store.interrupted; rw [h]
  rw [hx]
  exact if_neg fun hv => by rw [h] at hv; exact nomatch hv.1

theorem hardReset_of_invalid_store {s : State} (h : s.store.state = .invalid) : s.hardReset = s.bare := by
  unfold State.hardReset
  rw [Store.loads_of_invalid h]

/-- Settles O19: the three cases of the owner, and what the two later commands find in the INVALID store. -/
theorem eraseStoreMakesTheStoreInvalid : Obligations.EraseStoreMakesTheStoreInvalid := by
  refine ⟨fun _ _ _ h => eraseStore_replies h, fun _ _ _ hi hl h => storeLayout_replies_of_invalid_store hi hl h,
    fun s hi => ⟨s.hardReset.settle, rfl, ?_⟩⟩
  rw [State.settle_circuit, hardReset_of_invalid_store hi]
  rfl

end Sys2Proof.Machine

namespace Sys2Proof.Machine

/-! # Indicators (spec 12): what RELEASE INDICATOR answers and leaves (R160) -/

/-! ## The Authority Unit's step (R157) -/

theorem withAuthority_of_held {p : Port} {own : Owner} {s : State} (h : s.authority.heldBy p = true) :
    withAuthority p own s = own s :=
  if_pos h

theorem withAuthority_of_not_held {p : Port} {own : Owner} {s : State} (h : s.authority.heldBy p = false) :
    withAuthority p own s = s.answered .refusedAuthority :=
  if_neg (Bool.eq_false_iff.mp h)

/-! ## The owner of RELEASE INDICATOR -/

theorem ownReleaseIndicator_out_of_range {line : Nat} (h : 8 ≤ line) (s : State) :
    s.ownReleaseIndicator line = s.answered .refusedRange :=
  if_pos h

/-- R160: neither the circuit state nor the present assignment is asked for. -/
theorem ownReleaseIndicator_in_range {line : Nat} (h : line < 8) (s : State) :
    s.ownReleaseIndicator line = State.done { s with indicators := s.indicators.del line } :=
  if_neg (Nat.not_le.mpr h)

/-! ## The level of an unassigned line (R158) -/

theorem indicatorLevel_of_unassigned {s : State} {line : Nat} (h : s.indicators.find line = none) :
    s.indicatorLevel line = false := by
  unfold State.indicatorLevel
  rw [h]

/-- An unassigned line is low, under RESET as every output is (R134), and else as unassigned (R158). -/
theorem driven_ind_of_unassigned {s : State} {line : Nat} (hl : line < 8) (h : s.indicators.find line = none) :
    s.driven.ind[line]? = some false := by
  unfold State.driven
  split
  next => exact List.getElem?_replicate_of_lt hl
  next =>
    have hr : (List.range Config.indicatorLines)[line]? = some line := List.getElem?_range hl
    rw [List.getElem?_map, hr, Option.map_some, indicatorLevel_of_unassigned h]

@[simp] theorem State.answering_indicators (p : Port) (a : Answer) (s : State) :
    (s.answering p a).indicators = s.indicators :=
  State.setPort_indicators ..

/-! ## RELEASE INDICATOR (R160) -/

/-- The request that a command presents has its turn when the command is asked. -/
theorem Asked.turn {i : Instr} {p : Port} {q : Request} {s : State} (h : Asked i s) (hr : requestOf i = some (p, q)) :
    Turn p q s := by
  obtain ⟨_, _, hr', ht⟩ := h
  cases hr.symm.trans hr'
  exact ht

/-- What a request in its turn leaves, given what its owner makes of the state in which it is taken. -/
theorem Asked.exec_took {i : Instr} {p : Port} {tag : Byte} {code : RequestCode} {args : List Byte} {own : Owner} {s : State}
    {a : Answer} {effect : State → State} (h : Asked i s) (hr : requestOf i = some (p, ⟨tag, code.code, args⟩))
    (he : exec i s = request p tag code args own s)
    (ho : own (s.arrived p ⟨tag, code.code, args⟩) = (effect (s.arrived p ⟨tag, code.code, args⟩), a)) :
    exec i s = .next (took p ⟨tag, code.code, args⟩ a effect s) := by
  rw [he, request_taken (h.turn hr), ho]
  rfl

theorem releaseIndicator_replies {p : Port} {tag line : Byte} {s : State} (h : Asked (.releaseIndicator p tag line) s) :
    Replies (.releaseIndicator p tag line) s (fun u =>
      if u.authority.heldBy p = false then (u, .refusedAuthority, [])
      else if 8 ≤ line.toNat then (u, .refusedRange, [])
      else ({ u with indicators := u.indicators.del line.toNat }, .done, [])) := by
  refine h.replies (own := withAuthority p (State.ownReleaseIndicator line.toNat)) rfl rfl fun u _ => ?_
  split
  next ha => exact withAuthority_of_not_held ha
  next ha =>
    rw [withAuthority_of_held (eq_true_of_ne_false ha)]
    split
    next hl => exact ownReleaseIndicator_out_of_range hl u
    next hl => exact ownReleaseIndicator_in_range (Nat.not_le.mp hl) u

/-- What RELEASE INDICATOR leaves where it is not refused. -/
theorem exec_releaseIndicator_in_range {p : Port} {tag line : Byte} {s : State}
    (h : Asked (.releaseIndicator p tag line) s) (ha : s.authority.heldBy p = true) (hl : line.toNat < 8) :
    exec (.releaseIndicator p tag line) s =
      .next (took p ⟨tag, 0x49, [line]⟩ (.reply .done []) (fun u => { u with indicators := u.indicators.del line.toNat }) s) := by
  refine h.exec_took (own := withAuthority p (State.ownReleaseIndicator line.toNat)) (code := .releaseIndicator) rfl rfl ?_
  rw [withAuthority_of_held (by rw [State.arrived_authority, ha]), ownReleaseIndicator_in_range hl]
  rfl

/-- The outputs are driven after the assignment is gone, so the line is low in the same act. -/
theorem releaseIndicator_unassigns {p : Port} {tag line : Byte} {s : State} (h : Asked (.releaseIndicator p tag line) s)
    (ha : s.authority.heldBy p = true) (hl : line.toNat < 8) :
    ∃ t, exec (.releaseIndicator p tag line) s = .next t ∧
      t.indicators.find line.toNat = none ∧ t.pins.ind[line.toNat]? = some false := by
  refine ⟨_, exec_releaseIndicator_in_range h ha hl, ?_⟩
  unfold took
  rw [State.settle_indicators, State.settle_pins]
  have hfind (u : State) : (State.answering p (.reply .done [])
      { u with indicators := u.indicators.del line.toNat }).indicators.find line.toNat = none := by
    rw [State.answering_indicators, Table.find_del, if_pos rfl]
  exact ⟨hfind _, driven_ind_of_unassigned hl (hfind _)⟩

/-- Settles O41: what the port and the owner answer in each case, and that the outputs driven then find no assignment. -/
theorem releaseIndicatorUnassignsTheLine : Obligations.ReleaseIndicatorUnassignsTheLine :=
  fun _ _ _ _ h => ⟨releaseIndicator_replies h, fun ha hl => releaseIndicator_unassigns h ha hl⟩

end Sys2Proof.Machine

namespace Sys2Proof.Machine

theorem ite_of_iff {α : Type} {c d : Prop} [Decidable c] [Decidable d] (h : c ↔ d) (x y : α) :
    (if c then x else y) = if d then x else y :=
  ite_congr (propext h) (fun _ => rfl) fun _ => rfl

/-! # What every step keeps (spec 95) -/

/-! ## The interlock (R21, R22) -/

theorem step_keeps_interlock {s t : State} (hi : s.Interlock) (h : step s = .next t) : t.Interlock :=
  step_keeps (P := State.Interlock) (fun _ _ => State.Interlock.move) hi h

/-- Settles O54: every move keeps the interlock, and a zone names one holder. -/
theorem noZoneIsHeldByTwoTrains : Obligations.NoZoneIsHeldByTwoTrains :=
  fun _ _ hi h => ⟨step_keeps_interlock hi h, fun _ _ _ => (step_keeps_interlock hi h).unique⟩

/-! ## The order of hold lists (R54, R56) -/

theorem step_keeps_holdLists {s t : State} (hi : s.Interlock) (hh : s.HoldLists) (h : step s = .next t) : t.HoldLists :=
  (step_keeps (P := fun u => u.Interlock ∧ u.HoldLists) (fun _ _ hu m => ⟨hu.1.move m, hu.2.move hu.1 m⟩) ⟨hi, hh⟩ h).2

/-- The order of R54 by positions in the list: a RESERVED zone has only RESERVED zones after it. -/
theorem stale_eq_nil_iff_positions (s : State) (l : List Nat) : s.stale l = [] ↔
    ∀ i j y z : Nat, i < j → l[i]? = some y → l[j]? = some z → s.zoneState y = some .reserved → s.zoneState z = some .reserved := by
  rw [stale_eq_nil_iff, List.pairwise_iff_getElem]
  simp only [isReserved_iff]
  constructor
  · intro h i j y z hij hy hz
    obtain ⟨hi, rfl⟩ := List.getElem?_eq_some_iff.mp hy
    obtain ⟨hj, rfl⟩ := List.getElem?_eq_some_iff.mp hz
    exact h i j hi hj hij
  · intro h i j hi hj hij
    exact h i j _ _ hij (List.getElem?_eq_getElem hi) (List.getElem?_eq_getElem hj)

/-- Settles O55: every move keeps the hold lists given the interlock, which every move keeps too. -/
theorem holdListsStayInOrder : Obligations.HoldListsStayInOrder :=
  ⟨fun _ _ => step_keeps_holdLists, stale_eq_nil_iff_positions⟩

/-! ## A moving switch (R118) -/

theorem step_keeps_switchesFit {s t : State} (hc : s.Canonical) (hl : s.LiveFits) (hs : s.SwitchesFit) (h : step s = .next t) :
    t.SwitchesFit :=
  (step_keeps (P := fun u => u.Canonical ∧ u.LiveFits ∧ u.SwitchesFit)
    (fun _ _ ⟨c, l, f⟩ m => ⟨c.move m, l.move m, f.move l c.layout m⟩) ⟨hc, hl, hs⟩ h).2.2

/-- A switch record in its MOVING state, over the records. -/
theorem switchMoving_iff {s : State} {z : Nat} (hc : s.layout.Canonical) : s.switchMoving z = true ↔
    ∃ k r w q, s.layout.Switched z k r ∧ s.switches.find k = some w ∧ w.state = .moving q := by
  unfold State.switchMoving
  rw [Option.any_eq_true]
  constructor
  · rintro ⟨⟨k, r⟩, hsw, hm⟩
    obtain ⟨w, hw, hm⟩ := (Option.any_eq_true ..).mp hm
    cases hst : w.state with
    | moving q => exact ⟨k, r, w, q, (switchOf_iff hc z k r).mp hsw, hw, hst⟩
    | unproven | setMain | setBranch | faulted => simp [hst] at hm
  · rintro ⟨k, r, w, q, hsw, hw, hst⟩
    exact ⟨(k, r), (switchOf_iff hc z k r).mpr hsw, by simp [hw, hst]⟩

/-- Settles O56: every move keeps a moving switch's zone without a holder, in canonical tables that fit the layout. -/
theorem aMovingSwitchHasNoTrainOnIt : Obligations.AMovingSwitchHasNoTrainOnIt :=
  ⟨fun _ _ => step_keeps_switchesFit, fun _ _ => switchMoving_iff⟩

/-! ## Tables, claims, causes and bounds -/

/-- Settles O53: every move keeps the canonical form, and the live records those of the layout. -/
theorem liveTablesAreThoseOfTheLayout : Obligations.LiveTablesAreThoseOfTheLayout :=
  fun _ _ hc hl h => ⟨step_keeps (P := State.Canonical) (fun _ _ => State.Canonical.move) hc h,
    step_keeps (P := State.LiveFits) (fun _ _ => State.LiveFits.move) hl h⟩

/-- Settles O57: every move keeps the Wait Queue and the claims in step, and the census without claims. -/
theorem theWaitQueueFitsTheClaims : Obligations.TheWaitQueueFitsTheClaims :=
  fun _ _ hq hc h => ⟨step_keeps (P := State.QueueFits) (fun _ _ => State.QueueFits.move) hq h,
    step_keeps (P := State.CensusFits) (fun _ _ => State.CensusFits.move) hc h⟩

/-- Settles O58: every move keeps the stop holds, the authority and the input causes in step. -/
theorem stopHoldsCausesAndAuthorityFit : Obligations.StopHoldsCausesAndAuthorityFit :=
  fun _ _ hs ha hi h => ⟨step_keeps (P := State.StopFits) (fun _ _ => State.StopFits.move) hs h,
    step_keeps (P := State.AuthorityFits) (fun _ _ => State.AuthorityFits.move) ha h,
    step_keeps (P := State.InputsFit) (fun _ _ => State.InputsFit.move) hi h⟩

/-- Settles O59: every move keeps the Anomaly Table and both ports within their bounds. -/
theorem tablesAndPortsStayBounded : Obligations.TablesAndPortsStayBounded :=
  fun _ _ ha hp h => ⟨step_keeps (P := State.AnomaliesFit) (fun _ _ => State.AnomaliesFit.move) ha h,
    step_keeps (P := State.PortsFit) (fun _ _ => State.PortsFit.move) hp h⟩

end Sys2Proof.Machine

namespace Sys2Proof.Machine

/-! # Every command (spec 95): the request it presents, its effect, and the outputs it drives -/

/-! ## Requests and their owners -/

/-- The command presents this request, which this owner then takes: what it does to the records is a run of acts, and a change
request that the port passes goes through the Authority Unit's step (R157). -/
structure OwnedBy (i : Instr) (p : Port) (q : Request) (own : Owner) : Prop where
  presents : ∀ s, exec i s = act (fun s => s.present p q own) s
  acts : ∀ s, Acts s (own s).1
  change : q.code ∉ openCodes → portPasses q.code q.args = true → ∃ own', own = withAuthority p own'

/-- A request that both ports may send in every authority state. -/
theorem exists_ownedBy_open {i : Instr} {p : Port} {tag code : Byte} {args : List Byte} {own : Owner}
    (he : ∀ s, exec i s = act (fun s => s.present p ⟨tag, code, args⟩ own) s) (ho : ∀ s, Acts s (own s).1)
    (hc : code ∈ openCodes) : ∃ own, OwnedBy i p ⟨tag, code, args⟩ own :=
  ⟨own, he, ho, fun hn => absurd hc hn⟩

/-- A change request. -/
theorem exists_ownedBy_change {i : Instr} {p : Port} {q : Request} {own : Owner}
    (he : ∀ s, exec i s = act (fun s => s.present p q (withAuthority p own)) s) (ho : ∀ s, Acts s (own s).1) :
    ∃ own, OwnedBy i p q own :=
  ⟨withAuthority p own, he, withAuthority_acts ho, fun _ _ => ⟨own, rfl⟩⟩

/-- LOAD LAYOUT RECORD: a kind or a length that is wrong is refused by the port's own step, before the Authority Unit's (R152). -/
theorem ownedBy_loadLayoutRecord (p : Port) (tag kind : Byte) (image : List Byte) :
    ∃ own, OwnedBy (.loadLayoutRecord p tag kind image) p ⟨tag, 0x11, kind :: image⟩ own := by
  refine ⟨_, fun _ => rfl, fun s => ?_, fun _ hp => ⟨_, if_pos hp⟩⟩
  split
  · exact withAuthority_acts (ownLoadLayoutRecord_acts kind image) s
  · exact .refl s

/-- Every command that presents a request, but UNKNOWN_REQUEST_CODE, has an owner that takes it. -/
theorem exists_ownedBy {i : Instr} {p : Port} {q : Request} (hr : requestOf i = some (p, q))
    (hu : ∀ p' tag code args, i ≠ .unknownRequestCode p' tag code args) : ∃ own, OwnedBy i p q own := by
  cases i with
  | readStatus | readZone | readZones | readTrain | readTrains | readWaitQueue | readAnomalies | readSwitch | readNode
  | readNotices => cases hr; exact exists_ownedBy_open (fun _ => rfl) (readIn_acts _ _) (by decide)
  | readLayoutRecord _ _ kind key => cases hr; exact exists_ownedBy_open (fun _ => rfl) (layoutAnswer_acts kind.toNat key.toNat) (by decide)
  | halt => cases hr; exact exists_ownedBy_open (fun _ => rfl) ownHalt_acts (by decide)
  | setNoticeMask _ _ high low => cases hr; exact exists_ownedBy_open (fun _ => rfl) (ownSetNoticeMask_acts p high low) (by decide)
  | takeAuthority => cases hr; exact exists_ownedBy_open (fun _ => rfl) (ownTakeAuthority_acts p) (by decide)
  | fixSupervisor => cases hr; exact exists_ownedBy_open (fun _ => rfl) (ownFixSupervisor_acts p) (by decide)
  | handToConsole => cases hr; exact exists_ownedBy_open (fun _ => rfl) (ownHandToConsole_acts p) (by decide)
  | enterConfig => cases hr; exact exists_ownedBy_change (fun _ => rfl) ownEnterConfig_acts
  | loadLayoutRecord _ tag kind image => cases hr; exact ownedBy_loadLayoutRecord p tag kind image
  | clearLayout => cases hr; exact exists_ownedBy_change (fun _ => rfl) ownClearLayout_acts
  | commitLayout => cases hr; exact exists_ownedBy_change (fun _ => rfl) ownCommitLayout_acts
  | storeLayout => cases hr; exact exists_ownedBy_change (fun _ => rfl) ownStoreLayout_acts
  | eraseStore => cases hr; exact exists_ownedBy_change (fun _ => rfl) ownEraseStore_acts
  | remapNode => cases hr; exact exists_ownedBy_change (fun _ => rfl) (ownRemapNode_acts _ _)
  | placeTrain => cases hr; exact exists_ownedBy_change (fun _ => rfl) (ownPlaceTrain_acts _ _)
  | withdrawTrain => cases hr; exact exists_ownedBy_change (fun _ => rfl) (ownWithdrawTrain_acts _)
  | relocateTrain => cases hr; exact exists_ownedBy_change (fun _ => rfl) (ownRelocateTrain_acts _ _)
  | beginOperation => cases hr; exact exists_ownedBy_change (fun _ => rfl) ownBeginOperation_acts
  | dispatch => cases hr; exact exists_ownedBy_change (fun _ => rfl) (ownDispatch_acts _)
  | cancelDispatch => cases hr; exact exists_ownedBy_change (fun _ => rfl) (ownCancelDispatch_acts _)
  | stepTrain => cases hr; exact exists_ownedBy_change (fun _ => rfl) (ownStepTrain_acts _)
  | relaunch => cases hr; exact exists_ownedBy_change (fun _ => rfl) (ownRelaunch_acts _)
  | setServiceOff | setServiceOn => cases hr; exact exists_ownedBy_change (fun _ => rfl) (ownSetService_acts _ _)
  | clearZone => cases hr; exact exists_ownedBy_change (fun _ => rfl) (ownClearZone_acts _)
  | clearUnheldZones => cases hr; exact exists_ownedBy_change (fun _ => rfl) ownClearUnheldZones_acts
  | setSwitch => cases hr; exact exists_ownedBy_change (fun _ => rfl) (ownSetSwitch_acts _ _)
  | resumeGroup => cases hr; exact exists_ownedBy_change (fun _ => rfl) (ownResumeGroup_acts _)
  | acknowledgeAnomaly => cases hr; exact exists_ownedBy_change (fun _ => rfl) (ownAcknowledgeAnomaly_acts _ _)
  | acknowledgeAll => cases hr; exact exists_ownedBy_change (fun _ => rfl) ownAcknowledgeAll_acts
  | assignIndicator => cases hr; exact exists_ownedBy_change (fun _ => rfl) (ownAssignIndicator_acts _ _ _ _)
  | releaseIndicator => cases hr; exact exists_ownedBy_change (fun _ => rfl) (ownReleaseIndicator_acts _)
  | unknownRequestCode p' tag code args => exact absurd rfl (hu p' tag code args)
  | _ => cases hr

/-! ## The four input changes (R122) -/

theorem exec_stopInAsserted (s : State) : exec .stopInAsserted s =
    inputChange (fun s => { s with stopInPin := true }) (fun s => s.arise .stopIn) s := rfl

theorem exec_stopInDeasserted (s : State) : exec .stopInDeasserted s =
    inputChange (fun s => { s with stopInPin := false }) (fun s => { s with causes := { s.causes with stopIn := false } }) s := rfl

theorem exec_keyTurnedToMaint (s : State) : exec .keyTurnedToMaint s =
    inputChange (fun s => { s with keyMaint := true }) (fun s => (s.arise .key).setAuthority .maintenance) s := rfl

theorem exec_keyTurnedToRun (s : State) : exec .keyTurnedToRun s =
    inputChange (fun s => { s with keyMaint := false }) State.keyReleased s := rfl

/-! ## Every command runs to a next state -/

theorem exec_act_pending {i : Instr} {f : State → State} {s : State} (he : ∀ s, exec i s = act f s)
    (hf : ∀ s, (f s).pending = s.pending) : ∃ t, exec i s = .next t ∧ t.pending = s.pending := by
  refine ⟨_, he s, ?_⟩
  split
  · rfl
  · exact hf s

theorem exec_inputChange_pending {i : Instr} {level taken : State → State} {s : State}
    (he : ∀ s, exec i s = inputChange level taken s) (hl : ∀ s, (level s).pending = s.pending)
    (ht : ∀ s, (taken s).pending = s.pending) : ∃ t, exec i s = .next t ∧ t.pending = s.pending := by
  refine ⟨_, he s, ?_⟩
  split
  · exact hl s
  · rw [State.settle_pending, ht, hl]

theorem keyReleased_pending (s : State) : s.keyReleased.pending = s.pending := by
  unfold State.keyReleased
  dsimp only
  split
  · exact (setAuthority_sameSide _ _).pending
  · rfl

theorem take_pending {own : Owner} (ho : ∀ s, Acts s (own s).1) (p : Port) (s : State) :
    (s.take p own).pending = s.pending := by
  unfold State.take
  rw [State.setPort_pending, (ho s).sameSide.pending]

theorem present_pending {own : Owner} (ho : ∀ s, Acts s (own s).1) (p : Port) (q : Request) (s : State) :
    (s.present p q own).pending = s.pending := by
  unfold State.present
  split
  · rw [take_pending ho, State.setPort_pending]
  · split
    · exact take_pending ho p s
    · exact State.setPort_pending ..
  · exact State.setPort_pending ..

theorem OwnedBy.pending {i : Instr} {p : Port} {q : Request} {own : Owner} (h : OwnedBy i p q own) (s : State) :
    ∃ t, exec i s = .next t ∧ t.pending = s.pending :=
  exec_act_pending h.presents (present_pending h.acts p q)

theorem execUnknownRequestCode_pending (p : Port) (tag code : Byte) (args : List Byte) (s : State) :
    ∃ t, exec (.unknownRequestCode p tag code args) s = .next t ∧ t.pending = s.pending := by
  refine exec_act_pending (fun _ => rfl) fun s => ?_
  split
  · split
    · rfl
    · exact State.setPort_pending ..
  · exact present_pending (fun s => .refl s) p _ s

theorem execAnswerFrameSend_pending (p : Port) (s : State) :
    ∃ t, exec (.answerFrameSend p) s = .next t ∧ t.pending = s.pending := by
  refine exec_act_pending (fun _ => rfl) fun s => ?_
  split
  · rfl
  · split
    · exact State.setPort_pending ..
    · split
      · unfold State.sendAnswer
        simp only [State.setPort_pending]
      · rfl

theorem execSwitchTimerExpiry_pending (k : Nat) (s : State) :
    ∃ t, exec (.switchTimerExpiry k) s = .next t ∧ t.pending = s.pending := by
  refine exec_act_pending (fun _ => rfl) fun s => ?_
  split
  next hf =>
    split
    · refine (anomaly_acts _ _ _ _ (.inr (.inr (.inl ?_)))).sameSide.pending
      rw [State.updSwitch_switches]
      exact Table.upd_ne_nil (Table.ne_nil_of_find hf) _ _
    · rfl
  next => rfl

theorem takeExpiry_if_due_pending (s : State) (z : Nat) (u : TimerUse) (c : StrandCause) (k : AnomalyKind) :
    (if s.expiryDue z u then s.takeExpiry z c k else s).pending = s.pending := by
  split
  next hd => exact (takeExpiry_acts s z c k (zones_ne_nil_of_expiryDue hd)).sameSide.pending
  next => rfl

/-- No command stops the part, and none touches the queue of the others. -/
theorem exec_pending (i : Instr) (s : State) : ∃ t, exec i s = .next t ∧ t.pending = s.pending := by
  by_cases hu : ∃ p tag code args, i = .unknownRequestCode p tag code args
  · obtain ⟨p, tag, code, args, rfl⟩ := hu
    exact execUnknownRequestCode_pending p tag code args s
  cases hr : requestOf i with
  | some pq =>
    obtain ⟨own, h⟩ := exists_ownedBy hr (fun p tag code args e => hu ⟨p, tag, code, args, e⟩)
    exact h.pending s
  | none =>
    cases i with
    | hardReset => exact ⟨_, rfl, by unfold State.hardReset; split <;> rfl⟩
    | resetAsserted => exact ⟨_, rfl, rfl⟩
    | stopInAsserted =>
      exact exec_inputChange_pending exec_stopInAsserted (fun _ => rfl) fun s => (arise_sameSide s .stopIn).pending
    | stopInDeasserted => exact exec_inputChange_pending exec_stopInDeasserted (fun _ => rfl) fun _ => rfl
    | keyTurnedToMaint =>
      exact exec_inputChange_pending exec_keyTurnedToMaint (fun _ => rfl)
        fun s => ((arise_sameSide s .key).trans (setAuthority_sameSide _ .maintenance)).pending
    | keyTurnedToRun => exact exec_inputChange_pending exec_keyTurnedToRun (fun _ => rfl) keyReleased_pending
    | requestFrameArrival => exact exec_act_pending (fun _ => rfl) fun _ => State.setPort_pending ..
    | spiDeselect | consoleByteGap | consoleFramingError => exact exec_act_pending (fun _ => rfl) fun _ => rfl
    | answerFrameSend p => exact execAnswerFrameSend_pending p s
    | answerComplete => exact exec_act_pending (fun _ => rfl) fun _ => State.setPort_pending ..
    | storeWriteComplete | timebaseTick => exact exec_act_pending (fun _ => rfl) fun s => by split <;> rfl
    | pollSend =>
      exact exec_act_pending (fun _ => rfl) fun s => by
        split
        · split <;> rfl
        · rfl
    | tracksideAnswer bytes => exact exec_act_pending (fun _ => rfl) fun s => (takeAnswer_acts s bytes).sameSide.pending
    | answerTimeout => exact exec_act_pending (fun _ => rfl) fun s => (timeOut_acts s).sameSide.pending
    | runTransitExpiry z => exact exec_act_pending (fun _ => rfl) fun s => takeExpiry_if_due_pending s z _ _ _
    | trailingHoldExpiry z => exact exec_act_pending (fun _ => rfl) fun s => takeExpiry_if_due_pending s z _ _ _
    | switchTimerExpiry k => exact execSwitchTimerExpiry_pending k s
    | _ => cases hr

/-- Settles O2: each command's effect, in every state. -/
theorem everyCommandRunsToANextState : Obligations.EveryCommandRunsToANextState := exec_pending

/-- Settles O1: the two forms of the queue. -/
theorem stepTakesTheFrontCommand : Obligations.StepTakesTheFrontCommand :=
  ⟨fun _ _ s h => by unfold step; rw [h], fun s h => by unfold step; rw [h]⟩

/-! ## While RESET is asserted (R134, R19) -/

theorem exec_act_under_reset {i : Instr} {f : State → State} {s : State} (he : ∀ s, exec i s = act f s)
    (h : s.resetPin = true) : exec i s = .next s := by
  rw [he]
  unfold act
  rw [if_pos h]

theorem inputChange_under_reset {level taken : State → State} {s : State} (h : s.resetPin = true) :
    inputChange level taken s = .next (level s) := by
  unfold inputChange
  rw [if_pos h]

/-- R19: a write in flight is interrupted and leaves the store INVALID. -/
theorem Store.interrupted_eq (x : Store) : x.interrupted = if x.state = .writing then ⟨.invalid, .empty, false⟩ else x := by
  unfold Store.interrupted
  cases x.state <;> rfl

theorem execResetAsserted_eq (s : State) : exec .resetAsserted s = .next { s with
    resetPin := true
    store := if s.store.state = .writing then ⟨.invalid, .empty, false⟩ else s.store
    poll := none
    indicators := []
    supervisor := { s.supervisor with flags := 0, mask := 0 }
    console := { s.console with flags := 0, mask := 0 }
    pins := .low } := by
  rw [← Store.interrupted_eq]
  rfl

/-- Settles O4: the assertion, and what each later command leaves until the release. -/
theorem nothingIsTakenWhileResetIsAsserted : Obligations.NothingIsTakenWhileResetIsAsserted := by
  refine ⟨execResetAsserted_eq, fun c s h h1 h2 => ?_⟩
  cases c with
  | hardReset => exact absurd rfl h1
  | resetAsserted => exact absurd rfl h2
  | stopInAsserted => rw [exec_stopInAsserted, inputChange_under_reset h]
  | stopInDeasserted => rw [exec_stopInDeasserted, inputChange_under_reset h]
  | keyTurnedToMaint => rw [exec_keyTurnedToMaint, inputChange_under_reset h]
  | keyTurnedToRun => rw [exec_keyTurnedToRun, inputChange_under_reset h]
  | _ => exact exec_act_under_reset (fun _ => rfl) h

/-! ## The outputs (R120, R134, R150, R158, R161) -/

theorem driven_under_reset {s : State} (h : s.resetPin = true) : s.driven = .low := if_pos h

theorem settle_pinsDriven (s : State) : s.settle.PinsDriven := rfl

theorem exec_act_pinsDriven {i : Instr} {f : State → State} {s : State} (he : ∀ s, exec i s = act f s)
    (hs : s.PinsDriven) : ∃ t, exec i s = .next t ∧ t.PinsDriven := by
  refine ⟨_, he s, ?_⟩
  split
  · exact hs
  · exact settle_pinsDriven _

/-- A level that moves under RESET leaves every output low. -/
theorem exec_inputChange_pinsDriven {i : Instr} {level taken : State → State} {s : State}
    (he : ∀ s, exec i s = inputChange level taken s) (hs : s.PinsDriven)
    (hr : (level s).resetPin = s.resetPin) (hp : (level s).pins = s.pins) : ∃ t, exec i s = .next t ∧ t.PinsDriven := by
  refine ⟨_, he s, ?_⟩
  split
  next h =>
    have hlow : s.pins = .low := hs.trans (driven_under_reset h)
    exact hp.trans (hlow.trans (driven_under_reset (hr.trans h)).symm)
  next => exact settle_pinsDriven _

/-- Every command ends with the outputs driven. -/
theorem exec_pinsDriven {i : Instr} {s t : State} (hs : s.PinsDriven) (h : exec i s = .next t) : t.PinsDriven := by
  have hd : ∃ t, exec i s = .next t ∧ t.PinsDriven := by
    cases i with
    | hardReset | resetAsserted => exact ⟨_, rfl, settle_pinsDriven _⟩
    | stopInAsserted => exact exec_inputChange_pinsDriven exec_stopInAsserted hs rfl rfl
    | stopInDeasserted => exact exec_inputChange_pinsDriven exec_stopInDeasserted hs rfl rfl
    | keyTurnedToMaint => exact exec_inputChange_pinsDriven exec_keyTurnedToMaint hs rfl rfl
    | keyTurnedToRun => exact exec_inputChange_pinsDriven exec_keyTurnedToRun hs rfl rfl
    | _ => exact exec_act_pinsDriven (fun _ => rfl) hs
  obtain ⟨t', ht, hp⟩ := hd
  cases ht.symm.trans h
  exact hp

theorem step_pinsDriven {s t : State} (hs : s.PinsDriven) (h : step s = .next t) : t.PinsDriven := by
  unfold step at h
  split at h
  next => cases h; exact hs
  next rest _ => exact exec_pinsDriven (s := { s with pending := rest }) hs h

/-- The truth of an assignment's condition, over the records (R158). -/
def State.Holds (s : State) (a : Assignment) : Prop :=
  match a.condition, a.zone with
  | .circuitOperating, _ => s.circuit = .operating
  | _, none => False
  | .permitGo, some z => s.permit z = some true
  | .occupied, some z => s.zoneState z = some .occupied ∨ s.zoneState z = some .trailing
  | .free, some z => s.zoneState z = some .free
  | .suspect, some z => s.zoneState z = some .suspect
  | .stopHold, some z => ∃ x, s.zones.find z = some x ∧ x.stopHold = true
  | .standing, some z => ∃ u, s.holder z = some u ∧ s.motion u = some .standing

theorem conditionTrue_iff (s : State) (a : Assignment) : s.conditionTrue a = true ↔ s.Holds a := by
  obtain ⟨z, c, sense⟩ := a
  unfold State.conditionTrue State.Holds
  cases z <;> cases c <;> simp [Option.any_eq_true]

section Driven
variable {s : State} (h : s.resetPin = false)
include h

theorem driven_eq : s.driven =
    { runEn := decide (s.circuit = .operating)
      ind := (List.range Config.indicatorLines).map (fun i => s.indicatorLevel i)
      ardy := s.supervisor.waiting
      snot := s.supervisor.noticed
      cnot := s.console.noticed } :=
  if_neg (by rw [h]; exact Bool.noConfusion)

theorem driven_ind {i : Nat} (hi : i < 8) : s.driven.ind[i]? = some (s.indicatorLevel i) := by
  have hr : (List.range Config.indicatorLines)[i]? = some i := List.getElem?_range hi
  rw [driven_eq h, List.getElem?_map, hr, Option.map_some]

theorem driven_ind_activeHigh {i : Nat} {a : Assignment} (hi : i < 8) (ha : s.indicators.find i = some a)
    (hs : a.sense = .activeHigh) : s.driven.ind[i]? = some true ↔ s.Holds a := by
  rw [driven_ind h hi, State.indicatorLevel, ha, ← conditionTrue_iff]
  simp [hs]

theorem driven_ind_activeLow {i : Nat} {a : Assignment} (hi : i < 8) (ha : s.indicators.find i = some a)
    (hs : a.sense = .activeLow) : s.driven.ind[i]? = some false ↔ s.Holds a := by
  rw [driven_ind h hi, State.indicatorLevel, ha, ← conditionTrue_iff]
  simp [hs]

end Driven

/-- What waits to be shifted out on a port (R150). -/
theorem PortState.waiting_iff (x : PortState) : x.waiting = true ↔ x.refusals ≠ [] ∨
    (∃ w, x.sending = some w ∧ w.sent < w.frame.length) ∨
    (x.answer ≠ none ∧ ∀ w, x.sending = some w → w.ends = false) := by
  have hr : (!x.refusals.isEmpty) = true ↔ x.refusals ≠ [] := by cases x.refusals <;> simp
  have ha : x.answer.isSome = true ↔ x.answer ≠ none := Option.isSome_iff_ne_none
  unfold PortState.waiting
  rw [Bool.or_eq_true, Bool.or_eq_true, Bool.and_eq_true, hr, ha, or_assoc]
  cases x.sending <;> simp

/-- Settles O52: every command ends with the outputs driven, and each level is that of the records. -/
theorem pinsFollowTheRecords : Obligations.PinsFollowTheRecords := by
  intro s t hs hstep
  have hp : t.pins = t.driven := step_pinsDriven hs hstep
  refine ⟨hp, fun h => hp.trans (driven_under_reset h), fun h => ?_⟩
  rw [hp]
  refine ⟨?_, ?_, fun i hi => driven_ind_of_unassigned hi, fun i a hi ha => driven_ind_activeHigh h hi ha,
    fun i a hi ha => driven_ind_activeLow h hi ha, ?_, ?_, ?_⟩
  · rw [driven_eq h]; exact decide_eq_true_iff
  · rw [driven_eq h]; rfl
  · rw [driven_eq h]; exact PortState.waiting_iff _
  · rw [driven_eq h]; exact PortState.noticed_iff _
  · rw [driven_eq h]; exact PortState.noticed_iff _

/-! ## The machine after reset (R134) -/

theorem reset_canonical : State.reset.Canonical :=
  ⟨Layout.empty_canonical, Layout.empty_canonical, Table.wf_nil, Table.wf_nil, Table.wf_nil, Table.wf_nil, Table.wf_nil⟩

theorem reset_liveFits : State.reset.LiveFits := .bare rfl rfl rfl rfl rfl rfl rfl rfl rfl rfl rfl rfl

theorem reset_stopFits : State.reset.StopFits := ⟨nofun, nofun, nofun⟩

theorem reset_authorityFits : State.reset.AuthorityFits := ⟨nofun, nofun⟩

theorem reset_censusFits : State.reset.CensusFits := .of_not nofun

/-- Settles O60: the values of the reset table, and each condition from its tables being empty. -/
theorem resetMeetsEveryCondition : Obligations.ResetMeetsEveryCondition :=
  ⟨rfl, rfl, rfl, rfl, rfl, rfl, rfl, rfl, rfl, settle_pinsDriven State.reset, reset_canonical, reset_liveFits, .empty rfl rfl, .empty rfl,
    .empty rfl, .empty rfl rfl, reset_censusFits, reset_stopFits, reset_authorityFits, fun _ => ⟨rfl, rfl⟩, .empty rfl,
    PortState.reset_fits, PortState.reset_fits⟩

end Sys2Proof.Machine

namespace Sys2Proof.Machine

/-! # Hard reset, the inputs and the stop causes -/

/-! ## Hard reset (R134, R19) -/

/-- A store whose write was interrupted holds nothing to load, as it holds nothing while it is written. -/
theorem Store.loads_interrupted (x : Store) : x.interrupted.loads =
    if x.state = .valid ∧ x.checkGood = true ∧ x.image.invalid = none then some x.image else none := by
  obtain ⟨st, l, good⟩ := x
  cases st <;> simp [Store.interrupted, Store.loads, Store.erased]

/-- Settles O3: the two cases of the store that the part loads or does not load. -/
theorem hardResetRebuildsTheMachine : Obligations.HardResetRebuildsTheMachine := by
  intro s
  change Host.Outcome.next s.hardReset.settle = _
  unfold State.hardReset
  rw [Store.loads_interrupted]
  by_cases h : s.store.state = .valid ∧ s.store.checkGood = true ∧ s.store.image.invalid = none
  · rw [if_pos h, if_pos h]; rfl
  · rw [if_neg h, if_neg h]; rfl

/-! ## STOP IN and KEY (R122, R156) -/

theorem inputChange_running {level taken : State → State} {s : State} (h : s.resetPin = false) :
    inputChange level taken s = .next (taken (level s)).settle := by
  unfold inputChange
  rw [if_neg (by rw [h]; exact Bool.noConfusion)]

/-- Settles O5: each change of an input that the part takes. -/
theorem inputsMoveCausesAndAuthority : Obligations.InputsMoveCausesAndAuthority := by
  intro s h
  refine ⟨?_, ?_, ?_, ?_⟩
  · rw [exec_stopInAsserted, inputChange_running h]
  · rw [exec_stopInDeasserted, inputChange_running h]
  · rw [exec_keyTurnedToMaint, inputChange_running h]
    unfold State.setAuthority
    rw [(arise_pins _ _).2.2]
  · rw [exec_keyTurnedToRun, inputChange_running h]
    unfold State.keyReleased State.setAuthority
    dsimp only
    split
    next ha => rw [if_neg (by rw [ha]; exact nofun)]
    next => rfl

/-! ## Stop causes and anomaly reports (R123, R128) -/

/-- A write to every number of a table is a write to every record. -/
theorem Table.updAll_keys {α : Type} (t : Table α) (f : α → α) : Table.updAll t t.keys f = t.map (fun e => (e.1, f e.2)) := by
  unfold Table.updAll
  refine List.map_congr_left fun e he => if_pos ?_
  exact List.mem_map_of_mem he

theorem Anomaly.about_iff (a : Anomaly) (k : AnomalyKind) (n : Nat) : a.about k n = true ↔ a.kind = k ∧ a.subject = n := by
  unfold Anomaly.about
  rw [Bool.and_eq_true, decide_eq_true_iff, decide_eq_true_iff]

theorem any_about_iff (s : State) (k : AnomalyKind) (n : Nat) :
    s.anomalies.any (fun a => a.about k n) = true ↔ ∃ a, a ∈ s.anomalies ∧ a.kind = k ∧ a.subject = n := by
  simp only [List.any_eq_true, Anomaly.about_iff]

theorem arise_cases (s : State) (c : StopCause) :
    let held := s.zones.map (fun e => (e.1, { e.2 with stopHold := true }))
    (s.circuit = .operating →
      s.arise c = State.raise .circuit { s with causes := s.causes.add c, circuit := .halted, zones := held }) ∧
    (s.circuit = .halted → s.arise c = State.raise .circuit { s with causes := s.causes.add c, zones := held }) ∧
    (s.circuit = .census → s.arise c = { s with causes := s.causes.add c }) ∧
    (s.circuit = .unconfigured ∨ s.circuit = .config →
      s.arise c = if c = .stopIn ∨ c = .key then { s with causes := s.causes.add c } else s) := by
  unfold State.arise
  refine ⟨fun h => ?_, fun h => ?_, fun h => ?_, ?_⟩
  · rw [h]
    exact congrArg (fun zs => State.raise .circuit { s with causes := s.causes.add c, circuit := .halted, zones := zs })
      (Table.updAll_keys s.zones _)
  · rw [h]
    exact congrArg (fun zs => State.raise .circuit { s with causes := s.causes.add c, circuit := .halted, zones := zs })
      (Table.updAll_keys s.zones _)
  · rw [h]
  · rintro (h | h) <;> rw [h] <;> cases c <;> rfl

/-- An entry of the kind and subject is renewed, otherwise one is made where there is room. -/
theorem enterAnomaly_eq (s : State) (k : AnomalyKind) (n : Nat) (stop : Bool) : s.enterAnomaly k n stop =
    if ∃ a, a ∈ s.anomalies ∧ a.kind = k ∧ a.subject = n then
      { s with anomalies := s.anomalies.map (fun a =>
          if a.kind = k ∧ a.subject = n then { a with acked := false, stop := a.stop || stop } else a) }
    else if s.anomalies.length < 16 then
      { s with anomalies := s.anomalies ++ [⟨k, n, stop, false, s.timebase, s.nextSerial⟩], nextSerial := s.nextSerial + 1 }
    else { s with tableFull := true } := by
  unfold State.enterAnomaly
  simp only [any_about_iff, Anomaly.about_iff]
  rfl

/-- Settles O6: what a cause does in each circuit state, and the three cases of a report. -/
theorem aStopCauseHoldsEveryZone : Obligations.AStopCauseHoldsEveryZone := by
  refine ⟨arise_cases, fun s k n stop => ?_⟩
  dsimp only
  rw [← enterAnomaly_eq]
  rfl

end Sys2Proof.Machine

namespace Sys2Proof.Machine

/-! # The request ports (spec 11) -/

/-- The effect of a command that the part takes while RESET is not asserted. -/
theorem exec_running {i : Instr} {f : State → State} {s : State} (he : ∀ s, exec i s = act f s) (h : s.resetPin = false) :
    exec i s = .next (f s).settle := by
  rw [he, act_running h]

/-! ## Receiving a frame (R151, R164) -/

theorem idle_link {x : PortState} (hx : x.rx = []) : { x with rx := [] } = x := by rw [← hx]

/-- A right sync byte on an idle link begins a frame. -/
theorem receiveByte_sync {x : PortState} (hx : x.rx = []) : x.receiveByte 0xC3 = { x with rx := [0xC3] } := by
  unfold PortState.receiveByte
  rw [hx]
  exact if_pos rfl

theorem receiveByte_length {x : PortState} {b a : Byte} (hx : x.rx = [b]) : x.receiveByte a =
    if 16 < a.toNat then PortState.refuse { x with rx := [] } 0 .badFrame else { x with rx := [b, a] } := by
  unfold PortState.receiveByte
  rw [hx]
  rfl

/-- Bytes before the last of a frame are kept. -/
theorem receive_inside {a b : Byte} (l r : List Byte) {x : PortState} (hx : x.rx = b :: a :: r)
    (hl : r.length + l.length < 3 + a.toNat) : l.foldl PortState.receiveByte x = { x with rx := b :: a :: (r ++ l) } := by
  induction l generalizing r x with
  | nil => rw [List.append_nil, ← hx]; rfl
  | cons c l ih =>
    rw [List.length_cons] at hl
    have hc : x.receiveByte c = { x with rx := b :: a :: (r ++ [c]) } := by
      unfold PortState.receiveByte
      rw [hx]
      refine if_pos ?_
      simp only [List.length_cons]
      omega
    rw [List.foldl_cons, hc, ih (r ++ [c]) rfl (by rw [List.length_append, List.length_singleton]; omega), List.append_assoc]
    rfl

/-- The last byte of a frame ends it. -/
theorem receiveByte_last {x : PortState} {a b c : Byte} {r : List Byte} (hx : x.rx = b :: a :: r) (hl : r.length = 2 + a.toNat) :
    x.receiveByte c = PortState.frameArrived { x with rx := [] } (b :: a :: (r ++ [c])) := by
  unfold PortState.receiveByte
  rw [hx]
  refine if_neg ?_
  simp only [List.length_cons]
  omega

/-- What the bytes of a whole frame say. -/
theorem frameArrived_eq (x : PortState) {a tag code check : Byte} {args : List Byte} (ha : a.toNat = args.length) :
    x.frameArrived (0xC3 :: a :: tag :: code :: (args ++ [check])) =
      if check = crc8 ([a, tag, code] ++ args) then x.arrive ⟨tag, code, args⟩ else x.refuse tag .badFrame := by
  unfold PortState.frameArrived
  dsimp only
  rw [ha, List.take_left, List.drop_left, List.head?_cons]
  simp only [Option.some.injEq]

theorem receive_announced {x : PortState} {a : Byte} (hx : x.rx = []) (ha : a.toNat ≤ 16) :
    [0xC3, a].foldl PortState.receiveByte x = { x with rx := [0xC3, a] } := by
  rw [List.foldl_cons, receiveByte_sync hx, List.foldl_cons, receiveByte_length rfl, if_neg (Nat.not_lt.mpr ha)]
  rfl

theorem receive_too_long {x : PortState} {a : Byte} (hx : x.rx = []) (ha : 16 < a.toNat) :
    [0xC3, a].foldl PortState.receiveByte x = x.refuse 0 .badFrame := by
  rw [List.foldl_cons, receiveByte_sync hx, List.foldl_cons, receiveByte_length rfl, if_pos ha]
  exact congrArg (fun y => PortState.refuse y 0 .badFrame) (idle_link hx)

/-- A frame of the length it announces on an idle link: it arrives where its check is right, and is refused otherwise. -/
theorem receive_frame {x : PortState} {a tag code check : Byte} {args : List Byte} (hx : x.rx = []) (ha : a.toNat = args.length)
    (hl : args.length ≤ 16) :
    ([0xC3, a, tag, code] ++ args ++ [check]).foldl PortState.receiveByte x =
      if check = crc8 ([a, tag, code] ++ args) then x.arrive ⟨tag, code, args⟩ else x.refuse tag .badFrame := by
  have hinside := receive_inside (x := { x with rx := [0xC3, a] }) (tag :: code :: args) [] rfl
    (by simp only [List.length_cons, List.length_nil]; omega)
  calc ([0xC3, a, tag, code] ++ args ++ [check]).foldl PortState.receiveByte x
    _ = [check].foldl PortState.receiveByte ((tag :: code :: args).foldl PortState.receiveByte
          ([0xC3, a].foldl PortState.receiveByte x)) := by rw [← List.foldl_append, ← List.foldl_append]; rfl
    _ = PortState.receiveByte { x with rx := 0xC3 :: a :: tag :: code :: args } check := by
      rw [receive_announced hx (ha ▸ hl), hinside]; rfl
    _ = PortState.frameArrived x (0xC3 :: a :: tag :: code :: (args ++ [check])) := by
      rw [receiveByte_last rfl (by simp only [List.length_cons]; omega)]
      exact congrArg (fun y => PortState.frameArrived y _) (idle_link hx)
    _ = _ := frameArrived_eq x ha

theorem exec_requestFrameArrival {p : Port} {bytes : List Byte} {s : State} (h : s.resetPin = false) :
    exec (.requestFrameArrival p bytes) s =
      .next (State.settle (s.setPort p (bytes.foldl PortState.receiveByte (s.port p)))) := by
  rw [exec_running (fun _ => rfl) h]

theorem byte_length_toNat {q : Request} (h : q.args.length ≤ 16) : (byte q.args.length).toNat = q.args.length := by
  rw [BitVec.toNat_ofNat]
  exact Nat.mod_eq_of_lt (by omega)

/-- Settles O7: a whole frame is received byte by byte, and its check decides. -/
theorem framesArriveAtTheirPort : Obligations.FramesArriveAtTheirPort := by
  intro p s hr hx
  refine ⟨fun q hq => ?_, fun q check hq hc => ?_, fun a ha => ?_⟩
  · have hright : (requestFrame q).foldl PortState.receiveByte (s.port p) = (s.port p).arrive q :=
      (receive_frame hx (byte_length_toNat hq) hq).trans (if_pos rfl)
    rw [exec_requestFrameArrival hr, hright]
    rfl
  · rw [exec_requestFrameArrival hr, receive_frame hx (byte_length_toNat hq) hq, if_neg hc]
  · rw [exec_requestFrameArrival hr, receive_too_long hx ha]

/-! ## A frame cut short (R150, R164) -/

theorem PortState.cut_eq (x : PortState) :
    x.cut = if x.rx = [] then x else PortState.refuse { x with rx := [] } (x.rx.getD 2 0) .badFrame := by
  unfold PortState.cut
  split
  next h => rw [if_pos h]
  next h => rw [h]; rfl
  next h => rw [h]; rfl
  next h => rw [h]; rfl

/-- Settles O8: the three commands cut the frame being received. -/
theorem aFrameCutShortIsRefused : Obligations.AFrameCutShortIsRefused := by
  intro s n h
  dsimp only
  rw [← PortState.cut_eq, ← PortState.cut_eq]
  refine ⟨?_, ?_, ?_⟩ <;> rw [exec_running (fun _ => rfl) h]
  rfl

/-! ## The check value, one bit after another (section 13.1) -/

/-- The division by one more bit of the content. -/
def crcStep (c : Byte) (bit : Bool) : Byte := if c.msb = bit then c <<< 1 else (c <<< 1) ^^^ 0x07

/-- The bits of a byte, most significant first. -/
def bitsOf (b : Byte) : List Bool := [7, 6, 5, 4, 3, 2, 1, 0].map (fun i => b.getLsbD i)

/-- A byte added to the remainder is divided bit by bit: its first bit decides the step, the others stay to be added. -/
theorem crcBit_xor (c b : Byte) : crcBit (c ^^^ b) = crcStep c b.msb ^^^ (b <<< 1) := by
  unfold crcBit crcStep
  rw [BitVec.msb_xor, BitVec.shiftLeft_xor_distrib]
  have hcomm : (c <<< 1 ^^^ b <<< 1) ^^^ (0x07 : Byte) = (c <<< 1 ^^^ 0x07) ^^^ b <<< 1 := by ac_rfl
  cases c.msb <;> cases b.msb
  · rfl
  · exact hcomm
  · exact hcomm
  · rfl

/-- The bits that a run of divisions by `b` reads are those of `b`, one place further at each. -/
theorem msb_shiftLeft (b : Byte) (i : Nat) (hi : i < 8) : (b <<< i).msb = b.getLsbD (7 - i) := by
  rw [BitVec.msb_eq_getLsbD_last, BitVec.getLsbD_shiftLeft]
  simp [Nat.not_lt.mpr (Nat.le_of_lt_succ hi)]

theorem crcByte_eq (c b : Byte) : crcByte c b = (bitsOf b).foldl crcStep c := by
  have hzero : b <<< 8 = 0 := BitVec.shiftLeft_eq_zero (Nat.le_refl 8)
  have hfirst : b.msb = b.getLsbD 7 := BitVec.msb_eq_getLsbD_last b
  unfold crcByte
  simp only [crcBit_xor, ← BitVec.shiftLeft_add, Nat.reduceAdd, hzero]
  rw [hfirst, msb_shiftLeft b 1 (by decide), msb_shiftLeft b 2 (by decide), msb_shiftLeft b 3 (by decide),
    msb_shiftLeft b 4 (by decide), msb_shiftLeft b 5 (by decide), msb_shiftLeft b 6 (by decide), msb_shiftLeft b 7 (by decide)]
  exact BitVec.xor_zero

/-- A remainder is divided by the bits of the content in turn. -/
theorem crc8_eq (bytes : List Byte) : crc8 bytes = (bytes.flatMap bitsOf).foldl crcStep 0 := by
  unfold crc8
  rw [List.foldl_flatMap]
  exact congrArg (fun f => bytes.foldl f 0) (funext fun c => funext fun b => crcByte_eq c b)

/-! ## Sending frames (R151 to R154, R165) -/

/-- READ NOTICES alone changes the port when its frame is sent: the flags it shows are cleared (R162). -/
theorem onFill_eq (a : Answer) (x : PortState) : x.onFill a = if a = .notices then { x with flags := 0 } else x := by
  cases a <;> rfl

theorem onFill_queue (a : Answer) (x : PortState) : (x.onFill a).queue = x.queue := by
  rw [onFill_eq]
  split <;> rfl

/-- The frame of an answer as it goes out, over the port's records. -/
theorem sendAnswer_eq (s : State) (p : Port) (a : Answer) : s.sendAnswer p a =
    let x := s.port p
    let f := s.nextFrame p a
    let y := if a = .notices then { x with flags := 0 } else x
    s.setPort p { y with
      answer := some f.next
      sending := some ⟨answerFrame ((x.queue.head?.map (fun q => q.tag)).getD 0) f.result f.more (8 - x.queue.length)
        (State.statusByte (s.setPort p y) p) f.body, 1, !f.more⟩ } := by
  unfold State.sendAnswer PortState.tag PortState.freeSlots
  dsimp only
  rw [State.port_setPort, State.setPort_setPort, onFill_eq]
  split <;> rfl

/-- Of what waits at a port the oldest refusal comes first, then the answer. -/
theorem first_waiting {s : State} {f f' : ArrivalRefusal → List ArrivalRefusal → State} {g g' : Answer → State}
    (refusals : List ArrivalRefusal) (answer : Option Answer) (hf : ∀ r rest, f r rest = f' r rest) (hg : ∀ a, g a = g' a) :
    (match refusals with
      | r :: rest => f r rest
      | [] => match answer with
        | some a => g a
        | none => s) =
    match refusals with
      | r :: rest => f' r rest
      | [] => match answer with
        | none => s
        | some a => g' a := by
  cases refusals with
  | cons r rest => exact hf r rest
  | nil => cases answer with
    | none => rfl
    | some a => exact hg a

theorem exec_answerFrameSend {p : Port} {s : State} (h : s.resetPin = false) :
    exec (.answerFrameSend p) s = .next (State.settle (
      let x := s.port p
      if x.sending.any (fun w => w.ends) = true then s
      else
        match x.refusals with
        | r :: rest =>
          s.setPort p { x with
            refusals := rest
            sending := some ⟨answerFrame r.tag r.result false (8 - x.queue.length) (s.statusByte p) [], 1, false⟩ }
        | [] =>
          match x.answer with
          | none => s
          | some a =>
            let f := s.nextFrame p a
            let y := if a = .notices then { x with flags := 0 } else x
            s.setPort p { y with
              answer := some f.next
              sending := some ⟨answerFrame ((x.queue.head?.map (fun q => q.tag)).getD 0) f.result f.more (8 - x.queue.length)
                (State.statusByte (s.setPort p y) p) f.body, 1, !f.more⟩ })) := by
  rw [exec_running (fun _ => rfl) h]
  dsimp only
  congr 1
  split
  next => rfl
  next =>
    exact congrArg State.settle (first_waiting (s.port p).refusals (s.port p).answer (fun _ _ => rfl) (sendAnswer_eq s p))

theorem exec_answerComplete {p : Port} {s : State} (h : s.resetPin = false) :
    exec (.answerComplete p) s = .next (State.settle (
      let x := s.port p
      match x.sending with
      | none => s
      | some w =>
        if w.ends = true then s.setPort p { x with queue := x.queue.tail, answer := none, sending := none }
        else s.setPort p { x with sending := none })) := by
  rw [exec_running (fun _ => rfl) h]
  dsimp only
  unfold PortState.complete
  cases hw : (s.port p).sending with
  | none => rw [State.setPort_port]
  | some w => dsimp only; split <;> rfl

/-! ## The status byte (R153) -/

/-- The number whose byte the status byte is. -/
def State.statusNumber (s : State) (p : Port) : Nat :=
  s.circuit.code + 8 * s.authority.code + 32 * (!s.anomalies.isEmpty).toNat + 64 * s.tableFull.toNat +
    128 * (s.port p).noticed.toNat

theorem CircuitState.code_lt (c : CircuitState) : c.code < 8 := by cases c <;> decide
theorem Authority.code_lt (a : Authority) : a.code < 4 := by cases a <;> decide

theorem statusByte_toNat (s : State) (p : Port) : (s.statusByte p).toNat = s.statusNumber p := by
  have hc := s.circuit.code_lt
  have ha := s.authority.code_lt
  have hn := Bool.toNat_le (!s.anomalies.isEmpty)
  have hf := Bool.toNat_le s.tableFull
  have hp := Bool.toNat_le (s.port p).noticed
  refine (BitVec.toNat_ofNat ..).trans (Nat.mod_eq_of_lt ?_)
  omega

/-- A bit of the status byte, as a digit of its number. -/
theorem statusByte_bit (s : State) (p : Port) (i : Nat) : (s.statusByte p).getLsbD i = decide (s.statusNumber p / 2 ^ i % 2 = 1) := by
  rw [BitVec.getLsbD, statusByte_toNat, Nat.testBit_eq_decide_div_mod_eq]

theorem statusByte_fields (s : State) (p : Port) :
    (s.statusByte p).toNat % 8 = s.circuit.code ∧
    (s.statusByte p).toNat / 8 % 4 = s.authority.code ∧
    ((s.statusByte p).getLsbD 5 = true ↔ s.anomalies ≠ []) ∧
    ((s.statusByte p).getLsbD 6 = true ↔ s.tableFull = true) ∧
    ((s.statusByte p).getLsbD 7 = true ↔
      ∃ i, i < 8 ∧ (s.port p).flags.getLsbD i = true ∧ (s.port p).mask.getLsbD i = true) := by
  have hc := s.circuit.code_lt
  have ha := s.authority.code_lt
  have hn := Bool.toNat_le (!s.anomalies.isEmpty)
  have hf := Bool.toNat_le s.tableFull
  have hp := Bool.toNat_le (s.port p).noticed
  have h5 : s.anomalies ≠ [] ↔ (!s.anomalies.isEmpty).toNat = 1 := by cases s.anomalies <;> simp
  have h6 : s.tableFull = true ↔ s.tableFull.toNat = 1 := Bool.toNat_eq_one.symm
  have h7 : (s.port p).noticed = true ↔ (s.port p).noticed.toNat = 1 := Bool.toNat_eq_one.symm
  rw [← PortState.noticed_iff, h5, h6, h7, statusByte_toNat, statusByte_bit, statusByte_bit,
    statusByte_bit]
  simp only [decide_eq_true_eq]
  unfold State.statusNumber
  omega

/-- Settles O9: what each command of the link makes of the port, the fields of the status byte, and the check bit by bit. -/
theorem answerFramesGoOutInOrder : Obligations.AnswerFramesGoOutInOrder := by
  intro p s h
  refine ⟨exec_answerFrameSend h, exec_answerComplete h, fun tag r more free status body => ?_, statusByte_fields s p, crc8_eq⟩
  unfold answerFrame
  cases more <;> rfl

end Sys2Proof.Machine

namespace Sys2Proof.Machine

/-! # Requests in their turn, and the authority they need (R152, R157, R162) -/

/-! ## Notices (R161, R162) -/

theorem port_setPort_ne {p q : Port} (h : q ≠ p) (s : State) (x : PortState) : (s.setPort p x).port q = s.port q :=
  match p, q with
  | .supervisor, .console => rfl
  | .console, .supervisor => rfl
  | .supervisor, .supervisor => absurd rfl h
  | .console, .console => absurd rfl h

@[simp] theorem port_settle (s : State) (p : Port) : s.settle.port p = s.port p := by cases p <;> rfl

theorem noticed_of_no_flags (x : PortState) : PortState.noticed { x with flags := 0 } = false := by
  simp [PortState.noticed]

/-- With the port's flags cleared the status byte shows no notice pending, and is otherwise as it was. -/
theorem statusByte_without_flags (s : State) (p : Port) :
    State.statusByte (s.setPort p { s.port p with flags := 0 }) p = s.statusByte p &&& 0x7F := by
  have hnumber : State.statusNumber (s.setPort p { s.port p with flags := 0 }) p = s.statusNumber p % 128 := by
    have hc := s.circuit.code_lt
    have ha := s.authority.code_lt
    have hn := Bool.toNat_le (!s.anomalies.isEmpty)
    have hf := Bool.toNat_le s.tableFull
    unfold State.statusNumber
    rw [State.port_setPort, noticed_of_no_flags, State.setPort_circuit, State.setPort_authority, State.setPort_anomalies,
      State.setPort_tableFull, Bool.toNat_false]
    omega
  apply BitVec.eq_of_toNat_eq
  rw [statusByte_toNat, hnumber, BitVec.toNat_and, statusByte_toNat]
  exact (Nat.and_two_pow_sub_one_eq_mod _ 7).symm

theorem setNoticeMask_replies {p : Port} {tag high low : Byte} {s : State} (h : Asked (.setNoticeMask p tag high low) s) :
    Replies (.setNoticeMask p tag high low) s (fun u =>
      if high ≠ 0 then (u, .refusedRange, []) else (u.setPort p { u.port p with mask := low }, .done, [])) := by
  refine h.replies (own := State.ownSetNoticeMask p high low) rfl rfl fun u _ => ?_
  unfold State.ownSetNoticeMask
  split <;> rfl

/-- With no refusal waiting and nothing going out, the next frame of the answer goes out. -/
theorem exec_send_answer {p : Port} {s : State} {a : Answer} (hr : s.resetPin = false) (ha : (s.port p).answer = some a)
    (hq : (s.port p).refusals = []) (hs : (s.port p).sending = none) :
    exec (.answerFrameSend p) s = .next (s.sendAnswer p a).settle := by
  rw [exec_running (fun _ => rfl) hr, hs, if_neg (by simp), hq, ha]

/-- The port and the frame going out when the answer of READ NOTICES is sent. -/
theorem sendAnswer_notices (s : State) (p : Port) : s.sendAnswer p .notices = s.setPort p { s.port p with
    flags := 0
    answer := some .notices
    sending := some ⟨answerFrame (s.port p).tag .done false (8 - (s.port p).queue.length)
      (State.statusByte (s.setPort p { s.port p with flags := 0 }) p) [(s.port p).flags], 1, true⟩ } :=
  sendAnswer_eq s p .notices

/-- Settles O10: the owner's two cases, and the frame that shows and clears the flags. -/
theorem noticesAreMaskedAndReadByPort : Obligations.NoticesAreMaskedAndReadByPort := by
  refine ⟨fun _ _ _ _ _ h => setNoticeMask_replies h, fun p s hr ha hq hs => ?_⟩
  have hport := (port_settle _ p).trans (congrArg (fun u => State.port u p) (sendAnswer_notices s p))
  rw [State.port_setPort] at hport
  refine ⟨_, _, exec_send_answer hr ha hq hs, congrArg PortState.flags hport, fun p' hp => ?_,
    congrArg PortState.sending hport, ?_⟩
  · rw [port_settle, sendAnswer_notices, port_setPort_ne hp]
  · rw [statusByte_without_flags]

/-! ## Waiting for the turn (R151, R152) -/

/-- A request whose turn has not come only arrives. -/
theorem present_waiting {s : State} {p : Port} {q : Request} {own : Owner}
    (h : (s.port p).answer.isSome = true ∨ ((s.port p).queue ≠ [] ∧ (s.port p).queue.head? ≠ some q)) :
    s.present p q own = s.setPort p ((s.port p).arrive q) := by
  unfold State.present
  split
  next ha hq =>
    rcases h with h | h
    · rw [ha] at h; exact nomatch h
    · exact absurd hq h.1
  next r _ ha hq =>
    rcases h with h | h
    · rw [ha] at h; exact nomatch h
    · exact if_neg fun e => h.2 (by rw [hq, e]; rfl)
  next => rfl

theorem exec_unknownRequestCode {p : Port} {tag code : Byte} {args : List Byte} (h : portPasses code args = false) (s : State) :
    exec (.unknownRequestCode p tag code args) s = act (fun s => s.present p ⟨tag, code, args⟩ (fun s => s.answered .refusedRange)) s := by
  change execUnknownRequestCode p tag code args s = _
  unfold execUnknownRequestCode
  rw [h]
  rfl

/-- Every command that presents a request presents it to an owner; UNKNOWN_REQUEST_CODE, to one that refuses it. -/
theorem exists_presents {i : Instr} {p : Port} {q : Request} (hr : requestOf i = some (p, q))
    (hu : ∀ p' tag code args, i = .unknownRequestCode p' tag code args → portPasses code args = false) :
    ∃ own, ∀ s, exec i s = act (fun s => s.present p q own) s := by
  by_cases h : ∃ p' tag code args, i = .unknownRequestCode p' tag code args
  · obtain ⟨p', tag, code, args, rfl⟩ := h
    cases hr
    exact ⟨_, exec_unknownRequestCode (hu _ _ _ _ rfl)⟩
  · obtain ⟨own, ho⟩ := exists_ownedBy hr (fun p' tag code args e => h ⟨p', tag, code, args, e⟩)
    exact ⟨own, ho.presents⟩

theorem exec_waiting {i : Instr} {p : Port} {q : Request} {s : State} (hr : requestOf i = some (p, q))
    (hu : ∀ p' tag code args, i = .unknownRequestCode p' tag code args → portPasses code args = false)
    (hs : s.resetPin = false)
    (hw : (s.port p).answer.isSome = true ∨ ((s.port p).queue ≠ [] ∧ (s.port p).queue.head? ≠ some q)) :
    exec i s = .next (State.settle (s.setPort p ((s.port p).arrive q))) := by
  obtain ⟨own, he⟩ := exists_presents hr hu
  rw [exec_running he hs, present_waiting hw]

/-! ## Taking in the turn -/

/-- What a command presents is answered as its owner says. -/
theorem replies_of_presents {i : Instr} {p : Port} {q : Request} {own : Owner} {s : State} {f : Effect}
    (hr : requestOf i = some (p, q)) (he : ∀ s, exec i s = act (fun s => s.present p q own) s) (ht : Turn p q s)
    (hf : own (s.arrived p q) = ((f (s.arrived p q)).1, .reply (f (s.arrived p q)).2.1 (f (s.arrived p q)).2.2)) :
    Replies i s f :=
  ⟨p, q, hr, by rw [exec_running he ht.1, State.present_taken ht, hf]⟩

theorem unknownRequestCode_replies {p : Port} {tag code : Byte} {args : List Byte} {s : State} (h : portPasses code args = false)
    (ha : Asked (.unknownRequestCode p tag code args) s) :
    Replies (.unknownRequestCode p tag code args) s (fun u => (u, .refusedRange, [])) :=
  replies_of_presents rfl (exec_unknownRequestCode h) (ha.turn rfl) rfl

/-- Settles O12: every change request that the port passes goes through the Authority Unit's step. -/
theorem changesNeedAuthority : Obligations.ChangesNeedAuthority := by
  intro i p q s hr hu hp hc ht ha
  obtain ⟨own, ho⟩ := exists_ownedBy hr hu
  obtain ⟨own', rfl⟩ := ho.change hc hp
  refine replies_of_presents hr ho.presents ht (withAuthority_of_not_held ?_)
  rw [State.arrived_authority, ha]

/-! ## The catalogue (section 13.2, section 13.4) -/

/-- The lengths of the layout images by record kind. -/
theorem imageLength_iff (k n : Nat) : (∃ kind, RecordKind.ofCode k = some kind ∧ kind.imageLength = n) ↔
    [4, 13, 5, 2, 8][k]? = some n := by
  match k with
  | 0 | 1 | 2 | 3 | 4 => simp [RecordKind.ofCode, RecordKind.imageLength]
  | k + 5 => simp [RecordKind.ofCode]

/-- Whether argument bytes have the length an entry of the catalogue requires. -/
def lengthFits (e : RequestCode × Nat) (args : List Byte) : Prop :=
  match e.1 with
  | .loadLayoutRecord => ∃ kind image, args = kind :: image ∧ [4, 13, 5, 2, 8][kind.toNat]? = some image.length
  | _ => args.length = e.2

/-- No two entries of the catalogue have one code. -/
theorem catalogue_distinct : catalogue.Pairwise (fun a b => a.1.code ≠ b.1.code) := by decide

/-- In a list whose keys are distinct a search by key finds the entry with it. -/
theorem find?_eq_some_of_distinct {α β : Type} [DecidableEq β] {key : α → β} {l : List α}
    (h : l.Pairwise (fun a b => key a ≠ key b)) {e : α} (he : e ∈ l) : l.find? (fun a => decide (key a = key e)) = some e := by
  induction l with
  | nil => cases he
  | cons a l ih =>
    obtain ⟨ha, hl⟩ := List.pairwise_cons.mp h
    rcases List.mem_cons.mp he with rfl | he
    · exact List.find?_cons_of_pos (by simp)
    · rw [List.find?_cons_of_neg (by simp [ha e he]), ih hl he]

theorem portPasses_of_entry {code : Byte} {args : List Byte} {e : RequestCode × Nat} (he : e ∈ catalogue) (hc : e.1.code = code) :
    portPasses code args = true ↔ lengthFits e args := by
  have hf : catalogue.find? (fun a => decide (a.1.code = code)) = some e := hc ▸ find?_eq_some_of_distinct catalogue_distinct he
  unfold portPasses lengthFits
  rw [hf]
  obtain ⟨c, n⟩ := e
  cases c with
  | loadLayoutRecord =>
    have hn : n = 1 := by simpa [catalogue] using he
    subst hn
    cases args with
    | nil => simp
    | cons kind image =>
      have hlen : (∃ kind' image', kind :: image = kind' :: image' ∧ [4, 13, 5, 2, 8][kind'.toNat]? = some image'.length) ↔
          ∃ k, RecordKind.ofCode kind.toNat = some k ∧ k.imageLength = image.length := by
        rw [imageLength_iff]
        refine ⟨fun ⟨_, _, he, hl⟩ => ?_, fun hl => ⟨_, _, rfl, hl⟩⟩
        obtain ⟨rfl, rfl⟩ := List.cons.inj he
        exact hl
      refine Iff.trans ?_ hlen.symm
      dsimp only
      cases RecordKind.ofCode kind.toNat with
      | none => simp
      | some k =>
        have hadd : (kind :: image).length = 1 + k.imageLength ↔ k.imageLength = image.length := by
          rw [List.length_cons]; omega
        simp only [decide_eq_true_iff, Option.some.injEq, exists_eq_left', hadd]
  | _ => exact decide_eq_true_iff

theorem portPasses_iff (code : Byte) (args : List Byte) :
    portPasses code args = true ↔ ∃ e, e ∈ catalogue ∧ e.1.code = code ∧ lengthFits e args := by
  constructor
  · intro h
    cases hf : catalogue.find? (fun e => decide (e.1.code = code)) with
    | none => unfold portPasses at h; rw [hf] at h; cases h
    | some e =>
      have he := List.mem_of_find?_eq_some hf
      have hc : e.1.code = code := by simpa using List.find?_some hf
      exact ⟨e, he, hc, (portPasses_of_entry he hc).mp h⟩
  · rintro ⟨e, he, hc, hl⟩
    exact (portPasses_of_entry he hc).mpr hl

/-- The codes of section 13.2 with their argument lengths, but for LOAD LAYOUT RECORD, whose length depends on its kind. -/
def codesWithLengths : List (Nat × Nat) :=
  [(0x01, 0), (0x02, 1), (0x03, 2), (0x04, 1), (0x05, 0), (0x06, 0), (0x07, 0), (0x08, 1), (0x09, 1), (0x0A, 2), (0x0B, 0)] ++
  [(0x10, 0), (0x12, 0), (0x13, 0), (0x14, 0), (0x15, 0), (0x16, 2), (0x20, 2), (0x21, 1), (0x22, 2), (0x23, 0), (0x28, 1)] ++
  [(0x29, 1), (0x2A, 1), (0x2B, 1), (0x30, 2), (0x31, 1), (0x32, 0), (0x34, 2), (0x38, 0), (0x39, 1), (0x3A, 2), (0x3B, 0)] ++
  [(0x40, 0), (0x41, 0), (0x42, 0), (0x48, 4), (0x49, 1), (0x4A, 2)]

theorem codesWithLengths_eq : codesWithLengths =
    (catalogue.filter (fun e => decide (e.1 ≠ .loadLayoutRecord))).map (fun e => (e.1.code.toNat, e.2)) := by decide

theorem mem_codesWithLengths (code : Byte) (n : Nat) : (code.toNat, n) ∈ codesWithLengths ↔
    ∃ e, e ∈ catalogue ∧ e.1 ≠ .loadLayoutRecord ∧ e.1.code = code ∧ e.2 = n := by
  rw [codesWithLengths_eq, List.mem_map]
  constructor
  · rintro ⟨e, he, h⟩
    obtain ⟨he, hne⟩ := List.mem_filter.mp he
    obtain ⟨hc, hn⟩ := Prod.mk.inj h
    exact ⟨e, he, of_decide_eq_true hne, BitVec.eq_of_toNat_eq hc, hn⟩
  · rintro ⟨e, he, hne, rfl, rfl⟩
    exact ⟨e, List.mem_filter.mpr ⟨he, decide_eq_true hne⟩, rfl⟩

theorem lengthFits_of_ne {e : RequestCode × Nat} (h : e.1 ≠ .loadLayoutRecord) (args : List Byte) :
    lengthFits e args ↔ args.length = e.2 := by
  obtain ⟨c, n⟩ := e
  cases c with
  | loadLayoutRecord => exact absurd rfl h
  | _ => exact Iff.rfl

theorem portPasses_iff_listed (code : Byte) (args : List Byte) : portPasses code args = true ↔
    (code.toNat, args.length) ∈ codesWithLengths ∨
    (code = 0x11 ∧ ∃ kind image, args = kind :: image ∧ [4, 13, 5, 2, 8][kind.toNat]? = some image.length) := by
  rw [portPasses_iff, mem_codesWithLengths]
  constructor
  · rintro ⟨e, he, hc, hl⟩
    by_cases hne : e.1 = .loadLayoutRecord
    · obtain ⟨c, n⟩ := e
      subst hne
      exact .inr ⟨hc.symm, hl⟩
    · exact .inl ⟨e, he, hne, hc, ((lengthFits_of_ne hne args).mp hl).symm⟩
  · rintro (⟨e, he, hne, hc, hn⟩ | ⟨rfl, hl⟩)
    · exact ⟨e, he, hc, (lengthFits_of_ne hne args).mpr hn.symm⟩
    · exact ⟨(.loadLayoutRecord, 1), by decide, rfl, hl⟩

/-- Settles O11: the waiting of a request, the refusal of one the port does not pass, and the catalogue code by code. -/
theorem requestsAreTakenInTheirTurn : Obligations.RequestsAreTakenInTheirTurn :=
  ⟨fun _ _ _ _ => exec_waiting, fun _ _ _ _ _ => unknownRequestCode_replies, portPasses_iff_listed⟩

end Sys2Proof.Machine

namespace Sys2Proof.Machine

/-! # The circuit layout and the store (spec 01) -/

/-! ## Conditions as the statements spell them -/

theorem holder_isSome_iff (s : State) (z : Nat) : (s.holder z).isSome = true ↔ s.holder z ≠ none := Option.isSome_iff_ne_none

theorem trainUnderWay_iff (s : State) : s.trainUnderWay = true ↔
    ∃ e, e ∈ s.trains ∧ (e.2.motion = .cleared ∨ e.2.motion = .moving ∨ e.2.motion = .recovering) := by
  simp only [State.trainUnderWay, List.any_eq_true, Bool.or_eq_true, decide_eq_true_eq, or_assoc]

/-! ## ENTER CONFIG (R10) -/

/-- Settles O14: the owner's answer in each circuit state. -/
theorem enterConfigDiscardsTheLiveTables : Obligations.EnterConfigDiscardsTheLiveTables := by
  intro p tag s h
  refine h.replies (own := State.ownEnterConfig) rfl rfl fun u _ => ?_
  unfold State.ownEnterConfig
  simp only [trainUnderWay_iff]
  cases u.circuit <;> dsimp only <;> (repeat' split) <;> rfl

/-! ## STORE LAYOUT (R17) -/

theorem live_eq_true_iff (s : State) : s.live = true ↔ ¬(s.circuit = .unconfigured ∨ s.circuit = .config) := by
  unfold State.live
  cases s.circuit <;> simp [CircuitState.live]

/-- Settles O18: the owner's three cases, and the completion of the write. -/
theorem theStoreTakesTheCommittedLayout : Obligations.TheStoreTakesTheCommittedLayout := by
  refine ⟨fun p tag s h => ?_, fun s h => ?_⟩
  · refine h.replies (own := State.ownStoreLayout) rfl rfl fun u _ => ?_
    unfold State.ownStoreLayout
    simp only [live_eq_true_iff, ite_not]
    (repeat' split) <;> rfl
  · rw [exec_running (fun _ => rfl) h]

/-! ## REMAP NODE (R148) -/

theorem mem_affectedZones {l : Layout} (h : l.Canonical) (n z : Nat) : z ∈ l.affectedZones n ↔ l.zones.find z ≠ none ∧
    ((∃ g r, l.gates.find g = some r ∧ (r.src = z ∨ r.dst = z) ∧ r.node = n) ∨
     (∃ q c, l.zones.find z = some q ∧ q.permit = some (n, c))) := by
  unfold Layout.affectedZones
  rw [List.mem_filter, mem_zoneKeys, decide_eq_true_iff, mem_servingNodes h]

/-- The conditions of the owner in turn, as the statement has them. -/
theorem ownRemapNode_eq (n a : Nat) (s : State) : s.ownRemapNode n a =
    if s.live = false then s.answered .refusedState
    else if s.authority ≠ .maintenance then s.answered .refusedState
    else if ¬(n < 24 ∧ 1 ≤ a ∧ a ≤ 31) then s.answered .refusedRange
    else if s.layout.mapped n = false ∨ s.linked n = true then s.answered .refusedState
    else if ∃ e, e ∈ s.layout.nodes ∧ e.1 ≠ n ∧ e.2 = a then s.answered .refusedState
    else if ∃ z, z ∈ s.layout.affectedZones n ∧ s.holder z ≠ none then s.answered .refusedHeld
    else if ∃ z, z ∈ s.layout.affectedZones n ∧ s.zoneState z ≠ some .suspect ∧ s.zoneState z ≠ some .outOfService
      then s.answered .refusedState
    else (s.remapped n a).done := by
  unfold State.ownRemapNode
  simp only [Bool.not_eq_true', Bool.or_eq_true, List.any_eq_true, Bool.and_eq_true, decide_eq_true_eq, holder_isSome_iff]
  rfl

/-- Settles O20: the conditions of the owner in their order, and the zones it asks about. -/
theorem remapNodeNeedsItsZonesOutOfUse : Obligations.RemapNodeNeedsItsZonesOutOfUse := by
  refine ⟨fun l n z hl => ⟨mapped_iff l n, mem_affectedZones hl n z⟩, fun p tag node address s h => ?_⟩
  refine h.replies (own := State.ownRemapNode node.toNat address.toNat) rfl rfl fun u _ => ?_
  rw [ownRemapNode_eq]
  dsimp only
  (repeat' split) <;> rfl

/-! ## Layout images (R2 to R6, R166, section 13.4) -/

theorem withDefault_eq (v : Byte) (d : Nat) : withDefault v.toNat d = if v = 0 then d else v.toNat := by
  unfold withDefault
  simp only [← BitVec.toNat_inj]
  rfl

theorem circuitRecord_of_image (n timeout up down : Byte) : recordOfImage 0 [n, timeout, up, down] =
    let unless0 := fun (v : Byte) (d : Nat) => if v = 0 then d else v.toNat
    if 2 ≤ n.toNat ∧ n.toNat ≤ 32 ∧ timeout.toNat ≤ 15 ∧ up.toNat ≤ 7 ∧ down.toNat ≤ 7
    then some (.circuit ⟨n.toNat, unless0 timeout 4, unless0 up 3, unless0 down 2⟩) else none := by
  dsimp only
  rw [← withDefault_eq, ← withDefault_eq, ← withDefault_eq]
  rfl

/-- A byte's value is a number exactly when it is that number's byte. -/
theorem toNat_eq_iff (b : Byte) {n : Nat} (h : n < 256) : b = byte n ↔ b.toNat = n := by
  rw [← BitVec.toNat_inj, BitVec.toNat_ofNat, Nat.mod_eq_of_lt h]

theorem specOfImage_eq (kind m1 m0 x1 x0 h1 h0 limit crest : Byte) :
    specOfImage kind m1 m0 x1 x0 h1 h0 limit crest =
      if kind = 0 then some .station
      else if kind = 1 then some .storage
      else if kind = 2 then some .lift
      else if kind = 3 then
        if 100 ≤ half h1 h0 ∧ limit.toNat ≤ 3 ∧ crest.toNat < 48 then some (.launch (half h1 h0) limit.toNat crest.toNat) else none
      else if kind = 4 then some .brake
      else if kind = 5 then some .transfer
      else if kind = 6 then some (.run (half m1 m0) (half x1 x0))
      else none := by
  have hk (n : Nat) (hn : n < 256) : kind = BitVec.ofNat 8 n ↔ kind.toNat = n := toNat_eq_iff kind hn
  simp only [show kind = 0 ↔ kind.toNat = 0 from hk 0 (by decide), show kind = 1 ↔ kind.toNat = 1 from hk 1 (by decide),
    show kind = 2 ↔ kind.toNat = 2 from hk 2 (by decide), show kind = 3 ↔ kind.toNat = 3 from hk 3 (by decide),
    show kind = 4 ↔ kind.toNat = 4 from hk 4 (by decide), show kind = 5 ↔ kind.toNat = 5 from hk 5 (by decide),
    show kind = 6 ↔ kind.toNat = 6 from hk 6 (by decide)]
  unfold specOfImage
  match kind.toNat with
  | 0 | 1 | 2 | 3 | 4 | 5 | 6 => rfl
  | n + 7 => simp

theorem forkOfCode_eq (f : Byte) : Fork.ofCode f.toNat = if f.toNat ≤ 1 then some (if f = 0 then .entry else .exit) else none := by
  rw [ite_of_iff (show f = 0 ↔ f.toNat = 0 from toNat_eq_iff f (by decide))]
  match f.toNat with
  | 0 | 1 => rfl
  | n + 2 => simp [Fork.ofCode]

/-- A switch image gives a record where its fork side is 0 or 1 and its other fields are in range. -/
theorem switchRecord_of_image (k zone fork main branch node t1 t0 : Byte) :
    recordOfImage 4 [k, zone, fork, main, branch, node, t1, t0] =
      if k.toNat < 4 ∧ zone.toNat < 32 ∧ fork.toNat ≤ 1 ∧ main.toNat < 48 ∧ branch.toNat < 48 ∧ node.toNat < 24 ∧ 500 ≤ half t1 t0
      then some (.switch k.toNat ⟨zone.toNat, if fork = 0 then .entry else .exit, main.toNat, branch.toNat, node.toNat, half t1 t0⟩)
      else none := by
  change (match Fork.ofCode fork.toNat with
    | some fk =>
      if k.toNat < 4 ∧ zone.toNat < 32 ∧ main.toNat < 48 ∧ branch.toNat < 48 ∧ node.toNat < 24 ∧ 500 ≤ half t1 t0
      then some (Record.switch k.toNat ⟨zone.toNat, fk, main.toNat, branch.toNat, node.toNat, half t1 t0⟩) else none
    | none => none) = _
  rw [forkOfCode_eq]
  by_cases hf : fork.toNat ≤ 1
  · simp only [hf, if_true, true_and]
  · simp only [hf, if_false, false_and, and_false]

/-- An image of a kind there is not, or of another length than its kind has, gives no record. -/
theorem no_record_of_length {kind : Byte} {image : List Byte} (h : [4, 13, 5, 2, 8][kind.toNat]? ≠ some image.length) :
    recordOfImage kind image = none := by
  have hlen (k : RecordKind) (hk : RecordKind.ofCode kind.toNat = some k) : k.imageLength ≠ image.length :=
    fun e => h ((imageLength_iff _ _).mp ⟨k, hk, e⟩)
  unfold recordOfImage
  split
  next hk => exact absurd rfl (hlen _ hk)
  next hk => exact absurd rfl (hlen _ hk)
  next hk => exact absurd rfl (hlen _ hk)
  next hk => exact absurd rfl (hlen _ hk)
  next hk => exact absurd rfl (hlen _ hk)
  next => rfl

/-- What a table put under a key finds, for the four tables of the layout (R11). -/
theorem store_changes_its_key (l : Layout) (k : Nat) :
    (∀ r, l.store (.circuit r) = { l with circuit := some r }) ∧
    (∀ r, ∃ zones, l.store (.zone k r) = { l with zones := zones } ∧ ∀ j, zones.find j = if j = k then some r else l.zones.find j) ∧
    (∀ r, ∃ gates, l.store (.gate k r) = { l with gates := gates } ∧ ∀ j, gates.find j = if j = k then some r else l.gates.find j) ∧
    (∀ a, ∃ nodes, l.store (.node k a) = { l with nodes := nodes } ∧ ∀ j, nodes.find j = if j = k then some a else l.nodes.find j) ∧
    (∀ r, ∃ switches, l.store (.switch k r) = { l with switches := switches } ∧
      ∀ j, switches.find j = if j = k then some r else l.switches.find j) :=
  ⟨fun _ => rfl, fun r => ⟨_, rfl, Table.find_put l.zones k r⟩, fun r => ⟨_, rfl, Table.find_put l.gates k r⟩,
    fun a => ⟨_, rfl, Table.find_put l.nodes k a⟩, fun r => ⟨_, rfl, Table.find_put l.switches k r⟩⟩

/-- LOAD LAYOUT RECORD, first by the port's step, then by its owner (R11, R164). -/
theorem loadLayoutRecord_replies {p : Port} {tag kind : Byte} {image : List Byte} {s : State}
    (h : Allowed (.loadLayoutRecord p tag kind image) s) :
    Replies (.loadLayoutRecord p tag kind image) s (fun u =>
      if portPasses 0x11 (kind :: image) = false then (u, .refusedRange, [])
      else if u.circuit ≠ .config then (u, .refusedState, [])
      else
        match recordOfImage kind image with
        | none => (u, .refusedRange, [])
        | some r => ({ u with layout := u.layout.store r }, .done, [])) := by
  obtain ⟨p', q, hr, ht, ha⟩ := h
  cases hr
  refine replies_of_presents rfl (fun _ => rfl) ht ?_
  have hown : (State.arrived p ⟨tag, 0x11, kind :: image⟩ s).authority.heldBy p = true := by rw [State.arrived_authority, ha]
  generalize State.arrived p ⟨tag, 0x11, kind :: image⟩ s = u at hown
  change (if portPasses 0x11 (kind :: image) then withAuthority p (State.ownLoadLayoutRecord kind image)
    else fun s => s.answered .refusedRange) u = _
  cases portPasses 0x11 (kind :: image) with
  | false => rfl
  | true =>
    rw [if_pos rfl, withAuthority_of_held hown]
    unfold State.ownLoadLayoutRecord
    by_cases hc : u.circuit = .config
    · simp only [hc, if_true, ne_eq, not_true_eq_false, if_false, reduceCtorEq]
      cases recordOfImage kind image <;> rfl
    · simp only [hc, if_false, ne_eq, not_false_eq_true, if_true, reduceCtorEq]
      rfl

/-- Settles O15: the reply, the table a record is stored in, and each kind of image. -/
theorem layoutRecordsLoadInConfig : Obligations.LayoutRecordsLoadInConfig := by
  refine ⟨fun p tag kind image s h => loadLayoutRecord_replies h, store_changes_its_key, circuitRecord_of_image,
    fun k kind group node channel m1 m0 x1 x0 h1 h0 limit crest => ?_, fun _ _ _ _ _ => rfl, fun _ _ => rfl,
    switchRecord_of_image, fun _ _ => no_record_of_length⟩
  refine Eq.trans (b := match permitOfImage node channel, specOfImage kind m1 m0 x1 x0 h1 h0 limit crest with
    | some permit, some spec => if k.toNat < 32 ∧ group.toNat ≤ 3 then some (.zone k.toNat ⟨spec, group.toNat, permit⟩) else none
    | _, _ => none) rfl ?_
  rw [specOfImage_eq]
  rfl

/-! ## COMMIT LAYOUT: the first check that fails (R13, R14, R15) -/

/-- The failure is of a record that does not pass, and all records that come before it pass: in lower checks from check `n`, and
in its own check those of lower kinds and those of its kind with lower keys. Where there is none all pass. -/
def FirstFrom (l : Layout) (n : Nat) : Option CheckFailure → Prop
  | none => ∀ c k j, n ≤ c → l.Passes c k j
  | some f => n ≤ f.check ∧ ¬l.Passes f.check f.kind f.key ∧ (∀ c k j, n ≤ c → c < f.check → l.Passes c k j) ∧
      ∀ k j, k.code < f.kind.code ∨ (k = f.kind ∧ j < f.key) → l.Passes f.check k j

section FirstFailure

variable {l : Layout}

theorem firstFrom_none_11 : FirstFrom l 11 none := fun c k j h => by
  obtain ⟨m, rfl⟩ := Nat.exists_eq_add_of_le' h
  exact trivial

/-- A check that names nothing leaves the first failure to the checks after it. -/
theorem FirstFrom.step {n : Nat} {o₁ o₂ : Option CheckFailure} (h₁ : Named n (l.Passes n) o₁) (h₂ : FirstFrom l (n + 1) o₂) :
    FirstFrom l n (o₁.or o₂) := by
  have lower {P : Nat → Prop} {c : Nat} (hn : P n) (ha : n + 1 ≤ c → P c) (h : n ≤ c) : P c :=
    (Nat.eq_or_lt_of_le h).elim (fun e => e ▸ hn) ha
  cases o₁ with
  | some f =>
    obtain ⟨rfl, hf, hb⟩ := h₁
    exact ⟨Nat.le_refl _, hf, fun c _ _ h h' => absurd h' (Nat.not_lt.mpr h), hb⟩
  | none =>
    cases o₂ with
    | none => exact fun c k j h => lower (P := fun c => l.Passes c k j) (h₁ k j) (h₂ c k j) h
    | some f =>
      obtain ⟨hn, hf, hc, hb⟩ := h₂
      exact ⟨Nat.le_of_succ_le hn, hf, fun c k j h h' =>
        lower (P := fun c => l.Passes c k j) (h₁ k j) (fun h => hc c k j h h') h, hb⟩

theorem firstFrom_invalid (h : l.Canonical) : FirstFrom l 1 l.invalid := by
  have h10 : FirstFrom l 10 l.check10 := Option.or_none (o := l.check10) ▸ FirstFrom.step (check10_named h) firstFrom_none_11
  exact .step check1_named (.step (check2_named h) (.step (check3_named h) (.step (check4_named h) (.step (check5_named h)
    (.step (check6_named h) (.step (check7_named h) (.step (check8_named h) (.step (check9_named h) h10))))))))

/-- There is no check 0, so what holds from check 1 holds of every check. -/
theorem passes_of_from_one {c : Nat} {k : RecordKind} {j : Nat} (h : 1 ≤ c → l.Passes c k j) : l.Passes c k j := by
  cases c with
  | zero => exact trivial
  | succ c => exact h (Nat.le_add_left 1 c)

theorem RecordKind.code_injective {a b : RecordKind} (h : a.code = b.code) : a = b := by
  revert h; cases a <;> cases b <;> decide

/-- What fails comes no later than a failure before which all passes. -/
theorem not_before {f g : CheckFailure} (hf : ¬l.Passes f.check f.kind f.key) (hc : ∀ c k j, c < g.check → l.Passes c k j)
    (hb : ∀ k j, k.code < g.kind.code ∨ (k = g.kind ∧ j < g.key) → l.Passes g.check k j) :
    g.check ≤ f.check ∧ (f.check = g.check → g.kind.code ≤ f.kind.code ∧ (f.kind = g.kind → g.key ≤ f.key)) :=
  ⟨Nat.not_lt.mp fun h => hf (hc _ _ _ h), fun e =>
    ⟨Nat.not_lt.mp fun h => hf (e ▸ hb _ _ (.inl h)), fun ek => Nat.not_lt.mp fun h => hf (e ▸ hb _ _ (.inr ⟨ek, h⟩))⟩⟩

/-- There is one first failure. -/
theorem first_unique {f g : CheckFailure} (hf : ¬l.Passes f.check f.kind f.key) (hcf : ∀ c k j, c < f.check → l.Passes c k j)
    (hbf : ∀ k j, k.code < f.kind.code ∨ (k = f.kind ∧ j < f.key) → l.Passes f.check k j)
    (hg : ¬l.Passes g.check g.kind g.key) (hcg : ∀ c k j, c < g.check → l.Passes c k j)
    (hbg : ∀ k j, k.code < g.kind.code ∨ (k = g.kind ∧ j < g.key) → l.Passes g.check k j) : f = g := by
  obtain ⟨hc, hk⟩ := not_before hf hcg hbg
  obtain ⟨hc', hk'⟩ := not_before hg hcf hbf
  have ec : f.check = g.check := Nat.le_antisymm hc' hc
  have ek : f.kind = g.kind := RecordKind.code_injective (Nat.le_antisymm (hk' ec.symm).1 (hk ec).1)
  have ej : f.key = g.key := Nat.le_antisymm ((hk' ec.symm).2 ek.symm) ((hk ec).2 ek)
  cases f; cases g
  simp only at ec ek ej
  rw [ec, ek, ej]

theorem invalid_none_iff (h : l.Canonical) : l.invalid = none ↔ ∀ check kind key, l.Passes check kind key := by
  have hi := firstFrom_invalid h
  refine ⟨fun e c k j => ?_, fun ha => ?_⟩
  · rw [e] at hi
    exact passes_of_from_one (hi c k j)
  · cases e : l.invalid with
    | none => rfl
    | some f => rw [e] at hi; exact absurd (ha _ _ _) hi.2.1

theorem invalid_some_iff (h : l.Canonical) (f : CheckFailure) : l.invalid = some f ↔
    ¬l.Passes f.check f.kind f.key ∧ (∀ check kind key, check < f.check → l.Passes check kind key) ∧
    ∀ kind key, kind.code < f.kind.code ∨ (kind = f.kind ∧ key < f.key) → l.Passes f.check kind key := by
  have first {g : CheckFailure} (e : l.invalid = some g) : ¬l.Passes g.check g.kind g.key ∧
      (∀ check kind key, check < g.check → l.Passes check kind key) ∧
      ∀ kind key, kind.code < g.kind.code ∨ (kind = g.kind ∧ key < g.key) → l.Passes g.check kind key := by
    obtain ⟨_, hg, hc, hb⟩ := (e ▸ firstFrom_invalid h : FirstFrom l 1 (some g))
    exact ⟨hg, fun c k j hlt => passes_of_from_one fun h1 => hc c k j h1 hlt, hb⟩
  refine ⟨first, fun ⟨hf, hc, hb⟩ => ?_⟩
  cases e : l.invalid with
  | none => exact absurd ((invalid_none_iff h).mp e _ _ _) hf
  | some g =>
    obtain ⟨hg, hcg, hbg⟩ := first e
    rw [first_unique hg hcg hbg hf hc hb]

end FirstFailure

/-- Settles O17: the failure COMMIT_LAYOUT names is the first, and its owner builds the tables where there is none. -/
theorem commitLayoutBuildsTheLiveTables : Obligations.CommitLayoutBuildsTheLiveTables := by
  refine ⟨fun l h => ⟨invalid_none_iff h, invalid_some_iff h⟩, fun p tag s h => ?_⟩
  refine h.replies (own := State.ownCommitLayout) rfl rfl fun u _ => ?_
  unfold State.ownCommitLayout
  by_cases hc : u.circuit = .config
  · simp only [hc, if_true, ne_eq, not_true_eq_false, if_false]
    cases u.layout.invalid <;> rfl
  · simp only [hc, if_false, ne_eq, not_false_eq_true, if_true]
    rfl

end Sys2Proof.Machine

namespace Sys2Proof.Machine

/-! ## Effects and owners -/

/-- An owner's outcome that carries out an effect: its records, and the reply of its result and body. -/
def replied (e : State × Result × List Byte) : State × Answer := (e.1, .reply e.2.1 e.2.2)

/-! # Trains (spec 04, spec 11) -/

/-! ## Slots, stoppable zones and switches, as conditions over the records -/

/-- The slots are searched from 1 up. -/
theorem emptySlot_eq (s : State) : s.emptySlot =
    ((List.range 12).find? (fun i => (s.trains.find (i + 1)).isNone)).map (fun i => i + 1) := by
  unfold State.emptySlot
  rw [List.find?_map]
  rfl

theorem emptySlot_lowest {s : State} {t : Nat} (h : s.emptySlot = some t) {v : Nat} (h1 : 1 ≤ v) (hv : v < t) :
    (s.trains.find v).isSome = true := by
  rw [emptySlot_eq, Option.map_eq_some_iff] at h
  obtain ⟨i, hi, rfl⟩ := h
  obtain ⟨w, rfl⟩ := Nat.exists_eq_add_of_le' h1
  have hlow := (List.find?_range_eq_some.mp hi).2.2 w (Nat.lt_of_succ_lt_succ hv)
  rwa [Bool.not_eq_true', Option.isNone_eq_false_iff] at hlow

theorem emptySlot_eq_none (s : State) : s.emptySlot = none ↔ ∀ v, 1 ≤ v → v ≤ 12 → (s.trains.find v).isSome = true := by
  rw [emptySlot_eq, Option.map_eq_none_iff, List.find?_eq_none]
  refine ⟨fun h v h1 h2 => ?_, fun h i hi => ?_⟩
  · obtain ⟨w, rfl⟩ := Nat.exists_eq_add_of_le' h1
    have hw := h w (List.mem_range.mpr h2)
    rwa [Option.isNone_iff_eq_none, ← ne_eq, ← Option.isSome_iff_ne_none] at hw
  · have hs := h (i + 1) (Nat.le_add_left 1 i) (List.mem_range.mp hi)
    rw [Option.isNone_iff_eq_none]
    exact Option.isSome_iff_ne_none.mp hs

theorem stoppableCount_eq {l : Layout} (h : l.Canonical) :
    l.stoppableCount = (l.zones.filter (fun e => decide (e.2.spec.kind ≠ .run))).length := by
  unfold Layout.stoppableCount Table.keys
  rw [List.filter_map, List.length_map]
  refine congrArg List.length (List.filter_congr fun e he => ?_)
  have hz : l.zones.find e.1 = some e.2 := Table.find_of_mem h.1 he
  rw [Bool.eq_iff_iff, decide_eq_true_iff]
  exact (stoppable_iff l e.1).trans (by simp [kindOf_of_find hz])

theorem switchPosition_isSome (w : Table Switch) (k : Nat) : (switchPosition w k).isSome = true ↔
    ∃ x, w.find k = some x ∧ (x.state = .setMain ∨ x.state = .setBranch) := by
  unfold switchPosition
  cases w.find k with
  | none => simp
  | some x => simp [SwitchState.position_isSome]

theorem switchSet_iff {s : State} (h : s.layout.Canonical) (z : Nat) : s.switchSet z = true ↔ (s.layout.kindOf z = some .transfer →
    ∃ k r w, s.layout.Switched z k r ∧ s.switches.find k = some w ∧ (w.state = .setMain ∨ w.state = .setBranch)) := by
  have hany : (s.layout.switchOf z).any (fun e => (switchPosition s.switches e.1).isSome) = true ↔
      ∃ k r w, s.layout.Switched z k r ∧ s.switches.find k = some w ∧ (w.state = .setMain ∨ w.state = .setBranch) := by
    simp only [Option.any_eq_true, switchPosition_isSome, Prod.exists, switchOf_iff h, ← exists_and_left]
  unfold State.switchSet
  by_cases hk : s.layout.isKind z .transfer = true
  · rw [if_pos hk, hany]
    exact (imp_iff_right ((isKind_iff _ _ _).mp hk)).symm
  · rw [if_neg hk]
    exact iff_of_true rfl fun h => absurd ((isKind_iff _ _ _).mpr h) hk

theorem isKind_eq_false_iff (l : Layout) (z : Nat) (k : ZoneKind) : l.isKind z k = false ↔ l.kindOf z ≠ some k := by
  rw [← Bool.not_eq_true, isKind_iff]

theorem trainInRange_iff (t : Nat) : trainInRange t = true ↔ 1 ≤ t ∧ t ≤ 12 := by
  unfold trainInRange
  rw [Bool.and_eq_true, decide_eq_true_iff, decide_eq_true_iff]
  rfl

theorem trainInRange_eq_false_iff (t : Nat) : trainInRange t = false ↔ ¬(1 ≤ t ∧ t ≤ 12) := by
  rw [← Bool.not_eq_true, trainInRange_iff]

/-! ## PLACE TRAIN (R57, R136) -/

/-- The last conditions of PLACE TRAIN: an empty slot, and a stoppable zone to spare. -/
theorem placeIn_eq (s : State) (tag : Byte) (z : Nat) : s.placeIn tag z =
    match s.emptySlot with
    | none => s.answered .refusedFull
    | some t => if s.layout.stoppableCount ≤ s.trains.length + 1 then s.answered .refusedState else (s.placed t tag z, .reply .done [byte t]) := by
  unfold State.placeIn State.noSpareZone
  cases s.emptySlot <;> simp only [decide_eq_true_eq]

/-- The owner of PLACE TRAIN in census and outside it, with the train seated as the model names it. -/
theorem ownPlaceTrain_eq (tag : Byte) (z : Nat) (u : State) : u.ownPlaceTrain tag z = replied (
    let last :=
      match u.emptySlot with
      | none => (u, Result.refusedFull, [])
      | some t => if u.layout.stoppableCount ≤ u.trains.length + 1 then (u, .refusedState, []) else (u.placed t tag z, .done, [byte t])
    match u.circuit with
    | .unconfigured => (u, .refusedState, [])
    | .config => (u, .refusedState, [])
    | .census =>
      if u.layout.zoneCount ≤ z then (u, .refusedRange, [])
      else if u.layout.stoppable z = false then (u, .refusedState, [])
      else if u.holder z ≠ none then (u, .refusedHeld, [])
      else if u.zoneState z ≠ some .free ∧ u.zoneState z ≠ some .suspect then (u, .refusedState, [])
      else if u.nodesLinked z = false then (u, .refusedState, [])
      else if u.switchSet z = false then (u, .refusedState, [])
      else last
    | _ =>
      if u.authority ≠ .maintenance then (u, .refusedState, [])
      else if u.layout.zoneCount ≤ z then (u, .refusedRange, [])
      else if u.layout.kindOf z ≠ some .storage then (u, .refusedState, [])
      else if u.holder z ≠ none then (u, .refusedHeld, [])
      else if u.zoneState z ≠ some .free then (u, .refusedState, [])
      else if u.nodesLinked z = false then (u, .refusedState, [])
      else last) := by
  unfold State.ownPlaceTrain State.placeInCensus State.placeInMaintenance
  simp only [Bool.not_eq_true', holder_isSome_iff, isKind_eq_false_iff, placeIn_eq]
  cases u.circuit with
  | unconfigured | config => rfl
  | census | operating | halted => cases u.emptySlot <;> simp only [apply_ite replied] <;> rfl

/-- Settles O21: the slots, the counts and the switch over the records, then the owner's conditions in their order. -/
theorem placeTrainSeatsANewTrain : Obligations.PlaceTrainSeatsANewTrain :=
  ⟨fun _ _ h => ⟨(emptySlot_spec h).1, (emptySlot_spec h).2.1, (emptySlot_spec h).2.2, fun _ => emptySlot_lowest h⟩, emptySlot_eq_none,
    fun _ => stoppableCount_eq, fun _ z h => switchSet_iff h z, fun _ _ trainTag zone _ h =>
      h.replies (own := State.ownPlaceTrain trainTag zone.toNat) rfl rfl fun u _ => ownPlaceTrain_eq trainTag zone.toNat u⟩

/-! ## WITHDRAW TRAIN (R58, R137) -/

/-- A train stands in storage where its hold list is one STORAGE zone. -/
theorem standsInStorage_eq_false_iff (s : State) (r : Train) : s.standsInStorage r = false ↔
    ¬(r.hold.length = 1 ∧ ∀ z, z ∈ r.hold → s.layout.kindOf z = some .storage) := by
  unfold State.standsInStorage
  match r.hold with
  | [] => simp
  | [z] => simp [isKind_eq_false_iff]
  | _ :: _ :: _ => simp

/-- The owner of WITHDRAW TRAIN outside census and in it, with the train's record taken away as the model names it. -/
theorem ownWithdrawTrain_eq (t : Nat) (u : State) : u.ownWithdrawTrain t = replied (
    match u.circuit with
    | .unconfigured => (u, .refusedState, [])
    | .config => (u, .refusedState, [])
    | .census =>
      if ¬(1 ≤ t ∧ t ≤ 12) then (u, .refusedRange, [])
      else
        match u.trains.find t with
        | none => (u, .refusedState, [])
        | some r => if r.motion ≠ .standing then (u, .refusedState, []) else (u.withdrawn t (Zone.leave .suspect), .done, [])
    | _ =>
      if u.authority ≠ .maintenance then (u, .refusedState, [])
      else if ¬(1 ≤ t ∧ t ≤ 12) then (u, .refusedRange, [])
      else
        match u.trains.find t with
        | none => (u, .refusedState, [])
        | some r =>
          if r.motion ≠ .standing ∨ r.claim ≠ .none then (u, .refusedState, [])
          else if ¬(r.hold.length = 1 ∧ ∀ z, z ∈ r.hold → u.layout.kindOf z = some .storage) then (u, .refusedState, [])
          else ((u.withdrawn t Zone.released).evaluate, .done, [])) := by
  unfold State.ownWithdrawTrain State.withdrawInCensus State.withdrawInMaintenance
  simp only [Bool.not_eq_true', trainInRange_eq_false_iff, standsInStorage_eq_false_iff]
  cases u.circuit with
  | unconfigured | config => rfl
  | census | operating | halted => cases u.trains.find t <;> simp only [apply_ite replied] <;> rfl

/-- Settles O22: the owner's conditions in census and outside it. -/
theorem withdrawTrainRemovesAStandingTrain : Obligations.WithdrawTrainRemovesAStandingTrain :=
  fun _ _ train _ h => h.replies (own := State.ownWithdrawTrain train.toNat) rfl rfl fun u _ => ownWithdrawTrain_eq train.toNat u

/-! ## RELOCATE TRAIN (R59, R138) -/

theorem ZoneTimer.kept_running (st : ZoneState) (use : TimerUse) (n : Nat) (e : Expiry) : ZoneTimer.kept st (.running use n e) =
    if (use = .runTransit ∧ st = .occupied) ∨ (use = .trailingHold ∧ st = .trailing) then .running use n e else .idle := by
  cases use <;> simp [ZoneTimer.kept]

theorem Zone.leave_suspect (x : Zone) : Zone.leave .suspect x = { x with state := .suspect, holder := none, timer := .idle } := by
  unfold Zone.leave Zone.turn
  rw [ZoneTimer.kept_suspect]

/-- Relocation changes the train's record once: the relocated record with the claim dropped. -/
theorem relocated_eq (s : State) (t z : Nat) : s.relocated t z = State.sweep { s with
    zones := (s.zones.updAll ((s.heldBy t (s.holdOf t)).filter (fun y => decide (y ≠ z))) (Zone.leave .suspect)).upd z
      (Zone.give .occupied t)
    trains := s.trains.upd t (fun r => { r with motion := .standing, hold := [z], relaunches := 0, stepGrant := false, claim := .none })
    waitQueue := s.waitQueue.filter (fun d => decide (d.train ≠ t)) } := by
  unfold State.relocated State.dropClaim State.updTrain
  dsimp only
  rw [Table.upd_upd]
  rfl

theorem heldByAnother_iff (s : State) (t z : Nat) : (s.holder z).any (fun u => decide (u ≠ t)) = true ↔ ∃ v, s.holder z = some v ∧ v ≠ t := by
  simp only [Option.any_eq_true, decide_eq_true_eq]

theorem relocationRange_iff (s : State) (t z : Nat) : (!trainInRange t || decide (s.layout.zoneCount ≤ z)) = true ↔
    ¬(1 ≤ t ∧ t ≤ 12 ∧ z < s.layout.zoneCount) := by
  rw [Bool.or_eq_true, Bool.not_eq_true', trainInRange_eq_false_iff, decide_eq_true_iff]
  omega

/-- The conditions on the zone relocated to, and relocation (R59, R138). -/
def relocation (t z : Nat) (u : State) : State × Result × List Byte :=
  if u.layout.stoppable z = false then (u, Result.refusedState, [])
  else if ∃ v, u.holder z = some v ∧ v ≠ t then (u, .refusedHeld, [])
  else if u.holder z = none ∧ u.zoneState z ≠ some .free ∧ u.zoneState z ≠ some .suspect then (u, .refusedState, [])
  else if u.nodesLinked z = false then (u, .refusedState, [])
  else if u.switchSet z = false then (u, .refusedState, [])
  else (State.sweep { u with
    zones := (u.zones.updAll ((u.heldBy t (u.holdOf t)).filter (fun y => decide (y ≠ z))) (Zone.leave .suspect)).upd z
      (Zone.give .occupied t)
    trains := u.trains.upd t (fun r => { r with motion := .standing, hold := [z], relaunches := 0, stepGrant := false, claim := .none })
    waitQueue := u.waitQueue.filter (fun d => decide (d.train ≠ t)) }, .done, [])

theorem relocateTo_eq (s : State) (t z : Nat) : s.relocateTo t z = replied (relocation t z s) := by
  unfold State.relocateTo relocation
  rw [← relocated_eq]
  simp only [Bool.not_eq_true', heldByAnother_iff, apply_ite replied]
  rfl

theorem ownRelocateTrain_eq (t z : Nat) (u : State) : u.ownRelocateTrain t z = replied (
    match u.circuit with
    | .unconfigured => (u, .refusedState, [])
    | .config => (u, .refusedState, [])
    | .census =>
      if ¬(1 ≤ t ∧ t ≤ 12 ∧ z < u.layout.zoneCount) then (u, .refusedRange, [])
      else
        match u.trains.find t with
        | none => (u, .refusedState, [])
        | some r => if r.motion ≠ .standing ∧ r.motion ≠ .untracked then (u, .refusedState, []) else relocation t z u
    | _ =>
      if u.authority ≠ .maintenance then (u, .refusedState, [])
      else if ¬(1 ≤ t ∧ t ≤ 12 ∧ z < u.layout.zoneCount) then (u, .refusedRange, [])
      else
        match u.trains.find t with
        | none => (u, .refusedState, [])
        | some r => if r.motion ≠ .untracked ∧ r.motion.isStranded = false then (u, .refusedState, []) else relocation t z u) := by
  unfold State.ownRelocateTrain State.relocateInCensus State.relocateInMaintenance
  simp only [Bool.not_eq_true', relocationRange_iff, relocateTo_eq]
  cases u.circuit with
  | unconfigured | config => rfl
  | census | operating | halted => cases u.trains.find t <;> simp only [apply_ite replied] <;> rfl

/-- Settles O23: what being seated, abandoned and released makes of a zone, and the owner's conditions. -/
theorem relocateTrainSeatsItWhereDeclared : Obligations.RelocateTrainSeatsItWhereDeclared :=
  ⟨fun _ x st use n e => ⟨rfl, x.leave_suspect, x.released_eq, rfl, ZoneTimer.kept_running st use n e⟩, fun _ _ _ _ => mem_heldBy,
    Motion.isStranded_iff, fun _ _ train zone _ h =>
      h.replies (own := State.ownRelocateTrain train.toNat zone.toNat) rfl rfl fun u _ => ownRelocateTrain_eq train.toNat zone.toNat u⟩

/-! ## BEGIN OPERATION (R139) -/

theorem Table.least_eq_none_iff {α : Type} (t : Table α) (q : Nat → α → Bool) : t.least q = none ↔ ∀ e, e ∈ t → q e.1 e.2 = false := by
  unfold Table.least
  simp only [Option.map_eq_none_iff, List.find?_eq_none, Bool.not_eq_true]

/-- Each table condition of R139 says that the search for what breaks it finds nothing. -/
theorem beginCondition_zones (s : State) : s.beginCondition 2 ↔ s.zones.least (fun _ x => decide (x.state = .suspect)) = none := by
  simp only [Table.least_eq_none_iff, decide_eq_false_iff_not]
  rfl

theorem beginCondition_nodes (s : State) :
    s.beginCondition 3 ↔ s.nodes.least (fun n _ => s.layout.mapped n && !s.linked n) = none := by
  simp only [Table.least_eq_none_iff, Bool.and_eq_false_imp, Bool.not_eq_false']
  rfl

theorem beginCondition_switches (s : State) :
    s.beginCondition 4 ↔ s.switches.least (fun k _ => (switchPosition s.switches k).isNone) = none := by
  simp only [Table.least_eq_none_iff, Option.isNone_eq_false_iff]
  rfl

theorem beginCondition_trains (s : State) : s.beginCondition 5 ↔ s.trains.least (fun _ r => decide (r.motion = .untracked)) = none := by
  simp only [Table.least_eq_none_iff, decide_eq_false_iff_not]
  rfl

theorem beginCondition_causes (s : State) : s.beginCondition 6 ↔ s.causes.first = none := by
  change s.causes = ⟨false, false, false, false⟩ ↔ _
  generalize s.causes = c
  obtain ⟨stopIn, key, commanded, anomaly⟩ := c
  cases stopIn <;> cases key <;> cases commanded <;> cases anomaly <;> decide

theorem beginCondition_anomalies (s : State) : s.beginCondition 7 ↔ s.anomalies.find? (fun a => !a.acked) = none := by
  simp only [List.find?_eq_none, Bool.not_eq_true, Bool.not_eq_false']
  rfl

/-- What the last column of R139 gives for the condition that refuses: its two items. -/
def State.BeginItems (s : State) (c : Nat) (i j : Byte) : Prop :=
  (c ≤ 6 → j = 0xFF) ∧
  (c = 1 → i = 0xFF) ∧
  (s.Canonical → c = 2 → ∃ z, i = byte z ∧ s.zoneState z = some .suspect ∧ ∀ y, s.zoneState y = some .suspect → z ≤ y) ∧
  (s.Canonical → c = 3 →
    let unlinked := fun n => (s.nodes.find n).isSome = true ∧ s.layout.mapped n = true ∧ s.linked n = false
    ∃ n, i = byte n ∧ unlinked n ∧ ∀ m, unlinked m → n ≤ m) ∧
  (s.Canonical → c = 4 →
    let unset := fun k => (s.switches.find k).isSome = true ∧ switchPosition s.switches k = none
    ∃ k, i = byte k ∧ unset k ∧ ∀ l, unset l → k ≤ l) ∧
  (s.Canonical → c = 5 → ∃ t, i = byte t ∧ s.motion t = some .untracked ∧ ∀ v, s.motion v = some .untracked → t ≤ v) ∧
  (c = 6 → i = if s.causes.stopIn = true then 0 else if s.causes.key = true then 1 else if s.causes.commanded = true then 2 else 3) ∧
  (c = 7 → ∃ older a younger, s.anomalies = older ++ a :: younger ∧ (∀ d, d ∈ older → d.acked = true) ∧ a.acked = false ∧
    i = byte a.kind.code ∧ j = byte a.subject)

/-- The least number found, with what is searched for given as a condition on the number. -/
theorem Table.least_iff {α : Type} {t : Table α} (h : t.wf) {q : Nat → α → Bool} {P : Nat → Prop}
    (hP : ∀ n, P n ↔ ∃ x, t.find n = some x ∧ q n x = true) {n : Nat} (hn : t.least q = some n) : P n ∧ ∀ m, P m → n ≤ m := by
  obtain ⟨hx, hl⟩ := (Table.least_some h).mp hn
  refine ⟨(hP n).mpr hx, fun m hm => ?_⟩
  obtain ⟨y, hy, hq⟩ := (hP m).mp hm
  exact hl m y hy hq

theorem exists_of_isSome {α : Type} (o : Option α) (P : Prop) : (o.isSome = true ∧ P) ↔ ∃ x, o = some x ∧ P := by
  rw [Option.isSome_iff_exists, exists_and_right]

theorem State.BeginItems.zone {s : State} {z : Nat} (h : s.zones.least (fun _ x => decide (x.state = .suspect)) = some z) :
    s.BeginItems 2 (byte z) 0xFF := by
  refine ⟨fun _ => rfl, nofun, fun hc _ => ⟨z, rfl, ?_⟩, nofun, nofun, nofun, nofun, nofun⟩
  exact Table.least_iff (P := fun z => s.zoneState z = some .suspect) hc.zones
    (fun n => by simp only [State.zoneState, Option.map_eq_some_iff, decide_eq_true_eq]) h

theorem State.BeginItems.node {s : State} {n : Nat} (h : s.nodes.least (fun n _ => s.layout.mapped n && !s.linked n) = some n) :
    s.BeginItems 3 (byte n) 0xFF := by
  refine ⟨fun _ => rfl, nofun, nofun, fun hc _ => ⟨n, rfl, ?_⟩, nofun, nofun, nofun, nofun⟩
  exact Table.least_iff (P := fun n => (s.nodes.find n).isSome = true ∧ s.layout.mapped n = true ∧ s.linked n = false) hc.nodes
    (fun n => by rw [exists_of_isSome]; simp only [Bool.and_eq_true, Bool.not_eq_true']) h

theorem State.BeginItems.switch {s : State} {k : Nat}
    (h : s.switches.least (fun k _ => (switchPosition s.switches k).isNone) = some k) : s.BeginItems 4 (byte k) 0xFF := by
  refine ⟨fun _ => rfl, nofun, nofun, nofun, fun hc _ => ⟨k, rfl, ?_⟩, nofun, nofun, nofun⟩
  exact Table.least_iff (P := fun k => (s.switches.find k).isSome = true ∧ switchPosition s.switches k = none) hc.switches
    (fun n => by rw [exists_of_isSome]; simp only [Option.isNone_iff_eq_none]) h

theorem State.BeginItems.train {s : State} {t : Nat} (h : s.trains.least (fun _ r => decide (r.motion = .untracked)) = some t) :
    s.BeginItems 5 (byte t) 0xFF := by
  refine ⟨fun _ => rfl, nofun, nofun, nofun, nofun, fun hc _ => ⟨t, rfl, ?_⟩, nofun, nofun⟩
  exact Table.least_iff (P := fun t => s.motion t = some .untracked) hc.trains
    (fun n => by simp only [State.motion, Option.map_eq_some_iff, decide_eq_true_eq]) h

theorem State.BeginItems.cause {s : State} {b : Nat} (h : s.causes.first = some b) : s.BeginItems 6 (byte b) 0xFF := by
  refine ⟨fun _ => rfl, nofun, nofun, nofun, nofun, nofun, fun _ => ?_, nofun⟩
  revert h
  generalize s.causes = c
  obtain ⟨stopIn, key, commanded, anomaly⟩ := c
  cases stopIn <;> cases key <;> cases commanded <;> cases anomaly <;> rintro ⟨⟩ <;> rfl

theorem State.BeginItems.anomaly {s : State} {a : Anomaly} (h : s.anomalies.find? (fun a => !a.acked) = some a) :
    s.BeginItems 7 (byte a.kind.code) (byte a.subject) := by
  refine ⟨fun h => absurd h (by decide), nofun, nofun, nofun, nofun, nofun, nofun, fun _ => ?_⟩
  obtain ⟨hack, older, younger, he, hold⟩ := List.find?_eq_some_iff_append.mp h
  exact ⟨older, a, younger, he, fun d hd => by simpa using hold d hd, by simpa using hack, rfl, rfl⟩

/-- BEGIN OPERATION is refused for nothing where the conditions of R139 hold. -/
theorem beginRefusal_of_met {s : State} (h : ∀ c, 1 ≤ c → c ≤ 7 → s.beginCondition c) : s.beginRefusal = none := by
  have h1 : s.circuit = .census := h 1 (by decide) (by decide)
  unfold State.beginRefusal
  rw [if_neg (fun h => h h1), (beginCondition_zones s).mp (h 2 (by decide) (by decide)),
    (beginCondition_nodes s).mp (h 3 (by decide) (by decide)), (beginCondition_switches s).mp (h 4 (by decide) (by decide)),
    (beginCondition_trains s).mp (h 5 (by decide) (by decide)), (beginCondition_causes s).mp (h 6 (by decide) (by decide)),
    (beginCondition_anomalies s).mp (h 7 (by decide) (by decide))]

/-- All conditions below `n` hold. -/
def State.BeginMet (s : State) (n : Nat) : Prop := ∀ d, 1 ≤ d → d < n → s.beginCondition d

theorem State.BeginMet.next {s : State} {n : Nat} (h : s.BeginMet n) (hn : s.beginCondition n) : s.BeginMet (n + 1) :=
  fun d h1 hd => (Nat.lt_succ_iff_lt_or_eq.mp hd).elim (h d h1) fun e => e ▸ hn

/-- The first condition that does not hold is one. -/
theorem State.BeginMet.first {s : State} {c k : Nat} (hk : s.BeginMet k) (hnk : ¬s.beginCondition k) (h1 : 1 ≤ k) (hc : s.BeginMet c)
    (hnc : ¬s.beginCondition c) (h1' : 1 ≤ c) : c = k :=
  Nat.le_antisymm (Nat.not_lt.mp fun h => hnk (hc k h1 h)) (Nat.not_lt.mp fun h => hnc (hk c h1' h))

/-- Otherwise the first that does not hold refuses it, with its items. -/
theorem beginRefusal_of_unmet {s : State} {c : Nat} (h1 : 1 ≤ c) (h7 : c ≤ 7) (hc : ¬s.beginCondition c) (hd : s.BeginMet c) :
    ∃ i j, s.beginRefusal = some (c, i, j) ∧ s.BeginItems c i j := by
  have is {k : Nat} (hk : s.BeginMet k) (hnk : ¬s.beginCondition k) (hk1 : 1 ≤ k) : c = k := hk.first hnk hk1 hd hc h1
  unfold State.beginRefusal
  have m1 : s.BeginMet 1 := fun d hd hd' => absurd hd' (Nat.not_lt.mpr hd)
  by_cases hcen : s.circuit = .census
  case neg =>
    obtain rfl := is m1 hcen (by decide)
    exact ⟨0xFF, 0xFF, if_pos hcen, fun _ => rfl, fun _ => rfl, nofun, nofun, nofun, nofun, nofun, nofun⟩
  rw [if_neg (fun h => h hcen)]
  have m2 : s.BeginMet 2 := m1.next hcen
  have b2 := beginCondition_zones s
  cases hz : s.zones.least (fun _ x => decide (x.state = .suspect)) with
  | some z => obtain rfl := is m2 (fun h => by rw [b2.mp h] at hz; cases hz) (by decide); exact ⟨_, _, rfl, .zone hz⟩
  | none =>
  have m3 : s.BeginMet 3 := m2.next (b2.mpr hz)
  have b3 := beginCondition_nodes s
  cases hn : s.nodes.least (fun n _ => s.layout.mapped n && !s.linked n) with
  | some n => obtain rfl := is m3 (fun h => by rw [b3.mp h] at hn; cases hn) (by decide); exact ⟨_, _, rfl, .node hn⟩
  | none =>
  have m4 : s.BeginMet 4 := m3.next (b3.mpr hn)
  have b4 := beginCondition_switches s
  cases hw : s.switches.least (fun k _ => (switchPosition s.switches k).isNone) with
  | some k => obtain rfl := is m4 (fun h => by rw [b4.mp h] at hw; cases hw) (by decide); exact ⟨_, _, rfl, .switch hw⟩
  | none =>
  have m5 : s.BeginMet 5 := m4.next (b4.mpr hw)
  have b5 := beginCondition_trains s
  cases ht : s.trains.least (fun _ r => decide (r.motion = .untracked)) with
  | some t => obtain rfl := is m5 (fun h => by rw [b5.mp h] at ht; cases ht) (by decide); exact ⟨_, _, rfl, .train ht⟩
  | none =>
  have m6 : s.BeginMet 6 := m5.next (b5.mpr ht)
  have b6 := beginCondition_causes s
  cases hb : s.causes.first with
  | some b => obtain rfl := is m6 (fun h => by rw [b6.mp h] at hb; cases hb) (by decide); exact ⟨_, _, rfl, .cause hb⟩
  | none =>
  have m7 : s.BeginMet 7 := m6.next (b6.mpr hb)
  have b7 := beginCondition_anomalies s
  cases ha : s.anomalies.find? (fun a => !a.acked) with
  | some a => obtain rfl := is m7 (fun h => by rw [b7.mp h] at ha; cases ha) (by decide); exact ⟨_, _, rfl, .anomaly ha⟩
  | none => exact absurd (m7.next (b7.mpr ha) c h1 (Nat.lt_succ_of_le h7)) hc

/-- The refusal is a matter of the records, which a request leaves as they are when it arrives. -/
theorem beginRefusal_arrived (p : Port) (q : Request) (s : State) : (s.arrived p q).beginRefusal = s.beginRefusal := by
  unfold State.beginRefusal State.linked
  simp only [State.arrived_circuit, State.arrived_zones, State.arrived_nodes, State.arrived_layout, State.arrived_switches,
    State.arrived_trains, State.arrived_causes, State.arrived_anomalies]

/-- Settles O24: BEGIN OPERATION with all conditions met, and with a first that is not. -/
theorem beginOperationNeedsSevenConditions : Obligations.BeginOperationNeedsSevenConditions := by
  intro p tag s h
  refine ⟨fun hall => ?_, fun c h1 h7 hc hd => ?_⟩
  · refine h.replies (own := State.ownBeginOperation) rfl rfl fun u hu => ?_
    unfold State.ownBeginOperation
    rw [hu, beginRefusal_arrived, beginRefusal_of_met hall]
    rfl
  · obtain ⟨i, j, hr, items⟩ := beginRefusal_of_unmet h1 h7 hc hd
    refine ⟨i, j, h.replies (own := State.ownBeginOperation) rfl rfl fun u hu => ?_, items⟩
    unfold State.ownBeginOperation
    rw [hu, beginRefusal_arrived, hr]

end Sys2Proof.Machine

namespace Sys2Proof.Machine

/-! # Claims (spec 05) -/

/-! ## Entering a claim (R61 to R63) -/

theorem enterClaim_of_none {s : State} {t : Nat} {r : Train} (hr : s.trains.find t = some r) (hc : r.claim = .none) (b : Bool) :
    s.enterClaim t b = some (s.withEntry t b) := by
  unfold State.enterClaim
  rw [hr]
  exact if_pos hc

theorem enterClaim_of_claimed {s : State} {t : Nat} {r : Train} (hr : s.trains.find t = some r) (hc : r.claim ≠ .none) (b : Bool) :
    s.enterClaim t b = none := by
  unfold State.enterClaim
  rw [hr]
  exact if_neg hc

theorem claimAnswer_eq (s : State) (t : Nat) : s.claimAnswer t = replied (s, s.claimResult t, []) := by
  unfold State.claimAnswer State.claimResult
  split <;> rfl

/-! ## DISPATCH (R74) -/

theorem atYard_eq_false_iff (s : State) (hold : List Nat) : (s.headOf hold).any (fun z => s.layout.yard z) = false ↔
    ¬∃ z, s.headOf hold = some z ∧ s.layout.yard z = true := by
  rw [← Bool.not_eq_true, Option.any_eq_true]

theorem ownDispatch_eq (t : Nat) (u : State) : u.ownDispatch t = replied (
    if u.circuit ≠ .operating then (u, .refusedState, [])
    else if u.authority = .maintenance then (u, .refusedState, [])
    else if ¬(1 ≤ t ∧ t ≤ 12) then (u, .refusedRange, [])
    else
      match u.trains.find t with
      | none => (u, .refusedState, [])
      | some r =>
        if r.motion ≠ .standing ∨ r.claim ≠ .none then (u, .refusedState, [])
        else if ¬ ∃ z, u.headOf r.hold = some z ∧ u.layout.yard z = true then (u, .refusedState, [])
        else ((u.withEntry t false).evaluate, (u.withEntry t false).evaluate.claimResult t, [])) := by
  unfold State.ownDispatch
  simp only [Bool.not_eq_true', trainInRange_eq_false_iff, atYard_eq_false_iff]
  cases hr : u.trains.find t with
  | none => simp only [apply_ite replied]; rfl
  | some r =>
    by_cases hc : r.claim = .none
    · simp only [enterClaim_of_none hr hc, claimAnswer_eq, apply_ite replied]
      rfl
    · simp only [hc, ne_eq, not_false_eq_true, or_true, if_true, apply_ite replied]
      rfl

/-- Settles O25: a claim the owner accepts is entered and the queue evaluated. -/
theorem dispatchEntersAClaim : Obligations.DispatchEntersAClaim :=
  fun _ _ train _ h => h.replies (own := State.ownDispatch train.toNat) rfl rfl fun u _ => ownDispatch_eq train.toNat u

/-! ## CANCEL DISPATCH (R75) -/

/-- The claim dropped, and with it the step grant of a claim entered by STEP TRAIN. -/
theorem cancelled_eq (s : State) (t : Nat) (step : Bool) :
    (if step = true then (s.dropClaim t).dropStep t else s.dropClaim t) = { s with
      waitQueue := s.waitQueue.filter (fun d => decide (d.train ≠ t))
      trains := s.trains.upd t (fun r => { r with claim := .none, stepGrant := if step = true then false else r.stepGrant }) } := by
  cases step with
  | false => rfl
  | true =>
    rw [if_pos rfl]
    unfold State.dropStep State.dropClaim State.updTrain
    dsimp only
    rw [Table.upd_upd]
    rfl

theorem ownCancelDispatch_eq (t : Nat) (u : State) : u.ownCancelDispatch t = replied (
    if u.circuit ≠ .operating ∧ u.circuit ≠ .halted then (u, .refusedState, [])
    else if ¬(1 ≤ t ∧ t ≤ 12) then (u, .refusedRange, [])
    else
      match u.trains.find t with
      | none => (u, .refusedState, [])
      | some r =>
        match r.claim with
        | .none => (u, .refusedState, [])
        | .granted => (u, .late, [])
        | .pending =>
          match u.waitQueue.find? (fun d => decide (d.train = t)) with
          | none => (u, .refusedState, [])
          | some c =>
            if c.cls = .course ∧ c.step = false then (u, .refusedState, [])
            else
              ({ u with
                waitQueue := u.waitQueue.filter (fun d => decide (d.train ≠ t))
                trains := u.trains.upd t (fun r => { r with claim := .none, stepGrant := if c.step = true then false else r.stepGrant }) },
                .done, [])) := by
  unfold State.ownCancelDispatch State.entryOf
  simp only [Bool.not_eq_true', trainInRange_eq_false_iff, ← cancelled_eq, apply_ite replied]
  cases u.trains.find t with
  | none => rfl
  | some r =>
    cases hc : r.claim with
    | none | granted => simp only [hc]; rfl
    | pending =>
      simp only [hc]
      cases u.waitQueue.find? (fun d => decide (d.train = t)) with
      | none => rfl
      | some c => cases hs : c.step <;> simp only [hs, apply_ite replied] <;> rfl

/-- Settles O26: the owner's conditions, and what is left of the claim and of the step grant. -/
theorem cancelDispatchTakesBackAPendingClaim : Obligations.CancelDispatchTakesBackAPendingClaim :=
  fun _ _ train _ h => h.replies (own := State.ownCancelDispatch train.toNat) rfl rfl fun u _ => ownCancelDispatch_eq train.toNat u

/-! ## STEP TRAIN (R77) -/

theorem ownStepTrain_eq (t : Nat) (u : State) : u.ownStepTrain t = replied (
    if u.circuit ≠ .halted then (u, .refusedState, [])
    else if u.authority ≠ .maintenance then (u, .refusedState, [])
    else if ¬(1 ≤ t ∧ t ≤ 12) then (u, .refusedRange, [])
    else
      match u.trains.find t with
      | none => (u, .refusedState, [])
      | some r =>
        if r.motion = .cleared ∧ r.claim = .granted then (u.giveStep t, .granted, [])
        else if r.motion = .standing ∧ r.claim = .none then
          (((u.giveStep t).withEntry t true).evaluate, ((u.giveStep t).withEntry t true).evaluate.claimResult t, [])
        else (u, .refusedState, [])) := by
  unfold State.ownStepTrain
  simp only [Bool.not_eq_true', trainInRange_eq_false_iff]
  cases hr : u.trains.find t with
  | none => simp only [apply_ite replied]; rfl
  | some r =>
    have hg : (u.giveStep t).trains.find t = some { r with stepGrant := true } := by
      rw [State.giveStep, State.updTrain_trains, Table.find_upd, if_pos rfl, hr]
      rfl
    by_cases hc : r.claim = .none
    · simp only [enterClaim_of_none hg hc, claimAnswer_eq, apply_ite replied]
      rfl
    · simp only [hc, and_false, if_false, apply_ite replied]
      rfl

/-- Settles O27: the owner with a train that is cleared, and with one that stands. -/
theorem stepTrainGivesAStepGrant : Obligations.StepTrainGivesAStepGrant :=
  fun _ _ train _ h => h.replies (own := State.ownStepTrain train.toNat) rfl rfl fun u _ => ownStepTrain_eq train.toNat u

/-! ## RELAUNCH (R79) -/

theorem ownRelaunch_eq (t : Nat) (u : State) : u.ownRelaunch t = replied (
    if u.circuit ≠ .operating ∧ u.circuit ≠ .halted then (u, .refusedState, [])
    else if ¬(1 ≤ t ∧ t ≤ 12) then (u, .refusedRange, [])
    else
      match u.trains.find t with
      | none => (u, .refusedState, [])
      | some r =>
        if r.motion ≠ .stranded .launchLimit then (u, .refusedState, [])
        else
          let claimed := if r.claim = .none then (u.relaunchClaim t).withEntry t false else u.relaunchClaim t
          (claimed.evaluate, claimed.evaluate.claimResult t, [])) := by
  unfold State.ownRelaunch
  simp only [Bool.not_eq_true', trainInRange_eq_false_iff]
  cases hr : u.trains.find t with
  | none => simp only [apply_ite replied]; rfl
  | some r =>
    have hg : (u.relaunchClaim t).trains.find t = some { r with relaunches := 0, motion := .standing } := by
      rw [State.relaunchClaim, State.sweep_trains, State.updTrain_trains, Table.find_upd, if_pos rfl, hr]
      rfl
    by_cases hc : r.claim = .none
    · simp only [enterClaim_of_none hg hc, hc, if_true, claimAnswer_eq, apply_ite replied]
      rfl
    · simp only [enterClaim_of_claimed hg hc, hc, if_false, claimAnswer_eq, apply_ite replied]
      rfl

/-- Settles O28: the owner with a claim to enter, and with one the train has. -/
theorem relaunchRestoresAStrandedTrain : Obligations.RelaunchRestoresAStrandedTrain :=
  fun _ _ train _ h => h.replies (own := State.ownRelaunch train.toNat) rfl rfl fun u _ => ownRelaunch_eq train.toNat u

/-! ## The grant (R66 to R69) -/

theorem Motion.clear_eq (m : Motion) : m.clear = if m = .standing then .cleared else m := by
  cases m <;> rfl

theorem grantable_iff (s : State) (e : List (Nat × Nat)) : s.grantable e = true ↔
    ∀ q, q ∈ e → s.zoneState q.1 = some .free ∧
      (s.layout.kindOf q.1 = some .transfer → s.layout.connects s.switches q.2 q.1 = true) := by
  unfold State.grantable
  simp only [List.all_eq_true, Bool.and_eq_true, decide_eq_true_eq, Bool.or_eq_true, Bool.not_eq_true', isKind_eq_false_iff, ne_eq,
    ← Decidable.imp_iff_not_or]

/-- The extension of a train's head zone reserved, with the claim granted and its entry gone (R24, R45, R68). -/
def State.extended (s : State) (t : Nat) (e : List (Nat × Nat)) : State :=
  { s with
    zones := s.zones.updAll (e.map (fun q => q.1)) (Zone.give .reserved t)
    trains := s.trains.upd t (fun r => { r with
      hold := r.hold ++ e.map (fun q => q.1), claim := .granted
      motion := if r.motion = .standing then .cleared else r.motion })
    waitQueue := s.waitQueue.filter (fun d => decide (d.train ≠ t)) }

theorem reserve_of_grantable {s : State} {t : Nat} {r : Train} {e : List (Nat × Nat)} (hr : s.trains.find t = some r)
    (h : s.grantable e = true ∧ r.hold.length + e.length ≤ 6) : s.reserve t e = some
      ((s.updZones (e.map (fun q => q.1)) (Zone.give .reserved t)).updTrain t (fun r => { r with hold := r.hold ++ e.map (fun q => q.1) })) := by
  unfold State.reserve
  rw [hr]
  exact if_pos h

theorem reserve_of_not_grantable {s : State} {t : Nat} {r : Train} {e : List (Nat × Nat)} (hr : s.trains.find t = some r)
    (h : ¬(s.grantable e = true ∧ r.hold.length + e.length ≤ 6)) : s.reserve t e = none := by
  unfold State.reserve
  rw [hr]
  exact if_neg h

/-- What a grant makes of the train's record, first with the zones reserved and then with the claim granted, is one change of it. -/
theorem granted_extended (s : State) (t : Nat) (e : List (Nat × Nat)) :
    ((s.updZones (e.map (fun q => q.1)) (Zone.give .reserved t)).updTrain t
      (fun r => { r with hold := r.hold ++ e.map (fun q => q.1) })).granted t = s.extended t e := by
  unfold State.granted State.updTrain State.updZones
  dsimp only
  rw [Table.upd_upd]
  simp only [Motion.clear_eq]
  rfl

theorem tryGrant_eq (s : State) (c : Claim) : s.tryGrant c =
    match s.trains.find c.train with
    | none => s
    | some r =>
      match (s.headOf r.hold).bind (fun z => s.extension z) with
      | none => s
      | some e =>
        if (r.motion = .standing ∨ r.motion = .moving) ∧ r.hold.length + e.length ≤ 6 ∧
            ∀ q, q ∈ e → s.zoneState q.1 = some .free ∧
              (s.layout.kindOf q.1 = some .transfer → s.layout.connects s.switches q.2 q.1 = true) then
          if c.cls = .yard then State.raise .claimGranted (s.extended c.train e) else s.extended c.train e
        else s := by
  unfold State.tryGrant
  cases hr : s.trains.find c.train with
  | none => rfl
  | some r =>
    dsimp only
    cases (s.headOf r.hold).bind (fun z => s.extension z) with
    | none => exact ite_self _
    | some e =>
      dsimp only
      have hgi := grantable_iff s e
      by_cases hm : r.motion = .standing ∨ r.motion = .moving
      · by_cases hg : s.grantable e = true ∧ r.hold.length + e.length ≤ 6
        · rw [if_pos hm, if_pos ⟨hm, hg.2, hgi.mp hg.1⟩, reserve_of_grantable hr hg, ← granted_extended]
          cases c.cls <;> rfl
        · rw [if_pos hm, if_neg (fun h => hg ⟨hgi.mpr h.2.2, h.2.1⟩), reserve_of_not_grantable hr hg]
      · rw [if_neg hm, if_neg (fun h => hm h.1)]

/-- No gate connects into a TRANSFER zone while its switch is not SET (R8). -/
theorem connects_of_not_set {l : Layout} (h : l.Canonical) {w : Table Switch} {z k : Nat} {r : SwitchRec} {x : Switch}
    (hz : l.Switched z k r) (hx : w.find k = some x)
    (hs : x.state = .unproven ∨ (∃ q, x.state = .moving q) ∨ x.state = .faulted) (g : Nat) : l.connects w g z = false := by
  rw [← Bool.not_eq_true, connects_iff h]
  rintro ⟨j, r', x', hz', hx', hset⟩
  obtain ⟨rfl, rfl⟩ := Switched.unique hz hz'
  obtain rfl : x = x' := Option.some.inj (hx.symm.trans hx')
  have hset : x.state = .setMain ∨ x.state = .setBranch := by
    rcases hset with ⟨_, hset, _⟩ | ⟨_, ⟨hset, _⟩ | ⟨hset, _⟩⟩
    · exact hset
    · exact .inl hset
    · exact .inr hset
  rcases hset with e | e <;> simp [e] at hs

/-- Settles O29: extensions and connections over the records, and the grant. -/
theorem aGrantReservesTheWholeExtension : Obligations.AGrantReservesTheWholeExtension := by
  refine ⟨fun s z e h => extension_iff h s.switches z e, fun s z g h => ⟨connects_iff h s.switches g z, fun k r w hz hw hs => ?_⟩,
    fun s z => ⟨rfl, stoppable_iff _ z, yard_iff _ z, fun hold => ?_⟩, tryGrant_eq⟩
  · exact connects_of_not_set h hz hw hs g
  · unfold State.headOf State.isReserved
    simp only [ne_eq, decide_not]

/-! ## The service order (R64, R81) -/

theorem ClaimClass.yard_iff (c : ClaimClass) : c = .yard ↔ c ≠ .course := by
  cases c <;> decide

theorem serviceOrder_pairwise (q : List Claim) : (serviceOrder q).Pairwise (fun c d => ¬(c.cls = .yard ∧ d.cls = .course)) := by
  unfold serviceOrder
  rw [List.pairwise_append]
  have course {c : Claim} (h : c ∈ q.filter (fun c => decide (c.cls = .course))) : c.cls = .course :=
    of_decide_eq_true (List.mem_filter.mp h).2
  have yard {c : Claim} (h : c ∈ q.filter (fun c => decide (c.cls = .yard))) : c.cls = .yard :=
    of_decide_eq_true (List.mem_filter.mp h).2
  refine ⟨List.pairwise_of_forall_mem_list fun c hc d _ h => ?_, List.pairwise_of_forall_mem_list fun c _ d hd h => ?_, fun c hc d _ h => ?_⟩
  · exact (ClaimClass.yard_iff _).mp h.1 (course hc)
  · exact (ClaimClass.yard_iff _).mp (yard hd) h.2
  · exact (ClaimClass.yard_iff _).mp h.1 (course hc)

/-- The entries of one class in the service order are those of the queue, in its order. -/
theorem serviceOrder_filter (q : List Claim) (k : ClaimClass) :
    (serviceOrder q).filter (fun c => decide (c.cls = k)) = q.filter (fun c => decide (c.cls = k)) := by
  unfold serviceOrder
  rw [List.filter_append, List.filter_filter, List.filter_filter]
  have same (k : ClaimClass) : q.filter (fun c => decide (c.cls = k) && decide (c.cls = k)) = q.filter (fun c => decide (c.cls = k)) :=
    List.filter_congr fun c _ => Bool.and_self _
  have other {j k : ClaimClass} (h : j ≠ k) : q.filter (fun c => decide (c.cls = j) && decide (c.cls = k)) = [] :=
    List.filter_eq_nil_iff.mpr fun c _ hc => by
      rw [Bool.and_eq_true, decide_eq_true_iff, decide_eq_true_iff] at hc
      exact h (hc.1.symm.trans hc.2)
  cases k with
  | course => rw [same, other (show ClaimClass.course ≠ .yard by decide), List.append_nil]
  | yard => rw [same, other (show ClaimClass.yard ≠ .course by decide), List.nil_append]

/-- Settles O30: the order, and who goes by it. -/
theorem courseIsServedBeforeYard : Obligations.CourseIsServedBeforeYard :=
  ⟨fun q => ⟨serviceOrder_pairwise q, serviceOrder_filter q .course, serviceOrder_filter q .yard⟩,
    fun _ => ⟨rfl, List.filter_eq_self.mpr fun _ _ => rfl⟩⟩

end Sys2Proof.Machine

namespace Sys2Proof.Machine

/-! # Zones (spec 02) -/

/-! ## The nodes of a zone (R7, R28) -/

theorem linked_iff (s : State) (n : Nat) : s.linked n = true ↔ ∃ x, s.nodes.find n = some x ∧ x.state = .linked := by
  unfold State.linked
  rw [Option.any_eq_true]
  simp only [decide_eq_true_eq]

theorem nodesLinked_iff {s : State} (h : s.layout.Canonical) (z : Nat) : s.nodesLinked z = true ↔
    ∀ n, (∃ g r, s.layout.gates.find g = some r ∧ (r.src = z ∨ r.dst = z) ∧ r.node = n) ∨
      (∃ q c, s.layout.zones.find z = some q ∧ q.permit = some (n, c)) → ∃ x, s.nodes.find n = some x ∧ x.state = .linked := by
  unfold State.nodesLinked
  simp only [List.all_eq_true, mem_servingNodes h, linked_iff]

/-! ## SET SERVICE (R36, R37) -/

theorem serviceOff_eq (s : State) (z : Nat) : s.serviceOff z = replied (
    if s.holder z ≠ none then (s, .refusedHeld, [])
    else if s.zoneState z = some .outOfService then (s, .done, [])
    else (s.setUnheld z .outOfService, .done, [])) := by
  unfold State.serviceOff
  simp only [holder_isSome_iff, apply_ite replied]
  rfl

theorem setServiceOff_eq (z : Nat) {setting : Byte} (h : setting ≠ 1) (u : State) : u.ownSetService z setting.toNat = replied (
    if u.live = false then (u, .refusedState, [])
    else if u.layout.zoneCount ≤ z then (u, .refusedRange, [])
    else if setting ≠ 0 then (u, .refusedRange, [])
    else if u.holder z ≠ none then (u, .refusedHeld, [])
    else if u.zoneState z = some .outOfService then (u, .done, [])
    else (u.setUnheld z .outOfService, .done, [])) := by
  unfold State.ownSetService
  rw [serviceOff_eq]
  simp only [Bool.not_eq_true', apply_ite replied]
  by_cases h0 : setting = 0
  · subst h0
    rfl
  · have h0' : setting.toNat ≠ 0 := fun e => h0 (BitVec.eq_of_toNat_eq e)
    have h1' : setting.toNat ≠ 1 := fun e => h (BitVec.eq_of_toNat_eq e)
    simp only [h0, ne_eq, not_false_eq_true, if_true]
    match setting.toNat, h0', h1' with
    | _ + 2, _, _ => rfl

theorem setServiceOn_eq (z : Nat) (u : State) : u.ownSetService z 1 = replied (
    if u.live = false then (u, .refusedState, [])
    else if u.layout.zoneCount ≤ z then (u, .refusedRange, [])
    else if u.zoneState z ≠ some .outOfService then (u, .refusedState, [])
    else if u.nodesLinked z = false then (u, .refusedState, [])
    else ((u.setUnheld z .free).evaluate, .done, [])) := by
  unfold State.ownSetService State.serviceOn
  simp only [Bool.not_eq_true', apply_ite replied]
  rfl

/-- Settles O31: the nodes of a zone over the records, and the two settings. -/
theorem setServiceTakesOnlyUnheldZones : Obligations.SetServiceTakesOnlyUnheldZones :=
  ⟨fun _ z n h => ⟨mem_servingNodes h z n, nodesLinked_iff h z⟩, fun _ _ zone setting _ =>
    ⟨fun h h1 => h.replies (own := State.ownSetService zone.toNat setting.toNat) rfl rfl fun u _ => setServiceOff_eq zone.toNat h1 u,
      fun h => h.replies (own := State.ownSetService zone.toNat 1) rfl rfl fun u _ => setServiceOn_eq zone.toNat u⟩⟩

/-! ## CLEAR ZONE and CLEAR UNHELD ZONES (R38, R39) -/

theorem ownClearZone_eq (z : Nat) (u : State) : u.ownClearZone z = replied (
    if u.live = false then (u, .refusedState, [])
    else if u.layout.zoneCount ≤ z then (u, .refusedRange, [])
    else if u.zoneState z ≠ some .suspect then (u, .refusedState, [])
    else if u.holder z ≠ none then (u, .refusedHeld, [])
    else if u.nodesLinked z = false then (u, .refusedState, [])
    else ((u.setUnheld z .free).evaluate, .done, [])) := by
  unfold State.ownClearZone
  simp only [Bool.not_eq_true', holder_isSome_iff, apply_ite replied]
  rfl

theorem clearable_eq (s : State) : s.clearable =
    s.zones.keys.filter (fun z => decide (s.zoneState z = some .suspect ∧ s.holder z = none ∧ s.nodesLinked z = true)) := by
  refine List.filter_congr fun z _ => ?_
  rw [Bool.eq_iff_iff, decide_eq_true_iff, Bool.and_eq_true, Bool.and_eq_true, decide_eq_true_iff, Option.isNone_iff_eq_none, and_assoc]

theorem ownClearUnheldZones_eq (u : State) : u.ownClearUnheldZones = replied (
    let v := (u.updZones u.clearable (Zone.turn .free)).sweep
    if u.live = false then (u, .refusedState, [])
    else (if u.clearable = [] then v else v.evaluate, .done, [byte u.clearable.length])) := by
  unfold State.ownClearUnheldZones
  simp only [Bool.not_eq_true', List.isEmpty_iff, apply_ite replied]
  rfl

/-- Settles O32: the conditions of CLEAR ZONE, and the zones CLEAR UNHELD ZONES makes FREE. -/
theorem clearingFreesUnheldSuspectZones : Obligations.ClearingFreesUnheldSuspectZones := by
  refine ⟨fun _ _ zone _ h => h.replies (own := State.ownClearZone zone.toNat) rfl rfl fun u _ => ownClearZone_eq zone.toNat u,
    fun _ _ _ h => h.replies (own := State.ownClearUnheldZones) rfl rfl fun u _ => ?_⟩
  rw [← clearable_eq]
  exact ownClearUnheldZones_eq u

/-! # Transfer switches (spec 07) -/

/-! ## SET SWITCH (R114) -/

theorem SwitchState.position_eq_some_iff (w : SwitchState) (q : Position) :
    w.position = some q ↔ w = (if q = .main then .setMain else .setBranch) := by
  cases q <;> cases w <;> simp [SwitchState.position]

/-- A switch that is not MOVING is set to move, or is SET already (R114, from condition 4). -/
def State.setUnmoving (u : State) (k : Nat) (q : Position) (r : SwitchRec) (w : Switch) : State × Result × List Byte :=
  if u.holder r.zone ≠ none then (u, .refusedHeld, [])
  else if u.linked r.node = false then (u, .refusedState, [])
  else if w.state = (if q = .main then .setMain else .setBranch) then (u, .done, [])
  else (u.beginMove k q, .done, [])

theorem ownSetSwitch_eq (k position : Nat) (u : State) : u.ownSetSwitch k position = replied (
    if u.live = false then (u, .refusedState, [])
    else if 4 ≤ k then (u, .refusedRange, [])
    else
      match Position.ofCode position, u.layout.switches.find k, u.switches.find k with
      | some q, some r, some w =>
        if w.state = .moving .main ∨ w.state = .moving .branch then (u, .busy, []) else u.setUnmoving k q r w
      | _, _, _ => (u, .refusedRange, [])) := by
  unfold State.ownSetSwitch State.setUnmoving
  simp only [Bool.not_eq_true', holder_isSome_iff, SwitchState.position_eq_some_iff, apply_ite replied]
  cases Position.ofCode position with
  | none => rfl
  | some q =>
  cases u.layout.switches.find k with
  | none => rfl
  | some r =>
  cases u.switches.find k with
  | none => rfl
  | some w =>
    obtain ⟨st, timer⟩ := w
    dsimp only
    cases st with
    | moving target =>
      have hmoving : SwitchState.moving target = .moving .main ∨ SwitchState.moving target = .moving .branch := by
        cases target <;> simp
      rw [if_pos hmoving]
      rfl
    | unproven | setMain | setBranch | faulted =>
      simp only [reduceCtorEq, or_self, if_false, apply_ite replied]
      rfl

/-- Settles O33: the owner's conditions in their order. -/
theorem setSwitchNeedsAnUnheldZone : Obligations.SetSwitchNeedsAnUnheldZone :=
  fun _ _ switch position _ h =>
    h.replies (own := State.ownSetSwitch switch.toNat position.toNat) rfl rfl fun u _ => ownSetSwitch_eq switch.toNat position.toNat u

/-! ## Position reports (R113, R115, R117) -/

theorem Report.position_eq_main_iff (q : Report) : q.position = some .main ↔ q = .main := by
  cases q <;> simp [Report.position]

theorem Report.position_eq_branch_iff (q : Report) : q.position = some .branch ↔ q = .branch := by
  cases q <;> simp [Report.position]

theorem drift_eq (s : State) (k z : Nat) : s.drift k z =
    let faulted : State := { s with switches := s.switches.upd k (fun w => { w with state := .faulted }) }
    if s.holder z = none then faulted.anomaly .switchDrift k false else (faulted.disturb z).sweep.anomaly .switchDrift k true := by
  change (match s.holder z with
    | some _ => State.anomaly (State.sweep (State.disturb (s.updSwitch k (fun w => { w with state := .faulted })) z)) .switchDrift k true
    | none => State.anomaly (s.updSwitch k (fun w => { w with state := .faulted })) .switchDrift k false) = _
  cases s.holder z with
  | none => exact (if_pos rfl).symm
  | some t => exact (if_neg nofun).symm

/-- A SET switch that its report does not find where it is SET has drifted. -/
theorem takeReport_of_drift {s : State} {k : Nat} {r : SwitchRec} {q : Report} {w : Switch} (hw : s.switches.find k = some w)
    (h : (w.state = .setMain ∧ q ≠ .main) ∨ (w.state = .setBranch ∧ q ≠ .branch)) : s.takeReport k r q = s.drift k r.zone := by
  unfold State.takeReport
  rw [hw]
  rcases h with ⟨hst, hq⟩ | ⟨hst, hq⟩ <;> dsimp only <;> rw [hst]
  · exact if_neg (mt (Report.position_eq_main_iff q).mp hq)
  · exact if_neg (mt (Report.position_eq_branch_iff q).mp hq)

/-- What drift leaves where the TRANSFER zone is held (R117): the switch FAULTED, and the marks on its zone. -/
theorem drift_marks {s : State} {k z : Nat} (h : s.holder z ≠ none) : ∃ zones trains,
    s.drift k z = State.anomaly (State.sweep { s with
      switches := s.switches.upd k (fun w => { w with state := .faulted }), zones := zones, trains := trains }) .switchDrift k true ∧
    s.Marked [z] (fun x => { x with state := .suspect, timer := .idle }) zones trains := by
  have hm := disturbAll_marked [z] (s.updSwitch k (fun w => { w with state := .faulted }))
  have he := disturbAll_eq [z] (s.updSwitch k (fun w => { w with state := .faulted }))
  refine ⟨_, _, ?_, ⟨hm.named, hm.others, hm.trains⟩⟩
  rw [drift_eq]
  exact (if_neg h).trans (congrArg (fun u => State.anomaly (State.sweep u) .switchDrift k true) he)

theorem takeReport_eq {s : State} {k : Nat} {w : Switch} (r : SwitchRec) (q : Report) (hw : s.switches.find k = some w) :
    s.takeReport k r q =
      match w.state, q with
      | .unproven, .main => s.switchBecomes k .main
      | .unproven, .branch => s.switchBecomes k .branch
      | .unproven, _ => s
      | .moving .main, .main => (s.switchBecomes k .main).raise .switchDone
      | .moving .branch, .branch => (s.switchBecomes k .branch).raise .switchDone
      | .moving _, _ => s
      | .setMain, .main => s
      | .setMain, _ => s.drift k r.zone
      | .setBranch, .branch => s
      | .setBranch, _ => s.drift k r.zone
      | .faulted, _ => s := by
  unfold State.takeReport
  rw [hw]
  obtain ⟨st, timer⟩ := w
  cases st with
  | moving target => cases target <;> cases q <;> rfl
  | unproven | setMain | setBranch | faulted => cases q <;> rfl

/-- Settles O34: drift with its zone held, and each report in each state of the switch. -/
theorem positionReportsProveMoveOrDrift : Obligations.PositionReportsProveMoveOrDrift := by
  refine ⟨fun s k r q w hw hh hd => ?_, fun s k r q w hw => ?_⟩
  · rw [takeReport_of_drift hw hd]
    exact drift_marks hh
  · rw [takeReport_eq r q hw, drift_eq]
    rfl

/-! ## The expiry of a move (R116) -/

/-- Settles O35: an expiry that waits, for a switch that moves and for another. -/
theorem anExpiredMoveFaultsTheSwitch : Obligations.AnExpiredMoveFaultsTheSwitch := by
  intro k s h
  rw [exec_running (fun _ => rfl) h]
  cases s.switches.find k with
  | none => rfl
  | some w =>
    obtain ⟨st, timer⟩ := w
    cases timer <;> cases st <;> rfl

end Sys2Proof.Machine

namespace Sys2Proof.Machine

/-! # The circuit stop (spec 08) -/

/-! ## HALT (R124) -/

/-- Settles O36: COMMANDED arises in a live circuit by the table of R123. -/
theorem haltStopsALiveCircuit : Obligations.HaltStopsALiveCircuit := by
  intro p tag s h
  refine h.replies (own := State.ownHalt) rfl rfl fun u _ => ?_
  obtain ⟨operating, halted, census, _⟩ := arise_cases u .commanded
  have done {v w : State} (e : v = w) : v.done = (w, .reply .done []) := by rw [e]; rfl
  unfold State.ownHalt State.live
  cases hc : u.circuit with
  | unconfigured | config => rfl
  | census => exact done ((census hc).trans (by rw [hc]; rfl))
  | operating => exact done (operating hc)
  | halted => exact done ((halted hc).trans (by rw [hc]; rfl))

/-! ## RESUME GROUP (R125) -/

theorem anyHold_iff (s : State) : s.anyHold = true ↔ ∃ e, e ∈ s.zones ∧ e.2.stopHold = true := List.any_eq_true

theorem stopsUnacknowledged_iff (s : State) :
    s.anomalies.any (fun a => a.stop && !a.acked) = true ↔ ∃ a, a ∈ s.anomalies ∧ a.stop = true ∧ a.acked = false := by
  simp only [List.any_eq_true, Bool.and_eq_true, Bool.not_eq_true']

/-- The release of a group's holds, and the return to OPERATING where none is left. -/
theorem resumed_eq (s : State) (g : Nat) : s.resumed g =
    if ∃ e, e ∈ (s.releaseGroup g).zones ∧ e.2.stopHold = true then s.releaseGroup g
    else State.raise .circuit { (s.releaseGroup g).clearCauses with circuit := .operating } := by
  unfold State.resumed
  simp only [anyHold_iff]

theorem ownResumeGroup_eq (g : Nat) (u : State) : u.ownResumeGroup g = replied (
    if u.live = false then (u, .refusedState, [1])
    else if 3 < g then (u, .refusedRange, [])
    else if u.causes.stopIn = true then (u, .refusedState, [3])
    else if u.causes.key = true then (u, .refusedState, [4])
    else if ∃ a, a ∈ u.anomalies ∧ a.stop = true ∧ a.acked = false then (u, .refusedState, [5])
    else if u.tableFull = true then (u, .refusedState, [6])
    else
      match u.circuit with
      | .operating => (u, .done, [])
      | .census => (u.clearCauses, .done, [])
      | _ =>
        if ∃ e, e ∈ (u.releaseGroup g).zones ∧ e.2.stopHold = true then (u.releaseGroup g, .done, [])
        else (State.raise .circuit { (u.releaseGroup g).clearCauses with circuit := .operating }, .done, [])) := by
  unfold State.ownResumeGroup
  have hlive : u.live = u.circuit.live := rfl
  simp only [Bool.not_eq_true', stopsUnacknowledged_iff, resumed_eq, apply_ite replied]
  rw [hlive]
  cases hc : u.circuit with
  | unconfigured | config => rfl
  | census | operating => rfl
  | halted => simp only [apply_ite replied, apply_ite State.done]; rfl

/-- Settles O37: the owner's conditions in their order, and what is resumed. -/
theorem resumeGroupReleasesItsHolds : Obligations.ResumeGroupReleasesItsHolds :=
  fun _ _ group _ h => h.replies (own := State.ownResumeGroup group.toNat) rfl rfl fun u _ => ownResumeGroup_eq group.toNat u

/-! ## Acknowledgement (R129 to R132) -/

theorem ownAcknowledgeAnomaly_eq (kind n : Nat) (u : State) : u.ownAcknowledgeAnomaly kind n = replied (
    if u.live = false then (u, .refusedState, [])
    else
      match AnomalyKind.ofCode kind with
      | none => (u, .refusedRange, [])
      | some k =>
        if u.subjectInRange k n = false then (u, .refusedRange, [])
        else if ¬ ∃ a, a ∈ u.anomalies ∧ a.kind = k ∧ a.subject = n then (u, .refusedState, [])
        else
          let marked := u.anomalies.map (fun a => if a.kind = k ∧ a.subject = n then { a with acked := true } else a)
          let left := marked.filter (fun a => !(a.acked && u.resolved a.kind a.subject))
          ({ u with anomalies := left }, .done, [if u.resolved k n = true then 1 else 0])) := by
  unfold State.ownAcknowledgeAnomaly
  simp only [Bool.not_eq_true', apply_ite replied]
  cases AnomalyKind.ofCode kind with
  | none => rfl
  | some k =>
    have hnone : u.anomalies.any (fun a => a.about k n) = false ↔ ¬∃ a, a ∈ u.anomalies ∧ a.kind = k ∧ a.subject = n := by
      rw [← Bool.not_eq_true, any_about_iff]
    have hbody : byte (u.resolved k n).toNat = if u.resolved k n = true then 1 else 0 := by cases u.resolved k n <;> rfl
    simp only [hnone, hbody, State.acknowledged, Anomaly.about_iff, apply_ite replied]
    rfl

/-- With every entry acknowledged those are left whose resolving condition does not hold. -/
theorem allAcknowledged_anomalies (s : State) : s.allAcknowledged.anomalies =
    (s.anomalies.map (fun a => { a with acked := true })).filter (fun a => !s.resolved a.kind a.subject) := by
  rw [State.allAcknowledged, State.sweep_anomalies, List.filter_map, List.filter_map]
  rfl

theorem ownAcknowledgeAll_eq (u : State) : u.ownAcknowledgeAll = replied (
    let left := (u.anomalies.map (fun a => { a with acked := true })).filter (fun a => !u.resolved a.kind a.subject)
    if u.live = false then (u, .refusedState, [])
    else ({ u with anomalies := left, tableFull := false }, .done, [byte (u.anomalies.length - left.length), byte left.length])) := by
  have hall : u.allAcknowledged = { u with anomalies := u.allAcknowledged.anomalies, tableFull := false } := rfl
  rw [allAcknowledged_anomalies] at hall
  unfold State.ownAcknowledgeAll
  dsimp only
  rw [hall]
  simp only [Bool.not_eq_true', apply_ite replied]
  rfl

theorem sweep_eq (s : State) : s.sweep = { s with
    anomalies := s.anomalies.filter (fun a => decide (¬(a.acked = true ∧ s.resolved a.kind a.subject = true))) } := by
  unfold State.sweep
  congr 2
  funext a
  rw [decide_not, Bool.decide_and, Bool.decide_eq_true, Bool.decide_eq_true]

/-- The resolving conditions over a train's motion, a zone's holder, a node and a switch. -/
theorem motion_ne_iff (s : State) (t : Nat) (m : Motion) : s.motion t ≠ some m ↔ ∀ r, s.trains.find t = some r → r.motion ≠ m := by
  unfold State.motion
  cases s.trains.find t <;> simp

theorem not_stranded_iff (s : State) (t : Nat) :
    (!(s.motion t).any (fun m => m.isStranded)) = true ↔ ∀ r c, s.trains.find t = some r → r.motion ≠ .stranded c := by
  unfold State.motion
  rw [Bool.not_eq_true', ← Bool.not_eq_true, Option.any_eq_true]
  simp only [Option.map_eq_some_iff, Motion.isStranded_iff]
  grind

theorem resolved_iff (s : State) (n : Nat) :
    (s.resolved .unexpectedEntry n = true ↔ s.zoneState n ≠ some .suspect) ∧
    (s.resolved .sequenceFault n = true ↔ ∀ r, s.trains.find n = some r → r.motion ≠ .untracked) ∧
    s.resolved .overspeed n = true ∧
    (s.resolved .overdue n = true ↔ ∀ t r c, s.holder n = some t → s.trains.find t = some r → r.motion ≠ .stranded c) ∧
    (s.resolved .stuck n = true ↔ s.zoneState n ≠ some .trailing) ∧
    (s.resolved .strandedLaunch n = true ↔ ∀ r c, s.trains.find n = some r → r.motion ≠ .stranded c) ∧
    (s.resolved .nodeLost n = true ↔ ∃ x, s.nodes.find n = some x ∧ x.state = .linked) ∧
    (s.resolved .eventsLost n = true ↔ ∃ x, s.nodes.find n = some x ∧ x.state = .linked) ∧
    (s.resolved .switchFault n = true ↔ ∃ w, s.switches.find n = some w ∧ (w.state = .setMain ∨ w.state = .setBranch)) ∧
    (s.resolved .switchDrift n = true ↔ ∃ w, s.switches.find n = some w ∧ (w.state = .setMain ∨ w.state = .setBranch)) ∧
    s.resolved .censusMotion n = true := by
  have overdue : (!(s.holder n).any (fun t => (s.motion t).any (fun m => m.isStranded))) = true ↔
      ∀ t r c, s.holder n = some t → s.trains.find t = some r → r.motion ≠ .stranded c := by
    cases s.holder n with
    | none => simp
    | some t => exact (not_stranded_iff s t).trans ⟨fun h _ r c e => Option.some.inj e ▸ h r c, fun h r c => h t r c rfl⟩
  exact ⟨decide_eq_true_iff, decide_eq_true_iff.trans (motion_ne_iff s n .untracked), rfl, overdue, decide_eq_true_iff,
    not_stranded_iff s n, linked_iff s n, linked_iff s n, switchPosition_isSome s.switches n, switchPosition_isSome s.switches n, rfl⟩

/-- Settles O38: the two acknowledgements, what is removed, and the resolving condition of each kind. -/
theorem acknowledgedEntriesGoWhenResolved : Obligations.AcknowledgedEntriesGoWhenResolved :=
  ⟨fun _ _ kind subject _ h => h.replies (own := State.ownAcknowledgeAnomaly kind.toNat subject.toNat) rfl rfl fun u _ =>
      ownAcknowledgeAnomaly_eq kind.toNat subject.toNat u,
    fun _ _ _ h => h.replies (own := State.ownAcknowledgeAll) rfl rfl fun u _ => ownAcknowledgeAll_eq u, sweep_eq, resolved_iff⟩

/-! # Authority and indicators (spec 11, spec 12) -/

/-! ## The three authority requests (R156) -/

/-- Settles O39: each request, by port and authority state; the change that is asked for is one in each row that has one. -/
theorem authorityChangesByTheTable : Obligations.AuthorityChangesByTheTable := by
  intro p tag s
  refine ⟨fun h => h.replies (own := State.ownTakeAuthority p) rfl rfl fun u _ => ?_,
    fun h => h.replies (own := State.ownFixSupervisor p) rfl rfl fun u _ => ?_,
    fun h => h.replies (own := State.ownHandToConsole p) rfl rfl fun u _ => ?_⟩
  · unfold State.ownTakeAuthority State.setAuthority
    cases p <;> cases u.authority <;> rfl
  · unfold State.ownFixSupervisor State.setAuthority
    cases p <;> cases u.authority <;> rfl
  · unfold State.ownHandToConsole State.setAuthority
    cases p <;> cases u.authority <;> rfl

/-! ## ASSIGN INDICATOR (R159) -/

theorem ownAssignIndicator_eq (line z condition sense : Nat) (u : State) : u.ownAssignIndicator line z condition sense = replied (
    if u.live = false then (u, .refusedState, [])
    else
      match Condition.ofCode condition, Sense.ofCode sense with
      | some c, some n =>
        if 8 ≤ line ∨ (c ≠ .circuitOperating ∧ u.layout.zoneCount ≤ z) then (u, .refusedRange, [])
        else if c = .permitGo ∧ u.layout.kindOf z = some .run then (u, .refusedState, [])
        else
          let given : Assignment := ⟨if c = .circuitOperating then none else some z, c, n⟩
          ({ u with indicators := u.indicators.put line given }, .done, [])
      | _, _ => (u, .refusedRange, [])) := by
  unfold State.ownAssignIndicator
  simp only [Bool.not_eq_true', isKind_iff, apply_ite replied]
  cases Condition.ofCode condition with
  | none => rfl
  | some c =>
    cases Sense.ofCode sense with
    | none => rfl
    | some n => simp only [apply_ite replied]; rfl

/-- Settles O40: the owner's conditions in their order. -/
theorem assignIndicatorDrivesTheLine : Obligations.AssignIndicatorDrivesTheLine :=
  fun _ _ line zone condition sense _ h =>
    h.replies (own := State.ownAssignIndicator line.toNat zone.toNat condition.toNat sense.toNat) rfl rfl fun u _ =>
      ownAssignIndicator_eq line.toNat zone.toNat condition.toNat sense.toNat u

end Sys2Proof.Machine

namespace Sys2Proof.Machine

/-! # The trackside line (spec 10) -/

/-! ## Polling (R142, R144) -/

/-- A poll's content as the statement spells it: the permits, the switch command and the run state (R144). -/
theorem pollFrame_eq (s : State) (n a : Nat) : s.pollFrame n a =
    let go := fun (c : Nat) =>
      match s.layout.permitZoneAt n c with
      | some z => if s.permit z = some true then 1 else 0
      | none => 0
    let command : Byte :=
      match (s.layout.switchAt n).bind (fun (e : Nat × SwitchRec) => (s.switches.find e.1).map (fun (w : Switch) => w.state)) with
      | some (.moving .main) => 1
      | some (.moving .branch) => 2
      | _ => 0
    let content := [byte a, byte (go 0 + 2 * go 1), command, if s.circuit = .operating then 1 else 0]
    [0x96] ++ content ++ [crc8 content] := by
  have hgo (c : Nat) : (s.channelGo n c).toNat = match s.layout.permitZoneAt n c with
      | some z => if s.permit z = some true then 1 else 0
      | none => 0 := by
    unfold State.channelGo
    cases s.layout.permitZoneAt n c with
    | none => rfl
    | some z => by_cases h : s.permit z = some true <;> simp [h]
  have hcommand (w : Option SwitchState) : switchCommand w = match w with
      | some (.moving .main) => (1 : Byte)
      | some (.moving .branch) => 2
      | _ => 0 := by
    match w with
    | some (.moving .main) | some (.moving .branch) | some .unproven | some .setMain | some .setBranch | some .faulted | none => rfl
  have hrun : byte (decide (s.circuit = .operating)).toNat = if s.circuit = .operating then 1 else 0 := by
    by_cases h : s.circuit = .operating <;> simp [h]
  unfold State.pollFrame
  dsimp only
  rw [hgo, hgo, hcommand, hrun]
  rfl

theorem sendPoll_eq (s : State) (n : Nat) : s.sendPoll n =
    let a := (s.layout.nodes.find n).getD 0
    { s with polled := some n, poll := some ⟨n, a, true, s.pollFrame n a, []⟩ } := rfl

/-- A poll goes out in a live circuit with no poll outstanding, to the node next polled. -/
theorem exec_pollSend {s : State} (h : s.resetPin = false) : exec .pollSend s = .next (State.settle (
    match s.nextPolled with
    | none => s
    | some n => if s.live = false ∨ s.poll.isSome = true then s else s.sendPoll n)) := by
  rw [exec_running (fun _ => rfl) h]
  have hbusy : (s.live && s.poll.isNone) = true ↔ ¬(s.live = false ∨ s.poll.isSome = true) := by
    cases s.live <;> cases s.poll <;> simp
  refine congrArg (fun v => Host.Outcome.next (State.settle v)) ?_
  cases s.nextPolled with
  | none => exact ite_self s
  | some n => rw [ite_of_iff hbusy, ite_not]

/-- The least number that meets a condition on the number, where the search is for that condition. -/
theorem Table.least_eq_some_iff {α : Type} {t : Table α} (h : t.wf) {q : Nat → α → Bool} {P : Nat → Prop}
    (hP : ∀ n, P n ↔ ∃ x, t.find n = some x ∧ q n x = true) (n : Nat) : t.least q = some n ↔ P n ∧ ∀ m, P m → n ≤ m := by
  refine ⟨Table.least_iff h hP, fun ⟨hn, hl⟩ => (Table.least_some h).mpr ⟨(hP n).mp hn, fun m y hy hq => ?_⟩⟩
  exact hl m ((hP m).mpr ⟨y, hy, hq⟩)

theorem Table.least_eq_none_iff_not_exists {α : Type} {t : Table α} (h : t.wf) {q : Nat → α → Bool} {P : Nat → Prop}
    (hP : ∀ n, P n ↔ ∃ x, t.find n = some x ∧ q n x = true) : t.least q = none ↔ ¬∃ n, P n := by
  rw [Table.least_none h]
  simp only [hP, not_exists, not_and, Bool.not_eq_true]

theorem nextPolled_iff {s : State} (h : s.Canonical) (n : Nat) :
    let mapped := fun (m : Nat) => (s.nodes.find m).isSome = true ∧ s.layout.mapped m = true
    let above := fun (m : Nat) => mapped m ∧ ∀ l, s.polled = some l → l < m
    (s.nextPolled = some n ↔
      (above n ∧ ∀ m, above m → n ≤ m) ∨ ((¬ ∃ m, above m) ∧ mapped n ∧ ∀ m, mapped m → n ≤ m)) := by
  intro mapped above
  have hmapped (m : Nat) : mapped m ↔ ∃ x, s.nodes.find m = some x ∧ s.layout.mapped m = true := exists_of_isSome _ _
  have habove (m : Nat) : above m ↔
      ∃ x, s.nodes.find m = some x ∧ (s.layout.mapped m && s.polled.all (fun l => decide (l < m))) = true := by
    rw [← exists_of_isSome, Bool.and_eq_true, Option.all_eq_true]
    simp only [above, mapped, and_assoc, decide_eq_true_eq]
  unfold State.nextPolled
  rw [Option.or_eq_some_iff, Table.least_eq_some_iff h.nodes habove, Table.least_eq_none_iff_not_exists h.nodes habove,
    Table.least_eq_some_iff h.nodes hmapped]

/-- Settles O42: what a poll carries, and which node it goes to. -/
theorem pollsCarryPermitsAndSwitchCommand : Obligations.PollsCarryPermitsAndSwitchCommand := by
  refine ⟨fun s h => ?_, fun s n h => nextPolled_iff h n⟩
  rw [exec_pollSend h]
  cases s.nextPolled with
  | none => rfl
  | some n => simp only [sendPoll_eq, pollFrame_eq] <;> rfl

/-! ## Counting (R143) -/

theorem countGood_eq {s : State} {n : Nat} {x : Node} (h : s.nodes.find n = some x) : s.countGood n =
    if x.state = .unmapped then s
    else if x.state = .linked then s.updNode n (fun x => { x with miss := 0 })
    else if s.layout.linkUp ≤ x.good + 1 then s.becomeLinked n
    else s.updNode n (fun x => { x with good := x.good + 1, miss := 0 }) := by
  unfold State.countGood
  rw [h]
  obtain ⟨st, good, miss, expected⟩ := x
  cases st <;> rfl

theorem countMiss_eq {s : State} {n : Nat} {x : Node} (h : s.nodes.find n = some x) : s.countMiss n =
    if x.state = .unmapped then s
    else if x.state = .linked then
      if s.layout.linkDown ≤ x.miss + 1 then ((s.updNode n (fun _ => Node.enter .lost)).raise .link).loss n .nodeLost
      else s.updNode n (fun x => { x with miss := x.miss + 1, good := 0 })
    else s.updNode n (fun x => { x with miss := min (x.miss + 1) 7, good := 0 }) := by
  unfold State.countMiss
  rw [h]
  obtain ⟨st, good, miss, expected⟩ := x
  cases st <;> rfl

/-! ## The taking of an answer (R142, R145) -/

theorem takeAnswer_eq (s : State) (bytes : List Byte) : s.takeAnswer bytes =
    match s.poll with
    | none => s
    | some q =>
      match lineAnswer q.address (q.rx ++ bytes) with
      | .incomplete => { s with poll := some { q with rx := q.rx ++ bytes } }
      | .miss => if q.counted = true then State.countMiss { s with poll := none } q.node else { s with poll := none }
      | .good report events => if q.counted = false then { s with poll := none } else State.takeGood { s with poll := none } q.node report events := by
  unfold State.takeAnswer
  cases s.poll with
  | none => rfl
  | some q =>
    dsimp only
    cases lineAnswer q.address (q.rx ++ bytes) with
    | incomplete | miss => rfl
    | good report events => cases q.counted <;> rfl

/-! ## Reading an answer (R167, section 13.5) -/

theorem answerAfterSync_short (address : Nat) {rest : List Byte} (h : rest.length < 3) : answerAfterSync address rest = .incomplete := by
  match rest, h with
  | [], _ | [_], _ | [_, _], _ => rfl

/-- What an answer that is long enough has to be to be good. -/
theorem answerAfterSync_eq (address : Nat) (a r c : Byte) (tail : List Byte) : answerAfterSync address (a :: r :: c :: tail) =
    if 4 < c.toNat then .miss
    else if tail.length < 2 * c.toNat + 1 then .incomplete
    else
      match Report.ofCode r.toNat, lineEventsOf (tail.take (2 * c.toNat)) with
      | some q, some es =>
        if tail[2 * c.toNat]? = some (crc8 ([a, r, c] ++ tail.take (2 * c.toNat))) ∧ a.toNat = address then .good q es else .miss
      | _, _ => .miss := by
  rw [← List.head?_drop]
  rfl

/-- An answer at its end is good exactly when its check, its address, its report and every event are right. -/
theorem answer_read (address : Nat) (a r c : Byte) (tail : List Byte) :
    let n := c.toNat
    let body := tail.take (2 * n)
    let high := fun (i : Nat) => (body.getD (2 * i) 0).toNat
    let low := fun (i : Nat) => (body.getD (2 * i + 1) 0).toNat
    let sound := tail[2 * n]? = some (crc8 ([a, r, c] ++ body)) ∧ a.toNat = address ∧ r.toNat ≤ 3 ∧
      ∀ i, i < n → high i < 64 ∧ 1 ≤ low i ∧ low i ≤ 4
    let read := answerAfterSync address (a :: r :: c :: tail)
    (4 < n → read = .miss) ∧
    (n ≤ 4 → tail.length < 2 * n + 1 → read = .incomplete) ∧
    (n ≤ 4 → 2 * n + 1 ≤ tail.length → ¬sound → read = .miss) ∧
    (n ≤ 4 → 2 * n + 1 ≤ tail.length → sound → ∃ report events, read = .good report events ∧
      [Report.main, .branch, .moving, .unknown][r.toNat]? = some report ∧ events.length = n ∧
      ∀ i, i < n → ∃ e, events[i]? = some e ∧ e.seq.toNat = high i % 16 ∧ e.channel = high i / 16 ∧
        [EventKind.fwdHead, .fwdTail, .revHead, .revTail][low i - 1]? = some e.kind) := by
  intro n body high low sound read
  have hread : read = _ := answerAfterSync_eq address a r c tail
  obtain ⟨hreport, reportOf⟩ := Report.ofCode_spec r.toNat
  refine ⟨fun hn => by rw [hread, if_pos hn], fun hn ht => by rw [hread, if_neg (Nat.not_lt.mpr hn), if_pos ht], fun hn ht hs => ?_,
    fun hn ht ⟨hcheck, haddress, hr, hevents⟩ => ?_⟩
  all_goals
    rw [if_neg (Nat.not_lt.mpr hn), if_neg (Nat.not_lt.mpr ht)] at hread
    obtain ⟨heventsOk, eventsOf⟩ := lineEventsOf_spec n body (List.length_take_of_le (Nat.le_of_succ_le ht))
  · rw [hread]
    cases hq : Report.ofCode r.toNat with
    | none => rfl
    | some q =>
      cases he : lineEventsOf body with
      | none => rfl
      | some es =>
        refine if_neg fun ⟨hcheck, haddress⟩ => hs ⟨hcheck, haddress, hreport.mpr (by rw [hq]; rfl), heventsOk.mpr (by rw [he]; rfl)⟩
  · obtain ⟨q, hq⟩ := Option.isSome_iff_exists.mp (hreport.mp hr)
    obtain ⟨es, he⟩ := Option.isSome_iff_exists.mp (heventsOk.mp hevents)
    refine ⟨q, es, ?_, reportOf q hq, eventsOf es he⟩
    rw [hread, hq, he]
    exact if_pos ⟨hcheck, haddress⟩

/-- Settles O43: the taking of an answer and of a timeout, the counts, and the reading of the bytes. -/
theorem answersAreCountedAndTaken : Obligations.AnswersAreCountedAndTaken := by
  refine ⟨fun bytes s h => ?_, fun s h => (exec_running (f := State.timeOut) (fun _ => rfl) h).trans rfl, fun s n x h => ⟨countGood_eq h, countMiss_eq h⟩,
    fun address before rest h => ?_⟩
  · rw [exec_running (fun _ => rfl) h, takeAnswer_eq]
    rfl
  · obtain ⟨hbefore, hafter⟩ := lineAnswer_discards address before rest h
    rw [hafter]
    refine ⟨hbefore, answerAfterSync_short address, fun a r c tail e => ?_⟩
    subst e
    exact answer_read address a r c tail

/-! ## The sequence check and a loss (R146, R147) -/

theorem takeEvents_cons {s : State} {n : Nat} {x : Node} (e : LineEvent) (rest : List LineEvent) (h : s.nodes.find n = some x) :
    s.takeEvents n (e :: rest) =
      if x.expected = none ∨ x.expected = some e.seq then
        let u : State := { s with nodes := s.nodes.upd n (fun x => { x with expected := some (e.seq + 1) }) }
        match u.layout.gateAt n e.channel with
        | some (g, r) => (u.takeEvent g r e.kind).takeEvents n rest
        | none => u.takeEvents n rest
      else State.loss { s with nodes := s.nodes.upd n (fun x => { x with expected := none }) } n .eventsLost := by
  have hexpected : x.expected.all (fun q => decide (q = e.seq)) = true ↔ x.expected = none ∨ x.expected = some e.seq := by
    cases x.expected <;> simp
  rw [State.takeEvents, h]
  dsimp only
  rw [ite_of_iff hexpected]
  refine ite_congr rfl (fun _ => ?_) fun _ => rfl
  change State.takeEvents (match s.layout.gateAt n e.channel with | some (g, rec) => _ | none => _) n rest =
    match s.layout.gateAt n e.channel with | some (g, rec) => _ | none => _
  cases s.layout.gateAt n e.channel <;> rfl

theorem Zone.lineLost_fun : Zone.lineLost =
    fun x => if x.state = .suspect ∨ x.state = .outOfService then x else { x with state := .suspect, timer := .idle } :=
  funext Zone.lineLost_eq

/-- Settles O44: the events of an answer one by one, and what a loss leaves. -/
theorem aGapInSequenceDiscardsTheRest : Obligations.AGapInSequenceDiscardsTheRest := by
  refine ⟨fun s n x e rest h => takeEvents_cons e rest h, fun s n k => ?_⟩
  obtain ⟨zones, trains, htrack⟩ := lineSuspect_onTrack s n
  have hmarked := lineSuspect_marked s n
  rw [htrack, Zone.lineLost_fun] at hmarked
  exact ⟨zones, trains, by rw [loss_eq, htrack]; rfl, hmarked⟩

end Sys2Proof.Machine

namespace Sys2Proof.Machine

/-! # Timers (spec 06) -/

/-! ## Expiries (R108, R109) -/

theorem Motion.strand_eq (m : Motion) (c : StrandCause) : m.strand c =
    if m = .moving ∨ m = .recovering ∨ m = .stranded .overdue ∨ m = .stranded .stuck then .stranded c else m := by
  rcases m with _ | _ | _ | _ | (_ | _ | _) | _ <;> rfl

theorem expiryDue_eq (s : State) (z : Nat) (use : TimerUse) : s.expiryDue z use =
    (s.zones.find z).any (fun x => match x.timer with | .running v _ .due => decide (v = use) | _ => false) := by
  unfold State.expiryDue
  cases s.zones.find z <;> rfl

theorem takeExpiry_eq (s : State) (z : Nat) (c : StrandCause) (k : AnomalyKind) : s.takeExpiry z c k =
    let reported := s.zones.upd z (fun x => { x with timer := x.timer.reported })
    match s.holder z with
    | some t =>
      (State.sweep { s with zones := reported, trains := s.trains.upd t (fun r => { r with motion := r.motion.strand c }) }).anomaly k z true
    | none => (State.sweep { s with zones := reported }).anomaly k z true := by
  unfold State.takeExpiry
  dsimp only
  rw [holder_kept_zone s z (fun x => { x with timer := x.timer.reported }) (fun _ => rfl)]
  cases s.holder z <;> rfl

/-- Settles O48: what stranding makes of a motion, and the taking of an expiry that is due. -/
theorem expiriesStrandTheHolder : Obligations.ExpiriesStrandTheHolder := by
  refine ⟨Motion.strand_eq, fun _ _ _ => ⟨rfl, rfl⟩, fun z s h => ?_⟩
  dsimp only
  constructor <;> (rw [exec_running (fun _ => rfl) h, expiryDue_eq, takeExpiry_eq] <;> rfl)

/-! ## The millisecond (R103, R104, R111) -/

theorem ZoneTimer.tick_running (limit : TimerUse → Option Nat) (use : TimerUse) (n : Nat) (x : Expiry) :
    ZoneTimer.tick limit (.running use n x) = .running use (min (n + 1) 65535)
      (if x = .notDue ∧ (limit use).any (fun m => decide (m ≤ min (n + 1) 65535)) = true then .due else x) := by
  cases x with
  | notDue => exact congrArg (ZoneTimer.running use _) (ite_of_iff (and_iff_right rfl).symm _ _)
  | due | reported => rfl

/-- Settles O49: nothing advances where the circuit is not live, and each timer of one that is. -/
theorem eachMillisecondAdvancesTheTimers : Obligations.EachMillisecondAdvancesTheTimers := by
  intro s h
  rw [exec_running (fun _ => rfl) h]
  cases hl : s.live with
  | false => rfl
  | true =>
    have tables {zs zs' : Table Zone} {ws ws' : Table Switch} (hz : zs = zs') (hw : ws = ws') :
        State.settle { s with timebase := s.timebase + 1, zones := zs, switches := ws } =
          State.settle { s with timebase := s.timebase + 1, zones := zs', switches := ws' } := by rw [hz, hw]
    refine congrArg Host.Outcome.next (tables (List.map_congr_left fun e _ => congrArg (fun m => (e.1, { e.2 with timer := m })) ?_)
      (List.map_congr_left fun e _ => congrArg (fun m => (e.1, { e.2 with timer := m })) ?_))
    · cases e.2.timer with
      | idle => rfl
      | running use n x => cases use <;> exact ZoneTimer.tick_running _ _ n x
    · cases e.2.timer <;> rfl

/-! # Claims on zones, and the permit (spec 02) -/

/-! ## Occupy, trail and release (R25 to R27, R55) -/

theorem occupy_eq (s : State) (z t : Nat) : s.occupy z t =
    if s.holder z = some t ∧ (s.zoneState z = some .reserved ∨ s.zoneState z = some .trailing) then
      some (s.updZone z (Zone.turn .occupied)) else none := rfl

theorem trail_eq (s : State) (z t : Nat) : s.trail z t =
    if s.layout.kindOf z = some .launch ∧ s.holder z = some t ∧ s.zoneState z = some .occupied then
      some (s.updZone z (Zone.turn .trailing)) else none := by
  unfold State.trail
  rw [ite_of_iff (and_congr_left fun _ => isKind_iff ..)]

theorem heldBy_of_not_held {s : State} {t z : Nat} (h : s.holder z ≠ some t) : s.heldBy t [z] = [] :=
  List.filter_eq_nil_iff.mpr fun _ hy => by rw [List.mem_singleton.mp hy, decide_eq_true_iff]; exact h

theorem release_of_not_held {s : State} {t z : Nat} (h : s.holder z ≠ some t) : s.release t [z] = none := by
  unfold State.release
  rw [heldBy_of_not_held h]
  cases s.trains.find t with
  | none => rfl
  | some r => exact if_pos (.inl rfl)

theorem filter_singleton (l : List Nat) (z : Nat) : l.filter (fun y => decide (y ∉ [z])) = l.filter (fun y => decide (y ≠ z)) :=
  List.filter_congr fun _ _ => decide_eq_decide.mpr (not_congr List.mem_singleton)

theorem release_held {s : State} {t z : Nat} {r : Train} (hr : s.trains.find t = some r) (hh : s.holder z = some t)
    (hleft : r.hold.filter (fun y => decide (y ≠ z)) ≠ []) : s.release t [z] =
      some ((s.updZones [z] Zone.released).updTrain t (fun r => { r with hold := r.hold.filter (fun y => decide (y ≠ z)) })) := by
  rw [release_eq hr (fun _ hy => by rw [List.mem_singleton.mp hy, hh]) (List.cons_ne_nil z [])
    (by rw [filter_singleton]; exact hleft)]
  simp only [filter_singleton]

theorem release_last {s : State} {t z : Nat} {r : Train} (hr : s.trains.find t = some r)
    (hleft : r.hold.filter (fun y => decide (y ≠ z)) = []) : s.release t [z] = none := by
  by_cases hh : s.holder z = some t
  · have hheld : s.heldBy t [z] = [z] := List.filter_eq_self.mpr fun _ hy => by rw [List.mem_singleton.mp hy, hh, decide_eq_true_iff]
    unfold State.release
    rw [hr, hheld]
    exact if_pos (.inr ((filter_singleton r.hold z).trans hleft))
  · exact release_of_not_held hh

/-- Settles O50: each claim with its condition. -/
theorem zoneClaimsActOnlyOnTheirTrainsZones : Obligations.ZoneClaimsActOnlyOnTheirTrainsZones :=
  fun s z t => ⟨occupy_eq s z t, trail_eq s z t, fun _ => release_held, release_of_not_held, fun _ => release_last⟩

/-! ## The permit (R34) -/

theorem permitGo_iff (s : State) (z : Nat) (x : Zone) (t : Nat) (r : Train) : s.permitGo z x t r = true ↔
    x.state = .occupied ∧ r.claim = .granted ∧ (r.motion = .cleared ∨ r.motion = .moving) ∧
    (∃ e, s.extension z = some e ∧ ∀ q, q ∈ e → q.1 ∈ r.hold ∧ s.zoneState q.1 = some .reserved ∧ s.holder q.1 = some t) ∧
    (x.stopHold = false ∨ r.stepGrant = true) := by
  unfold State.permitGo
  cases s.extension z with
  | none => simp
  | some e =>
    simp only [Bool.and_eq_true, Bool.or_eq_true, decide_eq_true_eq, Bool.not_eq_true', List.all_eq_true, isReserved_iff,
      Option.some.injEq, exists_eq_left', and_assoc]

/-- The permit of a stoppable zone, and of a RUN zone. -/
theorem permit_eq {s : State} {z : Nat} {x : Zone} (h : s.zones.find z = some x) : s.permit z =
    if s.layout.stoppable z then some ((x.holder.bind (fun t => (s.trains.find t).map (fun r => s.permitGo z x t r))).getD false)
    else none := by
  unfold State.permit
  rw [h]
  dsimp only
  cases x.holder with
  | none => rfl
  | some t => cases ht : s.trains.find t <;> simp [ht]

/-- Settles O51: the permit by the kind of the zone, and when it is GO. -/
theorem thePermitIsGoOnlyOverReservedTrack : Obligations.ThePermitIsGoOnlyOverReservedTrack := by
  intro s z x h
  rw [permit_eq h]
  refine ⟨fun hs => if_neg (by simp [hs]), fun hs => ?_, ?_⟩
  · rw [if_pos hs]
    cases (x.holder.bind (fun t => (s.trains.find t).map (fun r => s.permitGo z x t r))).getD false with
    | false => exact .inr rfl
    | true => exact .inl rfl
  · have hgo : (x.holder.bind (fun t => (s.trains.find t).map (fun r => s.permitGo z x t r))).getD false = true ↔
        ∃ t r, x.holder = some t ∧ s.trains.find t = some r ∧ s.permitGo z x t r = true := by
      cases x.holder with
      | none => simp
      | some t => cases ht : s.trains.find t <;> simp [ht]
    by_cases hs : s.layout.stoppable z = true
    · rw [if_pos hs, Option.some_inj, hgo]
      constructor
      · rintro ⟨t, r, ht, hr, go⟩
        obtain ⟨hocc, hg, hm, ⟨e, he, hall⟩, hstop⟩ := (permitGo_iff ..).mp go
        exact ⟨hs, hocc, t, r, e, ht, hr, hg, hm, he, hall, hstop⟩
      · rintro ⟨_, hocc, t, r, e, ht, hr, hg, hm, he, hall, hstop⟩
        exact ⟨t, r, ht, hr, (permitGo_iff ..).mpr ⟨hocc, hg, hm, ⟨e, he, hall⟩, hstop⟩⟩
    · rw [if_neg hs]
      exact iff_of_false nofun fun h => hs h.1

end Sys2Proof.Machine

namespace Sys2Proof.Machine

/-! # Passage tracking (spec 05) -/

/-! ## The reading of an event (R83) -/

theorem entryAfter_of_not_mem {l : List Nat} {a : Nat} (h : a ∉ l) : entryAfter l a = none := by
  refine Classical.byContradiction fun hne => ?_
  obtain ⟨b, hb⟩ := Option.ne_none_iff_exists'.mp hne
  exact h (mem_of_entryAfter hb)

theorem entryAfter_cons_of_ne {c a : Nat} (h : c ≠ a) (l : List Nat) : entryAfter (c :: l) a = entryAfter l a := by
  cases l with
  | nil => rfl
  | cons d l => exact if_neg h

theorem entryAfter_append {front : List Nat} {a : Nat} (h : a ∉ front) (l : List Nat) : entryAfter (front ++ l) a = entryAfter l a := by
  induction front with
  | nil => rfl
  | cons c front ih =>
    rw [List.cons_append, entryAfter_cons_of_ne (fun e => h (by rw [e]; exact .head _)), ih fun hm => h (.tail _ hm)]

theorem entryAfter_cases {front : List Nat} {a : Nat} (h : a ∉ front) (back : List Nat) (b : Nat) :
    entryAfter (front ++ a :: b :: back) a = some b ∧ entryAfter (front ++ [a]) a = none ∧ entryAfter front a = none :=
  ⟨(entryAfter_append h _).trans (if_pos rfl), entryAfter_append h _, entryAfter_of_not_mem h⟩

theorem subject_eq (s : State) (k : EventKind) (a b : Nat) : s.subject k a b =
    if k = .fwdHead ∨ k = .fwdTail then s.holder a else if s.holder b = none then s.holder a else s.holder b := by
  have hor : (s.holder b).or (s.holder a) = if s.holder b = none then s.holder a else s.holder b := by
    cases s.holder b <;> rfl
  cases k with
  | fwdHead | fwdTail => rfl
  | revHead | revTail => exact hor

/-- The subject train with its record. -/
theorem classify_subject (s : State) (k : EventKind) (a b : Nat) : s.classify k a b =
    match (s.subject k a b).bind (fun t => (s.trains.find t).map (fun r => (t, r))) with
    | none => .phantom
    | some (t, r) => if r.motion = .untracked then .untrackedSubject t else s.classifyFor k a b t r := by
  unfold State.classify
  cases s.subject k a b with
  | none => rfl
  | some t => cases ht : s.trains.find t <;> simp [ht]

theorem nextReserved_iff (s : State) (n : Option Nat) :
    n.any (fun z => s.isReserved z) = true ↔ n.bind (fun z => s.zoneState z) = some .reserved := by
  cases n with
  | none => simp
  | some z => exact isReserved_iff s z

/-- The event against a subject train that is tracked, by its kind. -/
theorem classifyFor_eq (s : State) (k : EventKind) (a b t : Nat) (r : Train) : s.classifyFor k a b t r =
    let stalled := r.motion = .moving ∨ r.motion = .stranded .overdue ∨ r.motion = .stranded .stuck
    let rear := r.hold.head? = some a
    let onward := entryAfter r.hold a = some b
    let launch := s.layout.kindOf a = some .launch
    let reserved := ((entryAfter r.hold a).bind (fun z => s.zoneState z)) = some .reserved
    match k with
    | .fwdHead =>
      if s.headOf r.hold ≠ some a then .fault t
      else if ¬reserved then .unexpected t
      else if ¬onward then .wrongFork t
      else if r.motion = .cleared ∨ stalled then .advance t else .fault t
    | .fwdTail =>
      if rear ∧ s.zoneState a = some .occupied ∧ onward ∧ s.zoneState b = some .occupied ∧
          (stalled ∨ (r.motion = .recovering ∧ launch)) then .leave t else .fault t
    | .revHead =>
      if launch ∧ rear ∧ s.zoneState a = some .trailing ∧ onward ∧ s.headOf r.hold = some b ∧ stalled then .reverse t else .fault t
    | .revTail =>
      if launch ∧ rear ∧ s.zoneState a = some .occupied ∧ onward ∧ s.headOf r.hold = some b ∧ (stalled ∨ r.motion = .recovering)
      then .rollback t else .fault t := by
  unfold State.classifyFor
  cases k <;> simp only [nextReserved_iff, Motion.underWay_iff, isKind_iff, decide_eq_true_eq, ne_eq, ite_not]

/-- Settles O45: the entry after a zone, and the classification by the subject train. -/
theorem eventsAreReadAgainstTheirTrain : Obligations.EventsAreReadAgainstTheirTrain := by
  refine ⟨fun _ back _ b h => entryAfter_cases h back b, fun s k a b => ?_⟩
  simp only [classify_subject, subject_eq, classifyFor_eq] <;> rfl

end Sys2Proof.Machine

namespace Sys2Proof.Machine

/-! ## What the acts keep of a zone's state and holder, and of a train's motion -/

theorem zoneState_kept (s : State) (zs : List Nat) (f : Zone → Zone) (hf : ∀ x, (f x).state = x.state) (z : Nat) :
    (s.updZones zs f).zoneState z = s.zoneState z := by
  rw [zoneState_updZones]
  unfold State.zoneState
  split
  · simp only [hf]
  · rfl

theorem zoneState_kept_zone (s : State) (z : Nat) (f : Zone → Zone) (hf : ∀ x, (f x).state = x.state) (y : Nat) :
    (s.updZone z f).zoneState y = s.zoneState y := by
  rw [State.updZone_eq_updZones, zoneState_kept s [z] f hf]

theorem zoneState_of_not_mem (s : State) {zs : List Nat} (f : Zone → Zone) {z : Nat} (h : z ∉ zs) :
    (s.updZones zs f).zoneState z = s.zoneState z := by
  rw [zoneState_updZones, if_neg h]

theorem holder_of_not_mem (s : State) {zs : List Nat} (f : Zone → Zone) {z : Nat} (h : z ∉ zs) :
    (s.updZones zs f).holder z = s.holder z := by
  rw [holder_updZones, if_neg h]

theorem motion_congr {s t : State} (h : t.trains = s.trains) (u : Nat) : t.motion u = s.motion u := by
  unfold State.motion; rw [h]

theorem motion_updTrain (s : State) (t : Nat) (f : Train → Train) (u : Nat) :
    (s.updTrain t f).motion u = if u = t then (s.trains.find t).map (fun r => (f r).motion) else s.motion u := by
  unfold State.motion
  rw [State.updTrain_trains, Table.find_upd]
  split
  next e => rw [e, Option.map_map]; rfl
  next => rfl

theorem motion_kept (s : State) (t : Nat) (f : Train → Train) (hf : ∀ r, (f r).motion = r.motion) (u : Nat) :
    (s.updTrain t f).motion u = s.motion u := by
  rw [motion_updTrain]
  split
  next e => simp only [hf, e]; rfl
  next => rfl

theorem arise_zoneState (s : State) (c : StopCause) (z : Nat) : (s.arise c).zoneState z = s.zoneState z := by
  have held (u : State) : u.holdAll.zoneState z = u.zoneState z := zoneState_kept u _ _ (by intro; rfl) z
  unfold State.arise
  cases s.circuit with
  | operating | halted => exact held _
  | census => rfl
  | unconfigured | config => cases c <;> rfl

theorem enterAnomaly_records (s : State) (k : AnomalyKind) (n : Nat) (b : Bool) :
    (s.enterAnomaly k n b).zones = s.zones ∧ (s.enterAnomaly k n b).trains = s.trains ∧ (s.enterAnomaly k n b).causes = s.causes := by
  unfold State.enterAnomaly
  split
  · exact ⟨rfl, rfl, rfl⟩
  · split <;> exact ⟨rfl, rfl, rfl⟩

theorem anomaly_zoneState (s : State) (k : AnomalyKind) (n : Nat) (b : Bool) (z : Nat) :
    (s.anomaly k n b).zoneState z = s.zoneState z := by
  have h : ((s.enterAnomaly k n b).raise .anomaly).zoneState z = s.zoneState z := zoneState_congr (enterAnomaly_records s k n b).1 z
  cases b with
  | true => exact (arise_zoneState _ _ z).trans h
  | false => exact h

theorem anomaly_holder (s : State) (k : AnomalyKind) (n : Nat) (b : Bool) (z : Nat) : (s.anomaly k n b).holder z = s.holder z := by
  have h : ((s.enterAnomaly k n b).raise .anomaly).holder z = s.holder z := holder_congr (enterAnomaly_records s k n b).1 z
  cases b with
  | true => exact (arise_holder _ _ z).trans h
  | false => exact h

theorem anomaly_trains (s : State) (k : AnomalyKind) (n : Nat) (b : Bool) : (s.anomaly k n b).trains = s.trains := by
  have h : ((s.enterAnomaly k n b).raise .anomaly).trains = s.trains := (enterAnomaly_records s k n b).2.1
  cases b with
  | true => exact (arise_trains _ _).1.trans h
  | false => exact h

/-- A report of a stop kind, with the circuit OPERATING or HALTED, leaves it HALTED with the cause ANOMALY (R123, R128). -/
theorem anomaly_stops {s : State} (h : s.Running) (k : AnomalyKind) (n : Nat) :
    (s.anomaly k n true).circuit = .halted ∧ (s.anomaly k n true).causes.anomaly = true := by
  have hc : ((s.enterAnomaly k n true).raise .anomaly).circuit = s.circuit := enterAnomaly_circuit s k n true
  change (((s.enterAnomaly k n true).raise .anomaly).arise .anomaly).circuit = .halted ∧
    (((s.enterAnomaly k n true).raise .anomaly).arise .anomaly).causes.anomaly = true
  generalize (s.enterAnomaly k n true).raise .anomaly = u at hc
  obtain ⟨operating, halted, _, _⟩ := arise_cases u .anomaly
  rcases h with h | h
  · rw [operating (hc.trans h)]
    exact ⟨rfl, rfl⟩
  · rw [halted (hc.trans h)]
    exact ⟨hc.trans h, rfl⟩

/-! ## Handing on an event's work (R82, R88) -/

theorem enterClaim_iff_none (s : State) (t : Nat) (b : Bool) : s.enterClaim t b =
    if (s.trains.find t).map (fun x => x.claim) = some .none then some (s.withEntry t b) else none := by
  cases hr : s.trains.find t with
  | none =>
    unfold State.enterClaim
    rw [hr]
    rfl
  | some r =>
    rw [Option.map_some, ite_of_iff (Option.some_inj (a := r.claim))]
    by_cases hc : r.claim = .none
    · rw [if_pos hc, enterClaim_of_none hr hc]
    · rw [if_neg hc, enterClaim_of_claimed hr hc]

theorem finish_eq (h : Handover) (a b : Nat) : h.finish a b =
    let u := h.state.sweep
    let freed := if h.evaluate = true then u.evaluate else u
    let claimed :=
      match h.auto with
      | none => freed
      | some t =>
        if (u.trains.find t).map (fun x => x.claim) = some .none then (u.withEntry t false).evaluate
        else if h.refusalFaults = true then (freed.faultMarks a b t).sweep.anomaly .sequenceFault t true
        else freed
    let told := h.anomalies.foldl (fun v q => v.anomaly q.1 q.2.1 q.2.2) claimed
    if h.arrived = true then told.raise .trainArrived else told := by
  unfold Handover.finish Handover.report State.anomalyAll
  cases h.auto with
  | none => rfl
  | some t =>
    dsimp only
    rw [enterClaim_iff_none]
    by_cases hc : (h.state.sweep.trains.find t).map (fun x => x.claim) = some .none
    · simp only [hc, if_true]
      rfl
    · simp only [hc, if_false]
      cases h.refusalFaults <;> rfl

theorem takeEvent_running {s : State} (h : s.circuit = .operating ∨ s.circuit = .halted) (g : Nat) (r : GateRec) (k : EventKind) :
    s.takeEvent g r k = (s.actEvent k g r.src r.dst).finish r.src r.dst := by
  unfold State.takeEvent
  rcases h with h | h <;> rw [h]

theorem actEvent_of_act {s : State} {k : EventKind} {g a b : Nat} {h : Handover} (ha : s.actAs (s.classify k a b) k g a b = some h) :
    s.actEvent k g a b = h := by
  unfold State.actEvent
  rw [ha]

/-! ## What a grant keeps (R66, R68) -/

/-- A grant reserves FREE zones only. -/
theorem extended_zoneState {u : State} {e : List (Nat × Nat)} (he : ∀ q, q ∈ e → u.zoneState q.1 = some .free) (v : Nat) {z : Nat}
    (hz : u.zoneState z ≠ some .free) : (u.extended v e).zoneState z = u.zoneState z :=
  zoneState_of_not_mem u (Zone.give .reserved v) fun hm => by
    obtain ⟨q, hq, rfl⟩ := List.mem_map.mp hm
    exact hz (he q hq)

theorem extended_holder {u : State} {e : List (Nat × Nat)} (he : ∀ q, q ∈ e → u.zoneState q.1 = some .free) (v : Nat) {z : Nat}
    (hz : u.zoneState z ≠ some .free) : (u.extended v e).holder z = u.holder z :=
  holder_of_not_mem u (Zone.give .reserved v) fun hm => by
    obtain ⟨q, hq, rfl⟩ := List.mem_map.mp hm
    exact hz (he q hq)

/-- It clears only a train that stands. -/
theorem extended_motion (u : State) (v : Nat) (e : List (Nat × Nat)) {t : Nat} (ht : u.motion t ≠ some .standing) :
    (u.extended v e).motion t = u.motion t := by
  refine (motion_updTrain u v _ t).trans ?_
  split
  next h =>
    rw [← h]
    cases hr : u.trains.find t with
    | none => simp [State.motion, hr]
    | some r =>
      have hm : r.motion ≠ .standing := fun hm => ht (by simp [State.motion, hr, hm])
      simp [State.motion, hr, hm]
  next => rfl

/-- A try changes nothing, or leaves the zones and trains of a grant over FREE zones. -/
theorem tryGrant_records (u : State) (c : Claim) : u.tryGrant c = u ∨
    ∃ e, (∀ q, q ∈ e → u.zoneState q.1 = some .free) ∧ (u.tryGrant c).zones = (u.extended c.train e).zones ∧
      (u.tryGrant c).trains = (u.extended c.train e).trains := by
  rw [tryGrant_eq]
  cases u.trains.find c.train with
  | none => exact .inl rfl
  | some r =>
    dsimp only
    cases (u.headOf r.hold).bind (fun z => u.extension z) with
    | none => exact .inl rfl
    | some e =>
      dsimp only
      split
      next hg =>
        have hfree : ∀ q, q ∈ e → u.zoneState q.1 = some .free := fun q hq => (hg.2.2 q hq).1
        split <;> exact .inr ⟨e, hfree, rfl, rfl⟩
      next => exact .inl rfl

/-! ## A train that has advanced (R85) -/

/-- The zone is OCCUPIED by the train, which moves. -/
def State.Onward (u : State) (b t : Nat) : Prop :=
  u.zoneState b = some .occupied ∧ u.holder b = some t ∧ u.motion t = some .moving

theorem State.Onward.congr {u v : State} {b t : Nat} (h : u.Onward b t) (hz : v.zoneState b = u.zoneState b)
    (hh : v.holder b = u.holder b) (hm : v.motion t = u.motion t) : v.Onward b t :=
  ⟨hz.trans h.1, hh.trans h.2.1, hm.trans h.2.2⟩

theorem State.Onward.records {u v : State} {b t : Nat} (h : u.Onward b t) (hz : v.zones = u.zones) (ht : v.trains = u.trains) :
    v.Onward b t :=
  h.congr (zoneState_congr hz b) (holder_congr hz b) (motion_congr ht t)

/-- Writes to other zones leave it so. -/
theorem State.Onward.updZones {u : State} {b t : Nat} (h : u.Onward b t) {zs : List Nat} (hb : b ∉ zs) (f : Zone → Zone) :
    (u.updZones zs f).Onward b t :=
  h.congr (zoneState_of_not_mem u f hb) (holder_of_not_mem u f hb) rfl

theorem State.Onward.updTrain {u : State} {b t : Nat} (h : u.Onward b t) (v : Nat) (f : Train → Train)
    (hf : ∀ r, (f r).motion = r.motion) : (u.updTrain v f).Onward b t :=
  h.congr rfl rfl (motion_kept u v f hf t)

/-- So do the timers. -/
theorem State.Onward.timer {u : State} {b t : Nat} (h : u.Onward b t) (z : Nat) (m : ZoneTimer) :
    (u.updZone z (fun x => { x with timer := m })).Onward b t :=
  h.congr (zoneState_kept_zone u z _ (by intro; rfl) b) (holder_kept_zone u z _ (by intro; rfl) b) rfl

theorem State.Onward.stopRun {u : State} {b t : Nat} (h : u.Onward b t) (z : Nat) : (u.stopRun z).Onward b t := by
  unfold State.stopRun
  split
  · exact h.timer z .idle
  · exact h

theorem State.Onward.startRun {u : State} {b t : Nat} (h : u.Onward b t) (z : Nat) : (u.startRun z).Onward b t := by
  unfold State.startRun
  split
  · exact h.timer z _
  · exact h

theorem State.Onward.anomaly {u : State} {b t : Nat} (h : u.Onward b t) (k : AnomalyKind) (n : Nat) (stop : Bool) :
    (u.anomaly k n stop).Onward b t :=
  h.congr (anomaly_zoneState u k n stop b) (anomaly_holder u k n stop b) (motion_congr (anomaly_trains u k n stop) t)

theorem State.Onward.anomalies {u : State} {b t : Nat} (h : u.Onward b t) (l : List (AnomalyKind × Nat × Bool)) :
    (l.foldl (fun v q => v.anomaly q.1 q.2.1 q.2.2) u).Onward b t := by
  induction l generalizing u with
  | nil => exact h
  | cons q l ih => exact ih (h.anomaly q.1 q.2.1 q.2.2)

theorem State.Onward.tryGrant {b t : Nat} (u : State) (c : Claim) (h : u.Onward b t) : (u.tryGrant c).Onward b t := by
  have ⟨hz, _, hm⟩ := h
  rcases tryGrant_records u c with e | ⟨e, hfree, hzones, htrains⟩
  · rw [e]
    exact h
  · have hb : u.zoneState b ≠ some .free := by rw [hz]; simp
    have ht : u.motion t ≠ some .standing := by rw [hm]; simp
    exact State.Onward.records
      (h.congr (extended_zoneState hfree c.train hb) (extended_holder hfree c.train hb) (extended_motion u c.train e ht)) hzones htrains

theorem State.Onward.evaluate {u : State} {b t : Nat} (h : u.Onward b t) : u.evaluate.Onward b t :=
  evaluate_keeps (P := fun v => v.Onward b t) State.Onward.tryGrant h

theorem release_spec {s u : State} {t : Nat} {zs : List Nat} (h : s.release t zs = some u) :
    u = (s.updZones (s.heldBy t zs) Zone.released).updTrain t
      (fun r => { r with hold := r.hold.filter (fun z => decide (z ∉ s.heldBy t zs)) }) := by
  unfold State.release at h
  cases hr : s.trains.find t with
  | none => rw [hr] at h; cases h
  | some r =>
    rw [hr] at h
    dsimp only at h
    split at h
    · cases h
    · exact (Option.some.inj h).symm

/-- The launch zone released at its crest is TRAILING, so it is another zone. -/
theorem State.Onward.crest {u : State} {b t : Nat} (h : u.Onward b t) (g : Nat) :
    (((u.crestOf g t).bind (fun l => u.crestRelease t l)).getD u).Onward b t := by
  cases hl : u.crestOf g t with
  | none => exact h
  | some l =>
    have htrailing : u.zoneState l = some .trailing := by
      unfold State.crestOf at hl
      obtain ⟨r, _, hf⟩ := Option.bind_eq_some_iff.mp hl
      have hp := List.find?_some hf
      rw [Bool.and_eq_true, decide_eq_true_iff] at hp
      exact hp.2
    have hb : b ∉ u.heldBy t [l] := fun hm => by
      rw [List.mem_singleton.mp (List.mem_filter.mp hm).1] at h
      exact absurd (htrailing.symm.trans h.1) (by simp)
    change ((u.crestRelease t l).getD u).Onward b t
    unfold State.crestRelease
    cases hr : u.release t [l] with
    | none => exact h
    | some v =>
      obtain rfl := release_spec hr
      exact ((h.updZones hb Zone.released).updTrain t _ (by intro; rfl)).updTrain t _ (by intro; rfl)

theorem Motion.advance_moving {m : Motion} (h : m = .cleared ∨ m.underWay = true) : m.advance = .moving := by
  rcases h with rfl | h
  · rfl
  · rcases (Motion.underWay_iff m).mp h with rfl | rfl | rfl <;> rfl

theorem occupy_of_reserved {s : State} {b t : Nat} (hh : s.holder b = some t) (hr : s.isReserved b = true) :
    s.occupy b t = some (s.updZone b (Zone.turn .occupied)) :=
  if_pos ⟨hh, .inl ((isReserved_iff s b).mp hr)⟩

/-- The zone entered, and the train, after the occupy claim and depart or resume. -/
theorem onward_of_occupied {s : State} {b t : Nat} {r : Train} (hr : s.trains.find t = some r)
    (hm : r.motion = .cleared ∨ r.motion.underWay = true) (hh : s.holder b = some t) :
    ((s.updZone b (Zone.turn .occupied)).move t Motion.advance).Onward b t := by
  obtain ⟨x, hx, _⟩ := Option.bind_eq_some_iff.mp hh
  refine ⟨?_, ?_, ?_⟩
  · exact (zoneState_updZone s b _ b).trans (by rw [if_pos rfl, hx]; rfl)
  · exact (holder_updZone s b _ b).trans (by rw [if_pos rfl]; exact hh)
  · refine (motion_updTrain (s.updZone b (Zone.turn .occupied)) t _ t).trans ?_
    rw [if_pos rfl, State.updZone_trains, hr, Option.map_some, Motion.advance_moving hm]

/-- The claim and the step grant taken back at the end of an extension. -/
theorem State.Onward.ends {u : State} {b t : Nat} (h : u.Onward b t) (c : Bool) :
    (if c then (u.dropClaim t).dropStep t else u).Onward b t := by
  cases c with
  | false => exact h
  | true => exact ((h.records (v := { u with waitQueue := _ }) rfl rfl).updTrain t _ (by intro; rfl)).updTrain t _ (by intro; rfl)

@[simp] theorem stopRun_trains (s : State) (z : Nat) : (s.stopRun z).trains = s.trains := by
  unfold State.stopRun; split <;> rfl

@[simp] theorem startRun_trains (s : State) (z : Nat) : (s.startRun z).trains = s.trains := by
  unfold State.startRun; split <;> rfl

theorem claim_dropped {u : State} {b t : Nat} (h : u.Onward b t) :
    (((u.dropClaim t).dropStep t).trains.find t).map (fun x => x.claim) = some .none := by
  obtain ⟨r, hr, _⟩ := Option.map_eq_some_iff.mp h.2.2
  rw [State.dropStep, State.updTrain_trains, State.dropClaim_trains, Table.find_upd, if_pos rfl, Table.find_upd, if_pos rfl, hr]
  rfl

/-- An expected FWD_HEAD leaves its train onward, and a claim it asks for meets none. -/
theorem actAdvance_onward {s : State} {g a b t : Nat} {r : Train} (hr : s.trains.find t = some r)
    (hm : r.motion = .cleared ∨ r.motion.underWay = true) (hh : s.holder b = some t) (hb : s.isReserved b = true) :
    ∃ h, s.actAdvance g a b t = some h ∧ h.state.Onward b t ∧
      ∀ v, h.auto = some v → v = t ∧ (h.state.trains.find t).map (fun x => x.claim) = some .none := by
  unfold State.actAdvance
  rw [occupy_of_reserved hh hb]
  have hcrest := (onward_of_occupied hr hm hh).crest g
  refine ⟨_, rfl, ((hcrest.ends (s.layout.stoppable b)).stopRun a).startRun b, fun v hv => ?_⟩
  dsimp only at hv ⊢
  cases hc : s.layout.stoppableCourse b with
  | false => rw [hc] at hv; exact nomatch hv
  | true =>
    rw [hc] at hv
    have hends : s.layout.stoppable b = true := (Bool.and_eq_true_iff.mp hc).1
    rw [startRun_trains, stopRun_trains, hends]
    exact ⟨(Option.some.inj hv).symm, claim_dropped hcrest⟩

/-- What is handed on after the act leaves the train onward, where the claim it asks for is entered. -/
theorem finish_onward {h : Handover} {b t : Nat} (ho : h.state.Onward b t)
    (ha : ∀ v, h.auto = some v → v = t ∧ (h.state.trains.find t).map (fun x => x.claim) = some .none) (x y : Nat) :
    (h.finish x y).Onward b t := by
  rw [finish_eq]
  have hu : h.state.sweep.Onward b t := ho.records rfl rfl
  have told {u : State} (hu : u.Onward b t) :
      (if h.arrived = true then (h.anomalies.foldl (fun v q => v.anomaly q.1 q.2.1 q.2.2) u).raise .trainArrived
        else h.anomalies.foldl (fun v q => v.anomaly q.1 q.2.1 q.2.2) u).Onward b t := by
    split
    · exact (hu.anomalies h.anomalies).records rfl rfl
    · exact hu.anomalies h.anomalies
  refine told ?_
  cases hv : h.auto with
  | none =>
    dsimp only
    split
    · exact hu.evaluate
    · exact hu
  | some v =>
    obtain ⟨rfl, hc⟩ := ha v hv
    dsimp only
    rw [State.sweep_trains, if_pos hc]
    exact State.Onward.evaluate
      ((hu.updTrain v (fun r => { r with claim := .pending }) fun _ => rfl).records rfl rfl)

theorem takeEvent_advance_onward {s : State} {g t : Nat} {r : GateRec} (hc : s.circuit = .operating ∨ s.circuit = .halted)
    (hk : s.classify .fwdHead r.src r.dst = .advance t) (hh : s.holder r.dst = some t) : (s.takeEvent g r .fwdHead).Onward r.dst t := by
  obtain ⟨x, hx, _, _, hb, hm⟩ := classify_advance hk
  obtain ⟨h, ha, ho, hauto⟩ := actAdvance_onward (g := g) (a := r.src) hx hm hh hb
  rw [takeEvent_eq hc (show s.actAs (s.classify .fwdHead r.src r.dst) .fwdHead g r.src r.dst = some h by rw [hk]; exact ha)]
  exact finish_onward ho hauto r.src r.dst

/-! ## A zone that is left (R89, R92) -/

@[simp] theorem standIfDue_zones (s : State) (t : Nat) : (s.standIfDue t).zones = s.zones := by
  unfold State.standIfDue; split <;> rfl

theorem standIfDue_holdOf (s : State) (t u : Nat) : (s.standIfDue t).holdOf u = s.holdOf u := by
  unfold State.standIfDue
  split
  · refine (holdOf_updTrain s t _ u).trans ?_
    split
    next e => rw [e]; rfl
    next => rfl
  · rfl

/-- The train an event is read against. -/
def EventClass.train : EventClass → Option Nat
  | .phantom => none
  | .untrackedSubject t | .advance t | .leave t | .reverse t | .rollback t | .wrongFork t | .unexpected t | .fault t => some t

theorem classifyFor_train (s : State) (k : EventKind) (a b t : Nat) (r : Train) : (s.classifyFor k a b t r).train = some t := by
  unfold State.classifyFor
  cases k <;> dsimp only <;> (repeat' split) <;> rfl

theorem subject_of_train {s : State} {k : EventKind} {a b t : Nat} (h : (s.classify k a b).train = some t) :
    s.subject k a b = some t := by
  unfold State.classify at h
  cases hs : s.subject k a b with
  | none => rw [hs] at h; exact nomatch h
  | some u =>
    rw [hs] at h
    dsimp only at h
    cases hr : s.trains.find u with
    | none => rw [hr] at h; exact nomatch h
    | some r =>
      rw [hr] at h
      dsimp only at h
      split at h
      · exact h
      · rwa [classifyFor_train] at h

theorem holder_of_classify {s : State} {k : EventKind} {a b t : Nat} (hk : k = .fwdHead ∨ k = .fwdTail)
    (h : (s.classify k a b).train = some t) : s.holder a = some t := by
  have hs := subject_of_train h
  rwa [subject_eq, if_pos hk] at hs

/-- A zone released while OCCUPIED is FREE, without a holder, and no longer in the hold list. -/
theorem left_released {s : State} {a t : Nat} (ho : s.zoneState a = some .occupied) (f : Train → Train)
    (hf : ∀ r, a ∉ (f r).hold) :
    let u := (s.updZones [a] Zone.released).updTrain t f
    u.zoneState a = some .free ∧ u.holder a = none ∧ a ∉ u.holdOf t := by
  obtain ⟨x, hx, hst⟩ := Option.map_eq_some_iff.mp ho
  refine ⟨?_, ?_, ?_⟩
  · refine (zoneState_updZones s [a] Zone.released a).trans ?_
    rw [if_pos (.head _), hx, Option.map_some, Zone.released_eq]
    simp [hst]
  · refine (holder_updZones s [a] Zone.released a).trans ?_
    rw [if_pos (.head _), hx]
    rfl
  · rw [holdOf_updTrain, if_pos rfl]
    cases (s.updZones [a] Zone.released).trains.find t with
    | none => exact List.not_mem_nil
    | some r => exact hf r

theorem trail_of_climbing {s : State} {a t : Nat} (hl : s.layout.kindOf a = some .launch) (hh : s.holder a = some t)
    (ho : s.zoneState a = some .occupied) : s.trail a t = some (s.updZone a (Zone.turn .trailing)) := by
  rw [trail_eq, if_pos ⟨hl, hh, ho⟩]

/-- An expected FWD_TAIL out of a zone that is no LAUNCH zone. -/
theorem leave_released {s : State} {g a b t : Nat} (hab : a ≠ b) (h : s.classify .fwdTail a b = .leave t)
    (hl : s.layout.kindOf a ≠ some .launch) :
    let u := (s.actEvent .fwdTail g a b).state
    u.zoneState a = some .free ∧ u.holder a = none ∧ a ∉ u.holdOf t := by
  obtain ⟨r, hr, hhead, ho, hnext, _⟩ := classify_leave h
  obtain ⟨rest, hhold⟩ := head_entryAfter hhead hnext
  have hleft : r.hold.filter (fun y => decide (y ≠ a)) ≠ [] := by
    rw [hhold]
    exact List.ne_nil_of_mem (List.mem_filter.mpr ⟨.tail _ (.head _), decide_eq_true hab.symm⟩)
  have hrel := release_held hr (holder_of_classify (.inr rfl) (by rw [h]; rfl)) hleft
  have hact : ∃ h, s.actLeave a t = some h ∧ h.state = State.standIfDue
      ((s.updZones [a] Zone.released).updTrain t (fun r => { r with hold := r.hold.filter (fun y => decide (y ≠ a)) })) t := by
    unfold State.actLeave
    rw [(isKind_eq_false_iff s.layout a .launch).mpr hl, hrel]
    exact ⟨_, rfl, rfl⟩
  obtain ⟨v, hv, hstate⟩ := hact
  rw [actEvent_of_act (show s.actAs (s.classify .fwdTail a b) .fwdTail g a b = some v by rw [h]; exact hv), hstate]
  obtain ⟨hz, hh, hm⟩ := left_released (t := t) ho (fun r => { r with hold := r.hold.filter (fun y => decide (y ≠ a)) })
    (fun r hm => of_decide_eq_true (List.mem_filter.mp hm).2 rfl)
  exact ⟨(zoneState_congr (standIfDue_zones _ t) a).trans hz, (holder_congr (standIfDue_zones _ t) a).trans hh,
    by rwa [standIfDue_holdOf]⟩

/-- An expected FWD_TAIL out of a LAUNCH zone with the head in the zone above it. -/
theorem leave_trailing {s : State} {g a b t : Nat} (h : s.classify .fwdTail a b = .leave t)
    (hl : s.layout.kindOf a = some .launch) (habove : s.head t = s.layout.zoneAbove a) :
    let u := (s.actEvent .fwdTail g a b).state
    u.zoneState a = some .trailing ∧ u.holder a = some t ∧
      (u.zones.find a).map (fun x => x.timer) = some (.running .trailingHold 0 .notDue) := by
  obtain ⟨r, hr, _, ho, _⟩ := classify_leave h
  have hheld : s.holder a = some t := holder_of_classify (.inr rfl) (by rw [h]; rfl)
  have hact : ∃ h, s.actLeave a t = some h ∧ h.state = State.standIfDue
      (((s.updZone a (Zone.turn .trailing)).move t Motion.rock).startTimer a .trailingHold) t := by
    unfold State.actLeave
    rw [(isKind_iff s.layout a .launch).mpr hl, decide_eq_true habove, trail_of_climbing hl hheld ho]
    exact ⟨_, rfl, rfl⟩
  obtain ⟨v, hv, hstate⟩ := hact
  obtain ⟨x, hx, _⟩ := Option.bind_eq_some_iff.mp hheld
  have hfind : v.state.zones.find a = some { x.turn .trailing with timer := .running .trailingHold 0 .notDue } := by
    rw [hstate, standIfDue_zones, State.startTimer, State.updZone_zones, State.move, State.updTrain_zones, State.updZone_zones,
      Table.find_upd, if_pos rfl, Table.find_upd, if_pos rfl, hx]
    rfl
  rw [actEvent_of_act (show s.actAs (s.classify .fwdTail a b) .fwdTail g a b = some v by rw [h]; exact hv)]
  exact ⟨zoneState_of_find hfind, (holder_of_find hfind).trans ((holder_of_find hx).symm.trans hheld), congrArg _ hfind⟩

end Sys2Proof.Machine

namespace Sys2Proof.Machine

/-! ## What each expected event leaves, field by field (R85 to R94) -/

/-! ### Writes that come to one write -/

theorem Table.upd_congr {α : Type} {t : Table α} (h : t.wf) {k : Nat} {x : α} (hk : t.find k = some x) {f g : α → α} (hfg : f x = g x) :
    Table.upd t k f = Table.upd t k g :=
  (Table.upd_const h hk hfg).trans (Table.upd_const h hk rfl).symm

/-- A write to a number that was just written, which changes nothing there any more. -/
theorem Table.upd_updAll_of_mem {α : Type} (t : Table α) {ks : List Nat} {k : Nat} (hk : k ∈ ks) {f g : α → α} (hg : ∀ x, g (f x) = f x) :
    Table.upd (Table.updAll t ks f) k g = Table.updAll t ks f := by
  unfold Table.upd Table.updAll
  rw [List.map_map]
  refine List.map_congr_left fun e _ => ?_
  by_cases he : e.1 ∈ ks
  · simp only [Function.comp, if_pos he]
    split
    · rw [hg]
    · rfl
  · simp only [Function.comp, if_neg he]
    exact if_neg fun (e' : e.1 = k) => he (e' ▸ hk)

theorem Motion.recover_eq (m : Motion) : m.recover = if m = .moving ∨ m = .stranded .stuck then .recovering else m := by
  rcases m with _ | _ | _ | _ | (_ | _ | _) | _ <;> rfl

/-- A train's zones are those it is the holder of. -/
theorem State.Interlock.held {s : State} (hi : s.Interlock) {t z : Nat} {r : Train} (hr : s.trains.find t = some r) (hz : z ∈ r.hold) :
    s.holder z = some t :=
  (hi.agree z t).mpr (by rwa [holdOf_of_find hr])

/-! ### An expected REV_HEAD (R91) -/

theorem reverse_leaves {s : State} {g a b t : Nat} {r : Train} (hc : s.Canonical) (hi : s.Interlock) (hr : s.trains.find t = some r)
    (h : s.classify .revHead a b = .reverse t) : s.actEvent .revHead g a b =
      { state := { s with
          zones := s.zones.upd a (fun x => { x with state := .occupied, timer := .idle })
          trains := s.trains.upd t (fun _ => { r with
            motion := if r.motion = .moving ∨ r.motion = .stranded .stuck then .recovering else r.motion }) }
        evaluate := false
        auto := none
        refusalFaults := false
        anomalies := []
        arrived := false } := by
  obtain ⟨r', hr', _, hhead, htrailing, _⟩ := classify_reverse h
  obtain rfl : r' = r := Option.some.inj (hr'.symm.trans hr)
  have hheld : s.holder a = some t := hi.held hr (List.mem_of_head? hhead)
  have hoccupy : s.occupy a t = some (s.updZone a (Zone.turn .occupied)) := if_pos ⟨hheld, .inr htrailing⟩
  have hact : s.actReverse a t = some
      { state := ((s.updZone a (Zone.turn .occupied)).move t Motion.recover).stopTimer a
        evaluate := false, auto := none, refusalFaults := false, anomalies := [], arrived := false } := by
    unfold State.actReverse
    rw [hoccupy]
  rw [actEvent_of_act (show s.actAs (s.classify .revHead a b) .revHead g a b = _ by rw [h]; exact hact)]
  have hzones : (s.zones.upd a (Zone.turn .occupied)).upd a (fun x => { x with timer := .idle }) =
      s.zones.upd a (fun x => { x with state := .occupied, timer := .idle }) := Table.upd_upd ..
  have htrains : s.trains.upd t (fun r => { r with motion := r.motion.recover }) = s.trains.upd t (fun _ => { r' with
      motion := if r'.motion = .moving ∨ r'.motion = .stranded .stuck then .recovering else r'.motion }) :=
    Table.upd_const hc.trains hr (by rw [Motion.recover_eq])
  rw [← hzones, ← htrains]
  rfl

/-! ### An expected REV_TAIL (R93, R94) -/

theorem Train.rollback_eq (m : Nat) (r : Train) : r.rollback m = { r with
    relaunches := if r.relaunches < m then r.relaunches + 1 else r.relaunches
    motion := if r.relaunches < m then .standing else .stranded .launchLimit } := by
  unfold Train.rollback
  split <;> rfl

/-- A timer stopped in a zone just released is idle already. -/
theorem stopRun_released (s : State) {zs : List Nat} {z : Nat} (hz : z ∈ zs) {u : State} (hu : u.zones = s.zones.updAll zs Zone.released) :
    u.stopRun z = u := by
  have hidle : Table.upd u.zones z (fun x => { x with timer := .idle }) = u.zones := by
    rw [hu]
    exact Table.upd_updAll_of_mem s.zones hz fun x => by rw [Zone.released_eq]
  unfold State.stopRun
  split
  · exact congrArg (fun zones => { u with zones := zones }) hidle
  · rfl

theorem frees_eq {s : State} {t : Nat} {zs : List Nat} (h : ∀ z, z ∈ zs → s.holder z = some t) :
    s.frees t zs = decide (∃ z, z ∈ zs ∧ s.zoneState z ≠ some .suspect) := by
  unfold State.frees State.heldBy
  rw [List.filter_eq_self.mpr fun z hz => decide_eq_true (h z hz), Bool.eq_iff_iff, decide_eq_true_iff, List.any_eq_true]
  simp only [decide_eq_true_eq]

theorem filter_not_mem_tail {a : Nat} {l : List Nat} (h : (a :: l).Nodup) : (a :: l).filter (fun z => decide (z ∉ l)) = [a] := by
  have hnone : l.filter (fun z => decide (z ∉ l)) = [] := List.filter_eq_nil_iff.mpr fun z hz h' => of_decide_eq_true h' hz
  rw [List.filter_cons, hnone]
  exact if_pos (decide_eq_true (List.nodup_cons.mp h).1)

/-- What rollback makes of the train's record in its four writes: the release, the rollback claim, and claim and step grant taken back. -/
theorem rolledBack_trains {s : State} (hc : s.Canonical) {t : Nat} {r : Train} (hr : s.trains.find t = some r) (hold : List Nat)
    (m : Nat) (f : Train → Train) (hf : f r = { r with hold := hold }) :
    (((s.trains.upd t f).upd t (fun r => r.rollback m)).upd t (fun r => { r with claim := .none })).upd t
      (fun r => { r with stepGrant := false }) = s.trains.upd t (fun _ => { r with
        hold := hold
        claim := .none
        stepGrant := false
        relaunches := if r.relaunches < m then r.relaunches + 1 else r.relaunches
        motion := if r.relaunches < m then .standing else .stranded .launchLimit }) := by
  rw [Table.upd_upd, Table.upd_upd, Table.upd_upd]
  exact Table.upd_const hc.trains hr (by rw [hf, Train.rollback_eq])

theorem rollback_leaves {s : State} {g a b t : Nat} {r : Train} (hc : s.Canonical) (hi : s.Interlock) (hl : s.HoldLists)
    (hr : s.trains.find t = some r) (h : s.classify .revTail a b = .rollback t) :
    ∃ hold limit crest, s.layout.launchOf a = some (hold, limit, crest) ∧
      s.actEvent .revTail g a b =
        { state := { s with
            zones := s.zones.updAll r.hold.tail (fun x => { x with
              state := if x.state = .suspect then .suspect else .free
              holder := none
              timer := .idle })
            trains := s.trains.upd t (fun _ => { r with
              hold := [a]
              claim := .none
              stepGrant := false
              relaunches := if r.relaunches < limit then r.relaunches + 1 else r.relaunches
              motion := if r.relaunches < limit then .standing else .stranded .launchLimit })
            waitQueue := s.waitQueue.filter (fun d => decide (d.train ≠ t)) }
          evaluate := decide (∃ z, z ∈ r.hold.tail ∧ s.zoneState z ≠ some .suspect)
          auto := if r.relaunches < limit then some t else none
          refusalFaults := false
          anomalies := if r.relaunches < limit then [] else [(.strandedLaunch, t, false)]
          arrived := false } := by
  obtain ⟨r', hr', hlaunch, hhead, _, hnext, _⟩ := classify_rollback h
  obtain rfl : r' = r := Option.some.inj (hr'.symm.trans hr)
  obtain ⟨⟨⟨hold, limit, crest⟩, hlaunchOf⟩, _⟩ := launchOf_of_kind ((isKind_iff ..).mp hlaunch)
  refine ⟨hold, limit, crest, hlaunchOf, ?_⟩
  obtain ⟨rest, hhold⟩ := head_entryAfter hhead hnext
  obtain ⟨_, _, hnodup, _⟩ := hl t r' hr
  have htail : r'.hold.tail = b :: rest := by rw [hhold]; rfl
  have hheld : ∀ z, z ∈ r'.hold.tail → s.holder z = some t := fun z hz => hi.held hr (List.mem_of_mem_tail hz)
  have hleft : r'.hold.filter (fun z => decide (z ∉ r'.hold.tail)) = [a] := by
    rw [htail, hhold]
    exact filter_not_mem_tail (hhold ▸ hnodup)
  have hrel := release_eq hr hheld (by rw [htail]; exact List.cons_ne_nil b rest) (by rw [hleft]; exact List.cons_ne_nil a [])
  have hzones : s.zones.updAll r'.hold.tail Zone.released = s.zones.updAll r'.hold.tail (fun x => { x with
      state := if x.state = .suspect then .suspect else .free, holder := none, timer := .idle }) :=
    congrArg (s.zones.updAll r'.hold.tail) (funext Zone.released_eq)
  have hact : s.actRollback a b t = some
      { state := ((((s.updZones r'.hold.tail Zone.released).updTrain t
          (fun x => { x with hold := x.hold.filter (fun z => decide (z ∉ r'.hold.tail)) })).updTrain t
            (fun x => x.rollback limit)).dropClaim t).dropStep t
        evaluate := decide (∃ z, z ∈ r'.hold.tail ∧ s.zoneState z ≠ some .suspect)
        auto := if r'.relaunches < limit then some t else none
        refusalFaults := false
        anomalies := if r'.relaunches < limit then [] else [(.strandedLaunch, t, false)]
        arrived := false } := by
    unfold State.actRollback
    rw [hr, hlaunchOf]
    dsimp only
    rw [List.drop_one, hrel]
    dsimp only
    rw [stopRun_released s (show b ∈ r'.hold.tail by rw [htail]; exact .head _) rfl, frees_eq hheld]
    simp only [decide_eq_true_eq]
  rw [actEvent_of_act (show s.actAs (s.classify .revTail a b) .revTail g a b = _ by rw [h]; exact hact), ← hzones,
    ← rolledBack_trains hc hr [a] limit (fun x => { x with hold := x.hold.filter (fun z => decide (z ∉ r'.hold.tail)) }) (congrArg (fun l => { r' with hold := l }) hleft)]
  rfl

/-! ### An expected FWD_TAIL (R89, R90, R92) -/

theorem Motion.rock_eq (m : Motion) : m.rock = if m = .recovering ∨ m = .stranded .overdue then .moving else m := by
  rcases m with _ | _ | _ | _ | (_ | _ | _) | _ <;> rfl

theorem Motion.stand_eq (m : Motion) : m.stand = if m = .moving then .standing else m := by
  rcases m with _ | _ | _ | _ | (_ | _ | _) | _ <;> rfl

theorem head_of_find {s : State} {t : Nat} {r : Train} (hr : s.trains.find t = some r) : s.head t = s.headOf r.hold := by
  unfold State.head
  rw [hr]
  rfl

theorem motion_of_find {s : State} {t : Nat} {r : Train} (hr : s.trains.find t = some r) : s.motion t = some r.motion := by
  unfold State.motion
  rw [hr]
  rfl

theorem woken_eq {s u : State} {t : Nat} {r q : Train} (hr : s.trains.find t = some r) (hq : u.trains.find t = some q) :
    s.woken u t = (r.motion.isStranded && (decide (q.claim = .pending) && (decide (q.motion = .moving) || decide (q.motion = .standing)))) := by
  unfold State.woken
  rw [motion_of_find hr, hq]
  rfl

/-- The head zone of a hold list is the last of its entries that are not RESERVED. -/
theorem headOf_eq (s : State) (l : List Nat) : s.headOf l = (l.filter (fun z => !s.isReserved z)).getLast? := by
  unfold State.headOf
  rw [← List.head?_filter, List.filter_reverse, List.head?_reverse]

/-- A train with an entry that is not RESERVED is due to stand exactly when that entry is all of it, in a yard zone or with a claim
that is pending in another stoppable zone. -/
theorem standDue_eq {u : State} {t b : Nat} {q : Train} (hq : u.trains.find t = some q)
    (hb : b ∈ q.hold.filter (fun z => !u.isReserved z)) : u.standDue t =
      decide (q.hold.filter (fun z => !u.isReserved z) = [b] ∧
        (u.layout.yard b = true ∨ (u.layout.stoppable b = true ∧ q.claim = .pending))) := by
  unfold State.standDue
  rw [hq, Option.any_some]
  revert hb
  match q.hold.filter (fun z => !u.isReserved z) with
  | [] => exact nofun
  | [h] =>
    intro hb
    obtain rfl := List.mem_singleton.mp hb
    unfold Layout.stoppableCourse
    rw [Bool.eq_iff_iff]
    cases hy : u.layout.yard b <;> cases hs : u.layout.stoppable b <;> simp [hy, hs]
  | _ :: _ :: _ =>
    intro _
    simp

theorem standIfDue_eq {u : State} {t : Nat} {q : Train} (hw : u.trains.wf) (hq : u.trains.find t = some q) : u.standIfDue t =
    { u with trains := u.trains.upd t (fun _ => { q with motion := if u.standDue t = true ∧ q.motion = .moving then .standing else q.motion }) } := by
  have hsame : u.trains = u.trains.upd t (fun _ => q) := by
    refine Eq.trans ?_ (Table.upd_const hw hq (f := fun x => x) rfl)
    unfold Table.upd
    simp
  unfold State.standIfDue
  by_cases hd : u.standDue t = true
  · simp only [hd, if_true, true_and]
    exact congrArg (fun ts => { u with trains := ts }) (Table.upd_const hw hq
      (f := fun r => { r with motion := r.motion.stand }) (by rw [Motion.stand_eq]))
  · simp only [hd]
    exact congrArg (fun ts => { u with trains := ts }) hsame

/-- What an expected FWD_TAIL finds of its train and its two zones. -/
structure State.Leaving (s : State) (a b t : Nat) (r : Train) : Prop where
  record : s.trains.find t = some r
  hold : ∃ rest, r.hold = a :: b :: rest
  nodup : r.hold.Nodup
  held : s.holder a = some t
  left : s.zoneState a = some .occupied
  next : s.zoneState b = some .occupied
  motion : r.motion.underWay = true ∨ r.motion = .recovering

theorem leaving_of_classify {s : State} {a b t : Nat} {r : Train} (hl : s.HoldLists) (hr : s.trains.find t = some r)
    (h : s.classify .fwdTail a b = .leave t) : s.Leaving a b t r := by
  obtain ⟨r', hr', hhead, hleft, hnext, hb, hm⟩ := classify_leave h
  obtain rfl : r' = r := Option.some.inj (hr'.symm.trans hr)
  exact ⟨hr, head_entryAfter hhead hnext, (hl t r' hr).2.2.1, holder_of_classify (.inr rfl) (by rw [h]; rfl), hleft, hb, hm.imp_right And.left⟩

theorem State.Leaving.ne {s : State} {a b t : Nat} {r : Train} (h : s.Leaving a b t r) : a ≠ b := by
  obtain ⟨rest, hhold⟩ := h.hold
  have hn := h.nodup
  rw [hhold, List.nodup_cons] at hn
  exact fun e => hn.1 (e ▸ .head _)

theorem State.Leaving.mem {s : State} {a b t : Nat} {r : Train} (h : s.Leaving a b t r) : a ∈ r.hold ∧ b ∈ r.hold.tail := by
  obtain ⟨rest, hhold⟩ := h.hold
  rw [hhold]
  exact ⟨.head _, .head _⟩

/-- The launch zone TRAILING with its timer started, and its train rocked. -/
def State.climbed (s : State) (a t : Nat) (r : Train) : State := { s with
  zones := s.zones.upd a (fun x => { x with state := .trailing, timer := .running .trailingHold 0 .notDue })
  trains := s.trains.upd t (fun _ => { r with motion := if r.motion = .recovering ∨ r.motion = .stranded .overdue then .moving else r.motion }) }

theorem climbed_eq {s : State} (hc : s.Canonical) {a t : Nat} {r : Train} (hr : s.trains.find t = some r) :
    ((s.updZone a (Zone.turn .trailing)).move t Motion.rock).startTimer a .trailingHold = s.climbed a t r := by
  have hzones : (s.zones.upd a (Zone.turn .trailing)).upd a (fun x => { x with timer := .running .trailingHold 0 .notDue }) =
      s.zones.upd a (fun x => { x with state := .trailing, timer := .running .trailingHold 0 .notDue }) := Table.upd_upd ..
  have htrains : s.trains.upd t (fun r => { r with motion := r.motion.rock }) = s.trains.upd t (fun _ => { r with
      motion := if r.motion = .recovering ∨ r.motion = .stranded .overdue then .moving else r.motion }) :=
    Table.upd_const hc.trains hr (by rw [Motion.rock_eq])
  unfold State.climbed
  rw [← hzones, ← htrains]
  rfl

theorem climbed_find {s : State} {a t : Nat} {r : Train} (hr : s.trains.find t = some r) : (s.climbed a t r).trains.find t =
    some { r with motion := if r.motion = .recovering ∨ r.motion = .stranded .overdue then .moving else r.motion } := by
  unfold State.climbed
  dsimp only
  rw [Table.find_upd, if_pos rfl, hr]
  rfl

/-- A train that climbs is in two zones at least. -/
theorem climbed_standDue {s : State} {a b t : Nat} {r : Train} (h : s.Leaving a b t r) : (s.climbed a t r).standDue t = false := by
  have ha : (s.climbed a t r).isReserved a = false := by
    rw [← Bool.not_eq_true, isReserved_iff]
    refine fun he => absurd ((zoneState_updZone s a _ a).symm.trans he) ?_
    obtain ⟨x, hx, _⟩ := Option.map_eq_some_iff.mp h.left
    rw [if_pos rfl, hx]
    simp
  have hb : (s.climbed a t r).isReserved b = false := by
    rw [← Bool.not_eq_true, isReserved_iff]
    refine fun he => absurd ((zoneState_updZone s a _ b).symm.trans he) ?_
    rw [if_neg h.ne.symm, h.next]
    simp
  obtain ⟨hma, hmb⟩ := h.mem
  rw [standDue_eq (climbed_find h.record) (List.mem_filter.mpr ⟨List.mem_of_mem_tail hmb, by rw [hb]; rfl⟩), decide_eq_false_iff_not]
  rintro ⟨hwhole, _⟩
  have hm : a ∈ [b] := hwhole ▸ List.mem_filter.mpr ⟨hma, by rw [ha]; rfl⟩
  exact h.ne (List.mem_singleton.mp hm)

/-- Of the trains that are under way, or recovering, one STRANDED by OVERDUE is woken when it is rocked. -/
theorem climbed_woken {s : State} {a b t : Nat} {r : Train} (h : s.Leaving a b t r) :
    s.woken (s.climbed a t r) t = decide (r.motion = .stranded .overdue ∧ r.claim = .pending) := by
  rw [woken_eq h.record (climbed_find h.record)]
  dsimp only
  rcases h.motion with hm | hm
  · rcases (Motion.underWay_iff _).mp hm with hm | hm | hm <;> rw [hm] <;> simp [Motion.isStranded]
  · rw [hm]
    simp [Motion.isStranded]

theorem actLeave_climbs {s : State} (hc : s.Canonical) {a b t : Nat} {r : Train} (h : s.Leaving a b t r)
    (hl : s.layout.kindOf a = some .launch) (habove : s.headOf r.hold = s.layout.zoneAbove a) :
    s.actLeave a t = some
      { state := s.climbed a t r
        evaluate := decide (r.motion = .stranded .overdue ∧ r.claim = .pending)
        auto := none, refusalFaults := false, anomalies := [], arrived := false } := by
  have hstand : (s.climbed a t r).standIfDue t = s.climbed a t r := if_neg (by rw [climbed_standDue h]; exact nofun)
  unfold State.actLeave
  rw [(isKind_iff s.layout a .launch).mpr hl, decide_eq_true ((head_of_find h.record).trans habove), trail_of_climbing hl h.held h.left]
  simp only [Bool.and_self, if_true, Option.map_some]
  rw [climbed_eq hc h.record, hstand, climbed_woken h]
  simp

/-- The zone left FREE, and out of the train's hold list. -/
def State.cleared (s : State) (a t : Nat) (q : Train) : State := { s with
  zones := s.zones.upd a (fun x => { x with state := .free, holder := none, timer := .idle })
  trains := s.trains.upd t (fun _ => q) }

theorem released_occupied {s : State} (hc : s.Canonical) {a : Nat} (ho : s.zoneState a = some .occupied) :
    s.zones.updAll [a] Zone.released = s.zones.upd a (fun x => { x with state := .free, holder := none, timer := .idle }) := by
  obtain ⟨x, hx, hst⟩ := Option.map_eq_some_iff.mp ho
  rw [Table.updAll_singleton]
  exact Table.upd_congr hc.zones hx (by rw [Zone.released_eq, hst]; rfl)

theorem filter_ne_head {a : Nat} {l : List Nat} (h : (a :: l).Nodup) : (a :: l).filter (fun y => decide (y ≠ a)) = l := by
  rw [List.filter_cons, if_neg (by simp)]
  exact List.filter_eq_self.mpr fun y hy => decide_eq_true fun e => (List.nodup_cons.mp h).1 (e ▸ hy)

theorem State.Leaving.tail {s : State} {a b t : Nat} {r : Train} (h : s.Leaving a b t r) :
    r.hold.filter (fun y => decide (y ≠ a)) = r.hold.tail := by
  obtain ⟨rest, hhold⟩ := h.hold
  have hn := h.nodup
  rw [hhold] at hn ⊢
  exact filter_ne_head hn

/-- The release of the zone left, which for a LAUNCH zone is the crest passage (R51, R89). -/
theorem released_cleared {s : State} (hc : s.Canonical) {a b t : Nat} {r : Train} (h : s.Leaving a b t r) :
    s.release t [a] = some (s.cleared a t { r with hold := r.hold.tail }) ∧
    s.crestRelease t a = some (s.cleared a t { r with hold := r.hold.tail, relaunches := 0 }) := by
  have hne : r.hold.filter (fun y => decide (y ≠ a)) ≠ [] := by rw [h.tail]; exact List.ne_nil_of_mem h.mem.2
  have htrains : s.trains.upd t (fun r => { r with hold := r.hold.filter (fun y => decide (y ≠ a)) }) =
      s.trains.upd t (fun _ => { r with hold := r.hold.tail }) := Table.upd_const hc.trains h.record (by rw [h.tail])
  have hreleased : s.release t [a] = some (s.cleared a t { r with hold := r.hold.tail }) := by
    rw [release_held h.record h.held hne]
    unfold State.cleared
    rw [← released_occupied hc h.left, ← htrains]
    rfl
  refine ⟨hreleased, ?_⟩
  unfold State.crestRelease
  rw [hreleased]
  refine congrArg some (congrArg (fun ts => { s.cleared a t r with trains := ts }) ?_)
  exact Table.upd_upd s.trains t (fun _ => { r with hold := r.hold.tail }) (fun r => { r with relaunches := 0 })

/-- The conditions of the stand claim (R90): the train wholly in zone `b`, moving, in a yard zone or with a claim pending. -/
def State.Stands (s : State) (b : Nat) (r : Train) : Prop :=
  r.hold.tail.filter (fun z => !s.isReserved z) = [b] ∧ r.motion = .moving ∧
    (s.layout.yard b = true ∨ (s.layout.stoppable b = true ∧ r.claim = .pending))

section Cleared

variable {s : State} {a b t : Nat} {r q : Train}

theorem cleared_find (h : s.Leaving a b t r) : (s.cleared a t q).trains.find t = some q := by
  unfold State.cleared
  dsimp only
  rw [Table.find_upd, if_pos rfl, h.record]
  rfl

/-- The zones ahead are as they were. -/
theorem cleared_ahead (h : s.Leaving a b t r) :
    r.hold.tail.filter (fun z => !(s.cleared a t q).isReserved z) = r.hold.tail.filter (fun z => !s.isReserved z) := by
  obtain ⟨rest, hhold⟩ := h.hold
  have hn := h.nodup
  rw [hhold] at hn ⊢
  refine List.filter_congr fun z hz => congrArg _ (isReserved_congr ((zoneState_updZone s a _ z).trans (if_neg ?_)))
  exact fun e => (List.nodup_cons.mp hn).1 (e ▸ hz)

theorem State.Leaving.next_ahead (h : s.Leaving a b t r) : b ∈ r.hold.tail.filter (fun z => !s.isReserved z) := by
  refine List.mem_filter.mpr ⟨h.mem.2, ?_⟩
  rw [Bool.not_eq_true', ← Bool.not_eq_true, isReserved_iff, h.next]
  simp

theorem cleared_stands (h : s.Leaving a b t r) (hhold : q.hold = r.hold.tail) (hm : q.motion = r.motion) (hcl : q.claim = r.claim) :
    ((s.cleared a t q).standDue t = true ∧ q.motion = .moving) ↔ s.Stands b r := by
  have hahead := cleared_ahead (q := q) h
  rw [standDue_eq (cleared_find h) (by rw [hhold, hahead]; exact h.next_ahead), decide_eq_true_iff, hhold, hahead, hm, hcl]
  unfold State.Stands
  constructor
  · rintro ⟨⟨hw, hy⟩, hm⟩
    exact ⟨hw, hm, hy⟩
  · rintro ⟨hw, hm, hy⟩
    exact ⟨⟨hw, hy⟩, hm⟩

end Cleared

theorem cleared_standIfDue {s : State} (hc : s.Canonical) {a b t : Nat} {r q : Train} (h : s.Leaving a b t r)
    (hhold : q.hold = r.hold.tail) (hm : q.motion = r.motion) (hcl : q.claim = r.claim) [Decidable (s.Stands b r)] :
    (s.cleared a t q).standIfDue t = s.cleared a t { q with motion := if s.Stands b r then .standing else r.motion } := by
  rw [standIfDue_eq (q := q) (Table.wf_upd hc.trains t fun _ => q) (cleared_find h), ite_of_iff (cleared_stands h hhold hm hcl), hm]
  exact congrArg (fun ts => { s.cleared a t q with trains := ts })
    (Table.upd_upd s.trains t (fun _ => q) (fun _ => { q with motion := if s.Stands b r then .standing else r.motion }))

/-- The train arrives where its motion has changed to STANDING and its head zone is a yard zone (R90). -/
theorem cleared_arrived {s : State} {a b t : Nat} {r q : Train} (h : s.Leaving a b t r) (hhold : q.hold = r.hold.tail)
    (hm : q.motion = r.motion) [Decidable (s.Stands b r)] :
    let u := s.cleared a t { q with motion := if s.Stands b r then .standing else r.motion }
    (decide (u.motion t ≠ (s.cleared a t q).motion t) && (u.head t).any (fun z => s.layout.yard z)) =
      decide (s.Stands b r ∧ s.layout.yard b = true) := by
  dsimp only
  rw [motion_of_find (cleared_find h), motion_of_find (cleared_find h), head_of_find (cleared_find h), headOf_eq, hhold, cleared_ahead h,
    hm]
  by_cases hs : s.Stands b r
  · have ⟨hwhole, hmoving, _⟩ := hs
    rw [if_pos hs, hwhole, hmoving]
    change (true && s.layout.yard b) = _
    simp [hs]
  · simp [hs]

theorem actLeave_clears {s : State} (hc : s.Canonical) {a b t : Nat} {r : Train} (h : s.Leaving a b t r)
    (hn : ¬(s.layout.kindOf a = some .launch ∧ s.headOf r.hold = s.layout.zoneAbove a)) [Decidable (s.Stands b r)] :
    s.actLeave a t = some
      { state := s.cleared a t { r with
          hold := r.hold.tail
          relaunches := if s.layout.kindOf a = some .launch then 0 else r.relaunches
          motion := if s.Stands b r then .standing else r.motion }
        evaluate := true
        auto := none, refusalFaults := false, anomalies := []
        arrived := decide (s.Stands b r ∧ s.layout.yard b = true) } := by
  obtain ⟨hrelease, hcrest⟩ := released_cleared hc h
  have hclimbing : (s.layout.isKind a .launch && decide (s.head t = s.layout.zoneAbove a)) = false := by
    rw [← Bool.not_eq_true, Bool.and_eq_true, isKind_iff, decide_eq_true_iff, head_of_find h.record]
    exact hn
  have htaken : (if s.layout.isKind a .launch = true then s.crestRelease t a else s.release t [a]) = some
      (s.cleared a t { r with hold := r.hold.tail, relaunches := if s.layout.kindOf a = some .launch then 0 else r.relaunches }) := by
    rw [hrelease, hcrest]
    by_cases hl : s.layout.kindOf a = some .launch
    · rw [if_pos ((isKind_iff ..).mpr hl), if_pos hl]
    · rw [if_neg (mt (isKind_iff ..).mp hl), if_neg hl]
  have hfrees : s.frees t [a] = true := by
    rw [frees_eq (fun z hz => by rw [List.mem_singleton.mp hz, h.held])]
    exact decide_eq_true ⟨a, .head _, by rw [h.left]; simp⟩
  unfold State.actLeave
  dsimp only
  rw [hclimbing, hfrees]
  simp only [Bool.false_eq_true, if_false]
  rw [htaken]
  generalize hq : ({ r with hold := r.hold.tail, relaunches := if s.layout.kindOf a = some .launch then 0 else r.relaunches } : Train) = q
  have hhold : q.hold = r.hold.tail := by rw [← hq]
  have hmotion : q.motion = r.motion := by rw [← hq]
  have hclaim : q.claim = r.claim := by rw [← hq]
  dsimp only
  rw [cleared_standIfDue hc h hhold hmotion hclaim, cleared_arrived h hhold hmotion, ← hq]
  rfl

/-- What an expected FWD_TAIL leaves, with the head in the zone above a launch, and otherwise. -/
theorem leave_leaves {s : State} {g a b t : Nat} {r : Train} (hc : s.Canonical) (hl : s.HoldLists)
    (hr : s.trains.find t = some r) (h : s.classify .fwdTail a b = .leave t) :
    let launch := s.layout.kindOf a = some .launch
    let climbs := launch ∧ s.headOf r.hold = s.layout.zoneAbove a
    let whole := r.hold.tail.filter (fun z => !s.isReserved z) = [b]
    let stands := ¬climbs ∧ whole ∧ r.motion = .moving ∧
      (s.layout.yard b = true ∨ (s.layout.stoppable b = true ∧ r.claim = .pending))
    s.actEvent .fwdTail g a b =
      { state := { s with
          zones := s.zones.upd a (fun x =>
            if climbs then { x with state := .trailing, timer := .running .trailingHold 0 .notDue }
            else { x with state := .free, holder := none, timer := .idle })
          trains := s.trains.upd t (fun _ => { r with
            hold := if climbs then r.hold else r.hold.tail
            relaunches := if launch ∧ ¬climbs then 0 else r.relaunches
            motion :=
              if climbs then if r.motion = .recovering ∨ r.motion = .stranded .overdue then .moving else r.motion
              else if stands then .standing else r.motion }) }
        evaluate := decide (¬climbs ∨ (r.motion = .stranded .overdue ∧ r.claim = .pending))
        auto := none
        refusalFaults := false
        anomalies := []
        arrived := decide (stands ∧ s.layout.yard b = true) } := by
  intro launch climbs whole stands
  have hleaving := leaving_of_classify hl hr h
  by_cases hclimbs : climbs
  · have hact := actLeave_climbs hc hleaving hclimbs.1 hclimbs.2
    rw [actEvent_of_act (show s.actAs (s.classify .fwdTail a b) .fwdTail g a b = _ by rw [h]; exact hact)]
    have hstands : ¬stands := fun hs => hs.1 hclimbs
    simp only [hclimbs, hstands, if_true, not_true, and_false, if_false, false_or, false_and, decide_false]
    rfl
  · have hstands : stands ↔ s.Stands b r := and_iff_right hclimbs
    have : Decidable (s.Stands b r) := decidable_of_iff stands hstands
    have hact := actLeave_clears hc hleaving hclimbs
    rw [actEvent_of_act (show s.actAs (s.classify .fwdTail a b) .fwdTail g a b = _ by rw [h]; exact hact)]
    simp only [hclimbs, hstands, if_false, not_false_eq_true, and_true, true_or, decide_true]
    rfl

end Sys2Proof.Machine

namespace Sys2Proof.Machine

/-! ### An expected FWD_HEAD (R85 to R88) -/

/-- What an expected FWD_HEAD finds of its train and its two zones. -/
structure State.Advancing (s : State) (a b t : Nat) (r : Train) : Prop where
  record : s.trains.find t = some r
  ne : a ≠ b
  mem : b ∈ r.hold
  held : s.holder b = some t
  next : s.isReserved b = true
  motion : r.motion = .cleared ∨ r.motion.underWay = true

theorem entryAfter_ne {l : List Nat} (hn : l.Nodup) {a b : Nat} (h : entryAfter l a = some b) : a ≠ b := by
  induction l with
  | nil => cases h
  | cons c l ih =>
    cases l with
    | nil => cases h
    | cons d l =>
      unfold entryAfter at h
      split at h
      next e =>
        obtain rfl := Option.some.inj h
        exact fun e' => (List.nodup_cons.mp hn).1 (by rw [e, e']; exact .head _)
      next => exact ih (List.nodup_cons.mp hn).2 h

theorem advancing_of_classify {s : State} {a b t : Nat} {r : Train} (hi : s.Interlock) (hl : s.HoldLists)
    (hr : s.trains.find t = some r) (h : s.classify .fwdHead a b = .advance t) : s.Advancing a b t r := by
  obtain ⟨r', hr', _, hnext, hb, hm⟩ := classify_advance h
  obtain rfl : r' = r := Option.some.inj (hr'.symm.trans hr)
  have hmem := mem_entryAfter hnext
  exact ⟨hr, entryAfter_ne (hl t r' hr).2.2.1 hnext, hmem, hi.held hr hmem, hb, hm⟩

/-- The launch zone whose crest the train passes, if it passes one: the first TRAILING zone of its hold list with that crest gate (R86). -/
def State.crestPassed (s : State) (g : Nat) (r : Train) : Option Nat :=
  r.hold.find? (fun z => decide (s.zoneState z = some .trailing) && (s.layout.launchOf z).any (fun q => decide (q.2.2 = g)))

/-- The zone entered OCCUPIED, and the train under way. -/
def State.entered (s : State) (b t : Nat) (r : Train) : State := { s with
  zones := s.zones.upd b (Zone.turn .occupied), trains := s.trains.upd t (fun _ => { r with motion := .moving }) }

section Advance

variable {s : State} {g a b t : Nat} {r : Train}

theorem entered_eq (hc : s.Canonical) (h : s.Advancing a b t r) :
    (s.updZone b (Zone.turn .occupied)).move t Motion.advance = s.entered b t r :=
  congrArg (fun ts => { s.updZone b (Zone.turn .occupied) with trains := ts })
    (Table.upd_const hc.trains h.record (f := fun r => { r with motion := r.motion.advance }) (by rw [Motion.advance_moving h.motion]))

theorem entered_find (h : s.Advancing a b t r) : (s.entered b t r).trains.find t = some { r with motion := .moving } := by
  unfold State.entered
  dsimp only
  rw [Table.find_upd, if_pos rfl, h.record]
  rfl

theorem entered_zoneState (h : s.Advancing a b t r) (z : Nat) :
    (s.entered b t r).zoneState z = if z = b then some .occupied else s.zoneState z := by
  obtain ⟨x, hx, _⟩ := Option.bind_eq_some_iff.mp h.held
  refine (zoneState_updZone s b (Zone.turn .occupied) z).trans ?_
  rw [hx]
  rfl

theorem entered_holder (z : Nat) : (s.entered b t r).holder z = s.holder z :=
  holder_kept_zone s b (Zone.turn .occupied) (by intro; rfl) z

/-- The crest found after the zone is entered is the one found before: the zone entered was not TRAILING, and is not. -/
theorem entered_crest (h : s.Advancing a b t r) : (s.entered b t r).crestOf g t = s.crestPassed g r := by
  unfold State.crestOf State.crestPassed
  rw [entered_find h]
  refine congrArg (fun p => r.hold.find? p) (funext fun z => ?_)
  rw [entered_zoneState h, Bool.and_comm]
  by_cases hz : z = b
  · have hb := (isReserved_iff s b).mp h.next
    rw [hz, hb, if_pos rfl]
    rfl
  · rw [if_neg hz]
    rfl

theorem crestPassed_spec {l : Nat} (hl : s.crestPassed g r = some l) :
    l ∈ r.hold ∧ s.zoneState l = some .trailing ∧ s.layout.kindOf l = some .launch := by
  have hp := List.find?_some hl
  rw [Bool.and_eq_true, decide_eq_true_iff, Option.any_eq_true] at hp
  obtain ⟨htrailing, q, hq, _⟩ := hp
  exact ⟨List.mem_of_find?_eq_some hl, htrailing, kind_of_launchOf hq⟩

theorem crest_ne (h : s.Advancing a b t r) {l : Nat} (hl : s.crestPassed g r = some l) : l ≠ b := by
  rintro rfl
  have := (crestPassed_spec hl).2.1.symm.trans ((isReserved_iff s l).mp h.next)
  cases this

/-- The train's record once it has advanced, before what the end of its extension takes back. -/
def Train.advanced (r : Train) (crest : Option Nat) : Train := { r with
  motion := .moving
  hold := r.hold.filter (fun z => decide (crest ≠ some z))
  relaunches := if crest = none then r.relaunches else 0 }

/-- The launch zone of the crest passage released, if there is one. -/
def State.passed (s : State) (b t : Nat) (r : Train) (crest : Option Nat) : State := { s with
  zones := (s.zones.upd b (Zone.turn .occupied)).updAll crest.toList Zone.released
  trains := s.trains.upd t (fun _ => r.advanced crest) }

theorem passed_none : s.passed b t r none = s.entered b t r := by
  have hr : r.advanced none = { r with motion := .moving } := by
    unfold Train.advanced
    simp
  have hz : Table.updAll (s.zones.upd b (Zone.turn .occupied)) [] Zone.released = s.zones.upd b (Zone.turn .occupied) := by
    unfold Table.updAll
    simp
  unfold State.passed State.entered
  rw [hr, Option.toList_none, hz]

theorem crestRelease_passed (hi : s.Interlock) (h : s.Advancing a b t r) {l : Nat} (hl : s.crestPassed g r = some l) :
    (s.entered b t r).crestRelease t l = some (s.passed b t r (some l)) := by
  have hkept : r.hold.filter (fun y => decide (y ≠ l)) = r.hold.filter (fun z => decide (some l ≠ some z)) :=
    List.filter_congr fun z _ => decide_eq_decide.mpr (by rw [ne_eq, ne_eq, Option.some_inj, eq_comm])
  have htrains : ((s.trains.upd t (fun _ => { r with motion := .moving })).upd t
      (fun r => { r with hold := r.hold.filter (fun y => decide (y ≠ l)) })).upd t (fun r => { r with relaunches := 0 }) =
      s.trains.upd t (fun _ => r.advanced (some l)) := by
    rw [Table.upd_upd, Table.upd_upd]
    unfold Train.advanced
    simp only [hkept]
    rfl
  unfold State.crestRelease
  rw [release_held (entered_find h) ((entered_holder l).trans (hi.held h.record (crestPassed_spec hl).1))
    (List.ne_nil_of_mem (List.mem_filter.mpr ⟨h.mem, decide_eq_true (crest_ne h hl).symm⟩))]
  unfold State.passed
  rw [← htrains]
  rfl

theorem passed_eq (hi : s.Interlock) (h : s.Advancing a b t r) :
    ((s.crestPassed g r).bind (fun l => (s.entered b t r).crestRelease t l)).isSome = (s.crestPassed g r).isSome ∧
    ((s.crestPassed g r).bind (fun l => (s.entered b t r).crestRelease t l)).getD (s.entered b t r) = s.passed b t r (s.crestPassed g r) := by
  cases hl : s.crestPassed g r with
  | none => exact ⟨rfl, passed_none.symm⟩
  | some l => rw [Option.bind_some, crestRelease_passed hi h hl]; exact ⟨rfl, rfl⟩

/-- Claim and step grant taken back from a train's record at the end of its extension. -/
def Train.ended (ends : Bool) (q : Train) : Train :=
  { q with claim := if ends = true then .none else q.claim, stepGrant := if ends = true then false else q.stepGrant }

theorem ended_eq (u : State) (q : Train) (hu : u.trains = s.trains.upd t (fun _ => q)) (ends : Bool) :
    (if ends then (u.dropClaim t).dropStep t else u) = { u with
      trains := s.trains.upd t (fun _ => q.ended ends)
      waitQueue := if ends = true then u.waitQueue.filter (fun d => decide (d.train ≠ t)) else u.waitQueue } := by
  cases ends with
  | false =>
    unfold Train.ended
    simp only [Bool.false_eq_true, if_false]
    rw [← hu]
  | true =>
    have htrains : (u.trains.upd t (fun r => { r with claim := .none })).upd t (fun r => { r with stepGrant := false }) =
        s.trains.upd t (fun _ => q.ended true) := by
      rw [hu, Table.upd_upd, Table.upd_upd]
      rfl
    rw [if_pos rfl, if_pos rfl, ← htrains]
    rfl

theorem Table.upd_self {α : Type} (t : Table α) (k : Nat) : Table.upd t k (fun x => x) = t := by
  unfold Table.upd
  simp

theorem stopRun_eq (u : State) (z : Nat) : u.stopRun z =
    { u with zones := u.zones.upd z (fun x => if u.layout.kindOf z = some .run then { x with timer := .idle } else x) } := by
  unfold State.stopRun
  by_cases hk : u.layout.kindOf z = some .run
  · simp only [isKind_iff, hk, if_true]
    rfl
  · simp only [isKind_iff, hk, if_false, Table.upd_self]

theorem startRun_eq (u : State) (z : Nat) : u.startRun z =
    { u with zones := u.zones.upd z (fun x => if u.layout.kindOf z = some .run then { x with timer := .running .runTransit 0 .notDue } else x) } := by
  unfold State.startRun
  by_cases hk : u.layout.kindOf z = some .run
  · simp only [isKind_iff, hk, if_true]
    rfl
  · simp only [isKind_iff, hk, if_false, Table.upd_self]

/-- The four writes to zones, entry by entry. -/
theorem advanced_zones (hc : s.Canonical) (h : s.Advancing a b t r) :
    Table.upd (Table.upd (Table.updAll (s.zones.upd b (Zone.turn .occupied)) (s.crestPassed g r).toList Zone.released) a
      (fun x => if s.layout.kindOf a = some .run then { x with timer := .idle } else x)) b
      (fun x => if s.layout.kindOf b = some .run then { x with timer := .running .runTransit 0 .notDue } else x) =
    s.zones.map (fun e => (e.1,
      if e.1 = b then { e.2 with
        state := .occupied
        timer := if s.layout.kindOf b = some .run then .running .runTransit 0 .notDue else e.2.timer.kept .occupied }
      else if s.crestPassed g r = some e.1 then { e.2 with state := .free, holder := none, timer := .idle }
      else if e.1 = a ∧ s.layout.kindOf a = some .run then { e.2 with timer := .idle }
      else e.2)) := by
  unfold Table.upd Table.updAll
  rw [List.map_map, List.map_map, List.map_map]
  refine List.map_congr_left fun ⟨z, x⟩ he => ?_
  have hfind : s.zones.find z = some x := Table.find_of_mem hc.zones he
  simp only [Function.comp, Option.mem_toList]
  by_cases hb : z = b
  · have hl : ¬s.crestPassed g r = some z := fun hl => crest_ne h hl hb
    have ha : ¬z = a := fun ha => h.ne (ha.symm.trans hb)
    simp only [hb ▸ hl, hb ▸ ha, hb, if_true, if_false]
    by_cases hk : s.layout.kindOf b = some .run <;> simp only [hk, if_true, if_false] <;> rfl
  · by_cases hl : s.crestPassed g r = some z
    · obtain ⟨_, htrailing, hlaunch⟩ := crestPassed_spec hl
      have hst : x.state = .trailing := Option.some.inj ((zoneState_of_find hfind).symm.trans htrailing)
      have hrun : ¬(z = a ∧ s.layout.kindOf a = some .run) := fun ⟨ha, hk⟩ => by
        rw [← ha, hlaunch] at hk
        cases hk
      have hfreed : x.released = { x with state := .free, holder := none, timer := .idle } := by
        rw [Zone.released_eq, hst]
        rfl
      simp only [hb, hl, if_true, if_false, hfreed]
      by_cases ha : z = a
      · have hk : ¬s.layout.kindOf a = some .run := fun hk => hrun ⟨ha, hk⟩
        simp only [ha, hk, h.ne, if_true, if_false]
      · simp only [ha, hb, if_false]
    · by_cases ha : z = a
      · simp only [ha, if_true, if_false, true_and, ha ▸ hb, ha ▸ hl]
      · simp only [hb, hl, ha, if_false, false_and]

/-- The zone left is as before, unless it is a launch zone passed at its crest. -/
theorem passed_find (h : s.Advancing a b t r) (hl : s.crestPassed g r ≠ some a) :
    (s.passed b t r (s.crestPassed g r)).zones.find a = s.zones.find a := by
  unfold State.passed
  dsimp only
  rw [Table.find_updAll, if_neg (by rw [Option.mem_toList]; exact hl), Table.find_upd, if_neg h.ne]

theorem kind_of_runOf {l : Layout} {z : Nat} {q : Nat × Nat} (h : l.runOf z = some q) : l.kindOf z = some .run := by
  unfold Layout.runOf at h
  unfold Layout.kindOf
  obtain ⟨x, hx, hs⟩ := Option.bind_eq_some_iff.mp h
  rw [hx, Option.map_some]
  split at hs
  next hspec => rw [hspec]; rfl
  next => cases hs

theorem passed_short (h : s.Advancing a b t r) {u : State} (hlayout : u.layout = s.layout)
    (hzones : u.zones = (s.passed b t r (s.crestPassed g r)).zones) :
    u.shortTransit a = match s.layout.runOf a, (s.zones.find a).map (fun x => x.timer) with
      | some (least, _), some (.running .runTransit n _) => decide (n < least)
      | _, _ => false := by
  unfold State.shortTransit
  rw [hlayout, hzones]
  cases hrun : s.layout.runOf a with
  | none => rfl
  | some q =>
    have hl : s.crestPassed g r ≠ some a := fun hl => by
      have hk := (crestPassed_spec hl).2.2
      rw [kind_of_runOf hrun] at hk
      cases hk
    rw [passed_find h hl]
    cases s.zones.find a with
    | none => rfl
    | some x =>
      rw [Option.map_some]
      dsimp only
      cases x.timer with
      | idle => rfl
      | running m _ _ => cases m <;> rfl

/-- An advanced train moves: one that was STRANDED is woken where its claim is pending still. -/
theorem advanced_woken (h : s.Advancing a b t r) (crest : Option Nat) {ends : Bool} {u : State}
    (hu : u.trains = s.trains.upd t (fun _ => (r.advanced crest).ended ends)) :
    (s.woken u t = true) ↔ r.motion.isStranded = true ∧ r.claim = .pending ∧ ends = false := by
  have hq : u.trains.find t = some ((r.advanced crest).ended ends) := by
    rw [hu, Table.find_upd, if_pos rfl, h.record]
    rfl
  rw [woken_eq h.record hq]
  cases ends <;> simp [Train.ended, Train.advanced]

/-- The state before the transit timers: at the end of the extension claim and step grant are taken back (R87). -/
def State.extensionRun (s : State) (b t : Nat) (r : Train) (crest : Option Nat) (ends : Bool) : State := { s.passed b t r crest with
  trains := s.trains.upd t (fun _ => (r.advanced crest).ended ends)
  waitQueue := if ends = true then s.waitQueue.filter (fun d => decide (d.train ≠ t)) else s.waitQueue }

theorem extensionRun_timers (hc : s.Canonical) (h : s.Advancing a b t r) (ends : Bool) :
    ((s.extensionRun b t r (s.crestPassed g r) ends).stopRun a).startRun b = { s with
      zones := s.zones.map (fun e => (e.1,
        if e.1 = b then { e.2 with
          state := .occupied
          timer := if s.layout.kindOf b = some .run then .running .runTransit 0 .notDue else e.2.timer.kept .occupied }
        else if s.crestPassed g r = some e.1 then { e.2 with state := .free, holder := none, timer := .idle }
        else if e.1 = a ∧ s.layout.kindOf a = some .run then { e.2 with timer := .idle }
        else e.2))
      trains := s.trains.upd t (fun _ => (r.advanced (s.crestPassed g r)).ended ends)
      waitQueue := if ends = true then s.waitQueue.filter (fun d => decide (d.train ≠ t)) else s.waitQueue } := by
  rw [startRun_eq, stopRun_eq, ← advanced_zones hc h]
  rfl

theorem actAdvance_eq (hc : s.Canonical) (hi : s.Interlock) (h : s.Advancing a b t r) : s.actAdvance g a b t = some
    { state := ((s.extensionRun b t r (s.crestPassed g r) (s.layout.stoppable b)).stopRun a).startRun b
      evaluate := decide (s.crestPassed g r ≠ none ∨ (r.motion.isStranded = true ∧ r.claim = .pending ∧ s.layout.stoppable b = false))
      auto := if s.layout.stoppable b = true ∧ s.layout.yard b = false then some t else none
      refusalFaults := true
      anomalies := if (s.extensionRun b t r (s.crestPassed g r) (s.layout.stoppable b)).shortTransit a then [(.overspeed, a, true)] else []
      arrived := false } := by
  obtain ⟨hsome, hstate⟩ := passed_eq (g := g) hi h
  have hended : (if s.layout.stoppable b then ((s.passed b t r (s.crestPassed g r)).dropClaim t).dropStep t
      else s.passed b t r (s.crestPassed g r)) = s.extensionRun b t r (s.crestPassed g r) (s.layout.stoppable b) :=
    ended_eq (s := s) (s.passed b t r (s.crestPassed g r)) (r.advanced (s.crestPassed g r)) rfl (s.layout.stoppable b)
  have hevaluate : ((s.crestPassed g r).isSome || s.woken (s.extensionRun b t r (s.crestPassed g r) (s.layout.stoppable b)) t) =
      decide (s.crestPassed g r ≠ none ∨ (r.motion.isStranded = true ∧ r.claim = .pending ∧ s.layout.stoppable b = false)) := by
    rw [Bool.eq_iff_iff, Bool.or_eq_true, Option.isSome_iff_ne_none, advanced_woken h _ rfl, decide_eq_true_iff]
  have hcourse : (s.layout.stoppableCourse b = true) = (s.layout.stoppable b = true ∧ s.layout.yard b = false) := by
    rw [Layout.stoppableCourse, Bool.and_eq_true, Bool.not_eq_true']
  unfold State.actAdvance
  rw [occupy_of_reserved h.held h.next]
  dsimp only
  rw [entered_eq hc h, entered_crest h, hsome, hstate, hended, hevaluate]
  simp only [hcourse]

end Advance

theorem advance_leaves {s : State} {g a b t : Nat} {r : Train} (hc : s.Canonical) (hi : s.Interlock) (hl : s.HoldLists)
    (hr : s.trains.find t = some r) (h : s.classify .fwdHead a b = .advance t) :
    let crest := r.hold.find? (fun z =>
      decide (s.zoneState z = some .trailing) && (s.layout.launchOf z).any (fun q => decide (q.2.2 = g)))
    let ends := s.layout.stoppable b
    let short := match s.layout.runOf a, (s.zones.find a).map (fun x => x.timer) with
      | some (least, _), some (.running .runTransit n _) => decide (n < least)
      | _, _ => false
    s.actEvent .fwdHead g a b =
      { state := { s with
          zones := s.zones.map (fun e => (e.1,
            if e.1 = b then { e.2 with
              state := .occupied
              timer := if s.layout.kindOf b = some .run then .running .runTransit 0 .notDue else e.2.timer.kept .occupied }
            else if crest = some e.1 then { e.2 with state := .free, holder := none, timer := .idle }
            else if e.1 = a ∧ s.layout.kindOf a = some .run then { e.2 with timer := .idle }
            else e.2))
          trains := s.trains.upd t (fun _ => { r with
            motion := .moving
            hold := r.hold.filter (fun z => decide (crest ≠ some z))
            relaunches := if crest = none then r.relaunches else 0
            claim := if ends = true then .none else r.claim
            stepGrant := if ends = true then false else r.stepGrant })
          waitQueue := if ends = true then s.waitQueue.filter (fun d => decide (d.train ≠ t)) else s.waitQueue }
        evaluate := decide (crest ≠ none ∨ (r.motion.isStranded = true ∧ r.claim = .pending ∧ ends = false))
        auto := if ends = true ∧ s.layout.yard b = false then some t else none
        refusalFaults := true
        anomalies := if short = true then [(.overspeed, a, true)] else []
        arrived := false } := by
  have hadvancing := advancing_of_classify hi hl hr h
  have hact := actAdvance_eq (g := g) hc hi hadvancing
  rw [extensionRun_timers hc hadvancing, passed_short hadvancing (u := s.extensionRun b t r (s.crestPassed g r) (s.layout.stoppable b)) rfl rfl] at hact
  exact actEvent_of_act (show s.actAs (s.classify .fwdHead a b) .fwdHead g a b = _ by rw [h]; exact hact)

/-- Settles O46: an expected FWD_HEAD leaves the train onward through all that is handed on, a FWD_TAIL releases the zone left or leaves it
TRAILING, and each of the four acts is written out above. -/
theorem expectedEventsAdvanceTheTrain : Obligations.ExpectedEventsAdvanceTheTrain :=
  ⟨fun _ _ _ _ hc hk hh => takeEvent_advance_onward hc hk hh,
    fun _ _ _ _ _ hab h => ⟨fun hl => leave_released hab h hl, fun hl habove => leave_trailing h hl habove⟩,
    fun _ g r k hc => takeEvent_running hc g r k,
    fun h a b => finish_eq h a b,
    fun _ _ _ _ _ _ hc hi hl hr => ⟨advance_leaves hc hi hl hr, leave_leaves hc hl hr, reverse_leaves hc hi hr, rollback_leaves hc hi hl hr⟩⟩

end Sys2Proof.Machine

namespace Sys2Proof.Machine

/-! ## Reads taken (R157) -/

theorem readIn_eq (c : Prop) [Decidable c] (a : Answer) (s : State) :
    readIn (decide c) a s = if c then (s, a) else (s, .reply .refusedRange []) := by
  unfold readIn
  simp only [decide_eq_true_eq]
  rfl

/-- A read is taken in every state, or, its number out of range, answered REFUSED_RANGE. -/
theorem Asked.reads_in_range {i : Instr} {p : Port} {tag : Byte} {code : RequestCode} {args : List Byte} {own : Owner} {s : State}
    {a : Answer} (c : Prop) [Decidable c] (ha : Asked i s) (hr : requestOf i = some (p, ⟨tag, code.code, args⟩))
    (he : exec i s = request p tag code args own s) (hown : ∀ u, u.layout = s.layout → own u = readIn (decide c) a u) :
    if c then Reads i s a else Replies i s (fun u => (u, .refusedRange, [])) := by
  by_cases hc : c
  · rw [if_pos hc]
    exact ha.reads (own := own) hr he fun u hu => by rw [hown u hu, readIn_eq, if_pos hc]
  · rw [if_neg hc]
    exact ha.replies (own := own) hr he fun u hu => by rw [hown u (hu ▸ State.arrived_layout ..), readIn_eq, if_neg hc]

theorem ZoneSpec.image_eq (x : ZoneSpec) : x.image =
    match x with
    | .run least most => [byte (least / 256), byte least] ++ [byte (most / 256), byte most] ++ [0xFF, 0xFF, 0xFF, 0xFF]
    | .launch hold limit crest => [0xFF, 0xFF, 0xFF, 0xFF] ++ [byte (hold / 256), byte hold] ++ [byte limit, byte crest]
    | _ => [0xFF, 0xFF, 0xFF, 0xFF, 0xFF, 0xFF, 0xFF, 0xFF] := by
  cases x <;> rfl

/-- The record held under a kind and key, as READ LAYOUT RECORD shows it. -/
theorem Layout.body_eq (l : Layout) (kind : RecordKind) (j : Nat) : l.body kind j =
    match kind with
    | .circuit => l.circuit.map (fun r => [0, byte r.zoneCount, byte r.answerTimeout, byte r.linkUp, byte r.linkDown])
    | .zone => (l.zones.find j).map (fun r => [1, byte j, byte r.spec.kind.code, byte r.group] ++
        (match r.permit with
         | some (n, c) => [byte n, byte c]
         | none => [0xFF, 0xFF]) ++
        (match r.spec with
         | .run least most => [byte (least / 256), byte least] ++ [byte (most / 256), byte most] ++ [0xFF, 0xFF, 0xFF, 0xFF]
         | .launch hold limit crest => [0xFF, 0xFF, 0xFF, 0xFF] ++ [byte (hold / 256), byte hold] ++ [byte limit, byte crest]
         | _ => [0xFF, 0xFF, 0xFF, 0xFF, 0xFF, 0xFF, 0xFF, 0xFF]))
    | .gate => (l.gates.find j).map (fun r => [2, byte j, byte r.src, byte r.dst, byte r.node, byte r.channel])
    | .node => (l.nodes.find j).map (fun a => [3, byte j, byte a])
    | .switch => (l.switches.find j).map (fun r =>
        [4, byte j, byte r.zone, byte r.fork.code, byte r.main, byte r.branch, byte r.node] ++
          [byte (r.moveTimeout / 256), byte r.moveTimeout]) := by
  unfold Layout.body Layout.record
  cases kind with
  | circuit | gate | node | switch => exact Option.map_map ..
  | zone =>
    refine (Option.map_map ..).trans (congrArg (fun f => (l.zones.find j).map f) (funext fun r => ?_))
    simp only [Function.comp, Record.image, ZoneSpec.image_eq]
    cases r.permit <;> rfl

theorem readLayoutRecord_known {p : Port} {tag a b : Byte} {s : State} {k : RecordKind} {c : Prop} [Decidable c] {taken : Option (List Byte)}
    (ha : Asked (.readLayoutRecord p tag a b) s) (hk : RecordKind.ofCode a.toNat = some k) (hc : k.keyInRange b.toNat = decide c)
    (ht : s.layout.body k b.toNat = taken) :
    if c then Reads (.readLayoutRecord p tag a b) s (.layoutRecord k b.toNat taken)
    else Replies (.readLayoutRecord p tag a b) s (fun u => (u, .refusedRange, [])) := by
  refine ha.reads_in_range (own := fun u => u.layoutAnswer a.toNat b.toNat) c rfl rfl fun u hu => ?_
  unfold State.layoutAnswer
  rw [hk, ← hc, ← ht, ← hu]

theorem readLayoutRecord_unknown {p : Port} {tag a b : Byte} {s : State} (ha : Asked (.readLayoutRecord p tag a b) s)
    (hk : RecordKind.ofCode a.toNat = none) : Replies (.readLayoutRecord p tag a b) s (fun u => (u, .refusedRange, [])) := by
  refine ha.replies (own := fun u => u.layoutAnswer a.toNat b.toNat) rfl rfl fun u _ => ?_
  unfold State.layoutAnswer
  rw [hk]
  rfl

/-! ## The images (sections 13.3 and 13.4) -/

theorem Bool.toNat_eq_ite (b : Bool) : b.toNat = if b = true then 1 else 0 := by
  cases b <;> rfl

theorem orNone_eq (n : Option Nat) : orNone n = match n with
    | some n => byte n
    | none => 0xFF := by
  cases n <;> rfl

theorem millisBytes_eq (t : Millis) :
    millisBytes t = [byte (t.toNat / 16777216), byte (t.toNat / 65536), byte (t.toNat / 256), byte t.toNat] := by
  have part (n : Nat) : t.extractLsb' n 8 = byte (t.toNat / 2 ^ n) := congrArg (BitVec.ofNat 8) (Nat.shiftRight_eq_div_pow t.toNat n)
  have last : byte (t.toNat / 2 ^ 0) = byte t.toNat := by rw [Nat.pow_zero, Nat.div_one]
  unfold millisBytes
  rw [part, part, part, part, last] <;> rfl

theorem ZoneTimer.image_eq (m : ZoneTimer) : m.image = match m with
    | .idle => [0, 0, 0]
    | .running .runTransit n _ => [1, byte (n / 256), byte n]
    | .running .trailingHold n _ => [2, byte (n / 256), byte n] := by
  cases m with
  | idle => rfl
  | running use _ _ => cases use <;> rfl

section Images

variable (s : State)

theorem zoneImage_eq {z : Nat} {q : ZoneRec} (hq : s.layout.zones.find z = some q) (x : Zone) : s.zoneImage z x =
    [byte z, byte q.spec.kind.code, byte q.group, byte x.state.code, orNone x.holder, byte (if x.stopHold = true then 1 else 0),
      orNone ((s.permit z).map (fun b => if b = true then 1 else 0))] ++
    (match x.timer with
     | .idle => [0, 0, 0]
     | .running .runTransit n _ => [1, byte (n / 256), byte n]
     | .running .trailingHold n _ => [2, byte (n / 256), byte n]) := by
  have hkind : s.layout.kindCode z = q.spec.kind.code := by unfold Layout.kindCode Layout.kindOf; rw [hq]; rfl
  have hgroup : (s.layout.groupOf z).getD 0 = q.group := by unfold Layout.groupOf; rw [hq]; rfl
  unfold State.zoneImage
  rw [hkind, hgroup, ZoneTimer.image_eq]
  simp only [Bool.toNat_eq_ite]

theorem headOf_find (l : List Nat) : s.headOf l = l.reverse.find? (fun z => decide (s.zoneState z ≠ some .reserved)) := by
  unfold State.headOf State.isReserved
  simp only [ne_eq, decide_not]

theorem trainImage_eq (t : Nat) (r : Train) : s.trainImage t r =
    [byte t, r.tag, byte r.motion.code, byte r.motion.strandCode, byte r.claim.code, byte r.relaunches,
      byte (if r.stepGrant = true then 1 else 0), orNone (r.hold.reverse.find? (fun z => decide (s.zoneState z ≠ some .reserved))),
      orNone r.hold.head?, byte r.hold.length] ++
    r.hold.flatMap (fun z => [byte z, match s.zoneState z with
      | some x => byte x.code
      | none => 0]) := by
  have hstate (z : Nat) : byte (s.zoneStateCode z) = match s.zoneState z with
      | some x => byte x.code
      | none => 0 := by
    unfold State.zoneStateCode
    cases s.zoneState z <;> rfl
  unfold State.trainImage
  simp only [Bool.toNat_eq_ite, headOf_find, hstate]

theorem firstNotFree_eq (e : List (Nat × Nat)) :
    s.firstNotFree e = (e.map (fun q => q.1)).find? (fun z => decide (s.zoneState z ≠ some .free)) := by
  unfold State.firstNotFree
  rw [List.find?_map]
  rfl

theorem firstNotFree_isSome (e : List (Nat × Nat)) :
    (s.firstNotFree e).isSome = true ↔ ∃ q, q ∈ e ∧ s.zoneState q.1 ≠ some .free := by
  unfold State.firstNotFree
  rw [Option.isSome_map, List.find?_isSome]
  simp only [decide_eq_true_eq]

/-- An extension of FREE zones is not grantable for a switch that does not connect the gate it is entered by. -/
theorem route_iff {e : List (Nat × Nat)} (hfree : ¬∃ q, q ∈ e ∧ s.zoneState q.1 ≠ some .free) : s.grantable e = false ↔
    ∃ q, q ∈ e ∧ s.layout.kindOf q.1 = some .transfer ∧ s.layout.connects s.switches q.2 q.1 = false := by
  rw [← Bool.not_eq_true, grantable_iff]
  constructor
  · intro h
    refine Classical.byContradiction fun hroute => h fun q hq =>
      ⟨Classical.byContradiction fun hz => hfree ⟨q, hq, hz⟩, fun hk => Classical.byContradiction fun hc => hroute ⟨q, hq, hk, ?_⟩⟩
    rwa [Bool.not_eq_true] at hc
  · rintro ⟨q, hq, hk, hc⟩ h
    have := hc.symm.trans ((h q hq).2 hk)
    cases this

theorem waitReason_eq (c : Claim) : s.waitReason c =
    match s.motion c.train with
    | none => .motion
    | some .recovering => .motion
    | some (.stranded _) => .motion
    | some .untracked => .motion
    | some _ =>
      match (s.head c.train).bind (fun z => s.extension z) with
      | none => .unresolved
      | some e =>
        if ∃ q, q ∈ e ∧ s.zoneState q.1 ≠ some .free then .zone
        else if ∃ q, q ∈ e ∧ s.layout.kindOf q.1 = some .transfer ∧ s.layout.connects s.switches q.2 q.1 = false then .route
        else if 6 < (s.holdOf c.train).length + e.length then .listFull
        else .ready := by
  have hasked : (match s.claimExtension c with
      | none => WaitReason.unresolved
      | some e =>
        if (s.firstNotFree e).isSome then .zone
        else if !s.grantable e then .route
        else if decide (Config.holdMax < (s.trains.find c.train).elim 0 (fun r => r.hold.length) + e.length) then .listFull
        else .ready) = match (s.head c.train).bind (fun z => s.extension z) with
      | none => .unresolved
      | some e =>
        if ∃ q, q ∈ e ∧ s.zoneState q.1 ≠ some .free then .zone
        else if ∃ q, q ∈ e ∧ s.layout.kindOf q.1 = some .transfer ∧ s.layout.connects s.switches q.2 q.1 = false then .route
        else if 6 < (s.holdOf c.train).length + e.length then .listFull
        else .ready := by
    have hheld : (s.trains.find c.train).elim 0 (fun r => r.hold.length) = (s.holdOf c.train).length := by
      unfold State.holdOf
      cases s.trains.find c.train <;> rfl
    rw [hheld]
    unfold State.claimExtension
    cases (s.head c.train).bind (fun z => s.extension z) with
    | none => rfl
    | some e =>
      dsimp only
      refine ite_congr (propext (firstNotFree_isSome s e)) (fun _ => rfl) fun hfree => ?_
      refine ite_congr (by rw [Bool.not_eq_true', route_iff s hfree]) (fun _ => rfl) fun _ => ?_
      exact ite_of_iff decide_eq_true_iff _ _
  unfold State.waitReason
  cases s.motion c.train with
  | none => rfl
  | some m =>
    cases m with
    | recovering | stranded | untracked => rfl
    | standing | cleared | moving => exact hasked

theorem claimImage_eq (c : Claim) : s.claimImage c =
    let extension := (s.head c.train).bind (fun z => s.extension z)
    let reason : WaitReason :=
      match s.motion c.train with
      | none => .motion
      | some .recovering => .motion
      | some (.stranded _) => .motion
      | some .untracked => .motion
      | some _ =>
        match extension with
        | none => .unresolved
        | some e =>
          if ∃ q, q ∈ e ∧ s.zoneState q.1 ≠ some .free then .zone
          else if ∃ q, q ∈ e ∧ s.layout.kindOf q.1 = some .transfer ∧ s.layout.connects s.switches q.2 q.1 = false then .route
          else if 6 < (s.holdOf c.train).length + e.length then .listFull
          else .ready
    let zones := (extension.getD []).map (fun q => q.1)
    [byte c.train, byte c.cls.code, c.order, byte (if c.step = true then 1 else 0), byte reason.code,
      if reason = .zone then orNone (zones.find? (fun z => decide (s.zoneState z ≠ some .free))) else 0xFF, byte zones.length] ++
    zones.map byte := by
  extract_lets extension reason zones
  have hreason : s.waitReason c = reason := waitReason_eq s c
  have hzones : ((s.claimExtension c).map (fun e => e.map (fun q => q.1))).getD [] = zones :=
    Option.getD_map (fun e => e.map (fun q => q.1)) [] (s.claimExtension c)
  have hzone : orNone (s.waitZone c) =
      if reason = .zone then orNone (zones.find? (fun z => decide (s.zoneState z ≠ some .free))) else 0xFF := by
    have hfirst : (s.claimExtension c).bind (fun e => s.firstNotFree e) = zones.find? (fun z => decide (s.zoneState z ≠ some .free)) := by
      change extension.bind (fun e => s.firstNotFree e) = ((extension.getD []).map (fun q => q.1)).find? _
      cases extension with
      | none => rfl
      | some e => exact firstNotFree_eq s e
    unfold State.waitZone
    rw [hreason, hfirst]
    split <;> rfl
  unfold State.claimImage
  rw [hzones, hreason, hzone, Bool.toNat_eq_ite]

theorem anomalyImage_eq (a : Anomaly) : s.anomalyImage a =
    [byte a.kind.code, byte a.subject, byte ((if a.stop = true then 1 else 0) + 2 * (if a.acked = true then 1 else 0) +
      4 * (if s.resolved a.kind a.subject = true then 1 else 0))] ++
    [byte (a.time.toNat / 16777216), byte (a.time.toNat / 65536), byte (a.time.toNat / 256), byte a.time.toNat] := by
  unfold State.anomalyImage
  simp only [millisBytes_eq, Bool.toNat_eq_ite]

theorem statusImage_eq (p : Port) : s.statusImage p =
    [byte s.circuit.code, byte s.authority.code,
      byte ((if s.causes.stopIn = true then 1 else 0) + 2 * (if s.causes.key = true then 1 else 0) +
        4 * (if s.causes.commanded = true then 1 else 0) + 8 * (if s.causes.anomaly = true then 1 else 0)),
      byte s.store.state.code] ++
    [byte (s.timebase.toNat / 16777216), byte (s.timebase.toNat / 65536), byte (s.timebase.toNat / 256), byte s.timebase.toNat] ++
    [if s.live = true then byte s.layout.zoneCount else 0, byte s.trains.length, byte s.waitQueue.length, byte s.anomalies.length,
      byte (if s.tableFull = true then 1 else 0),
      byte ((if s.stopInPin = true then 1 else 0) + 2 * (if s.keyMaint = true then 1 else 0) +
        4 * (if s.circuit = .operating then 1 else 0)), byte (s.port p).discards] := by
  have hzones : byte (if s.live = true then s.layout.zoneCount else 0) = if s.live = true then byte s.layout.zoneCount else 0 := by
    split <;> rfl
  unfold State.statusImage Causes.bits
  rw [hzones, millisBytes_eq]
  simp only [Bool.toNat_eq_ite, decide_eq_true_eq]

end Images

theorem switchImage_eq (k : Nat) (r : SwitchRec) (w : Switch) : switchImage k r w =
    [byte k, byte r.zone, byte r.fork.code, byte r.node, byte w.state.code,
      match w.state with
      | .moving .main => 0
      | .moving .branch => 1
      | _ => 0xFF] ++
    (match w.timer with
     | .running n => [1, byte (n / 256), byte n]
     | _ => [0, 0, 0]) := by
  have htarget : orNone (w.state.target.map (fun q => q.code)) = match w.state with
      | .moving .main => 0
      | .moving .branch => 1
      | _ => 0xFF := by
    cases w.state with
    | moving q => cases q <;> rfl
    | unproven | setMain | setBranch | faulted => rfl
  have htimer : w.timer.image = match w.timer with
      | .running n => [1, byte (n / 256), byte n]
      | _ => [0, 0, 0] := by
    cases w.timer <;> rfl
  unfold switchImage
  rw [htarget, htimer]

/-! ## What follows the record sent last (R154) -/

theorem claimsAfter_eq (s : State) (last : Option (ClaimClass × Nat)) : s.claimsAfter last =
    (serviceOrder s.waitQueue).filter (fun c =>
      match last with
      | none => true
      | some (.course, n) => decide (c.cls = .yard ∨ n < c.serial)
      | some (.yard, n) => decide (c.cls = .yard ∧ n < c.serial)) := by
  unfold State.claimsAfter
  rcases last with _ | ⟨_ | _, n⟩
  · rfl
  · simp only [Bool.decide_or]
  · simp only [Bool.decide_and]

theorem anomaliesAfter_eq (s : State) (last : Option Nat) :
    s.anomaliesAfter last = s.anomalies.filter (fun a => decide (∀ n, last = some n → n < a.serial)) := by
  unfold State.anomaliesAfter
  refine List.filter_congr fun a _ => ?_
  rw [Bool.eq_iff_iff, Option.all_eq_true, decide_eq_true_iff]
  simp only [decide_eq_true_eq]

theorem not_isEmpty_eq {α : Type} (l : List α) [Decidable (l ≠ [])] : (!l.isEmpty) = decide (l ≠ []) := by
  cases l <;> simp

/-! ## The frames (R150, R165) -/

section Frames

variable (s : State) (p : Port)

theorem nextFrame_zone {z : Nat} {x : Zone} (hx : s.zones.find z = some x) :
    s.nextFrame p (.zone z) = ⟨.done, s.zoneImage z x, false, .zone z⟩ := by
  unfold State.nextFrame
  dsimp only
  rw [hx]

theorem nextFrame_zone_void {z : Nat} (hx : s.zones.find z = none) : s.nextFrame p (.zone z) = ⟨.void, [], false, .zone z⟩ := by
  unfold State.nextFrame
  dsimp only
  rw [hx]
  rfl

theorem nextFrame_zones (hlive : s.live = true) (z last : Nat) : s.nextFrame p (.zones z last) =
    match s.zones.find z with
    | some x => ⟨.done, s.zoneImage z x, decide (z < last), .zones (z + 1) last⟩
    | none => ⟨.void, [], decide (z < last), .zones (z + 1) last⟩ :=
  if_pos hlive

theorem nextFrame_zones_void (hlive : s.live = false) (z last : Nat) :
    s.nextFrame p (.zones z last) = ⟨.void, [], false, .zones z last⟩ :=
  if_neg (by rw [hlive]; exact nofun)

theorem nextFrame_trains (last : Nat) : s.nextFrame p (.trains last) =
    match s.trains.filter (fun e => decide (last < e.1)) with
    | e :: rest => ⟨.done, s.trainImage e.1 e.2, decide (rest ≠ []), .trains e.1⟩
    | [] => ⟨.void, [], false, .trains last⟩ := by
  unfold State.nextFrame State.trainsAfter
  dsimp only
  cases s.trains.filter (fun e => decide (last < e.1)) with
  | nil => rfl
  | cons e rest => exact congrArg (fun more => FrameFill.mk .done (s.trainImage e.1 e.2) more (.trains e.1)) (not_isEmpty_eq rest)

theorem nextFrame_waitQueue (last : Option (ClaimClass × Nat)) : s.nextFrame p (.waitQueue last) =
    match s.claimsAfter last with
    | c :: rest => ⟨.done, s.claimImage c, decide (rest ≠ []), .waitQueue (some (c.cls, c.serial))⟩
    | [] => ⟨.void, [], false, .waitQueue last⟩ := by
  unfold State.nextFrame
  dsimp only
  cases s.claimsAfter last with
  | nil => rfl
  | cons c rest =>
    exact congrArg (fun more => FrameFill.mk .done (s.claimImage c) more (.waitQueue (some (c.cls, c.serial)))) (not_isEmpty_eq rest)

theorem nextFrame_anomalies (last : Option Nat) : s.nextFrame p (.anomalies last) =
    match s.anomaliesAfter last with
    | a :: rest => ⟨.done, s.anomalyImage a, decide (rest ≠ []), .anomalies (some a.serial)⟩
    | [] => ⟨.void, [], false, .anomalies last⟩ := by
  unfold State.nextFrame
  dsimp only
  cases s.anomaliesAfter last with
  | nil => rfl
  | cons a rest =>
    exact congrArg (fun more => FrameFill.mk .done (s.anomalyImage a) more (.anomalies (some a.serial))) (not_isEmpty_eq rest)

end Frames

/-- Settles O13: which reads are taken, what each frame carries, and the codes of the tables. -/
theorem readsAreTakenInEveryState : Obligations.ReadsAreTakenInEveryState := by
  refine ⟨fun p tag a b s => ⟨?_, ?_, ?_, ?_, ?_, ?_, ?_, ?_, ?_, ?_, ?_⟩, fun p s => ⟨?_, ?_, ?_, ?_, ?_, ?_, ?_, ?_, ?_, ?_, ?_, ?_⟩,
    fun p s k j taken => ?_, ?_⟩
  · exact fun h => h.reads (own := readIn true .status) rfl rfl fun _ _ => rfl
  · exact fun h => h.reads (own := readIn true (.trains 0)) rfl rfl fun _ _ => rfl
  · exact fun h => h.reads (own := readIn true (.waitQueue none)) rfl rfl fun _ _ => rfl
  · exact fun h => h.reads (own := readIn true (.anomalies none)) rfl rfl fun _ _ => rfl
  · exact fun h => h.reads (own := readIn true .notices) rfl rfl fun _ _ => rfl
  · exact fun h => h.reads_in_range (a.toNat < 32) rfl rfl fun _ _ => rfl
  · exact fun h => h.reads_in_range (a.toNat < 32 ∧ 1 ≤ b.toNat ∧ a.toNat + b.toNat ≤ 32) rfl rfl fun _ _ => rfl
  · exact fun h => h.reads_in_range (1 ≤ a.toNat ∧ a.toNat ≤ 12) rfl rfl fun _ _ => rfl
  · exact fun h => h.reads_in_range (a.toNat < 4) rfl rfl fun _ _ => rfl
  · exact fun h => h.reads_in_range (a.toNat < 24) rfl rfl fun _ _ => rfl
  · intro h
    cases hn : a.toNat with
    | zero =>
      exact readLayoutRecord_known h (congrArg RecordKind.ofCode hn) (decide_eq_decide.mpr Nat.lt_one_iff.symm) (Layout.body_eq ..)
    | succ n =>
      match n with
      | 0 | 1 | 2 | 3 => exact readLayoutRecord_known h (congrArg RecordKind.ofCode hn) rfl (Layout.body_eq ..)
      | _ + 4 => exact readLayoutRecord_unknown h (congrArg RecordKind.ofCode hn)
  · exact congrArg (fun body => FrameFill.mk .done body false .status) (statusImage_eq s p)
  · intro z x q hx hq
    rw [nextFrame_zone s p hx, zoneImage_eq s hq]
    simp only [orNone_eq] <;> rfl
  · exact fun z hx => nextFrame_zone_void s p hx
  · intro z last x q hlive hx hq
    rw [nextFrame_zones s p hlive, hx]
    dsimp only
    rw [zoneImage_eq s hq]
    simp only [orNone_eq] <;> rfl
  · intro z last hlive hx
    rw [nextFrame_zones s p hlive, hx]
  · exact fun z last hlive => nextFrame_zones_void s p hlive z last
  · intro t
    simp only [State.nextFrame, trainImage_eq, orNone_eq] <;> rfl
  · intro last
    simp only [nextFrame_trains, trainImage_eq, orNone_eq] <;> rfl
  · intro last
    simp only [nextFrame_waitQueue, claimsAfter_eq, claimImage_eq, orNone_eq] <;> rfl
  · intro last
    simp only [nextFrame_anomalies, anomaliesAfter_eq, anomalyImage_eq] <;> rfl
  · intro k
    simp only [State.nextFrame, switchImage_eq] <;> rfl
  · intro n
    simp only [State.nextFrame, State.nodeImage, orNone_eq] <;> rfl
  · cases taken <;> rfl
  · refine ⟨rfl, rfl, rfl, fun _ => rfl, rfl, fun m hm => ?_, rfl, rfl, rfl, rfl, rfl, rfl, rfl, rfl, rfl, rfl, fun _ _ _ => rfl,
      fun _ _ => rfl, rfl, rfl, rfl, rfl⟩
    cases m with
    | standing | cleared | moving | recovering | untracked => rfl
    | stranded => exact absurd rfl hm

end Sys2Proof.Machine

namespace Sys2Proof.Machine

/-! ## Events that do not fit, as they are taken (R95 to R99, R84) -/

theorem OnTrack.records {s t : State} (h : OnTrack s t) : t = { s with zones := t.zones, trains := t.trains } := by
  obtain ⟨_, _, rfl⟩ := h
  rfl

theorem EventKind.entered_eq (k : EventKind) (a b : Nat) : k.entered a b = if k = .fwdHead ∨ k = .fwdTail then b else a := by
  cases k <;> rfl

/-- A train that an event is read against has a record. -/
theorem record_of_train {s : State} {k : EventKind} {a b t : Nat} (h : (s.classify k a b).train = some t) :
    (s.trains.find t).isSome = true := by
  have hs := subject_of_train h
  unfold State.classify at h
  rw [hs] at h
  dsimp only at h
  cases hr : s.trains.find t with
  | none => rw [hr] at h; exact nomatch h
  | some => rfl

section Taken

variable {s : State} {g t : Nat} {r : GateRec} {k : EventKind}

theorem takeEvent_phantom (hc : s.Running) (h : s.classify k r.src r.dst = .phantom) : s.takeEvent g r k =
    (s.disturb (k.entered r.src r.dst)).sweep.anomaly .unexpectedEntry (k.entered r.src r.dst) true :=
  (takeEvent_eq hc (h := s.actPhantom k r.src r.dst) (by rw [h]; rfl)).trans rfl

theorem takeEvent_unexpected (hc : s.Running) (h : s.classify k r.src r.dst = .unexpected t) : s.takeEvent g r k =
    (s.enterUnexpected r.dst t).sweep.anomaly .unexpectedEntry r.dst true :=
  (takeEvent_eq hc (h := s.actUnexpected r.dst t) (by rw [h]; rfl)).trans rfl

theorem takeEvent_fault (hc : s.Running) (h : s.classify k r.src r.dst = .fault t) : s.takeEvent g r k =
    (s.faultMarks r.src r.dst t).sweep.anomaly .sequenceFault t true :=
  (takeEvent_eq hc (h := s.actFault r.src r.dst t) (by rw [h]; rfl)).trans rfl

/-- The state that a wrong fork leaves of the reserved zones of its train (R95). -/
def State.forked (s : State) (t : Nat) : State := (s.release t (s.reservedOf t)).getD s

theorem takeEvent_wrongFork (hc : s.Running) (h : s.classify k r.src r.dst = .wrongFork t) :
    let u := ((s.forked t).enterUnexpected r.dst t).sweep
    s.takeEvent g r k = (if ((s.release t (s.reservedOf t)).isSome && s.frees t (s.reservedOf t)) = true then u.evaluate else u).anomaly
      .unexpectedEntry r.dst true :=
  (takeEvent_eq hc (h := s.actWrongFork r.dst t) (by rw [h]; rfl)).trans rfl

theorem takeEvent_untracked (hc : s.Running) (h : s.classify k r.src r.dst = .untrackedSubject t) :
    let found := [r.src, r.dst].filter (fun z => decide (s.zoneState z ≠ some .suspect))
    s.takeEvent g r k = (found.filter (fun z => decide (s.holder z = none))).foldl (fun u z => u.anomaly .unexpectedEntry z true)
      (found.foldl State.disturb s).sweep := by
  intro found
  have hholder (l : List Nat) : l.filter (fun z => decide (s.holder z = none)) = l.filter (fun z => (s.holder z).isNone) :=
    List.filter_congr fun z _ => by cases s.holder z <;> rfl
  have hact := (takeEvent_eq (g := g) hc (h := s.actUntracked r.src r.dst) (by rw [h]; rfl)).trans
    (show _ = ((found.filter (fun z => (s.holder z).isNone)).map (fun z => (AnomalyKind.unexpectedEntry, z, true))).foldl
      (fun v q => v.anomaly q.1 q.2.1 q.2.2) (found.foldl State.disturb s).sweep from rfl)
  rw [hact, List.foldl_map, hholder]

theorem takeEvent_census (hc : s.circuit = .census) : s.takeEvent g r k =
    ([r.src, r.dst].foldl State.disturb s).sweep.anomaly .censusMotion g false := by
  unfold State.takeEvent
  rw [hc]
  rfl

end Taken

/-! ## The zones marked and the trains untracked -/

/-- From one state to the next, zones are as they were or SUSPECT, and those named are SUSPECT. -/
structure State.Darkens (s u : State) (l : List Nat) : Prop where
  kept : ∀ z, u.zoneState z = s.zoneState z ∨ ((s.zones.find z).isSome = true ∧ u.zoneState z = some .suspect)
  marked : ∀ z, z ∈ l → (s.zones.find z).isSome = true → u.zoneState z = some .suspect

theorem zoneState_isSome (s : State) (z : Nat) : (s.zoneState z).isSome = (s.zones.find z).isSome := by
  unfold State.zoneState
  exact Option.isSome_map

theorem State.Darkens.refl (s : State) : s.Darkens s [] :=
  ⟨fun _ => .inl rfl, fun _ h => nomatch h⟩

theorem State.Darkens.isSome {s u : State} {l : List Nat} (h : s.Darkens u l) {z : Nat} (hz : (s.zones.find z).isSome = true) :
    (u.zones.find z).isSome = true := by
  rw [← zoneState_isSome] at hz ⊢
  rcases h.kept z with e | ⟨_, e⟩ <;> rw [e]
  · exact hz
  · rfl

theorem State.Darkens.trans {s u v : State} {l k : List Nat} (h : s.Darkens u l) (hv : u.Darkens v k) : s.Darkens v (l ++ k) := by
  have hstays {z : Nat} (hz : u.zoneState z = some .suspect) : v.zoneState z = some .suspect := by
    rcases hv.kept z with e | ⟨_, e⟩
    · exact e.trans hz
    · exact e
  refine ⟨fun z => ?_, fun z hz hs => ?_⟩
  · rcases h.kept z with e | ⟨hs, e⟩
    · refine (hv.kept z).imp (fun e' => e'.trans e) fun ⟨hs, e'⟩ => ⟨?_, e'⟩
      rwa [← zoneState_isSome, e, zoneState_isSome] at hs
    · exact .inr ⟨hs, hstays e⟩
  · rcases List.mem_append.mp hz with hz | hz
    · exact hstays (h.marked z hz hs)
    · exact hv.marked z hz (h.isSome hs)

theorem State.Darkens.congr {s u v : State} {l : List Nat} (h : s.Darkens u l) (hv : v.zones = u.zones) : s.Darkens v l :=
  ⟨fun z => by rw [zoneState_congr hv]; exact h.kept z, fun z hz hs => (zoneState_congr hv z).trans (h.marked z hz hs)⟩

theorem disturb_darkens (s : State) (z : Nat) : s.Darkens (s.disturb z) [z] := by
  obtain ⟨hz, hothers, _⟩ := disturb_find s z
  have hmarked {y : Nat} (hy : (s.disturb z).zones.find y = (s.zones.find y).map Zone.suspected) (hs : (s.zones.find y).isSome = true) :
      (s.disturb z).zoneState y = some .suspect := by
    obtain ⟨x, hx⟩ := Option.isSome_iff_exists.mp hs
    rw [hx] at hy
    exact zoneState_of_find hy
  refine ⟨fun y => ?_, fun y hy hs => by rw [List.mem_singleton.mp hy] at hs ⊢; exact hmarked hz hs⟩
  cases hs : s.zones.find y with
  | none =>
    left
    have hnone : (s.disturb z).zones.find y = none := by
      by_cases hyz : y = z
      · rw [hyz, hz, ← hyz, hs]; rfl
      · rcases hothers y hyz with e | ⟨_, _, e⟩ <;> rw [e, hs]
        rfl
    unfold State.zoneState
    rw [hs, hnone]
  | some x =>
    have hsome : (s.zones.find y).isSome = true := by rw [hs]; rfl
    by_cases hyz : y = z
    · exact .inr ⟨rfl, hmarked (hyz ▸ hz) hsome⟩
    · rcases hothers y hyz with e | ⟨_, _, e⟩
      · left
        unfold State.zoneState
        rw [e]
      · exact .inr ⟨rfl, hmarked e hsome⟩

/-- The mark alone does to the zones what it does with the holder untracked. -/
theorem disturb_zones (s : State) (z : Nat) : (s.disturb z).zones = (s.markSuspect z none).zones := by
  unfold State.disturb
  cases s.holder z <;> rfl

theorem foldl_darkens {f : State → Nat → State} (hf : ∀ (s : State) z, s.Darkens (f s z) [z]) (l : List Nat) (s : State) :
    s.Darkens (l.foldl f s) l := by
  induction l generalizing s with
  | nil => exact State.Darkens.refl s
  | cons z l ih => exact (hf s z).trans (ih (f s z))

theorem faultMarks_darkens (s : State) (a b t : Nat) :
    s.Darkens (s.faultMarks a b t) (s.holdOf t ++ [a, b].filter (fun z => decide (z ∉ s.holdOf t))) :=
  ((foldl_darkens (fun u z => (disturb_darkens u z).congr (disturb_zones u z).symm) (s.holdOf t) s).trans
    (foldl_darkens disturb_darkens ([a, b].filter (fun z => decide (z ∉ s.holdOf t))) _)).congr rfl

theorem faultMarks_suspect {s : State} {a b t z : Nat} (hz : z ∈ s.holdOf t ∨ z = a ∨ z = b) (hs : (s.zones.find z).isSome = true) :
    (s.faultMarks a b t).zoneState z = some .suspect := by
  refine (faultMarks_darkens s a b t).marked z (List.mem_append.mpr ?_) hs
  by_cases hm : z ∈ s.holdOf t
  · exact .inl hm
  · refine .inr (List.mem_filter.mpr ⟨?_, decide_eq_true hm⟩)
    rcases hz.resolve_left hm with rfl | rfl
    · exact .head _
    · exact .tail _ (.head _)

theorem motion_untrack {s : State} {t : Nat} (h : (s.trains.find t).isSome = true) : (s.untrack t).motion t = some .untracked := by
  obtain ⟨r, hr⟩ := Option.isSome_iff_exists.mp h
  refine (motion_updTrain s t _ t).trans ?_
  rw [if_pos rfl, hr]
  rfl

theorem disturb_record {s : State} {t z : Nat} (h : (s.trains.find t).isSome = true) : ((s.disturb z).trains.find t).isSome = true := by
  rw [(disturb_find s z).2.2, Option.isSome_map]
  exact h

theorem faultMarks_untracks {s : State} {a b t : Nat} (h : (s.trains.find t).isSome = true) :
    (s.faultMarks a b t).motion t = some .untracked := by
  have hown (l : List Nat) (u : State) : (l.foldl (fun u z => u.markSuspect z none) u).trains = u.trains :=
    List.foldlRecOn (motive := fun v => v.trains = u.trains) l _ rfl fun v hv z _ => (markSuspect_none_trains v z).trans hv
  refine motion_untrack ?_
  refine List.foldlRecOn (motive := fun u : State => (u.trains.find t).isSome = true) _ _ ?_ fun u hu z _ => disturb_record hu
  rw [hown]
  exact h

section Entered

variable {s u : State} {b t : Nat}

theorem State.Entered.suspect (h : s.Entered b t u.zones u.trains) (hs : (s.zones.find b).isSome = true) : u.zoneState b = some .suspect := by
  obtain ⟨x, hx⟩ := Option.isSome_iff_exists.mp hs
  have he := h.entered
  rw [hx] at he
  exact zoneState_of_find he

theorem State.Entered.untracked (h : s.Entered b t u.zones u.trains) (hs : (s.trains.find t).isSome = true) : u.motion t = some .untracked := by
  obtain ⟨r, hr⟩ := Option.isSome_iff_exists.mp hs
  have he := h.trains t
  rw [hr] at he
  exact (motion_of_find he).trans (congrArg some (if_pos (.inl rfl)))

end Entered

/-! ## What an evaluation keeps of them -/

theorem evaluate_suspect {u : State} {z : Nat} (h : u.zoneState z = some .suspect) : u.evaluate.zoneState z = some .suspect := by
  refine evaluate_keeps (P := fun v => v.zoneState z = some .suspect) (fun v c hv => ?_) h
  rcases tryGrant_records v c with e | ⟨e, hfree, hzones, _⟩
  · rw [e]
    exact hv
  · rw [zoneState_congr hzones, extended_zoneState hfree c.train (by rw [hv]; simp)]
    exact hv

theorem evaluate_untracked {u : State} {t : Nat} (h : u.motion t = some .untracked) : u.evaluate.motion t = some .untracked := by
  refine evaluate_keeps (P := fun v => v.motion t = some .untracked) (fun v c hv => ?_) h
  rcases tryGrant_records v c with e | ⟨e, _, _, htrains⟩
  · rw [e]
    exact hv
  · rw [motion_congr htrains, extended_motion v c.train e (by rw [hv]; simp)]
    exact hv

/-! ## Part for part, the statement's claims -/

/-- The circuit HALTED with the cause ANOMALY. -/
def State.Stopped (u : State) : Prop := u.circuit = .halted ∧ u.causes.anomaly = true

theorem stopped_of_track {s u : State} (h : OnTrack s u) (hr : s.Running) (k : AnomalyKind) (n : Nat) :
    (u.sweep.anomaly k n true).Stopped :=
  anomaly_stops (s := u.sweep) (h.running hr) k n

theorem reported_zoneState (u : State) (k : AnomalyKind) (n : Nat) (stop : Bool) (z : Nat) :
    (u.sweep.anomaly k n stop).zoneState z = u.zoneState z :=
  anomaly_zoneState u.sweep k n stop z

theorem reported_motion (u : State) (k : AnomalyKind) (n : Nat) (stop : Bool) (t : Nat) :
    (u.sweep.anomaly k n stop).motion t = u.motion t :=
  motion_congr (anomaly_trains u.sweep k n stop) t

section Fork

variable {s : State} {t : Nat}

theorem forked_onTrack (s : State) (t : Nat) : OnTrack s (s.forked t) := by
  unfold State.forked
  cases h : s.release t (s.reservedOf t) with
  | none => exact OnTrack.refl s
  | some u => exact release_onTrack h

/-- What a wrong fork frees stays on the record. -/
theorem forked_kept (s : State) (t : Nat) : (∀ z, ((s.forked t).zones.find z).isSome = (s.zones.find z).isSome) ∧
    ∀ v, ((s.forked t).trains.find v).isSome = (s.trains.find v).isSome := by
  unfold State.forked
  cases h : s.release t (s.reservedOf t) with
  | none => exact ⟨fun _ => rfl, fun _ => rfl⟩
  | some u =>
    obtain rfl := release_spec h
    refine ⟨fun z => ?_, fun v => ?_⟩
    · rw [Option.getD_some, State.updTrain_zones, State.updZones_zones, Table.find_updAll]
      split
      · exact Option.isSome_map
      · rfl
    · rw [Option.getD_some, State.updTrain_trains, Table.find_upd]
      split
      · exact Option.isSome_map
      · rfl

theorem forked_entered {b : Nat} (h : (s.trains.find t).isSome = true) :
    (s.forked t).Entered b t ((s.forked t).enterUnexpected b t).zones ((s.forked t).enterUnexpected b t).trains := by
  obtain ⟨r, hr⟩ := Option.isSome_iff_exists.mp (((forked_kept s t).2 t).trans h)
  exact enterUnexpected_entered hr

theorem reservedOf_eq (s : State) (t : Nat) :
    s.reservedOf t = (s.holdOf t).filter (fun z => decide (s.zoneState z = some .reserved)) := by
  unfold State.reservedOf State.holdOf
  cases s.trains.find t <;> rfl

/-- With the interlock, a wrong fork releases the reserved zones of its train, and one of them at least becomes FREE. -/
theorem forked_released (hi : s.Interlock) {k : EventKind} {a b : Nat} (h : s.classify k a b = .wrongFork t) :
    s.release t (s.reservedOf t) = some ((s.updZones (s.reservedOf t) Zone.released).updTrain t
      (fun r => { r with hold := r.hold.filter (fun z => decide (z ∉ s.reservedOf t)) })) ∧ s.frees t (s.reservedOf t) = true := by
  obtain ⟨r, y, hr, hhead, hnext, hy⟩ := classify_wrongFork h
  obtain ⟨hheadMem, hheadFree⟩ := headOf_spec hhead
  have hmem (z : Nat) : z ∈ s.reservedOf t ↔ z ∈ r.hold ∧ s.zoneState z = some .reserved := by
    rw [reservedOf_eq, holdOf_of_find hr, List.mem_filter, decide_eq_true_iff]
  have hheld : ∀ z, z ∈ s.reservedOf t → s.holder z = some t := fun z hz => hi.held hr ((hmem z).mp hz).1
  have hyMem : y ∈ s.reservedOf t := (hmem y).mpr ⟨mem_entryAfter hnext, (isReserved_iff s y).mp hy⟩
  have hleft : a ∈ r.hold.filter (fun z => decide (z ∉ s.reservedOf t)) := by
    refine List.mem_filter.mpr ⟨hheadMem, decide_eq_true fun ha => ?_⟩
    rw [(isReserved_iff s a).mpr ((hmem a).mp ha).2] at hheadFree
    cases hheadFree
  refine ⟨release_eq hr hheld (List.ne_nil_of_mem hyMem) (List.ne_nil_of_mem hleft), ?_⟩
  rw [frees_eq hheld]
  exact decide_eq_true ⟨y, hyMem, by rw [((hmem y).mp hyMem).2]; simp⟩

/-- What it leaves before the entry: the reserved zones of its train freed and out of its hold list (R95). -/
theorem forked_eq (hi : s.Interlock) {k : EventKind} {a b : Nat} (h : s.classify k a b = .wrongFork t) : s.forked t =
    let reserved := (s.holdOf t).filter (fun z => decide (s.zoneState z = some .reserved))
    { s with
      zones := s.zones.updAll reserved (fun x => { x with
        state := if x.state = .suspect then .suspect else .free
        holder := none
        timer := .idle })
      trains := s.trains.upd t (fun x => { x with hold := x.hold.filter (fun z => decide (z ∉ reserved)) }) } := by
  unfold State.forked
  rw [(forked_released hi h).1, ← reservedOf_eq, ← funext Zone.released_eq]
  rfl

end Fork

section Fits

variable {s : State} {g t : Nat} {r : GateRec} {k : EventKind}

theorem phantom_stops (hc : s.Running) (h : s.classify k r.src r.dst = .phantom) :
    ((s.zones.find (k.entered r.src r.dst)).isSome = true → (s.takeEvent g r k).zoneState (k.entered r.src r.dst) = some .suspect) ∧
      (s.takeEvent g r k).Stopped := by
  rw [takeEvent_phantom hc h]
  refine ⟨fun hs => ?_, stopped_of_track (disturb_onTrack ..) hc _ _⟩
  rw [reported_zoneState]
  exact (disturb_darkens s _).marked _ (.head _) hs

theorem unexpected_stops (hc : s.Running) (h : s.classify k r.src r.dst = .unexpected t) :
    ((s.zones.find r.dst).isSome = true → (s.takeEvent g r k).zoneState r.dst = some .suspect) ∧
      (s.takeEvent g r k).motion t = some .untracked ∧ (s.takeEvent g r k).Stopped := by
  obtain ⟨x, hx⟩ := classify_unexpected h
  have hentered := enterUnexpected_entered (b := r.dst) hx
  rw [takeEvent_unexpected hc h, reported_zoneState, reported_motion]
  exact ⟨hentered.suspect, hentered.untracked (by rw [hx]; rfl), stopped_of_track (enterUnexpected_onTrack ..) hc _ _⟩

theorem wrongFork_stops (hc : s.Running) (h : s.classify k r.src r.dst = .wrongFork t) :
    ((s.zones.find r.dst).isSome = true → (s.takeEvent g r k).zoneState r.dst = some .suspect) ∧
      (s.takeEvent g r k).motion t = some .untracked ∧ (s.takeEvent g r k).Stopped := by
  obtain ⟨hzones, htrains⟩ := forked_kept s t
  have hrecord : (s.trains.find t).isSome = true := record_of_train (by rw [h]; rfl)
  have hentered := forked_entered (b := r.dst) hrecord
  have hmotion := hentered.untracked ((htrains t).trans hrecord)
  have htrack : OnTrack s ((s.forked t).enterUnexpected r.dst t) := (forked_onTrack s t).trans (enterUnexpected_onTrack ..)
  rw [takeEvent_wrongFork hc h]
  split
  · have hrunning : ((s.forked t).enterUnexpected r.dst t).sweep.evaluate.Running := by
      unfold State.Running
      rw [evaluate_circuit]
      exact htrack.running hc
    refine ⟨fun hs => ?_, ?_, anomaly_stops hrunning _ _⟩
    · rw [anomaly_zoneState]
      exact evaluate_suspect (hentered.suspect ((hzones r.dst).trans hs))
    · rw [motion_congr (anomaly_trains ..)]
      exact evaluate_untracked hmotion
  · rw [reported_zoneState, reported_motion]
    exact ⟨fun hs => hentered.suspect ((hzones r.dst).trans hs), hmotion, stopped_of_track htrack hc _ _⟩

theorem fault_stops (hc : s.Running) (h : s.classify k r.src r.dst = .fault t) :
    (∀ z, z ∈ s.holdOf t ∨ z = r.src ∨ z = r.dst → (s.zones.find z).isSome = true → (s.takeEvent g r k).zoneState z = some .suspect) ∧
      (s.takeEvent g r k).motion t = some .untracked ∧ (s.takeEvent g r k).Stopped := by
  rw [takeEvent_fault hc h, reported_motion]
  refine ⟨fun z hz hs => ?_, faultMarks_untracks (record_of_train (by rw [h]; rfl)), stopped_of_track (faultMarks_onTrack ..) hc _ _⟩
  rw [reported_zoneState]
  exact faultMarks_suspect hz hs

end Fits

/-- Settles O47: what an event that does not fit marks, untracks and reports, and that it stops the circuit. -/
theorem eventsThatDoNotFitStopTheCircuit : Obligations.EventsThatDoNotFitStopTheCircuit := by
  refine ⟨fun s g r k hc => ⟨fun h => ?_, fun t h => ?_, fun t h => ?_⟩,
    fun s g r k hc hi => ⟨fun h => ?_, fun t h => ?_, fun t h => ?_, fun t h => ?_⟩, fun s g t r k hc h => ?_, fun s g r k hc => ?_⟩
  · rw [← EventKind.entered_eq]
    exact phantom_stops hc h
  · rcases h with h | h
    · exact unexpected_stops hc h
    · exact wrongFork_stops hc h
  · exact fault_stops hc h
  · rw [← EventKind.entered_eq, takeEvent_phantom hc h]
    exact ⟨_, _, congrArg (fun u => (State.sweep u).anomaly .unexpectedEntry _ true) (disturb_onTrack ..).records, disturbAll_marked [_] s⟩
  · obtain ⟨x, hx⟩ := classify_unexpected h
    rw [takeEvent_unexpected hc h]
    exact ⟨_, _, congrArg (fun u => (State.sweep u).anomaly .unexpectedEntry _ true) (enterUnexpected_onTrack ..).records,
      enterUnexpected_entered hx⟩
  · intro reserved freed
    obtain ⟨hreleased, hfrees⟩ := forked_released hi h
    rw [takeEvent_wrongFork hc h, hreleased, hfrees, ← show s.forked t = freed from forked_eq hi h]
    exact ⟨_, _, congrArg (fun u => (State.sweep u).evaluate.anomaly .unexpectedEntry _ true) (enterUnexpected_onTrack ..).records,
      forked_entered (record_of_train (by rw [h]; rfl))⟩
  · rw [takeEvent_fault hc h]
    exact ⟨_, _, congrArg (fun u => (State.sweep u).anomaly .sequenceFault _ true) (faultMarks_onTrack ..).records,
      faultMarks_marked hi (classify_fault h)⟩
  · rw [takeEvent_untracked hc h]
    exact ⟨_, _, congrArg (fun u => List.foldl _ (State.sweep u) _) (disturbAll_eq _ s), disturbAll_marked _ s⟩
  · rw [takeEvent_census hc]
    exact ⟨_, _, congrArg (fun u => (State.sweep u).anomaly .censusMotion _ false) (disturbAll_eq _ s), disturbAll_marked _ s⟩

end Sys2Proof.Machine
